-- ==== Sys2Proof/Word.lean ====
section
/-! DEFINITION. Words, directions and pin roles (00_scope.md rules R7, R8, R9). -/

namespace Sys2Proof

/-- A data byte (00_scope.md R7). -/
abbrev Byte := BitVec 8

/-- The 24-bit address operand; a legal address has `ADDR_BITS` significant bits (20_memory.md R61). -/
abbrev Addr := BitVec 24

/-- One command word `cw[39:0]` (30_encoding.md R90). -/
abbrev CmdWord := BitVec 40

/-- The 6-bit role index of the encoding (30_encoding.md R94). -/
abbrev RoleIndex := BitVec 6

/-- A level, low (`false`, 0) or high (`true`, 1) (00_scope.md R8). -/
abbrev Level := Bool

/-- `BusDirection`: `In` or `Out` (10_state.md R21). -/
inductive Direction where
  | input
  | output
  deriving DecidableEq, Repr

/-- The source's `PinRole` enumeration (00_scope.md R9). -/
inductive Role where
  | dl (i : Fin 8)
  | oe
  | we
  | asd
  | asc
  | ass
  | dal (i : Fin 24)
  deriving DecidableEq, Repr

/-- Where a role's latches stand in a table of all 37 roles, in ascending role index (R9). -/
def Role.slot : Role → Fin 37
  | .dl i => ⟨i.val, by omega⟩
  | .oe => 8
  | .we => 9
  | .asd => 10
  | .asc => 11
  | .ass => 12
  | .dal i => ⟨13 + i.val, by omega⟩

/-- The eight data lines in ascending index. -/
def dataLines : List (Fin 8) := [0, 1, 2, 3, 4, 5, 6, 7]

/-- The twenty-four direct address lines in ascending index. -/
def directLines : List (Fin 24) :=
  [0, 1, 2, 3, 4, 5, 6, 7, 8, 9, 10, 11, 12, 13, 14, 15, 16, 17, 18, 19, 20, 21, 22, 23]

/-- Every role, in ascending role index (R9). -/
def Role.all : List Role :=
  dataLines.map .dl ++ [.oe, .we, .asd, .asc, .ass] ++ directLines.map .dal

end Sys2Proof
end

