-- ==== Sys2Proof/Syntax.lean ====
section
/-! DEFINITION. The eighteen commands (30_encoding.md R95), one constructor per row of the opcode table. -/

namespace Sys2Proof

/-- A command with its operands (30_encoding.md R91 to R95). -/
inductive Instr where
  | cfgdir (role : RoleIndex) (dir : Direction)
  | pinwr (role : RoleIndex) (level : Level)
  | pinrd (role : RoleIndex)
  | setaddr (addr : Addr)
  | busdir (dir : Direction)
  | buswr (value : Byte)
  | busrd
  | idlesetup
  | rdcyc (addr : Addr)
  | wrcyc (addr : Addr) (data : Byte)
  | allin
  | idquery
  | dump
  | outtest
  | inecho
  | iotest
  | oetest
  | addrtest
  deriving DecidableEq, Repr

end Sys2Proof
end

