-- ==== Sys2Proof/WellFormed.lean ====
section
/-! DEFINITION. Which commands an encoding admits (30_encoding.md R94, R99 step 3). -/

namespace Sys2Proof

/-- A role index that names a role of the enumeration: 0..12 or 32..55 (30_encoding.md R94). -/
def RoleIndex.legal (ix : RoleIndex) : Bool :=
  decide (ix.toNat ≤ 12) || (decide (32 ≤ ix.toNat) && decide (ix.toNat ≤ 55))

/-- The one check an operand's width does not make: a role index names a role. -/
def Instr.wellFormed : Instr → Bool
  | .cfgdir role _ => RoleIndex.legal role
  | .pinwr role _ => RoleIndex.legal role
  | .pinrd role => RoleIndex.legal role
  | .setaddr _ => true
  | .busdir _ => true
  | .buswr _ => true
  | .busrd => true
  | .idlesetup => true
  | .rdcyc _ => true
  | .wrcyc _ _ => true
  | .allin => true
  | .idquery => true
  | .dump => true
  | .outtest => true
  | .inecho => true
  | .iotest => true
  | .oetest => true
  | .addrtest => true

end Sys2Proof
end

