-- ==== Sys2Proof/Decode.lean ====
section
/-! DEFINITION. Decoding a command word, total on all 40-bit words (30_encoding.md R90 to R99), the opcode table of
R95 as data, and the encoder. -/

namespace Sys2Proof

/-- Why a word is illegal: the three checks of 30_encoding.md R99, in their order. -/
inductive DecodeError where
  /-- step (1): no row has this opcode -/
  | unknownOpcode
  /-- step (2): a must-be-zero bit is set -/
  | mustBeZero
  /-- step (3): the role index names no role -/
  | noSuchRole
  deriving DecidableEq, Repr

/-- Formats (30_encoding.md R91). -/
inductive Format where
  | n | a | ad | d | l | r | rl
  deriving DecidableEq, Repr

/-! ### Fields (30_encoding.md R90, R91) -/

/-- `op = cw[39:32]`. -/
def CmdWord.op (w : CmdWord) : BitVec 8 := w.extractLsb' 32 8

/-- `addr = cw[31:8]`, the whole of field `a`. -/
def CmdWord.addr (w : CmdWord) : Addr := w.extractLsb' 8 24

/-- `data = cw[7:0]`, the whole of field `d`. -/
def CmdWord.data (w : CmdWord) : Byte := w.extractLsb' 0 8

/-- `role = cw[13:8]`. -/
def CmdWord.role (w : CmdWord) : RoleIndex := w.extractLsb' 8 6

/-- `lvl = cw[0]` as a level: 1 = high (30_encoding.md R93). -/
def CmdWord.level (w : CmdWord) : Level := w.getLsbD 0

/-- `lvl = cw[0]` as a direction: 0 = `In`, 1 = `Out` (30_encoding.md R93). -/
def CmdWord.direction (w : CmdWord) : Direction := if w.getLsbD 0 then .output else .input

/-- The format's must-be-zero bits are zero (30_encoding.md R91). -/
def Format.zeroBitsClear (f : Format) (w : CmdWord) : Bool :=
  match f with
  | .n => w.addr == 0 && w.data == 0
  | .a => w.data == 0
  | .ad => true
  | .d => w.addr == 0
  | .l => w.addr == 0 && w.data.extractLsb' 1 7 == 0
  | .r => w.addr.extractLsb' 6 18 == 0 && w.data == 0
  | .rl => w.addr.extractLsb' 6 18 == 0 && w.data.extractLsb' 1 7 == 0

/-- Steps (2) and (3) of 30_encoding.md R99 for one row. -/
def Format.decode (f : Format) (w : CmdWord) (i : Instr) : Except DecodeError Instr :=
  if f.zeroBitsClear w then
    if i.wellFormed then .ok i else .error .noSuchRole
  else .error .mustBeZero

/-- Decoding (30_encoding.md R99): looks at neither configuration nor state. -/
def decode (w : CmdWord) : Except DecodeError Instr :=
  match w.op.toNat with
  | 0x10 => Format.rl.decode w (.cfgdir w.role w.direction)
  | 0x11 => Format.rl.decode w (.pinwr w.role w.level)
  | 0x12 => Format.r.decode w (.pinrd w.role)
  | 0x20 => Format.a.decode w (.setaddr w.addr)
  | 0x30 => Format.l.decode w (.busdir w.direction)
  | 0x31 => Format.d.decode w (.buswr w.data)
  | 0x32 => Format.n.decode w .busrd
  | 0x40 => Format.n.decode w .idlesetup
  | 0x41 => Format.a.decode w (.rdcyc w.addr)
  | 0x42 => Format.ad.decode w (.wrcyc w.addr w.data)
  | 0x43 => Format.n.decode w .allin
  | 0x50 => Format.n.decode w .idquery
  | 0x51 => Format.n.decode w .dump
  | 0x60 => Format.n.decode w .outtest
  | 0x61 => Format.n.decode w .inecho
  | 0x62 => Format.n.decode w .iotest
  | 0x63 => Format.n.decode w .oetest
  | 0x64 => Format.n.decode w .addrtest
  | _ => .error .unknownOpcode

/-! ### The encoder -/

/-- A word from its three fields (30_encoding.md R90). -/
def assemble (op : BitVec 8) (a : Addr) (d : Byte) : CmdWord := op ++ a ++ d

/-- Field `a` of formats R and RL: the role index in its low six bits. -/
def roleField (role : RoleIndex) : Addr := role.zeroExtend 24

/-- Field `d` of formats L and RL: a level in bit 0. -/
def levelField (l : Level) : Byte := if l then 1 else 0

/-- Field `d` of formats L and RL: a direction in bit 0 (30_encoding.md R93). -/
def directionField (d : Direction) : Byte :=
  match d with
  | .input => 0
  | .output => 1

/-- The word of a command (30_encoding.md R91, R95). -/
def encode : Instr → CmdWord
  | .cfgdir role dir => assemble 0x10 (roleField role) (directionField dir)
  | .pinwr role level => assemble 0x11 (roleField role) (levelField level)
  | .pinrd role => assemble 0x12 (roleField role) 0
  | .setaddr addr => assemble 0x20 addr 0
  | .busdir dir => assemble 0x30 0 (directionField dir)
  | .buswr value => assemble 0x31 0 value
  | .busrd => assemble 0x32 0 0
  | .idlesetup => assemble 0x40 0 0
  | .rdcyc addr => assemble 0x41 addr 0
  | .wrcyc addr data => assemble 0x42 addr data
  | .allin => assemble 0x43 0 0
  | .idquery => assemble 0x50 0 0
  | .dump => assemble 0x51 0 0
  | .outtest => assemble 0x60 0 0
  | .inecho => assemble 0x61 0 0
  | .iotest => assemble 0x62 0 0
  | .oetest => assemble 0x63 0 0
  | .addrtest => assemble 0x64 0 0

/-! ### The opcode table as the spec prints it (30_encoding.md R95) -/

/-- One row of the table: a word selects it when `cw &&& mask = pattern`; `role` says that R99 step (3) applies. -/
structure Row where
  mnemonic : String
  pattern : CmdWord
  mask : CmdWord
  role : Bool
  deriving DecidableEq, Repr

/-- The eighteen rows of R95 in the table's order. -/
def opcodeTable : List Row :=
  [⟨"CFGDIR", 0x1000000000, 0xFFFFFFC0FE, true⟩,
   ⟨"PINWR", 0x1100000000, 0xFFFFFFC0FE, true⟩,
   ⟨"PINRD", 0x1200000000, 0xFFFFFFC0FF, true⟩,
   ⟨"SETADDR", 0x2000000000, 0xFF000000FF, false⟩,
   ⟨"BUSDIR", 0x3000000000, 0xFFFFFFFFFE, false⟩,
   ⟨"BUSWR", 0x3100000000, 0xFFFFFFFF00, false⟩,
   ⟨"BUSRD", 0x3200000000, 0xFFFFFFFFFF, false⟩,
   ⟨"IDLESETUP", 0x4000000000, 0xFFFFFFFFFF, false⟩,
   ⟨"RDCYC", 0x4100000000, 0xFF000000FF, false⟩,
   ⟨"WRCYC", 0x4200000000, 0xFF00000000, false⟩,
   ⟨"ALLIN", 0x4300000000, 0xFFFFFFFFFF, false⟩,
   ⟨"IDQUERY", 0x5000000000, 0xFFFFFFFFFF, false⟩,
   ⟨"DUMP", 0x5100000000, 0xFFFFFFFFFF, false⟩,
   ⟨"OUTTEST", 0x6000000000, 0xFFFFFFFFFF, false⟩,
   ⟨"INECHO", 0x6100000000, 0xFFFFFFFFFF, false⟩,
   ⟨"IOTEST", 0x6200000000, 0xFFFFFFFFFF, false⟩,
   ⟨"OETEST", 0x6300000000, 0xFFFFFFFFFF, false⟩,
   ⟨"ADDRTEST", 0x6400000000, 0xFFFFFFFFFF, false⟩]

/-- A word selects a row (30_encoding.md R95, R99). -/
def Row.selects (row : Row) (w : CmdWord) : Bool :=
  w &&& row.mask == row.pattern && (!row.role || RoleIndex.legal w.role)

/-- The mnemonic of a command (30_encoding.md R95). -/
def Instr.mnemonic : Instr → String
  | .cfgdir _ _ => "CFGDIR"
  | .pinwr _ _ => "PINWR"
  | .pinrd _ => "PINRD"
  | .setaddr _ => "SETADDR"
  | .busdir _ => "BUSDIR"
  | .buswr _ => "BUSWR"
  | .busrd => "BUSRD"
  | .idlesetup => "IDLESETUP"
  | .rdcyc _ => "RDCYC"
  | .wrcyc _ _ => "WRCYC"
  | .allin => "ALLIN"
  | .idquery => "IDQUERY"
  | .dump => "DUMP"
  | .outtest => "OUTTEST"
  | .inecho => "INECHO"
  | .iotest => "IOTEST"
  | .oetest => "OETEST"
  | .addrtest => "ADDRTEST"

/-- The host's probe: a row's bits are the one 40-bit word of the command (30_encoding.md R90, R98). -/
def decodeTableWord (nbits w : Nat) : Option Instr :=
  match decode (BitVec.ofNat 40 (w % 2 ^ nbits)) with
  | .ok i => some i
  | .error _ => none

end Sys2Proof
end

