-- ==== Sys2Proof/Config.lean ====
section
/-! DEFINITION. The immutable configuration record `CFG.*` (00_scope.md R6, 10_state.md R33), its reference values,
and the free values: constants without a body for what the spec leaves open. -/

namespace Sys2Proof

/-- `CFG.MODE` (CR0): codes 0, 1, 2, and the illegal code 3 (10_state.md R33). -/
inductive Mode where
  | s2w
  | s3w
  | direct
  | illegal
  deriving DecidableEq, Repr

/-- `CFG.XP_DATA` (CR5): the data line during the extra clock pulse (41_address_shifter.md R143). -/
inductive XpData where
  | hold
  | low
  deriving DecidableEq, Repr

/-- A list of output patterns of the three kinds R231 names, by what it leaves open (45_diagnostics.md R231). Each kind has
at least two patterns (log 7). -/
structure OutKinds where
  /-- the first counting pattern; each further one is one more -/
  first : BitVec 37
  /-- how many counting patterns there are beyond two -/
  counting : Fin 27
  /-- how many all-on and all-off patterns there are beyond two, as far as two alternating ones still fit -/
  switching : Fin 27
  /-- whether all-on comes before all-off -/
  onFirst : Bool
  /-- whether the alternation with bit 0 set comes before the other -/
  oddFirst : Bool
  deriving DecidableEq, Repr

/-- How many of the patterns count (45_diagnostics.md R231; log 7). -/
def OutKinds.counts (o : OutKinds) : Nat := 2 + o.counting.val

/-- How many of them are all on or all off (45_diagnostics.md R231; log 7). -/
def OutKinds.switches (o : OutKinds) : Nat := 2 + min o.switching.val (26 - o.counting.val)

/-- The `k`-th pattern: sequential counting, then all-on/all-off, then alternating bits (45_diagnostics.md R231; log 7). -/
def OutKinds.pattern (o : OutKinds) (k : Nat) : BitVec 37 :=
  if k < o.counts then o.first + BitVec.ofNat 37 k
  else if k < o.counts + o.switches then
    if decide ((k - o.counts) % 2 = 0) = o.onFirst then 0x1FFFFFFFFF else 0
  else if decide ((k - o.counts - o.switches) % 2 = 0) = o.oddFirst then 0x1555555555 else 0x0AAAAAAAAA

/-- The list of 32 (00_scope.md R6). -/
def OutKinds.patterns (o : OutKinds) : Vector (BitVec 37) 32 :=
  ⟨((List.range 32).map o.pattern).toArray, by simp⟩

/-- One step of IOTEST's open output phase: bit `Role.slot r` of `levels` goes to each line `r` that takes part, and the
pattern is held `hold` microseconds (45_diagnostics.md R233; log 9). -/
structure IoPattern where
  levels : BitVec 37
  hold : Nat
  deriving DecidableEq, Repr

/-- A choice of lines that a diagnostic leaves open (45_diagnostics.md R231, R233; log 9, 10): the data lines, OE#, WE#, the
address-control lines. The data lines and the address-control lines each take part as a whole or not at all, since no
command but CFGDIR sets one of them alone (10_state.md R31, R32). -/
structure IoLines where
  bus : Bool
  oe : Bool
  we : Bool
  address : Bool
  deriving DecidableEq, Repr, Inhabited

/-- The configuration record (10_state.md R33; the widths of the labelled registers are that rule's). Times are microseconds
or, where R33 says so, milliseconds. What the diagnostics leave OPEN (45_diagnostics.md R231 to R233) are fields too, since R230
makes it arguments of the model. R233 gives them no bounds, no unit and no width: DESIGN CHOICE (log 9), their times are any number of
microseconds, there may be no pattern and no line at all, and the four lines of the value need not differ. -/
structure Config where
  /-- CR0 `MODE`. -/
  mode : Mode
  /-- CR1 `ADDR_BITS`. -/
  addrBits : BitVec 5
  /-- CR2 `T_HALF`, microseconds. -/
  tHalf : BitVec 16
  /-- CR3 `T_SETTLE`, microseconds. -/
  tSettle : BitVec 16
  /-- CR4 `MAX_ADDR`. -/
  maxAddr : Addr
  /-- CR5 `XP_DATA`. -/
  xpData : XpData
  /-- CR6 `T_PATTERN`, milliseconds. -/
  tPattern : BitVec 16
  /-- CR7 `T_ECHO`, milliseconds. -/
  tEcho : BitVec 16
  /-- CR8 `T_OE_HALF`, milliseconds. -/
  tOeHalf : BitVec 16
  /-- CR9.. `PINMAP`: the pin number of each role, by `Role.slot`; `none` where the valid bit is 0. -/
  pinMap : Vector (Option (BitVec 8)) 37
  /-- `OUT_PATTERNS`: any list of 32, the argument R6 (00_scope.md) and R230 (45_diagnostics.md) make it, with a bit for each of the
at most 37 lines. No rule rejects a list for its kinds; `ThreeKinds` names those R231 has in view (log 7). -/
  outPatterns : Vector (BitVec 37) 32
  /-- OUTTEST: which bit of a pattern goes to each line, by `Role.slot` (45_diagnostics.md R231; log 10). -/
  outBit : Vector (Fin 37) 37
  /-- OUTTEST: whether the `N` direct address lines take part in mode `DIRECT` (45_diagnostics.md R231; log 10). -/
  outDirect : Bool
  /-- OUTTEST, the state its lines are left in: the levels driven after the last pattern, bit `Role.slot r` for line `r`; `none`
  where that pattern stays (45_diagnostics.md R231; log 10). -/
  outLast : Option (BitVec 37)
  /-- OUTTEST, the state its lines are left in: which of them become inputs (45_diagnostics.md R231; log 10). -/
  outRelease : IoLines
  /-- INECHO: the level WE# is made an output of and driven to first, if it is touched (45_diagnostics.md R232; log 10). -/
  echoWe : Option Level
  /-- INECHO: the same for OE#. -/
  echoOe : Option Level
  /-- `ADDR_PATTERNS`: the 32 broadcast bytes (45_diagnostics.md R236). -/
  addrPatterns : Vector Byte 32
  /-- `ADDR_RANDOM`: the eight pseudo-random addresses, in the order used (00_scope.md R6, 45_diagnostics.md R236). -/
  addrRandom : Vector Addr 8
  /-- IOTEST, output phase: which lines. -/
  ioOutputs : IoLines
  /-- IOTEST, output phase: which patterns, how long. -/
  ioPatterns : List IoPattern
  /-- IOTEST, wait phase: the four data lines that carry bits 0 to 3 of the operator's value. -/
  ioNibble : Vector (Fin 8) 4
  /-- IOTEST, wait phase: the poll interval in microseconds, `none` where nothing is waited. -/
  ioPoll : Option Nat
  /-- IOTEST, wait phase: debouncing, how many more polls in a row must find a value once one has. -/
  ioMatches : Nat
  /-- IOTEST, blink phase: which lines. -/
  ioBlink : IoLines
  /-- IOTEST, blink phase: the level that is on, for each line; bit `Role.slot r` for line `r`. -/
  ioOnLevels : BitVec 37
  /-- IOTEST, blink phase: microseconds on, in the first and in the second blink. -/
  ioOn : Vector Nat 2
  /-- IOTEST, blink phase: microseconds off, likewise. -/
  ioOff : Vector Nat 2
  deriving DecidableEq, Repr

/-! ### Free values

Constants without a body: nothing can be proved about what they are. -/

/-- The `n`-th level that the environment presents where nothing fixes it (20_memory.md R70, R79; log 11). -/
opaque Config.freeLevel : Nat → Level

/-- The host's `n`-th answer to `SinkWrite` once its listed answers are used up (92, open parameters; log 12). -/
opaque Config.freeSinkAnswer : Nat → Bool

/-- The contents of a flash cell that no entry of the memory names (20_memory.md R75; log 18). -/
opaque Config.freeFlashByte : Addr → Byte

/-- The attached chip's identity bytes (`FLASH_ID`, OPEN; log 18). -/
opaque Config.freeFlashId : Nat → Byte

/-- Where the reference configuration's counting patterns start (OPEN; log 7). -/
opaque Config.freeOutFirst : BitVec 37

/-- How the 32 output patterns are split: counting (0) and all-on/all-off (1) (OPEN; log 7). -/
opaque Config.freeOutSplit : Nat → Fin 27

/-- Which comes first: all-on (0), the alternation with bit 0 set (1) (OPEN; log 7). -/
opaque Config.freeOutOrder : Nat → Bool

/-- `ADDR_PATTERNS[k]` for the patterns the spec does not name (OPEN; log 8). -/
opaque Config.freeAddrPattern : Nat → Byte

/-- IOTEST's output phase (OPEN; log 9). -/
opaque Config.freeIoPatterns : List IoPattern

/-- The four lines of IOTEST's handshake values (OPEN; log 9). -/
opaque Config.freeIoNibble : Nat → Fin 8

/-- IOTEST's poll interval (OPEN; log 9). -/
opaque Config.freeIoPoll : Option Nat

/-- IOTEST's debouncing (OPEN; log 9). -/
opaque Config.freeIoMatches : Nat

/-- The lines of IOTEST's output phase (0) and blink phase (1) (OPEN; log 9). -/
opaque Config.freeIoLines : Nat → IoLines

/-- The levels that are on in IOTEST's blink phase (OPEN; log 9). -/
opaque Config.freeIoOnLevels : BitVec 37

/-- IOTEST's durations on, in the first blink (0) and the second (1) (OPEN; log 9). -/
opaque Config.freeIoOn : Nat → Nat

/-- IOTEST's durations off, likewise (OPEN; log 9). -/
opaque Config.freeIoOff : Nat → Nat

/-- How far above 1 a host's exit status for a configuration-error code is (60_exceptions.md R276: nonzero; log 24). -/
opaque Config.freeExitExcess : Nat → Nat

/-! ### The reference configuration -/

/-- DESIGN CHOICE (log 6): the reference pin numbers are the role indexes; mode S2W maps its twelve roles. -/
def Config.referencePinMap : Vector (Option (BitVec 8)) 37 :=
  #v[some 0, some 1, some 2, some 3, some 4, some 5, some 6, some 7, some 8, some 9, some 10, some 11,
     none, none, none, none, none, none, none, none, none, none, none, none, none,
     none, none, none, none, none, none, none, none, none, none, none, none]

/-- The three kinds of R231, with free values for what is open (log 7). -/
def Config.referenceOutKinds : OutKinds where
  first := freeOutFirst
  counting := freeOutSplit 0
  switching := freeOutSplit 1
  onFirst := freeOutOrder 0
  oddFirst := freeOutOrder 1

/-- The four bytes the spec names, then 28 free bytes (45_diagnostics.md R236; log 8). -/
def Config.referenceAddrPatterns : Vector Byte 32 :=
  ⟨([0x0F, 0x11, 0xAA, 0x55] ++ (List.range 28).map fun k => freeAddrPattern (k + 4)).toArray, by simp⟩

/-- The eight constants of the source (45_diagnostics.md R236). -/
def Config.referenceAddrRandom : Vector Addr 8 :=
  #v[0x0f0f0f, 0x111111, 0x121212, 0x747474, 0x898989, 0xa5a5a5, 0xc3c3c3, 0xf1f1f1]

/-- The reference configuration (00_scope.md R6, 92_eei_decisions.md D23). What R231 and R232 (45_diagnostics.md) leave open beside
the patterns is as their pseudocode has it: bit `j` on line `j`, no direct lines, the last pattern left standing, OE# and WE#
not touched (log 10). -/
def Config.reference : Config where
  mode := .s2w
  addrBits := 24
  tHalf := 2
  tSettle := 100
  maxAddr := 0xFFFFFF
  xpData := .hold
  tPattern := 500
  tEcho := 1000
  tOeHalf := 500
  pinMap := referencePinMap
  outPatterns := referenceOutKinds.patterns
  outBit := Vector.finRange 37
  outDirect := false
  outLast := none
  outRelease := { bus := false, oe := false, we := false, address := false }
  echoWe := none
  echoOe := none
  addrPatterns := referenceAddrPatterns
  addrRandom := referenceAddrRandom
  ioOutputs := freeIoLines 0
  ioPatterns := freeIoPatterns
  ioNibble := #v[freeIoNibble 0, freeIoNibble 1, freeIoNibble 2, freeIoNibble 3]
  ioPoll := freeIoPoll
  ioMatches := freeIoMatches
  ioBlink := freeIoLines 1
  ioOnLevels := freeIoOnLevels
  ioOn := #v[freeIoOn 0, freeIoOn 1]
  ioOff := #v[freeIoOff 0, freeIoOff 1]

end Sys2Proof
end

