-- ==== Sys2Proof/Machine/State.lean ====
section
/-! DEFINITION. The state as plain data (10_state.md R20 to R39; the environment of 20_memory.md; the host's moves of
60_exceptions.md R278), the outcome reasons, and the state after reset (10_state.md R38). -/

namespace Sys2Proof.Machine

/-! ### The block -/

/-- One pin's latches: `DIR[r]` (`none` is `Unset`, 10_state.md R21) and `OUT[r]` (`none` is `X`, R22, R23). -/
structure Pin where
  dir : Option Direction
  out : Option Level
  deriving DecidableEq, Repr

/-- The latches of every role, by `Role.slot` (10_state.md R21, R22). -/
abbrev Pins := Vector Pin 37

/-- The sequencer state `FSM` (10_state.md R27, 43_sequencer.md R181). -/
inductive Fsm where
  | idle
  | addressSettling
  | reading
  | writing
  deriving DecidableEq, Repr

/-- The fault causes (60_exceptions.md R261). -/
inductive Cause where
  | role
  | dirWrite
  | dirRead
  | addrRange
  | illegalCmd
  | sink
  | verify
  | init
  | mode
  deriving DecidableEq, Repr

/-- What `Print` hands to the console: values, no text (00_scope.md R12). -/
inductive Printed where
  | identity (bytes : Vector Byte 4)
  | byte (v : Byte)
  | mismatch (expected got : Byte)
  deriving DecidableEq, Repr

/-- The events of a trace (10_state.md R30). -/
inductive Event where
  | dir (r : Role) (d : Direction)
  | drv (r : Role) (l : Level)
  | smp (r : Role) (l : Level)
  | dly (us : Nat)
  | sink (v : Byte) (ok : Bool)
  | close
  | print (x : Printed)
  deriving DecidableEq, Repr

/-- The payload of an `Ok` response (10_state.md R37). -/
inductive Payload where
  | empty
  | level (l : Level)
  | byte (v : Byte)
  | identity (bytes : Vector Byte 4)
  | count (n : BitVec 32)
  deriving DecidableEq, Repr

/-- `Ok(payload)` or `Fault(code, info)` (10_state.md R37). -/
inductive Reply where
  | ok (p : Payload)
  | fault (c : Cause) (info : BitVec 24)
  deriving DecidableEq, Repr

/-- A response: the `STATUS` word and the reply (10_state.md R34, R37; 30_encoding.md R113). -/
structure Response where
  status : BitVec 32
  reply : Reply
  deriving DecidableEq, Repr

/-- A command that is still running at a boundary of its own loop (10_state.md R28; log 2): the loop of `DUMP`
(44_composite.md R215), of `INECHO` (45_diagnostics.md R232) and of `OETEST` (R234), and the wait of `IOTEST` (R233)
with the values the operator has yet to present. -/
inductive Job where
  | dump
  | inEcho
  | oeTest
  | ioTest (await : List (BitVec 4)) (found : Nat)
  deriving DecidableEq, Repr

/-- What the block is doing (60_exceptions.md R287): waiting for a command (or faulted, by `FAULT`), running one,
or not running after a kill (R271). -/
inductive Phase where
  | idle
  | running (job : Job)
  | stopped
  deriving DecidableEq, Repr

/-! ### The host -/

/-- What the host may do (60_exceptions.md R278): hand over a word, and kill the command after it has emitted
`killAfter` events (R271; `none`: no kill); end the run while no event is being emitted; reset the block with a
configuration record and the bit that says the GPIO subsystem is available (70_reset_and_hazards.md R290, R293). -/
inductive HostMove where
  | command (word : CmdWord) (killAfter : Option Nat)
  | kill
  | reset (cfg : Config) (gpioAvailable : Bool)
  deriving DecidableEq, Repr

/-! ### The environment (20_memory.md) -/

/-- What is wired to the pins: nothing assumed (R70), the flash behind the address path (R71 to R77), the address
loopback (R78), the latching loopback (R87). -/
inductive Wiring where
  | oracle
  | flash
  | addressLoopback
  | latchingLoopback
  deriving DecidableEq, Repr

/-- The reference flash's `FMODE` (20_memory.md R75). -/
inductive FlashMode where
  | array
  | unlock1
  | unlock2
  | autoselect
  | unknown
  deriving DecidableEq, Repr

/-- The environment's state (20_memory.md R71 to R79, R86, R87): no state of the block. -/
structure Env where
  /-- which environment this is -/
  wiring : Wiring
  /-- the premise `WE_IDLE_HIGH` (R77) -/
  weIdleHigh : Bool
  /-- levels the environment will present, next first, wherever nothing else fixes one (R70, R79; log 11) -/
  answers : List Level
  /-- how many free levels have been drawn (the model's own counter; log 11) -/
  draws : Nat
  /-- the chain's shift stage `SH`, index 0 first; a bit that is `none` or missing is unknown (R71, R72) -/
  sh : List (Option Level)
  /-- the chain's output stage `Q`, likewise -/
  q : List (Option Level)
  /-- `XADDR`: the value on the flash's address lines, or `none` (R74) -/
  xaddr : Option Addr
  /-- `FLASH`: the named cells, addresses strictly rising (R75; log 18) -/
  flash : List Host.Cell
  /-- `FLASH_ID` (R75) -/
  flashId : Vector Byte 4
  /-- `FMODE` (R75) -/
  fmode : FlashMode
  /-- the byte the chip chose and the address it chose it for, held while OE# is low and the address stands (R76) -/
  held : Option (Addr × Byte)
  /-- the address latched by the falling edge of WE# (R77) -/
  latched : Option Addr
  /-- the level last driven on each data line; `none` where it is unknown: never driven, or last driven as a fresh output
  whose level is arbitrary (R87, R70; log 22) -/
  lastDriven : Vector (Option Level) 8
  /-- the bad state `CONTENTION` has been entered (R76, 70_reset_and_hazards.md R298) -/
  contention : Bool
  deriving DecidableEq, Repr

/-! ### The machine -/

/-- The whole state. The block: `cfg` to `finfo`, and `phase`. The model's record: `trace`, `responses`
(10_state.md R30, R37). The host: `host`, `killIn`, `sinkAnswers`, `sinkDraws`. The environment: `env`. -/
structure State where
  /-- `CFG.*`, strapped at reset (R33) -/
  cfg : Config
  /-- `DIR[r]` and `OUT[r]` (R21, R22) -/
  pins : Pins
  /-- `D` (R24) -/
  d : Byte
  /-- `ID[0..3]` (R25) -/
  id : Vector Byte 4
  /-- `CUR` (R26) -/
  cur : Addr
  /-- `FSM` (R27) -/
  fsm : Fsm
  /-- `FAULT` (R29) -/
  fault : Bool
  /-- `FCODE` (R29) -/
  fcode : BitVec 4
  /-- `FINFO` (R29) -/
  finfo : BitVec 24
  /-- the sequencing position at a boundary (R28) -/
  phase : Phase
  /-- how many events the running command may still emit before the host's kill (60_exceptions.md R271) -/
  killIn : Option Nat
  /-- the host's next moves, oldest first (60_exceptions.md R278) -/
  host : List HostMove
  /-- the host's next answers to `SinkWrite` (00_scope.md R12) -/
  sinkAnswers : List Bool
  /-- how many free sink answers have been drawn (the model's own counter; log 12) -/
  sinkDraws : Nat
  /-- every event since reset, oldest first (R30) -/
  trace : List Event
  /-- every response since reset, oldest first (R37) -/
  responses : List Response
  /-- the environment -/
  env : Env
  deriving DecidableEq, Repr

/-- Why the machine is stuck. -/
inductive Fault where
  /-- Raised by the acceptance of a command word when the block is not running because the host killed it: stuck until
  reset (60_exceptions.md R271, 93_implementation_defined.md U13). Safe: nothing can be proved of such a command. -/
  | notRunning
  deriving DecidableEq, Repr

/-- Why a command has no meaning here. -/
inductive Refusal where
  /-- Raised by an arm of `exec` whose instruction is not modelled. Safe. -/
  | notModelled (mnemonic : String)
  /-- Raised by the acceptance of a command word while `FAULT = 1` (60_exceptions.md R273(e), R274). Safe: the spec
  asks that nothing be provable of a command issued after a fault. -/
  | faulted
  /-- Raised by `exec` of a command while another one runs, which the host may not ask (60_exceptions.md R278,
  10_state.md R36); `step` never asks it. Safe. -/
  | busy
  deriving DecidableEq, Repr

/-! ### Reset -/

/-- A pin after reset: `DIR = Unset`, `OUT = X` (10_state.md R38). -/
def Pin.reset : Pin := { dir := none, out := none }

/-- The environment of the reset state: nothing assumed about it (10_state.md R38; log 1, 18). -/
def Env.reset : Env where
  wiring := .oracle
  weIdleHigh := false
  answers := []
  draws := 0
  sh := []
  q := []
  xaddr := none
  flash := []
  flashId := #v[Config.freeFlashId 0, Config.freeFlashId 1, Config.freeFlashId 2, Config.freeFlashId 3]
  fmode := .unknown
  held := none
  latched := none
  lastDriven := Vector.replicate 8 none
  contention := false

/-- The machine right after a successful reset with the reference configuration (10_state.md R38,
70_reset_and_hazards.md R291). `D`, `ID` and `CUR` are unspecified there: zero is the model's choice (log 5). -/
def State.reset : State where
  cfg := Config.reference
  pins := Vector.replicate 37 Pin.reset
  d := 0
  id := Vector.replicate 4 0
  cur := 0
  fsm := .idle
  fault := false
  fcode := 0
  finfo := 0
  phase := .idle
  killIn := none
  host := []
  sinkAnswers := []
  sinkDraws := 0
  trace := []
  responses := []
  env := Env.reset

end Sys2Proof.Machine
end

