-- ==== Sys2Proof/Machine/Operands.lean ====
section
/-! DEFINITION. Operand forms: role indexes and roles, the configuration's parameters and its validity, the bits of
addresses and bytes (00_scope.md R9, R15; 10_state.md R33, R35; 30_encoding.md R92 to R94). -/

namespace Sys2Proof.Machine

/-! ### Roles -/

/-- The role index of a role (00_scope.md R9). -/
def roleIndex : Role → RoleIndex
  | .dl i => BitVec.ofNat 6 i.val
  | .oe => 8
  | .we => 9
  | .asd => 10
  | .asc => 11
  | .ass => 12
  | .dal i => BitVec.ofNat 6 (32 + i.val)

/-- The role an index names, if any (30_encoding.md R94). -/
def roleOfIndex (ix : RoleIndex) : Option Role :=
  if h : ix.toNat < 8 then some (.dl ⟨ix.toNat, h⟩)
  else if ix.toNat = 8 then some .oe
  else if ix.toNat = 9 then some .we
  else if ix.toNat = 10 then some .asd
  else if ix.toNat = 11 then some .asc
  else if ix.toNat = 12 then some .ass
  else if h : 32 ≤ ix.toNat ∧ ix.toNat < 56 then some (.dal ⟨ix.toNat - 32, by omega⟩)
  else none

/-- A role index as fault information (60_exceptions.md R261). -/
def indexInfo (ix : RoleIndex) : BitVec 24 := ix.zeroExtend 24

/-- `ASD`, `ASC`, `ASS` and the `DAL(i)`: the address-control lines (20_memory.md R74). -/
def isAddressLine : Role → Bool
  | .asd => true
  | .asc => true
  | .ass => true
  | .dal _ => true
  | .dl _ => false
  | .oe => false
  | .we => false

/-! ### Configuration -/

/-- `CFG.PINMAP[r]` (10_state.md R33). -/
def pinOf (c : Config) (r : Role) : Option (BitVec 8) := c.pinMap[r.slot]

/-- `Mapped(r)` (00_scope.md R10). -/
def mapped (c : Config) (r : Role) : Bool := (pinOf c r).isSome

/-- `N`, that is `CFG.ADDR_BITS` (00_scope.md R10). -/
def addrBits (c : Config) : Nat := c.addrBits.toNat

/-- The first `N` direct address lines, ascending (92_eei_decisions.md D7). -/
def usedDirectLines (c : Config) : List Role := (directLines.take (addrBits c)).map .dal

/-- The address-control lines of the configured mode, in the order IDLESETUP sets them up (43_sequencer.md R183). -/
def modeLines (c : Config) : List Role :=
  match c.mode with
  | .s2w => [.asd, .asc]
  | .s3w => [.asd, .asc, .ass]
  | .direct => usedDirectLines c
  | .illegal => []

/-- The roles a configuration must map: the data lines, OE#, WE# and the mode's lines (10_state.md R35 (a), (b)). -/
def requiredRoles (c : Config) : List Role := dataLines.map .dl ++ [.oe, .we] ++ modeLines c

/-- The mapped roles in ascending role index. -/
def mappedRoles (c : Config) : List Role := Role.all.filter (mapped c)

/-- No pin number is given twice (10_state.md R35 (d)). -/
def injective (c : Config) : Bool := decide (Role.all.filterMap (pinOf c)).Nodup

/-- A configuration record that reset accepts (70_reset_and_hazards.md R293, 10_state.md R35). -/
def validConfig (c : Config) : Bool :=
  decide (c.mode ≠ .illegal) && decide (1 ≤ addrBits c) && decide (addrBits c ≤ 24)
    && decide (c.maxAddr.toNat < 2 ^ addrBits c) && (requiredRoles c).all (mapped c) && injective c

/-- Whether a choice of lines names a line (45_diagnostics.md R231, R233; log 9, 10). -/
def namesLine (x : IoLines) (r : Role) : Bool :=
  match r with
  | .dl _ => x.bus
  | .oe => x.oe
  | .we => x.we
  | _ => x.address

/-- `LINES` of the output-pattern test; whether the direct lines of mode `DIRECT` take part is configuration
(45_diagnostics.md R231; log 10). -/
def outputLines (c : Config) : List Role :=
  dataLines.map .dl ++ [.oe, .we, .asd, .asc] ++ (if mapped c .ass then [.ass] else [])
    ++ (if c.outDirect = true ∧ c.mode = .direct then usedDirectLines c else [])

/-- Those of them that are made inputs at the end (45_diagnostics.md R231; log 10). -/
def releasedLines (c : Config) : List Role := (outputLines c).filter (namesLine c.outRelease)

/-- The lines that `INECHO` touches first, with the levels they are driven to, WE# before OE# as IDLESETUP has them
(45_diagnostics.md R232; log 10). -/
def echoTouches (c : Config) : List (Role × Level) :=
  (c.echoWe.toList.map fun l => (.we, l)) ++ c.echoOe.toList.map fun l => (.oe, l)

/-- The lines of one of IOTEST's open phases: of the mapped roles, in ascending role index, those of the named groups; the
data lines take part all together or not at all, and so do the address-control lines (10_state.md R31, R32;
45_diagnostics.md R233; log 9). -/
def ioRoles (c : Config) (x : IoLines) : List Role := (mappedRoles c).filter (namesLine x)

/-! ### Times (00_scope.md R11: `Delay(t, ms)` stands for 1000 `t` microseconds) -/

/-- `T_HALF` in microseconds. -/
def tHalf (c : Config) : Nat := c.tHalf.toNat

/-- `T_SETTLE` in microseconds. -/
def tSettle (c : Config) : Nat := c.tSettle.toNat

/-- A time of `t` milliseconds, in microseconds. -/
def milliseconds (t : BitVec 16) : Nat := 1000 * t.toNat

/-! ### Addresses and bytes (00_scope.md R15) -/

/-- `a >= 2^N` (41_address_shifter.md R141). -/
def outOfRange (c : Config) (a : Addr) : Bool := decide (2 ^ addrBits c ≤ a.toNat)

/-- `a[N-1:0]`: the low `N` bits (45_diagnostics.md R235). -/
def truncateAddr (c : Config) (a : Addr) : Addr := BitVec.ofNat 24 (a.toNat % 2 ^ addrBits c)

/-- A byte broadcast over the address bits, `{p, p, p}` (45_diagnostics.md R235). -/
def broadcast (p : Byte) : Addr := p ++ p ++ p

/-- `a[7:0]`. -/
def lowByte (a : Addr) : Byte := a.extractLsb' 0 8

/-- The sum over `i` of `l_i * 2^i` of levels listed from bit 0 up (00_scope.md R15 (e)). -/
def composeLevels : List Level → Nat
  | [] => 0
  | l :: ls => l.toNat + 2 * composeLevels ls

/-- The byte composed of eight levels listed from bit 0 up (42_data_bus.md R164). -/
def composeByte (ls : List Level) : Byte := BitVec.ofNat 8 (composeLevels ls)

/-- The levels of a byte, bit 0 first: bit `i` belongs to `DL(i)` (42_data_bus.md R161). -/
def byteLevels (v : Byte) : List Level := dataLines.map fun i => v.getLsbD i.val

/-- IOTEST's 4-bit value of a byte, through the four lines the configuration names (45_diagnostics.md R233). -/
def handshakeValue (c : Config) (v : Byte) : BitVec 4 :=
  BitVec.ofNat 4 (composeLevels (c.ioNibble.toList.map fun i => v.getLsbD i.val))

/-- `NB = ceil(N / 8)` (41_address_shifter.md R145). -/
def addrBytes (c : Config) : Nat := (addrBits c + 7) / 8

end Sys2Proof.Machine
end

