-- ==== Sys2Proof/Machine/Flags.lean ====
section
/-! DEFINITION. Flags and views: latch access, the derived bus direction, the fault record, `STATUS`, `PINSTATE`
and the exit status (10_state.md R29 to R34; 60_exceptions.md R261, R276). -/

namespace Sys2Proof.Machine

/-! ### Latches -/

/-- A role's latches. -/
def pinAt (p : Pins) (r : Role) : Pin := p[r.slot]

/-- The table with one role's latches replaced. -/
def putPin (p : Pins) (r : Role) (x : Pin) : Pins := p.set r.slot x

/-- `DIR[r]` (10_state.md R21). -/
def State.dir (s : State) (r : Role) : Option Direction := (pinAt s.pins r).dir

/-- `OUT[r]` (10_state.md R22). -/
def State.out (s : State) (r : Role) : Option Level := (pinAt s.pins r).out

/-- A pin becomes a fresh output, whose level is unknown (40_gpio.md R125). -/
def freshOutput (p : Pins) (r : Role) (d : Direction) : Bool :=
  decide (d = .output) && decide ((pinAt p r).dir ≠ some .output)

/-- `SetDir`'s effect on the latches: `OUT <- X` when the pin becomes an output (00_scope.md R11, 40_gpio.md R125). -/
def setDirPins (p : Pins) (r : Role) (d : Direction) : Pins :=
  putPin p r { dir := some d, out := if freshOutput p r d then none else (pinAt p r).out }

/-- `Drive`'s effect on the latches (00_scope.md R11). -/
def drivePins (p : Pins) (r : Role) (l : Level) : Pins := putPin p r { (pinAt p r) with out := some l }

/-! ### Bus direction (10_state.md R31) -/

/-- The values of `BusDir()`. -/
inductive BusDir where
  | input
  | output
  | mixed
  deriving DecidableEq, Repr

/-- Every data line has the direction `d`. -/
def busAll (p : Pins) (d : Direction) : Bool := dataLines.all fun i => decide ((pinAt p (.dl i)).dir = some d)

/-- `BusDir()`: derived from the eight latches (10_state.md R31). -/
def busDir (p : Pins) : BusDir :=
  if busAll p .input then .input else if busAll p .output then .output else .mixed

/-- The lowest data line whose direction is not `d` (42_data_bus.md R165). -/
def firstOffender (p : Pins) (d : Direction) : Option (Fin 8) :=
  dataLines.find? fun i => decide ((pinAt p (.dl i)).dir ≠ some d)

/-- The byte the block drives on the bus, when every line's level is known (20_memory.md R77). -/
def drivenByte (p : Pins) : Option Byte :=
  let ls := dataLines.map fun i => (pinAt p (.dl i)).out
  if ls.all Option.isSome then some (composeByte (ls.map fun o => o.getD false)) else none

/-! ### The fault record -/

/-- The cause codes (60_exceptions.md R261). -/
def causeCode : Cause → BitVec 4
  | .role => 1
  | .dirWrite => 2
  | .dirRead => 3
  | .addrRange => 4
  | .illegalCmd => 5
  | .sink => 6
  | .verify => 7
  | .init => 8
  | .mode => 9

/-- `FAULT <- 1`, `FCODE <- code`, `FINFO <- info` (00_scope.md R13). -/
def State.recordFault (s : State) (c : Cause) (info : BitVec 24) : State :=
  { s with fault := true, fcode := causeCode c, finfo := info }

/-- `FINFO` of `F_VERIFY`: expected byte in bits 15:8, byte read in bits 7:0 (45_diagnostics.md R237). -/
def verifyInfo (expected got : Byte) : BitVec 24 := (0 : BitVec 8) ++ expected ++ got

/-! ### Views (10_state.md R34) -/

/-- The code of `FSM` in `STATUS`. -/
def fsmCode : Fsm → BitVec 2
  | .idle => 0
  | .addressSettling => 1
  | .reading => 2
  | .writing => 3

/-- `STATUS`: FSM in 1:0, FAULT in 2, FCODE in 6:3, FINFO in 30:7, bit 31 zero (10_state.md R34). -/
def State.status (s : State) : BitVec 32 :=
  (0 : BitVec 1) ++ s.finfo ++ s.fcode ++ (BitVec.ofBool s.fault) ++ fsmCode s.fsm

/-- The code of `DIR` in `PINSTATE`. -/
def dirCode : Option Direction → BitVec 2
  | none => 0
  | some .input => 1
  | some .output => 2

/-- `PINSTATE[r]`: DIR in 1:0, OUT in bit 2, which reads 0 for `X` (10_state.md R34). -/
def State.pinState (s : State) (r : Role) : BitVec 3 :=
  BitVec.ofBool ((s.out r).getD false) ++ dirCode (s.dir r)

/-- The exit status of a host that reproduces the command line (60_exceptions.md R276); for the configuration-error
codes the spec asks only that it be nonzero (log 24). -/
def exitStatus : Reply → Nat
  | .ok _ => 0
  | .fault .sink _ => 1
  | .fault .init _ => 1
  | .fault .verify _ => 1
  | .fault c _ => 1 + Config.freeExitExcess (causeCode c).toNat

/-- The physical pin an event acts on (10_state.md R30, 40_gpio.md R130). -/
def Event.pin (c : Config) : Event → Option (BitVec 8)
  | .dir r _ => pinOf c r
  | .drv r _ => pinOf c r
  | .smp r _ => pinOf c r
  | .dly _ => none
  | .sink _ _ => none
  | .close => none
  | .print _ => none

/-- The bytes the sink accepted, in order (20_memory.md R62, 44_composite.md R218). -/
def acceptedBytes (t : List Event) : List Byte :=
  t.filterMap fun e => match e with
    | .sink v true => some v
    | _ => none

/-- The least time, in microseconds, that a trace takes: the sum of its delays (70_reset_and_hazards.md R310). -/
def minimumTime (t : List Event) : Nat :=
  (t.map fun e => match e with
    | .dly us => us
    | _ => 0).sum

end Sys2Proof.Machine
end

