-- ==== Sys2Proof/Machine/Environment.lean ====
section
/-! DEFINITION. The environment: arbitrary levels, the reference chains, the address contract `XADDR`, the reference
flash, the loopbacks, and what a sample of a pin answers (20_memory.md R68 to R79, R87). The block reads none of it but
through `pinIn`. -/

namespace Sys2Proof.Machine

/-! ### Arbitrary levels (20_memory.md R70, R79; log 11) -/

/-- The next arbitrary level: the environment's listed answer, else a free level. -/
def Env.draw (e : Env) : Level × Env :=
  match e.answers with
  | l :: rest => (l, { e with answers := rest })
  | [] => (Config.freeLevel e.draws, { e with draws := e.draws + 1 })

/-- `n` arbitrary levels. -/
def Env.drawMany (e : Env) : Nat → List Level × Env
  | 0 => ([], e)
  | n + 1 =>
    let (l, e1) := e.draw
    let (ls, e2) := e1.drawMany n
    (l :: ls, e2)

/-- An arbitrary byte. -/
def Env.drawByte (e : Env) : Byte × Env :=
  let (ls, e1) := e.drawMany 8
  (composeByte ls, e1)

/-! ### The address path -/

/-- The environment has the address path the source intends: the flash or the address loopback (20_memory.md R74). -/
def Env.wired (e : Env) : Bool := decide (e.wiring = .flash) || decide (e.wiring = .addressLoopback)

/-- The level a pin presents: known only while the pin is an output whose latch is known (20_memory.md R70). -/
def presented (p : Pins) (r : Role) : Option Level :=
  let x := pinAt p r
  if x.dir = some .output then x.out else none

/-- How many bits each stage of the chain has (20_memory.md R71, R72). -/
def chainLength (c : Config) : Nat :=
  match c.mode with
  | .s2w => addrBits c
  | .s3w => 8 * addrBytes c
  | .direct => 0
  | .illegal => 0

/-- A rising clock edge: `SH` shifts in the data line; with two wires `Q` takes the old `SH` (20_memory.md R71, R72). -/
def Env.shiftChain (c : Config) (p : Pins) (e : Env) : Env :=
  { e with
    q := if c.mode = .s2w then e.sh else e.q
    sh := (presented p .asd :: e.sh).take (chainLength c) }

/-- An edge of the clock that may or may not have happened: the clocked stages become unknown (20_memory.md R71). -/
def Env.loseChain (c : Config) (e : Env) : Env :=
  { e with q := if c.mode = .s2w then [] else e.q, sh := [] }

/-- What a `Drive` does to the chain; `p` are the latches before it (20_memory.md R71, R72). -/
def Env.chainDrive (c : Config) (p : Pins) (r : Role) (l : Level) (e : Env) : Env :=
  match r, (pinAt p r).out, l with
  | .asc, some false, true => e.shiftChain c p
  | .asc, none, _ => e.loseChain c
  | .ass, some false, true => if c.mode = .s3w then { e with q := e.sh } else e
  | .ass, none, _ => if c.mode = .s3w then { e with q := [] } else e
  | _, _, _ => e

/-- A pin's output is switched on or off: what its line carries is not known (70_reset_and_hazards.md R301). -/
def switches (p : Pins) (r : Role) (d : Direction) : Bool :=
  decide (d = .input) || decide ((pinAt p r).dir ≠ some .output)

/-- What a `SetDir` does to the chain (70_reset_and_hazards.md R301 (b); log 17). -/
def Env.chainSetDir (c : Config) (p : Pins) (r : Role) (d : Direction) (e : Env) : Env :=
  if switches p r d then
    match r with
    | .asc => e.loseChain c
    | .ass => if c.mode = .s3w then { e with q := [] } else e
    | _ => e
  else e

/-- A `Drive` outside a `SETADDR`: an address-control line that changes makes `XADDR` unknown (20_memory.md R74). -/
def Env.contractDrive (p : Pins) (r : Role) (l : Level) (e : Env) : Env :=
  if isAddressLine r && decide ((pinAt p r).out ≠ some l) then { e with xaddr := none } else e

/-- A `SetDir` of an address-control line makes `XADDR` unknown (41_address_shifter.md R148; log 16). DESIGN CHOICE (log 16):
R148 does not say which lines these are; here they are R74's `ASD`, `ASC`, `ASS` and `DAL(i)` in every mode, not the
configured mode's alone. -/
def Env.contractSetDir (r : Role) (e : Env) : Env :=
  if isAddressLine r then { e with xaddr := none } else e

/-- What address line `i` carries, by the reference chain or the direct wires; a line at or above `N` does not exist and
carries nothing (20_memory.md R71, R72, R73). -/
def addressLine (c : Config) (p : Pins) (e : Env) (i : Fin 24) : Option Level :=
  if i.val < addrBits c then
    match c.mode with
    | .s2w => (e.q[addrBits c - 1 - i.val]?).getD none
    | .s3w => (e.q[8 * (addrBytes c - 1 - i.val / 8) + i.val % 8]?).getD none
    | .direct => presented p (.dal i)
    | .illegal => none
  else none

/-! ### The flash (20_memory.md R68, R69, R75 to R77) -/

/-- A byte of memory by address: `none` where no cell names the contents. -/
def Memory.lookup (m : List Host.Cell) (a : Nat) : Option Byte :=
  match m with
  | [] => none
  | (b, v) :: rest => if b = a then some v else Memory.lookup rest a

/-- The canonical form of a memory: addresses strictly rising. An unlisted address has no value of its own, so no
entry can equal what it reads as. -/
def Memory.wf : List Host.Cell → Bool
  | [] => true
  | [_] => true
  | (a, _) :: (b, v) :: rest => decide (a < b) && Memory.wf ((b, v) :: rest)

/-- `FLASH[a]` (20_memory.md R75): the named cell, else a free byte (log 18). -/
def Env.flashByte (e : Env) (a : Addr) : Byte := (Memory.lookup e.flash a.toNat).getD (Config.freeFlashByte a)

/-- `MemRead(a, 1)`: the table of 20_memory.md R68. -/
def Env.memRead (e : Env) (a : Addr) : Byte × Env :=
  match e.fmode with
  | .array => (e.flashByte a, e)
  | .autoselect =>
    if a = 0x00 then (e.flashId[0], e)
    else if a = 0x02 then (e.flashId[1], e)
    else if a = 0x1C then (e.flashId[2], e)
    else if a = 0x1E then (e.flashId[3], e)
    else e.drawByte
  | .unlock1 => let (v, e1) := e.drawByte; (v, { e1 with fmode := .unknown })
  | .unlock2 => let (v, e1) := e.drawByte; (v, { e1 with fmode := .unknown })
  | .unknown => e.drawByte

/-- `MemWrite(a, 1, v)`: the table of 20_memory.md R69. -/
def FlashMode.afterWrite (m : FlashMode) (a : Addr) (v : Byte) : FlashMode :=
  if m = .array ∧ a = 0xAAA ∧ v = 0xAA then .unlock1
  else if m = .unlock1 ∧ a = 0x555 ∧ v = 0x55 then .unlock2
  else if m = .unlock2 ∧ a = 0xAAA ∧ v = 0x90 then .autoselect
  else if m = .autoselect ∧ a = 0x00 ∧ v = 0xF0 then .array
  else .unknown

/-- `DIR[r] = Out` and `OUT[r] = l`. -/
def drives (p : Pins) (r : Role) (l : Level) : Bool := decide (presented p r = some l)

/-- The address that OE# low asks the chip for (20_memory.md R76). While OE# has no known level see `Env.strayRead`. -/
def readAddress (p : Pins) (e : Env) : Option Addr :=
  if drives p .oe false then e.xaddr else none

/-- The chip chooses its byte once when OE# went low or `XADDR` last changed, and holds it until either changes, whatever
WE# does meanwhile (20_memory.md R76). DESIGN CHOICE (log 19): where WE# is not driven high at that moment (low, a fresh
output, or not driven, also under `WE_IDLE_HIGH`), the choice waits until it is. -/
def Env.chooseByte (p : Pins) (e : Env) : Env :=
  match readAddress p e with
  | none => { e with held := none }
  | some a =>
    if e.held.map Prod.fst = some a then e
    else if drives p .we true then
      let (v, e1) := e.memRead a
      { e1 with held := some (a, v) }
    else { e with held := none }

/-- OE# may be low and WE# high: neither is driven to the other level (10_state.md R23). -/
def mayRead (p : Pins) : Bool := !drives p .oe true && !drives p .we false

/-- The modes that a `MemRead` ends (20_memory.md R68). -/
def FlashMode.unlocking : FlashMode → Bool
  | .unlock1 => true
  | .unlock2 => true
  | .array => false
  | .autoselect => false
  | .unknown => false

/-- A `MemRead` that may have happened although R76 gives no byte: OE# is a fresh output, whose level is arbitrary and may
differ each time it is looked at (10_state.md R23, 70_reset_and_hazards.md R301), or is not driven; or it is low at an
unknown address, or while WE# is a fresh output or not driven. Whether it has is an arbitrary level, drawn each time; it
shows only in an unlock mode, which it ends (20_memory.md R68). DESIGN CHOICE (log 19) but for the fresh output. -/
def Env.strayRead (p : Pins) (e : Env) : Env :=
  if e.fmode.unlocking && e.held.isNone && mayRead p then
    let (l, e1) := e.draw
    if l then e1 else { e1 with fmode := .unknown }
  else e

/-- Two drivers on the data bus: the chip drives (OE# low) and the bus is not `In` (20_memory.md R76), or a data line
is an output while OE# is not held high (70_reset_and_hazards.md R298). -/
def contending (p : Pins) : Bool :=
  (drives p .oe false && decide (busDir p ≠ .input))
    || (!drives p .oe true && dataLines.any fun i => decide ((pinAt p (.dl i)).dir = some .output))

/-- The flash looks at the pins after an event or a change of `XADDR`. -/
def Env.react (p : Pins) (e : Env) : Env :=
  if e.wiring = .flash then
    let e1 := (e.chooseByte p).strayRead p
    { e1 with contention := e1.contention || contending p }
  else e

/-- An edge of WE# that the reference flash cannot answer for (20_memory.md R77). -/
def Env.spoil (e : Env) : Env := { e with fmode := .unknown, latched := none }

/-- What a `Drive` of WE# does; `p` are the latches before it (20_memory.md R77; log 20). -/
def Env.writeEnableDrive (p : Pins) (l : Level) (e : Env) : Env :=
  let before : Option Level := if e.weIdleHigh then some ((pinAt p .we).out.getD true) else (pinAt p .we).out
  match before, l with
  | some true, false =>
    match drives p .oe true, e.xaddr with
    | true, some a => { e with latched := some a }
    | _, _ => e.spoil
  | some false, true =>
    match drives p .oe true, busDir p, drivenByte p, e.latched with
    | true, .output, some v, some a => { e with fmode := e.fmode.afterWrite a v, latched := none }
    | _, _, _, _ => e.spoil
  | none, _ => e.spoil
  | _, _ => e

/-- WE# is a fresh output or is not driven: its level is unknown, unless `WE_IDLE_HIGH` says 1 and it was not held low
(20_memory.md R77; log 20). -/
def Env.writeEnableLoose (p : Pins) (e : Env) : Env :=
  if e.weIdleHigh && !drives p .we false then e else e.spoil

/-! ### What the events do -/

/-- The address path's part of a `Drive` (20_memory.md R71, R72, R74). -/
def Env.pathDrive (c : Config) (p : Pins) (r : Role) (l : Level) (e : Env) : Env :=
  if e.wired then (e.chainDrive c p r l).contractDrive p r l else e

/-- Inside a `SETADDR` every event makes `XADDR` unknown (20_memory.md R74). -/
def Env.enterShift (shifting : Bool) (e : Env) : Env := if shifting then { e with xaddr := none } else e

/-- The part of a `Drive` that concerns the data lines' loopback (20_memory.md R87) and the flash's WE# (R77). -/
def Env.lineDrive (p : Pins) (r : Role) (l : Level) (e : Env) : Env :=
  match r with
  | .dl i => { e with lastDriven := e.lastDriven.set i.val (some l) }
  | .we => if e.wiring = .flash then e.writeEnableDrive p l else e
  | _ => e

/-- The environment after a `Drive`; `p` are the latches before it. `shifting` says that it stands inside a
`SETADDR`. -/
def Env.onDrive (c : Config) (p : Pins) (r : Role) (l : Level) (shifting : Bool) (e : Env) : Env :=
  (((e.pathDrive c p r l).enterShift shifting).lineDrive p r l).react (drivePins p r l)

/-- The address path's part of a `SetDir` (log 16, 17). -/
def Env.pathSetDir (c : Config) (p : Pins) (r : Role) (d : Direction) (e : Env) : Env :=
  if e.wired then (e.chainSetDir c p r d).contractSetDir r else e

/-- The part of a `SetDir` that concerns the data lines' loopback (20_memory.md R87) and the flash's WE# (R77). A fresh
output drives an arbitrary level until its first `Drive` (R70), so the level last driven is unknown from then on
(DEDUCED: log 22). -/
def Env.lineSetDir (p : Pins) (r : Role) (d : Direction) (e : Env) : Env :=
  match r with
  | .dl i => if freshOutput p (.dl i) d then { e with lastDriven := e.lastDriven.set i.val none } else e
  | .we => if e.wiring = .flash ∧ switches p .we d = true then e.writeEnableLoose p else e
  | _ => e

/-- The environment after a `SetDir`; `p` are the latches before it. -/
def Env.onSetDir (c : Config) (p : Pins) (r : Role) (d : Direction) (e : Env) : Env :=
  ((e.pathSetDir c p r d).lineSetDir p r d).react (setDirPins p r d)

/-- `XADDR` as the address path leaves it: known after a `SETADDR` in a wired environment (20_memory.md R74). -/
def Env.present (p : Pins) (a : Option Addr) (e : Env) : Env :=
  ({ e with xaddr := if e.wired then a else none }).react p

/-- The environment at a reset of the block: pins stand as they stood, the block knows none of them, `XADDR` is `None`
(20_memory.md R74, R77; 70_reset_and_hazards.md R290, R291; log 26). -/
def Env.onReset (p : Pins) (e : Env) : Env :=
  let e1 := if e.wiring = .flash then e.writeEnableLoose p else e
  { e1 with xaddr := none, held := none }

/-! ### Samples -/

/-- `PinIn(r)`: the level the environment presents (20_memory.md R70, R76, R78, R79, R87); `p` are the latches. The chip
drives the byte it holds only while WE# is driven high (R76). -/
def Env.pinIn (p : Pins) (r : Role) (e : Env) : Level × Env :=
  match r, e.wiring with
  | .dl i, .flash =>
    match e.held, e.contention, drives p .we true with
    | some (_, v), false, true => (v.getLsbD i.val, e)
    | _, _, _ => e.draw
  | .dl i, .addressLoopback =>
    match e.xaddr with
    | some a => (a.getLsbD i.val, e)
    | none => e.draw
  | .dl i, .latchingLoopback =>
    match e.lastDriven[i] with
    | some l => (l, e)
    | none => e.draw
  | _, _ => e.draw

end Sys2Proof.Machine
end

