-- ==== Sys2Proof/Machine/Ops.lean ====
section
/-! DEFINITION. The shared operations: the pin-level primitives (00_scope.md R11, R12), lists of them, raising and
taking a fault (R13, 60_exceptions.md R273), the kill (R271), accepting and answering a command (10_state.md R36, R37),
and reset (70_reset_and_hazards.md R290, R293). -/

namespace Sys2Proof.Machine

/-! ### Actions -/

/-- Why the running pseudocode stops: `raise Fault(code, info)` (00_scope.md R13) or the host's kill
(60_exceptions.md R271). -/
inductive Stop where
  | fault (c : Cause) (info : BitVec 24)
  | killed
  deriving DecidableEq, Repr

/-- Pseudocode that answers an `α`, or stops; either way the state it reached stands (60_exceptions.md R273(c)). -/
abbrev Act (α : Type) := EStateM Stop State α

/-- `raise Fault(code, info)` (00_scope.md R13). -/
def raise {α : Type} (c : Cause) (info : BitVec 24) : Act α := fun s => .error (.fault c info) s

/-- One event of the trace (10_state.md R30) with its effect `upd`, unless the host's kill falls before it
(60_exceptions.md R271). -/
def emit (e : Event) (upd : State → State) : Act Unit := fun s =>
  match s.killIn with
  | some 0 => .error .killed s
  | k => .ok () { upd s with killIn := k.map (· - 1), trace := s.trace ++ [e] }

/-! ### The primitives (00_scope.md R11, R12) -/

/-- The latches and the environment after `SetDir`. -/
def State.afterSetDir (s : State) (r : Role) (d : Direction) : State :=
  { s with pins := setDirPins s.pins r d, env := s.env.onSetDir s.cfg s.pins r d }

/-- The latches and the environment after `Drive`; `shifting` says that it stands inside a `SETADDR`. -/
def State.afterDrive (s : State) (r : Role) (l : Level) (shifting : Bool) : State :=
  { s with pins := drivePins s.pins r l, env := s.env.onDrive s.cfg s.pins r l shifting }

/-- `SetDir(r, dir)` (00_scope.md R11). -/
def setDir (r : Role) (d : Direction) : Act Unit := fun s =>
  if mapped s.cfg r then emit (.dir r d) (fun t => t.afterSetDir r d) s
  else raise .role (indexInfo (roleIndex r)) s

/-- `Drive(r, l)` (00_scope.md R11). -/
def drive (r : Role) (l : Level) (shifting : Bool) : Act Unit := fun s =>
  if mapped s.cfg r then
    if s.dir r = some .output then emit (.drv r l) (fun t => t.afterDrive r l shifting) s
    else raise .dirWrite (indexInfo (roleIndex r)) s
  else raise .role (indexInfo (roleIndex r)) s

/-- `Sample(r)` (00_scope.md R11). -/
def sample (r : Role) : Act Level := fun s =>
  if mapped s.cfg r then
    if s.dir r = some .input then
      let answer := s.env.pinIn s.pins r
      match emit (.smp r answer.1) (fun t => { t with env := answer.2 }) s with
      | .ok _ t => .ok answer.1 t
      | .error e t => .error e t
    else raise .dirRead (indexInfo (roleIndex r)) s
  else raise .role (indexInfo (roleIndex r)) s

/-- `Delay` of `us` microseconds (00_scope.md R11). -/
def delay (us : Nat) : Act Unit := emit (.dly us) id

/-- The host's next answer to `SinkWrite` (00_scope.md R12; log 12). -/
def State.sinkAnswer (s : State) : Bool := s.sinkAnswers.headD (Config.freeSinkAnswer s.sinkDraws)

/-- That answer used up. -/
def State.afterSink (s : State) : State :=
  match s.sinkAnswers with
  | _ :: rest => { s with sinkAnswers := rest }
  | [] => { s with sinkDraws := s.sinkDraws + 1 }

/-- `SinkWrite(v)` (00_scope.md R12). -/
def sinkWrite (v : Byte) : Act Bool := fun s =>
  match emit (.sink v s.sinkAnswer) State.afterSink s with
  | .ok _ t => .ok s.sinkAnswer t
  | .error e t => .error e t

/-- `SinkClose()` (00_scope.md R12). -/
def sinkClose : Act Unit := emit .close id

/-- `Print(x)` (00_scope.md R12). -/
def printValue (x : Printed) : Act Unit := emit (.print x) id

/-! ### Sequences of primitives -/

/-- A step of a command that answers nothing: a primitive, or a change of state that emits no event. -/
inductive PinOp where
  /-- `SetDir(r, d)` -/
  | setDir (r : Role) (d : Direction)
  /-- `Drive(r, l)` outside a `SETADDR` -/
  | drive (r : Role) (l : Level)
  /-- `Drive(r, l)` inside a `SETADDR` (20_memory.md R74) -/
  | shift (r : Role) (l : Level)
  /-- `Delay` of so many microseconds -/
  | delay (us : Nat)
  /-- `FSM <- f` (43_sequencer.md R182) -/
  | enter (f : Fsm)
  /-- `XADDR`, as the end of a `SETADDR` or of IDLESETUP leaves it (20_memory.md R74, 43_sequencer.md R183) -/
  | address (a : Option Addr)
  deriving DecidableEq, Repr

/-- The event of a step, if it emits one. -/
def PinOp.event : PinOp → Option Event
  | .setDir r d => some (.dir r d)
  | .drive r l => some (.drv r l)
  | .shift r l => some (.drv r l)
  | .delay us => some (.dly us)
  | .enter _ => none
  | .address _ => none

/-- The events of a sequence of steps, in order (20_memory.md R80). -/
def eventsOf (ops : List PinOp) : List Event := ops.filterMap PinOp.event

/-- One step. -/
def runOp : PinOp → Act Unit
  | .setDir r d => setDir r d
  | .drive r l => drive r l false
  | .shift r l => drive r l true
  | .delay us => delay us
  | .enter f => fun s => .ok () { s with fsm := f }
  | .address a => fun s => .ok () { s with env := s.env.present s.pins a }

/-- Steps in the order written, stopping at the first that stops (00_scope.md R13, R14). -/
def runOps : List PinOp → Act Unit
  | [] => pure ()
  | op :: ops => do
    runOp op
    runOps ops

/-- Steps that depend on the configuration alone. -/
def runWith (f : Config → List PinOp) : Act Unit := do
  let s ← get
  runOps (f s.cfg)

/-! ### The end of a command -/

/-- The host's kill lands: nothing changes but that the block no longer runs (60_exceptions.md R271; log 13). -/
def State.kill (s : State) : State := { s with phase := .stopped, killIn := none }

/-- A response is given and the block waits for the next command (10_state.md R36, R37). -/
def State.respond (s : State) (r : Reply) : State :=
  { s with phase := .idle, killIn := none, responses := s.responses ++ [{ status := s.status, reply := r }] }

/-- TAKING A FAULT: the fault record is written, all else stays as it was at the raising point, the response
`Fault(code, info)` is given (60_exceptions.md R273 (a) to (d)). -/
def State.takeFault (s : State) (c : Cause) (info : BitVec 24) : State :=
  (s.recordFault c info).respond (.fault c info)

/-- How a command's pseudocode leaves off: it ended with a payload, or it stands at a boundary of its own loop. -/
inductive Progress where
  | done (p : Payload)
  | more (j : Job)
  deriving DecidableEq, Repr

/-- The state after a command's pseudocode, or a stretch of it, has run. A kill set to fall after the last event falls
before the response (60_exceptions.md R271). -/
def settle : EStateM.Result Stop State Progress → State
  | .ok (.done p) s => if s.killIn = some 0 then s.kill else s.respond (.ok p)
  | .ok (.more j) s => { s with phase := .running j }
  | .error (.fault c info) s => if s.killIn = some 0 then s.kill else s.takeFault c info
  | .error .killed s => s.kill

/-- Accepting a command and running it (10_state.md R36): a killed block takes none (60_exceptions.md R271), a faulted
one refuses (R273(e)), and two never run at once (R278). -/
def runCommand (s : State) (body : Act Progress) : Host.Outcome State Fault Refusal :=
  match s.phase with
  | .stopped => .fault .notRunning
  | .running _ => .refused .busy
  | .idle => if s.fault then .refused .faulted else .next (settle (body s))

/-- A command that answers an empty payload. -/
def finish (body : Act Unit) : Act Progress := do
  body
  pure (.done .empty)

/-! ### Illegal words and reset -/

/-- `F_ILLEGAL_CMD` with `cw[39:16]`, no event (30_encoding.md R96). -/
def illegalWord (w : CmdWord) (s : State) : Host.Outcome State Fault Refusal :=
  runCommand s (raise .illegalCmd (w.extractLsb' 16 24))

/-- RESET (70_reset_and_hazards.md R290, R291, R293; 10_state.md R38): all of the block's state is rebuilt from the
record; an invalid one, or an unavailable GPIO subsystem, leaves it faulted with `F_INIT`. The host's queue and the
environment are not the block's: they stand (log 5, 26). DESIGN CHOICE (log 33): a reset that fails gives no response,
since a response ends a command (10_state.md R37) and none is running; 60_exceptions.md R273(d) could be read otherwise. -/
def State.resetWith (s : State) (c : Config) (gpioAvailable : Bool) : State :=
  let ready := gpioAvailable && validConfig c
  { cfg := c
    pins := Vector.replicate 37 Pin.reset
    d := 0
    id := Vector.replicate 4 0
    cur := 0
    fsm := .idle
    fault := !ready
    fcode := if ready then 0 else causeCode .init
    finfo := 0
    phase := .idle
    killIn := none
    host := s.host
    sinkAnswers := s.sinkAnswers
    sinkDraws := s.sinkDraws
    trace := []
    responses := []
    env := s.env.onReset s.pins }

end Sys2Proof.Machine
end

