-- ==== Sys2Proof/Machine/AddressShifter.lean ====
section
/-! DEFINITION. The address shifter: SETADDR and its three strategies (41_address_shifter.md). -/

namespace Sys2Proof.Machine

/-- One clock pulse that carries the bit `b` (41_address_shifter.md R142, R145). -/
def shiftBit (c : Config) (b : Level) : List PinOp :=
  [.shift .asc false, .shift .asd b, .delay (tHalf c), .shift .asc true, .delay (tHalf c)]

/-- The extra clock pulse of the 2-wire shifter (41_address_shifter.md R143). -/
def extraPulse (c : Config) : List PinOp :=
  [.shift .asc false] ++ (if c.xpData = .low then [.shift .asd false] else [])
    ++ [.delay (tHalf c), .shift .asc true, .delay (tHalf c)]

/-- `SETADDR_S2W`: bit 0 first, the extra pulse, the clock left low (41_address_shifter.md R142 to R144). -/
def setaddrTwoWire (c : Config) (a : Addr) : List PinOp :=
  ((List.range (addrBits c)).flatMap fun k => shiftBit c (a.getLsbD k)) ++ extraPulse c ++ [.shift .asc false]

/-- One address byte of the 3-wire shifter, bit 7 first (41_address_shifter.md R145). -/
def shiftByte (c : Config) (a : Addr) (j : Nat) : List PinOp :=
  [7, 6, 5, 4, 3, 2, 1, 0].flatMap fun i => shiftBit c (a.getLsbD (8 * j + i))

/-- The strobe pulse of the 3-wire shifter (41_address_shifter.md R145). -/
def strobePulse (c : Config) : List PinOp :=
  [.shift .asc false, .shift .ass true, .delay (tHalf c), .shift .ass false, .delay (tHalf c)]

/-- `SETADDR_S3W`: bytes least significant first, then the strobe (41_address_shifter.md R145). -/
def setaddrThreeWire (c : Config) (a : Addr) : List PinOp :=
  ((List.range (addrBytes c)).flatMap (shiftByte c a)) ++ strobePulse c

/-- `SETADDR_DIRECT`: every direct line, then one settle delay (41_address_shifter.md R146). -/
def setaddrDirect (c : Config) (a : Addr) : List PinOp :=
  ((directLines.take (addrBits c)).map fun i => .shift (.dal i) (a.getLsbD i.val)) ++ [.delay (tSettle c)]

/-- The configured strategy (41_address_shifter.md R140, R147), and `XADDR` at its end (20_memory.md R74). -/
def setaddrOps (c : Config) (a : Addr) : List PinOp :=
  (match c.mode with
    | .s2w => setaddrTwoWire c a
    | .s3w => setaddrThreeWire c a
    | .direct => setaddrDirect c a
    | .illegal => []) ++ [.address (some a)]

/-- `addr >= 2^N` faults before any event (41_address_shifter.md R141). -/
def checkRange (a : Addr) : Act Unit := fun s =>
  if outOfRange s.cfg a then raise .addrRange a s else .ok () s

/-- The body of `SETADDR` (41_address_shifter.md R140). Reset accepts no configuration with the illegal mode code; in
one, the configuration is what is at fault (log 15). -/
def setAddress (a : Addr) : Act Unit := do
  checkRange a
  let s ← get
  if s.cfg.mode = .illegal then raise .init 0 else runOps (setaddrOps s.cfg a)

/-- `SETADDR addr` (41_address_shifter.md R140). -/
def execSetaddr (addr : Addr) (s : State) : Host.Outcome State Fault Refusal :=
  runCommand s (finish (setAddress addr))

end Sys2Proof.Machine
end

