-- ==== Sys2Proof/Machine/DataBus.lean ====
section
/-! DEFINITION. The data bus controller: BUSDIR, BUSWR, BUSRD (42_data_bus.md). -/

namespace Sys2Proof.Machine

/-- The steps of `BUSDIR`, ascending index (42_data_bus.md R162). -/
def busdirOps (d : Direction) : List PinOp := dataLines.map fun i => .setDir (.dl i) d

/-- The drives of `BUSWR`, ascending index (42_data_bus.md R163). -/
def busDriveOps (v : Byte) : List PinOp := dataLines.map fun i => .drive (.dl i) (v.getLsbD i.val)

/-- The fault of a line with the wrong direction (42_data_bus.md R165). -/
def busCause : Direction → Cause
  | .input => .dirRead
  | .output => .dirWrite

/-- Every line has the direction, before any event; the lowest offender is reported (42_data_bus.md R165). -/
def requireBus (d : Direction) : Act Unit := fun s =>
  match firstOffender s.pins d with
  | some i => raise (busCause d) (indexInfo (roleIndex (.dl i))) s
  | none => .ok () s

/-- The body of `BUSWR` (42_data_bus.md R163). -/
def busWrite (v : Byte) : Act Unit := do
  requireBus .output
  runOps (busDriveOps v)

/-- Samples of data lines, in order. -/
def sampleLines : List (Fin 8) → Act (List Level)
  | [] => pure []
  | i :: is => do
    let l ← sample (.dl i)
    let ls ← sampleLines is
    pure (l :: ls)

/-- The body of `BUSRD`: eight samples composed into `D` (42_data_bus.md R164). -/
def busRead : Act Byte := do
  requireBus .input
  let ls ← sampleLines dataLines
  modify fun s => { s with d := composeByte ls }
  pure (composeByte ls)

/-- `BUSDIR dir` (42_data_bus.md R162). -/
def execBusdir (dir : Direction) (s : State) : Host.Outcome State Fault Refusal :=
  runCommand s (finish (runOps (busdirOps dir)))

/-- `BUSWR value` (42_data_bus.md R163). -/
def execBuswr (value : Byte) (s : State) : Host.Outcome State Fault Refusal :=
  runCommand s (finish (busWrite value))

/-- The body of `BUSRD` as a command (42_data_bus.md R164). -/
def busReadCommand : Act Progress := do
  let v ← busRead
  pure (.done (.byte v))

/-- `BUSRD` (42_data_bus.md R164). -/
def execBusrd (s : State) : Host.Outcome State Fault Refusal := runCommand s busReadCommand

end Sys2Proof.Machine
end

