-- ==== Sys2Proof/Machine/Sequencer.lean ====
section
/-! DEFINITION. The read/write sequencer: IDLESETUP, RDCYC, WRCYC, ALLIN (43_sequencer.md). -/

namespace Sys2Proof.Machine

/-- A pin made an output and driven at once (43_sequencer.md R183). -/
def setUp (r : Role) (l : Level) : List PinOp := [.setDir r .output, .drive r l]

/-- The steps of `IDLESETUP` (43_sequencer.md R183); after them the address lines are unknown. -/
def idleSetupOps (c : Config) : List PinOp :=
  busdirOps .input ++ setUp .we true ++ setUp .oe true ++ ((modeLines c).flatMap fun r => setUp r false)
    ++ [.enter .idle, .address none]

/-- The body of `IDLESETUP` (43_sequencer.md R183). -/
def idleSetup : Act Unit := runWith idleSetupOps

/-- The steps of `ALLIN`: every mapped role, ascending index (43_sequencer.md R194). -/
def allInputOps (c : Config) : List PinOp := (mappedRoles c).map fun r => .setDir r .input

/-- Steps 1 and 2 of the read cycle (43_sequencer.md R186). -/
def readLead (c : Config) : List PinOp :=
  busdirOps .input
    ++ [.drive .we true, .drive .oe true, .delay (tSettle c), .enter .addressSettling]

/-- From the address settling to OE# low and settled: the end of step 3, and step 4 (43_sequencer.md R186). -/
def readOpen (c : Config) : List PinOp :=
  [.delay (tSettle c), .enter .reading, .drive .oe false, .delay (tSettle c)]

/-- Step 6 of the read cycle (43_sequencer.md R186). -/
def readClose (c : Config) : List PinOp := [.drive .oe true, .delay (tSettle c), .enter .idle]

/-- The body of `RDCYC` (43_sequencer.md R186). -/
def readCycle (a : Addr) : Act Byte := do
  checkRange a
  runWith readLead
  setAddress a
  runWith readOpen
  let v ← busRead
  runWith readClose
  pure v

/-- Steps 1 and 2 of the write cycle (43_sequencer.md R190). -/
def writeLead (c : Config) : List PinOp :=
  [.drive .we true, .drive .oe true, .delay (tSettle c)] ++ busdirOps .output ++ [.enter .addressSettling]

/-- The end of step 3, and step 4: the WE# pulse (43_sequencer.md R190). -/
def writePulse (c : Config) : List PinOp :=
  [.delay (tSettle c), .enter .writing, .drive .we false, .delay (tSettle c), .drive .we true,
    .delay (tSettle c), .enter .idle]

/-- The body of `WRCYC` (43_sequencer.md R190). -/
def writeCycle (a : Addr) (v : Byte) : Act Unit := do
  checkRange a
  runWith writeLead
  setAddress a
  busWrite v
  runWith writePulse

/-- `IDLESETUP` (43_sequencer.md R183). -/
def execIdlesetup (s : State) : Host.Outcome State Fault Refusal := runCommand s (finish idleSetup)

/-- The body of `RDCYC` as a command (43_sequencer.md R186). -/
def readCycleCommand (a : Addr) : Act Progress := do
  let v ← readCycle a
  pure (.done (.byte v))

/-- `RDCYC addr` (43_sequencer.md R186). -/
def execRdcyc (addr : Addr) (s : State) : Host.Outcome State Fault Refusal := runCommand s (readCycleCommand addr)

/-- `WRCYC addr, data` (43_sequencer.md R190). -/
def execWrcyc (addr : Addr) (data : Byte) (s : State) : Host.Outcome State Fault Refusal :=
  runCommand s (finish (writeCycle addr data))

/-- `ALLIN` (43_sequencer.md R194). -/
def execAllin (s : State) : Host.Outcome State Fault Refusal := runCommand s (finish (runWith allInputOps))

end Sys2Proof.Machine
end

