-- ==== Sys2Proof/Machine/Composite.lean ====
section
/-! DEFINITION. The composite commands: IDQUERY and DUMP (44_composite.md). -/

namespace Sys2Proof.Machine

/-! ### IDQUERY -/

/-- The three entry writes, in order (44_composite.md R211). -/
def autoselectEntry : List (Addr × Byte) := [(0xAAA, 0xAA), (0x555, 0x55), (0xAAA, 0x90)]

/-- The four identity reads and the `ID` latch each fills, in order (44_composite.md R211, R213). -/
def identityReads : List (Fin 4 × Addr) := [(0, 0x00), (1, 0x02), (2, 0x1C), (3, 0x1E)]

/-- The reset write (44_composite.md R211). -/
def autoselectExit : Addr × Byte := (0x00, 0xF0)

/-- Write cycles in order. -/
def writeAll : List (Addr × Byte) → Act Unit
  | [] => pure ()
  | (a, v) :: rest => do
    writeCycle a v
    writeAll rest

/-- `ID[k] <- RDCYC(a)` for each pair in order. -/
def readIdentity : List (Fin 4 × Addr) → Act Unit
  | [] => pure ()
  | (k, a) :: rest => do
    let v ← readCycle a
    modify fun s => { s with id := s.id.set k.val v }
    readIdentity rest

/-- The `try` body of `IDQUERY`: the eight cycles (44_composite.md R211, R212). -/
def autoselect : Act Unit := do
  writeAll autoselectEntry
  readIdentity identityReads
  writeCycle autoselectExit.1 autoselectExit.2

/-- `try body finally BUSDIR(In)` (00_scope.md R14, 44_composite.md R214): the closing steps run after a fault too,
which is then raised again; nothing runs after a kill (log 27). -/
def closingBus (body : Act Unit) : Act Unit := fun s =>
  match body s with
  | .ok _ t => runOps (busdirOps .input) t
  | .error .killed t => .error .killed t
  | .error (.fault c info) t =>
    match runOps (busdirOps .input) t with
    | .error .killed u => .error .killed u
    | .ok _ u => .error (.fault c info) u
    | .error (.fault _ _) u => .error (.fault c info) u

/-- The body of `IDQUERY` (44_composite.md R212). -/
def identityQuery : Act Progress := do
  idleSetup
  closingBus autoselect
  let s ← get
  printValue (.identity s.id)
  pure (.done (.identity s.id))

/-- `IDQUERY` (44_composite.md R212). -/
def execIdquery (s : State) : Host.Outcome State Fault Refusal := runCommand s identityQuery

/-! ### DUMP -/

/-- One turn of the loop of `DUMP`: one read cycle, one byte to the sink, then the exit test before the increment
(44_composite.md R215 to R217). -/
def dumpTurn : Act Progress := do
  let s ← get
  let v ← readCycle s.cur
  let accepted ← sinkWrite v
  if accepted then
    if s.cur = s.cfg.maxAddr then
      sinkClose
      pure (.done (.count (BitVec.ofNat 32 (s.cfg.maxAddr.toNat + 1))))
    else
      modify fun t => { t with cur := t.cur + 1 }
      pure (.more .dump)
  else
    sinkClose
    raise .sink s.cur

/-- The body of `DUMP` up to the end of its first turn; the later turns are the job's (44_composite.md R215; log 2). -/
def dumpStart : Act Progress := do
  idleSetup
  modify fun s => { s with cur := 0 }
  dumpTurn

/-- `DUMP` (44_composite.md R215). -/
def execDump (s : State) : Host.Outcome State Fault Refusal := runCommand s dumpStart

end Sys2Proof.Machine
end

