-- ==== Sys2Proof/Machine/Diagnostics.lean ====
section
/-! DEFINITION. The diagnostics: OUTTEST, INECHO, IOTEST, OETEST, ADDRTEST (45_diagnostics.md). -/

namespace Sys2Proof.Machine

/-! ### OUTTEST -/

/-- Each line driven to its bit of a pattern (45_diagnostics.md R231; log 10). -/
def driveLines (c : Config) (lines : List Role) (p : BitVec 37) : List PinOp :=
  lines.map fun r => .drive r (p.getLsbD c.outBit[r.slot].val)

/-- Each line driven to bit `Role.slot` of the levels. -/
def driveLevels (lines : List Role) (levels : BitVec 37) : List PinOp :=
  lines.map fun r => .drive r (levels.getLsbD r.slot.val)

/-- The lines made outputs. -/
def outputOps (lines : List Role) : List PinOp := lines.map fun r => .setDir r .output

/-- How `OUTTEST` leaves its lines (45_diagnostics.md R231; log 10). -/
def outEndOps (c : Config) : List PinOp :=
  (match c.outLast with
    | some levels => driveLevels (outputLines c) levels
    | none => [])
    ++ (releasedLines c).map fun r => .setDir r .input

/-- The steps of `OUTTEST` (45_diagnostics.md R231). -/
def outTestOps (c : Config) : List PinOp :=
  outputOps (outputLines c)
    ++ (c.outPatterns.toList.flatMap fun p => driveLines c (outputLines c) p ++ [.delay (milliseconds c.tPattern)])
    ++ outEndOps c

/-- `OUTTEST` (45_diagnostics.md R231). -/
def execOuttest (s : State) : Host.Outcome State Fault Refusal := runCommand s (finish (runWith outTestOps))

/-! ### INECHO -/

/-- One turn of the loop of `INECHO` (45_diagnostics.md R232). -/
def echoTurn : Act Progress := do
  let v ← busRead
  printValue (.byte v)
  runWith fun c => [.delay (milliseconds c.tEcho)]
  pure (.more .inEcho)

/-- What `INECHO` touches before its loop (45_diagnostics.md R232; log 10). -/
def echoOps (c : Config) : List PinOp :=
  ((echoTouches c).flatMap fun x => [.setDir x.1 .output, .drive x.1 x.2]) ++ busdirOps .input

/-- The body of `INECHO` up to the end of its first turn (45_diagnostics.md R232; log 2). -/
def echoStart : Act Progress := do
  runWith echoOps
  echoTurn

/-- `INECHO` (45_diagnostics.md R232). -/
def execInecho (s : State) : Host.Outcome State Fault Refusal := runCommand s echoStart

/-! ### IOTEST -/

/-- The values the operator presents, in order (45_diagnostics.md R233). -/
def handshake : List (BitVec 4) := [0x0, 0x5, 0xA]

/-- The lines of the output phase (45_diagnostics.md R233; log 9). -/
def ioOutputLines (c : Config) : List Role := ioRoles c c.ioOutputs

/-- The drives of one pattern (45_diagnostics.md R233; log 9). -/
def ioPatternOps (c : Config) (levels : BitVec 37) : List PinOp :=
  driveLevels (ioOutputLines c) levels

/-- The output phase: the configuration's patterns on its lines (45_diagnostics.md R233; log 9). -/
def ioOutputOps (c : Config) : List PinOp :=
  outputOps (ioOutputLines c)
    ++ c.ioPatterns.flatMap fun p => ioPatternOps c p.levels ++ [.delay p.hold]

/-- The lines that blink (45_diagnostics.md R233; log 9). -/
def blinkLines (c : Config) : List Role := ioRoles c c.ioBlink

/-- The level that is on, for a line of the blink phase (45_diagnostics.md R233; log 9). -/
def onLevel (c : Config) (r : Role) : Level := c.ioOnLevels.getLsbD r.slot.val

/-- One blink, the first or the second: on, then off (45_diagnostics.md R233; log 9). -/
def blinkOnce (c : Config) (k : Fin 2) : List PinOp :=
  ((blinkLines c).map fun r => .drive r (onLevel c r)) ++ [.delay c.ioOn[k]]
    ++ ((blinkLines c).map fun r => .drive r (!onLevel c r)) ++ [.delay c.ioOff[k]]

/-- The blink phase: two blinks (45_diagnostics.md R233). -/
def blinkOps (c : Config) : List PinOp := outputOps (blinkLines c) ++ blinkOnce c 0 ++ blinkOnce c 1

/-- What is waited after a poll that leaves its value awaited (45_diagnostics.md R233; log 9). -/
def pollOps (c : Config) : List PinOp :=
  match c.ioPoll with
  | some us => [.delay us]
  | none => []

/-- The end of `IOTEST`. -/
def blinkEnd : Act Progress := do
  runWith blinkOps
  pure (.done .empty)

/-- One poll of the wait phase (45_diagnostics.md R233); `found` polls in a row have found the awaited value before it.
R233 and `91_not_in_source.md` N16 leave debouncing open: the configuration says how many more polls in a row must find the
value once one has (log 9). The last value found for good, the blink phase. -/
def ioTurn : List (BitVec 4) → Nat → Act Progress
  | [], _ => blinkEnd
  | e :: rest, found => do
    let v ← busRead
    let s ← get
    if handshakeValue s.cfg v = e then
      if found < s.cfg.ioMatches then
        runWith pollOps
        pure (.more (.ioTest (e :: rest) (found + 1)))
      else if rest.isEmpty then blinkEnd else pure (.more (.ioTest rest 0))
    else
      runWith pollOps
      pure (.more (.ioTest (e :: rest) 0))

/-- The body of `IOTEST` up to its wait phase (45_diagnostics.md R233; log 2). -/
def ioStart : Act Progress := do
  runWith ioOutputOps
  runOps (busdirOps .input)
  pure (.more (.ioTest handshake 0))

/-- `IOTEST` (45_diagnostics.md R233). -/
def execIotest (s : State) : Host.Outcome State Fault Refusal := runCommand s ioStart

/-! ### OETEST -/

/-- One period of `OETEST` (45_diagnostics.md R234). -/
def oePeriod (c : Config) : List PinOp :=
  [.drive .oe false, .delay (milliseconds c.tOeHalf), .drive .oe true, .delay (milliseconds c.tOeHalf)]

/-- One turn of the loop of `OETEST` (45_diagnostics.md R234). -/
def oeTurn : Act Progress := do
  runWith oePeriod
  pure (.more .oeTest)

/-- The body of `OETEST` up to the end of its first turn (45_diagnostics.md R234; log 2). -/
def oeStart : Act Progress := do
  idleSetup
  oeTurn

/-- `OETEST` (45_diagnostics.md R234). -/
def execOetest (s : State) : Host.Outcome State Fault Refusal := runCommand s oeStart

/-! ### ADDRTEST -/

/-- `Check(a)` (45_diagnostics.md R235, R237). -/
def checkAddress (a : Addr) : Act Unit := do
  setAddress a
  runWith fun c => [.delay (tSettle c)]
  let v ← busRead
  if v = lowByte a then pure ()
  else
    printValue (.mismatch (lowByte a) v)
    raise .verify (verifyInfo (lowByte a) v)

/-- Checks in order, stopping at the first that fails (45_diagnostics.md R237). -/
def checkAll : List Addr → Act Unit
  | [] => pure ()
  | a :: rest => do
    checkAddress a
    checkAll rest

/-- The addresses checked: the broadcast patterns, the walking bit, the fixed set (45_diagnostics.md R235). -/
def testAddresses (c : Config) : List Addr :=
  (c.addrPatterns.toList.map fun p => truncateAddr c (broadcast p))
    ++ ((List.range (addrBits c)).map fun i => (1 : Addr) <<< i)
    ++ c.addrRandom.toList.map (truncateAddr c)

/-- The body of `ADDRTEST` (45_diagnostics.md R235). -/
def addressTest : Act Unit := do
  let s ← get
  if s.cfg.mode = .direct then raise .mode 0x64
  else
    idleSetup
    checkAll (testAddresses s.cfg)

/-- `ADDRTEST` (45_diagnostics.md R235). -/
def execAddrtest (s : State) : Host.Outcome State Fault Refusal := runCommand s (finish addressTest)

end Sys2Proof.Machine
end

