-- ==== Sys2Proof/Machine/Gpio.lean ====
section
/-! DEFINITION. The GPIO port abstraction: CFGDIR, PINWR, PINRD (40_gpio.md). -/

namespace Sys2Proof.Machine

/-- A role operand: an index that names no role of the enumeration is unmapped (40_gpio.md R121; log 25). -/
def withRole {α : Type} (ix : RoleIndex) (f : Role → Act α) : Act α :=
  match roleOfIndex ix with
  | some r => f r
  | none => raise .role (indexInfo ix)

/-- `CFGDIR role, dir` (40_gpio.md R127). -/
def execCfgdir (role : RoleIndex) (dir : Direction) (s : State) : Host.Outcome State Fault Refusal :=
  runCommand s (finish (withRole role fun r => setDir r dir))

/-- `PINWR role, level` (40_gpio.md R128). -/
def execPinwr (role : RoleIndex) (level : Level) (s : State) : Host.Outcome State Fault Refusal :=
  runCommand s (finish (withRole role fun r => drive r level false))

/-- The body of `PINRD` (40_gpio.md R129). -/
def pinRead (role : RoleIndex) : Act Progress := do
  let l ← withRole role sample
  pure (.done (.level l))

/-- `PINRD role` (40_gpio.md R129). -/
def execPinrd (role : RoleIndex) (s : State) : Host.Outcome State Fault Refusal :=
  runCommand s (pinRead role)

end Sys2Proof.Machine
end

