-- ==== Sys2Proof/Machine/Dispatch.lean ====
section
/-! DEFINITION. One arm per command. -/

namespace Sys2Proof.Machine

/-- What a command does (30_encoding.md R95, column "rule"). -/
def exec (i : Instr) (s : State) : Host.Outcome State Fault Refusal :=
  match i with
  | .cfgdir role dir => Sys2Proof.Machine.execCfgdir role dir s
  | .pinwr role level => Sys2Proof.Machine.execPinwr role level s
  | .pinrd role => Sys2Proof.Machine.execPinrd role s
  | .setaddr addr => Sys2Proof.Machine.execSetaddr addr s
  | .busdir dir => Sys2Proof.Machine.execBusdir dir s
  | .buswr value => Sys2Proof.Machine.execBuswr value s
  | .busrd => Sys2Proof.Machine.execBusrd s
  | .idlesetup => Sys2Proof.Machine.execIdlesetup s
  | .rdcyc addr => Sys2Proof.Machine.execRdcyc addr s
  | .wrcyc addr data => Sys2Proof.Machine.execWrcyc addr data s
  | .allin => Sys2Proof.Machine.execAllin s
  | .idquery => Sys2Proof.Machine.execIdquery s
  | .dump => Sys2Proof.Machine.execDump s
  | .outtest => Sys2Proof.Machine.execOuttest s
  | .inecho => Sys2Proof.Machine.execInecho s
  | .iotest => Sys2Proof.Machine.execIotest s
  | .oetest => Sys2Proof.Machine.execOetest s
  | .addrtest => Sys2Proof.Machine.execAddrtest s

end Sys2Proof.Machine
end

