-- ==== Sys2Proof/Machine/Jobs.lean ====
section
/-! DEFINITION. Going on with a running command (log 2). -/

namespace Sys2Proof.Machine

/-- The next turn of a running command's loop (44_composite.md R215, 45_diagnostics.md R232 to R234). -/
def jobTurn : Job → Act Progress
  | .dump => dumpTurn
  | .inEcho => echoTurn
  | .oeTest => oeTurn
  | .ioTest await found => ioTurn await found

/-- A running command goes on. -/
def resume (j : Job) (s : State) : State := settle (jobTurn j s)

/-- A running command: the host may kill it (60_exceptions.md R271) and can do nothing else to it (R278). -/
def whileRunning (j : Job) (s : State) : State :=
  match s.host with
  | .kill :: rest => { s with host := rest }.kill
  | _ => resume j s

end Sys2Proof.Machine
end

