-- ==== Sys2Proof/Machine/HostMoves.lean ====
section
/-! DEFINITION. The host's moves (60_exceptions.md R271, R273, R278): what the next one does, and the command lines of
the source as moves (30_encoding.md R112). -/

namespace Sys2Proof.Machine

/-- A command word as the host hands it over, with the kill that goes with it (60_exceptions.md R271, R278). -/
def State.handOver (s : State) (killAfter : Option Nat) (rest : List HostMove) : State :=
  { s with host := rest, killIn := killAfter }

/-- A command word handed to a block that is not running a command: stuck after a kill, refused without decoding after
a fault, else decoded and run (30_encoding.md R99, R96; 60_exceptions.md R271, R273(e)). -/
def takeWord (w : CmdWord) (s : State) : Host.Outcome State Fault Refusal :=
  if s.phase = .stopped then .fault .notRunning
  else if s.fault then .refused .faulted
  else
    match decode w with
    | .ok i => exec i s
    | .error _ => illegalWord w s

/-- What happens next: a turn of the running command, or the host's next move. With no move from the host the block waits (60_exceptions.md R287; log 3). -/
def nextStep (s : State) : Host.Outcome State Fault Refusal :=
  match s.phase with
  | .running j => .next (whileRunning j s)
  | _ =>
    match s.host with
    | [] => .next s
    | .command w killAfter :: rest => takeWord w (s.handOver killAfter rest)
    | .kill :: rest => .next { s with host := rest }.kill
    | .reset c gpioAvailable :: rest => .next ({ s with host := rest }.resetWith c gpioAvailable)

/-- The source's command lines (30_encoding.md R112). -/
inductive CommandLine where
  | dumpTo
  | d | i | o | y | e | a | bigI
  deriving DecidableEq, Repr

/-- The one command of a run (30_encoding.md R112). -/
def CommandLine.instr : CommandLine → Instr
  | .dumpTo => .dump
  | .d => .idquery
  | .i => .inecho
  | .o => .outtest
  | .y => .iotest
  | .e => .oetest
  | .a => .addrtest
  | .bigI => .allin

/-- A run: one reset, then the one command (30_encoding.md R112, 70_reset_and_hazards.md R292). -/
def CommandLine.moves (l : CommandLine) (c : Config) (gpioAvailable : Bool) : List HostMove :=
  [.reset c gpioAvailable, .command (encode l.instr) none]

end Sys2Proof.Machine
end

