-- ==== Sys2Proof/Machine/Step.lean ====
section
/-! DEFINITION. One step, and the host's probe. -/

namespace Sys2Proof.Machine

/-- One step of the machine (60_exceptions.md R271, R273, R278). -/
def step (s : State) : Host.Outcome State Fault Refusal := nextStep s

/-- The host's probe: the word is the host's next move, and the block takes it (log 4): it waits, unfaulted. -/
def State.withFetchWord (s : State) (nbits w : Nat) : State :=
  { s with
    phase := .idle
    fault := false
    fcode := 0
    finfo := 0
    host := .command (BitVec.ofNat 40 (w % 2 ^ nbits)) none :: s.host }

end Sys2Proof.Machine
end

