-- ==== Sys2Proof/Safety.lean ====
section
/-! DEFINITION. The terms claims are made in: when a command is accepted, what a command leaves alone, what an answered
command looks like, the pin setup the cycles need, bus safety, and the invariant every step keeps. -/

namespace Sys2Proof.Machine

/-! ### Hypotheses -/

/-- The block takes a command word: none is running and `FAULT = 0` (10_state.md R36). -/
def State.Accepting (s : State) : Prop := s.phase = .idle ∧ s.fault = false

/-- The block takes a command and the host does not kill it: the named premise "no kill" (60_exceptions.md R271). -/
def State.Undisturbed (s : State) : Prop := s.Accepting ∧ s.killIn = none

/-- The host's next move, if it has any, is no kill: a running command goes on whatever else waits (60_exceptions.md R278). -/
def State.NoKillWaiting (s : State) : Prop := ∀ rest, s.host ≠ .kill :: rest

/-- The next step is a reset: no command is running, and the host's next move is one (70_reset_and_hazards.md R290). -/
def State.AtReset (s : State) : Prop := (∀ j, s.phase ≠ .running j) ∧ ∃ c g rest, s.host = .reset c g :: rest

/-- Every listed role is mapped and is an output. -/
def State.OutputsReady (s : State) (rs : List Role) : Prop :=
  ∀ r ∈ rs, mapped s.cfg r = true ∧ s.dir r = some .output

/-- The output patterns are what R231 (45_diagnostics.md) says of the source's: sequential counting, then all-on/all-off, then
alternating bits. DESIGN CHOICE (log 7): the count goes up by one, the two patterns of the other kinds stand in turn, and
each kind has at least two. A premise for claims about such a list; the configuration may hold any. -/
def ThreeKinds (ps : Vector (BitVec 37) 32) : Prop :=
  ∃ counting switching alternating : List (BitVec 37), ps.toList = counting ++ switching ++ alternating
    ∧ 2 ≤ counting.length ∧ 2 ≤ switching.length ∧ 2 ≤ alternating.length
    ∧ counting.IsChain (fun p q => q = p + 1)
    ∧ (∀ p ∈ switching, p = 0x1FFFFFFFFF ∨ p = 0) ∧ switching.IsChain (fun p q => q = ~~~p)
    ∧ (∀ p ∈ alternating, p = 0x1555555555 ∨ p = 0x0AAAAAAAAA) ∧ alternating.IsChain (fun p q => q = ~~~p)

/-- The pins are set up for cycles, as IDLESETUP leaves them: WE#, OE# and the mode's address-control lines are
outputs (60_exceptions.md R279). -/
def State.SetUp (s : State) : Prop := s.OutputsReady (.we :: .oe :: modeLines s.cfg)

/-- WE# and OE# are driven high, as between commands after IDLESETUP (43_sequencer.md R181). -/
def State.ControlsHigh (s : State) : Prop := s.out .we = some true ∧ s.out .oe = some true

/-! ### Frames -/

/-- What every command leaves alone: the configuration, the host's queue, the environment's wiring and premises, the
chip's contents byte by byte and its identity, and the latches of every role not listed. -/
def Keeps (s t : State) (changed : List Role) : Prop :=
  t.cfg = s.cfg ∧ t.host = s.host
    ∧ t.env.wiring = s.env.wiring ∧ t.env.weIdleHigh = s.env.weIdleHigh
    ∧ (∀ a, Memory.lookup t.env.flash a = Memory.lookup s.env.flash a) ∧ t.env.flashId = s.env.flashId
    ∧ ∀ r, r ∉ changed → t.dir r = s.dir r ∧ t.out r = s.out r

/-- The host's sink answers are left alone. -/
def KeepsSink (s t : State) : Prop := t.sinkAnswers = s.sinkAnswers ∧ t.sinkDraws = s.sinkDraws

/-- The result latches, the cursor, `FSM` and the fault record are left alone. -/
def KeepsRegisters (s t : State) : Prop :=
  t.d = s.d ∧ t.id = s.id ∧ t.cur = s.cur ∧ t.fsm = s.fsm
    ∧ t.fault = s.fault ∧ t.fcode = s.fcode ∧ t.finfo = s.finfo

/-- The fault record is left alone. -/
def KeepsFault (s t : State) : Prop := t.fault = s.fault ∧ t.fcode = s.fcode ∧ t.finfo = s.finfo

/-- The directions of every role are left alone. -/
def KeepsDirections (s t : State) : Prop := ∀ r, t.dir r = s.dir r

/-! ### The events the rules write down -/

/-- The events of `BUSDIR` (42_data_bus.md R162). -/
def busDirEvents (d : Direction) : List Event := dataLines.map fun i => .dir (.dl i) d

/-- The drives of `BUSWR` (42_data_bus.md R163). -/
def busDriveEvents (v : Byte) : List Event := dataLines.map fun i => .drv (.dl i) (v.getLsbD i.val)

/-- The samples of `BUSRD` that the environment answers with these levels (42_data_bus.md R164). -/
def busSampleEvents (ls : List Level) : List Event := List.zipWith (fun i l => .smp (.dl i) l) dataLines ls

/-- The levels the environment presents on these data lines, one sample after the other (20_memory.md R66, R70). -/
def Env.levels (p : Pins) : List (Fin 8) → Env → List Level
  | [], _ => []
  | i :: is, e => (e.pinIn p (.dl i)).1 :: Env.levels p is (e.pinIn p (.dl i)).2

/-- The levels on the data line of the 2-wire shifter: `t[0]`, then `t >> 1`, so often (41_address_shifter.md R142). -/
def serialBits : Nat → Addr → List Level
  | 0, _ => []
  | n + 1, t => t.getLsbD 0 :: serialBits n (t >>> 1)

/-- One clock pulse with its data bit (41_address_shifter.md R142, R145). -/
def pulseEvents (c : Config) (b : Level) : List Event :=
  [.drv .asc false, .drv .asd b, .dly c.tHalf.toNat, .drv .asc true, .dly c.tHalf.toNat]

/-- The extra clock pulse (41_address_shifter.md R143). -/
def extraPulseEvents (c : Config) : List Event :=
  match c.xpData with
  | .hold => [.drv .asc false, .dly c.tHalf.toNat, .drv .asc true, .dly c.tHalf.toNat]
  | .low => pulseEvents c false

/-- The events of `SETADDR_S2W` (41_address_shifter.md R142 to R144). -/
def twoWireEvents (c : Config) (a : Addr) : List Event :=
  (serialBits c.addrBits.toNat a).flatMap (pulseEvents c) ++ extraPulseEvents c ++ [.drv .asc false]

/-- Byte `j` of an address from its bit 7 down (41_address_shifter.md R145). -/
def byteBits (a : Addr) (j : Nat) : List Level :=
  [7, 6, 5, 4, 3, 2, 1, 0].map fun i => ((a >>> (8 * j)).extractLsb' 0 8).getLsbD i

/-- The events of `SETADDR_S3W` (41_address_shifter.md R145). -/
def threeWireEvents (c : Config) (a : Addr) : List Event :=
  ((List.range ((c.addrBits.toNat + 7) / 8)).flatMap (byteBits a)).flatMap (pulseEvents c)
    ++ [.drv .asc false, .drv .ass true, .dly c.tHalf.toNat, .drv .ass false, .dly c.tHalf.toNat]

/-- The events of `SETADDR_DIRECT` (41_address_shifter.md R146). -/
def directEvents (c : Config) (a : Addr) : List Event :=
  ((directLines.take c.addrBits.toNat).map fun i => .drv (.dal i) (a.getLsbD i.val)) ++ [.dly c.tSettle.toNat]

/-- The events of `SETADDR` (41_address_shifter.md R140). -/
def addressEvents (c : Config) (a : Addr) : List Event :=
  match c.mode with
  | .s2w => twoWireEvents c a
  | .s3w => threeWireEvents c a
  | .direct => directEvents c a
  | .illegal => []

/-- The events of `IDLESETUP` (43_sequencer.md R183). -/
def idleEvents (c : Config) : List Event :=
  busDirEvents .input ++ [.dir .we .output, .drv .we true, .dir .oe .output, .drv .oe true]
    ++ match c.mode with
      | .s2w => [.dir .asd .output, .drv .asd false, .dir .asc .output, .drv .asc false]
      | .s3w =>
        [.dir .asd .output, .drv .asd false, .dir .asc .output, .drv .asc false, .dir .ass .output, .drv .ass false]
      | .direct => (directLines.take c.addrBits.toNat).flatMap fun i => [.dir (.dal i) .output, .drv (.dal i) false]
      | .illegal => []

/-- The events of `RDCYC` when the environment answers the samples with these levels (43_sequencer.md R186). -/
def readEvents (c : Config) (a : Addr) (ls : List Level) : List Event :=
  busDirEvents .input ++ [.drv .we true, .drv .oe true, .dly c.tSettle.toNat] ++ addressEvents c a
    ++ [.dly c.tSettle.toNat, .drv .oe false, .dly c.tSettle.toNat] ++ busSampleEvents ls
    ++ [.drv .oe true, .dly c.tSettle.toNat]

/-- The events of `WRCYC` (43_sequencer.md R190). -/
def writeEvents (c : Config) (a : Addr) (v : Byte) : List Event :=
  [.drv .we true, .drv .oe true, .dly c.tSettle.toNat] ++ busDirEvents .output ++ addressEvents c a
    ++ busDriveEvents v
    ++ [.dly c.tSettle.toNat, .drv .we false, .dly c.tSettle.toNat, .drv .we true, .dly c.tSettle.toNat]

/-- The addresses `ADDRTEST` checks, in order: the 32 broadcast bytes `{p, p, p}` and the eight pseudo-random addresses,
cut to `N` bits, and between them the walking bit (45_diagnostics.md R235, R236). -/
def checkedAddresses (c : Config) : List Addr :=
  (c.addrPatterns.toList.map fun p => BitVec.ofNat 24 (0x010101 * p.toNat % 2 ^ c.addrBits.toNat))
    ++ ((List.range c.addrBits.toNat).map fun i => BitVec.ofNat 24 (2 ^ i))
    ++ c.addrRandom.toList.map fun a => BitVec.ofNat 24 (a.toNat % 2 ^ c.addrBits.toNat)

/-- The events of one check that passes (45_diagnostics.md R235). -/
def checkEvents (c : Config) (a : Addr) : List Event :=
  addressEvents c a ++ [.dly c.tSettle.toNat] ++ busSampleEvents (byteLevels (lowByte a))

/-- `r` is the first line that `SETADDR a` drives although it is no output, and `before` are the events until then: the
clock first, then the data line, then the strobe, or the direct lines ascending (41_address_shifter.md R142, R145,
R146, R150). -/
def FirstMissing (s : State) (a : Addr) (r : Role) (before : List Event) : Prop :=
  s.dir r ≠ some .output
    ∧ match s.cfg.mode with
      | .s2w =>
        (r = .asc ∧ before = [])
          ∨ (r = .asd ∧ s.dir .asc = some .output ∧ before = [.drv .asc false])
      | .s3w =>
        (r = .asc ∧ before = [])
          ∨ (r = .asd ∧ s.dir .asc = some .output ∧ before = [.drv .asc false])
          ∨ (r = .ass ∧ s.dir .asc = some .output ∧ s.dir .asd = some .output
            ∧ before = ((List.range ((s.cfg.addrBits.toNat + 7) / 8)).flatMap (byteBits a)).flatMap
                (pulseEvents s.cfg) ++ [.drv .asc false])
      | .direct =>
        ∃ k : Fin 24, k.val < s.cfg.addrBits.toNat ∧ r = .dal k
          ∧ (∀ i : Fin 24, i < k → s.dir (.dal i) = some .output)
          ∧ before = (directLines.take k.val).map fun i => .drv (.dal i) (a.getLsbD i.val)
      | .illegal => False

/-! ### What a trace says -/

/-- The latches after an event (00_scope.md R11). -/
def Event.onPins (p : Pins) : Event → Pins
  | .dir r d => setDirPins p r d
  | .drv r l => drivePins p r l
  | .smp _ _ => p
  | .dly _ => p
  | .sink _ _ => p
  | .close => p
  | .print _ => p

/-- The latches after a list of events: every change of a latch is an event (00_scope.md R11, R16). -/
def latchesAfter (p : Pins) (es : List Event) : Pins := es.foldl Event.onPins p

/-- Rising edges of a line: drives to 1 when its latch was 0 (20_memory.md R71); `before` is the latch at the start. -/
def risingEdges (r : Role) : Option Level → List Event → Nat
  | _, [] => 0
  | before, .drv r' l :: es =>
    if r' = r then (if before = some false ∧ l = true then 1 else 0) + risingEdges r (some l) es
    else risingEdges r before es
  | before, _ :: es => risingEdges r before es

/-- The drives of a line. -/
def drivesOf (r : Role) (es : List Event) : List Event :=
  es.filter fun e => match e with
    | .drv r' _ => decide (r' = r)
    | _ => false

/-- The delays of a trace. -/
def delaysOf (es : List Event) : List Nat :=
  es.filterMap fun e => match e with
    | .dly us => some us
    | _ => none

/-! ### Outcomes -/

/-- The command emitted exactly these events. -/
def Emitted (s t : State) (es : List Event) : Prop := t.trace = s.trace ++ es

/-- The command ended with this reply and the block waits again (10_state.md R36, R37). -/
def Answered (s t : State) (r : Reply) : Prop :=
  t.phase = .idle ∧ t.killIn = none ∧ t.responses = s.responses ++ [{ status := t.status, reply := r }]

/-- The command is still running, at a boundary of its loop, and has given no response. -/
def GoesOn (s t : State) (j : Job) : Prop :=
  t.phase = .running j ∧ t.killIn = none ∧ t.responses = s.responses

/-- The fault record says this (60_exceptions.md R273 (b)). -/
def Faulted (t : State) (c : Cause) (info : BitVec 24) : Prop :=
  t.fault = true ∧ t.fcode = causeCode c ∧ t.finfo = info

/-- The command faulted before its first event: the fault record and the response, and nothing else (60_exceptions.md
R273). -/
def FaultedAtOnce (s t : State) (c : Cause) (info : BitVec 24) : Prop :=
  Faulted t c info ∧ Answered s t (.fault c info) ∧ Emitted s t []
    ∧ t.pins = s.pins ∧ t.d = s.d ∧ t.id = s.id ∧ t.cur = s.cur ∧ t.fsm = s.fsm
    ∧ t.env = s.env ∧ t.cfg = s.cfg ∧ t.host = s.host ∧ KeepsSink s t

/-- The command faulted after these events, which stand (43_sequencer.md R195): no register but the fault record and
the latches that the events themselves set. -/
def FaultedAfter (s t : State) (c : Cause) (info : BitVec 24) (es : List Event) : Prop :=
  Faulted t c info ∧ Answered s t (.fault c info) ∧ Emitted s t es ∧ t.pins = latchesAfter s.pins es
    ∧ t.d = s.d ∧ t.id = s.id ∧ t.cur = s.cur ∧ t.cfg = s.cfg ∧ t.host = s.host ∧ KeepsSink s t

/-- The payloads a command may answer (10_state.md R37); `c` is the configuration. -/
def PayloadOf (c : Config) (i : Instr) (p : Payload) : Prop :=
  match i with
  | .pinrd _ => ∃ l, p = .level l
  | .busrd => ∃ v, p = .byte v
  | .rdcyc _ => ∃ v, p = .byte v
  | .idquery => ∃ ids, p = .identity ids
  | .dump => p = .count (BitVec.ofNat 32 (c.maxAddr.toNat + 1))
  | .inecho => False
  | .oetest => False
  | _ => p = .empty

/-! ### Where a cycle leaves the pins -/

/-- The data lines as roles. -/
def dataRoles : List Role := dataLines.map .dl

/-- The address-control lines after `SETADDR a` (41_address_shifter.md R144, R145, R146). -/
def AddressLeft (t : State) (a : Addr) : Prop :=
  match t.cfg.mode with
  | .s2w =>
    t.out .asc = some false
      ∧ t.out .asd = some (match t.cfg.xpData with
        | .hold => a.getLsbD (t.cfg.addrBits.toNat - 1)
        | .low => false)
  | .s3w =>
    t.out .asc = some false ∧ t.out .ass = some false
      ∧ t.out .asd = some (a.getLsbD (8 * ((t.cfg.addrBits.toNat + 7) / 8 - 1)))
  | .direct => ∀ i : Fin 24, i.val < t.cfg.addrBits.toNat → t.out (.dal i) = some (a.getLsbD i.val)
  | .illegal => True

/-- What a cycle leaves alone besides `Keeps`: the identity, the cursor, the fault record, the sink, and the direction
of every role but the data lines (43_sequencer.md R186, R190). -/
def CycleKeeps (s t : State) : Prop :=
  Keeps s t (dataRoles ++ [.we, .oe] ++ modeLines s.cfg) ∧ t.id = s.id ∧ t.cur = s.cur ∧ KeepsFault s t
    ∧ KeepsSink s t ∧ ∀ r, r ∉ dataRoles → t.dir r = s.dir r

/-- The pins after a read cycle (43_sequencer.md R186): bus `In` with its latches kept, OE# and WE# high, the address on
its lines, the sequencer idle. -/
def AfterRead (s t : State) (a : Addr) : Prop :=
  (∀ i, t.dir (.dl i) = some .input ∧ t.out (.dl i) = s.out (.dl i)) ∧ t.ControlsHigh ∧ AddressLeft t a
    ∧ t.fsm = .idle

/-- The pins after a write cycle (43_sequencer.md R190): the bus still `Out`, carrying the byte. -/
def AfterWrite (t : State) (a : Addr) (v : Byte) : Prop :=
  (∀ i, t.dir (.dl i) = some .output ∧ t.out (.dl i) = some (v.getLsbD i.val)) ∧ t.ControlsHigh ∧ AddressLeft t a
    ∧ t.fsm = .idle

/-! ### The reference environment's premises -/

/-- The premises of a claim about the attached chip (20_memory.md R75, R77): it is there, in its read mode, WE# idles
high and is not held low, and there is no contention. -/
def ChipReady (s : State) : Prop :=
  s.env.wiring = .flash ∧ s.env.weIdleHigh = true ∧ s.env.fmode = .array ∧ drives s.pins .we false = false
    ∧ s.env.contention = false ∧ contending s.pins = false

/-! ### Bus safety -/

/-- No contention has happened and none is there (70_reset_and_hazards.md R298). -/
def BusSafe (s : State) : Prop := s.env.contention = false ∧ contending s.pins = false

/-! ### The invariant -/

/-- What holds of every state a run reaches: an unfaulted block has a valid configuration (70_reset_and_hazards.md
R293) and a fault record that reads zero (10_state.md R34); the cursor is within the dump's bounds (R26); unless it is
faulted or killed its sequencer is idle (R27); a faulted record holds one of the nine codes (60_exceptions.md R261);
unmapped roles are never touched (40_gpio.md R121); a running command is not faulted; the chip's memory has its
canonical form. -/
structure Inv (s : State) : Prop where
  valid : s.fault = false → validConfig s.cfg = true
  clear : s.fault = false → s.fcode = 0 ∧ s.finfo = 0
  cursor : s.cur.toNat ≤ s.cfg.maxAddr.toNat
  code : s.fault = true → 1 ≤ s.fcode.toNat ∧ s.fcode.toNat ≤ 9
  resting : s.fault = false → s.phase ≠ .stopped → s.fsm = .idle
  running : ∀ j, s.phase = .running j → s.fault = false
  untouched : ∀ r, mapped s.cfg r = false → s.dir r = none ∧ s.out r = none
  memory : Memory.wf s.env.flash = true

end Sys2Proof.Machine
end

