-- ==== Sys2Proof/Certificates/Slice0/Obligations.lean ====
section
/-! DEFINITION. The statements for the provers. Each docstring names the rules of spec/ it comes from. -/

section

open Sys2Proof Sys2Proof.Machine

/-! ### Encoding -/

/-- Words written out from the formats (30_encoding.md R91, R95) decode to the commands they stand for. -/
def Obligations.SampleWordsDecode : Prop :=
  decode 0x1000000801 = .ok (.cfgdir 8 .output) ∧ decode 0x1200000300 = .ok (.pinrd 3)
    ∧ decode 0x20ABCDEF00 = .ok (.setaddr 0xABCDEF) ∧ decode 0x31000000A5 = .ok (.buswr 0xA5)
    ∧ decode 0x42000AAAAA = .ok (.wrcyc 0xAAA 0xAA) ∧ decode 0x5100000000 = .ok .dump
    ∧ decode 0x6400000000 = .ok .addrtest ∧ decode 0x1200000301 = .error .mustBeZero
    ∧ decode 0x1100000D00 = .error .noSuchRole ∧ decode 0x0000000000 = .error .unknownOpcode

/-- No bit of an encoding is dropped: the word of a well-formed command decodes to that command (30_encoding.md R91 to
R95). -/
def Obligations.DecodeEncodeRoundTrip : Prop := ∀ i : Instr, i.wellFormed = true → decode (encode i) = .ok i

/-- A word that decodes is the word of the command it decodes to, and that command is well-formed (30_encoding.md R91,
R92, R94). -/
def Obligations.DecodedWordIsItsEncoding : Prop :=
  ∀ (w : CmdWord) (i : Instr), decode w = .ok i → i.wellFormed = true ∧ encode i = w

/-- The decoder and the opcode table agree (30_encoding.md R95): a word decodes exactly when it selects a row, it then
decodes to that row's command, and no word selects two rows (R99). -/
def Obligations.DecodingFollowsTheTable : Prop :=
  (∀ (w : CmdWord) (i : Instr), decode w = .ok i →
      ∃ row ∈ opcodeTable, row.mnemonic = i.mnemonic ∧ row.selects w = true)
    ∧ (∀ (w : CmdWord), ∀ row ∈ opcodeTable, row.selects w = true →
      ∃ i, decode w = .ok i ∧ i.mnemonic = row.mnemonic)
    ∧ opcodeTable.Pairwise fun a b => ∀ w : CmdWord, ¬(a.selects w = true ∧ b.selects w = true)

/-- An illegal word, one that selects no row of the table, raises `F_ILLEGAL_CMD` with `cw[39:16]`, emits no event and
changes no pin (30_encoding.md R96); the all-zero and the all-ones word are illegal. -/
def Obligations.IllegalWordFaults : Prop :=
  (∀ (s : State) (w : CmdWord) (rest : List HostMove), s.Accepting → s.host = .command w none :: rest →
      (∀ row ∈ opcodeTable, row.selects w = false) →
        ∃ t, step s = .next t ∧ FaultedAtOnce { s with host := rest } t .illegalCmd (w.extractLsb' 16 24))
    ∧ (∀ row ∈ opcodeTable, row.selects 0x0000000000 = false ∧ row.selects 0xFFFFFFFFFF = false)

/-! ### Steps, the host's moves, reset -/

/-- A block that waits runs the command the host's next word decodes to (10_state.md R36, 30_encoding.md R99): `step` is
`exec` of it, the word taken off the host's queue and its kill, if any, set. -/
def Obligations.StepRunsDecodedInstruction : Prop :=
  ∀ (s : State) (w : CmdWord) (killAfter : Option Nat) (rest : List HostMove) (i : Instr), s.Accepting →
    s.host = .command w killAfter :: rest → decode w = .ok i →
      step s = exec i { s with host := rest, killIn := killAfter }

/-- A faulted block refuses every word without decoding it, and a killed one is stuck (60_exceptions.md R271, R273(e),
R274; the two outcomes are the model's, log 14). -/
def Obligations.WordsNotTaken : Prop :=
  (∀ (s : State) (w : CmdWord) (killAfter : Option Nat) (rest : List HostMove), s.phase = .idle → s.fault = true →
      s.host = .command w killAfter :: rest →
        step s = .refused .faulted ∧ ∀ i, exec i s = .refused .faulted)
    ∧ ∀ (s : State) (w : CmdWord) (killAfter : Option Nat) (rest : List HostMove), s.phase = .stopped →
      s.host = .command w killAfter :: rest → step s = .fault .notRunning ∧ ∀ i, exec i s = .fault .notRunning

/-- With no move from the host a block that runs nothing stands as it is (60_exceptions.md R270, R287; log 3), and a kill
between commands or between the turns of a running one changes nothing but that the block no longer runs. R271 gives the
kill of a running command and the pins it keeps; that a kill may also fall between commands, and that the killed block's
other state is kept rather than lost, is the model's choice (log 13). -/
def Obligations.NothingMovesByItself : Prop :=
  (∀ s : State, (∀ j, s.phase ≠ .running j) → s.host = [] → step s = .next s)
    ∧ ∀ (s : State) (rest : List HostMove), s.host = .kill :: rest →
      step s = .next { s with host := rest, phase := .stopped, killIn := none }

/-- A kill after `n` events of a command, or of a later turn of one that is still running: before the first event, between
any two, or after the last and before the response (60_exceptions.md R271). The trace is cut there, whatever would have
followed, no response is given, the latches are those the events so far have set, and no fault is recorded. A kill inside
a cycle finds the sequencer in the state that R181 and R182 of 43_sequencer.md give the stretch the next event belongs to:
`AddressSettling` from the first address event to the settle delay that follows, `Reading` or `Writing` until the last
settle delay has passed, `Idle` then. The kill as a count of events, and that it records no fault, are the model's choice
(log 13), and so is that a later turn is a step of its own (log 2). -/
def Obligations.KillCutsTheTrace : Prop :=
  (∀ (i : Instr) (s t : State) (es : List Event) (n : Nat), s.Undisturbed → exec i s = .next t → Emitted s t es →
      n ≤ es.length → (n = es.length → ∀ j, t.phase ≠ .running j) →
        ∃ u, exec i { s with killIn := some n } = .next u ∧ u.phase = .stopped ∧ u.responses = s.responses
          ∧ Emitted s u (es.take n) ∧ u.pins = latchesAfter s.pins (es.take n) ∧ KeepsFault s u)
    ∧ (∀ (j : Job) (s u : State) (es : List Event) (n : Nat), s.killIn = none → Emitted s (resume j s) es →
      n ≤ es.length → (n = es.length → ∀ j', (resume j s).phase ≠ .running j') →
      u = resume j { s with killIn := some n } →
        u.phase = .stopped ∧ u.responses = s.responses ∧ Emitted s u (es.take n)
          ∧ u.pins = latchesAfter s.pins (es.take n) ∧ KeepsFault s u)
    ∧ ∀ (s : State) (a : Addr) (n settled : Nat), s.Undisturbed → validConfig s.cfg = true → s.SetUp →
      a.toNat < 2 ^ s.cfg.addrBits.toNat → settled = (addressEvents s.cfg a).length → n ≤ settled + 24 →
        (∃ u, exec (.rdcyc a) { s with killIn := some n } = .next u ∧ u.phase = .stopped
          ∧ u.fsm = if n < 11 then s.fsm else if n < settled + 12 then .addressSettling
            else if n < settled + 24 then .reading else .idle)
          ∧ ∀ v, ∃ u, exec (.wrcyc a v) { s with killIn := some n } = .next u ∧ u.phase = .stopped
            ∧ u.fsm = if n < 11 then s.fsm else if n < settled + 20 then .addressSettling
              else if n < settled + 24 then .writing else .idle

/-- What a successful reset leaves (10_state.md R38, 70_reset_and_hazards.md R290, R291): no event, every latch
unconfigured, `FSM = Idle`, the fault record clear, the record handed over, an empty trace, `XADDR` unknown
(20_memory.md R74). What is outside the block carries over: the chip's contents and identity (R75), what the register
chain holds and the chip's mode (70_reset_and_hazards.md R291, R302). The mode is kept where the wiring is not the
flash's, and under the premise `WE_IDLE_HIGH` where WE# was not driven low; else it is unknown, since a reset leaves
WE# no known level (20_memory.md R77; DESIGN CHOICE, log 26, is that a reset counts so). That the recorded responses
are emptied with the trace (log 23), that a byte the chip holds out is dropped, and that the wiring, the premise, the
lines' last driven levels, a contention and the arbitrary levels still to come stay as they were (log 26) are the
model's choice. -/
def Obligations.ResetLeavesTheListedValues : Prop :=
  ∀ (s : State) (c : Config) (rest : List HostMove), (∀ j, s.phase ≠ .running j) →
    s.host = .reset c true :: rest → validConfig c = true →
      ∃ t, step s = .next t ∧ (∀ r, t.dir r = none ∧ t.out r = none) ∧ t.fsm = .idle ∧ t.fault = false
        ∧ t.fcode = 0 ∧ t.finfo = 0 ∧ t.cfg = c ∧ t.trace = [] ∧ t.responses = [] ∧ t.phase = .idle
        ∧ t.status = 0 ∧ t.env.xaddr = none ∧ t.env.flash = s.env.flash ∧ t.env.flashId = s.env.flashId
        ∧ t.env.sh = s.env.sh ∧ t.env.q = s.env.q
        ∧ t.env.fmode = (if s.env.wiring ≠ .flash ∨ (s.env.weIdleHigh = true
            ∧ ¬(s.dir .we = some .output ∧ s.out .we = some false)) then s.env.fmode else .unknown)
        ∧ t.env.held = none ∧ t.env.wiring = s.env.wiring ∧ t.env.weIdleHigh = s.env.weIdleHigh
        ∧ t.env.lastDriven = s.env.lastDriven ∧ t.env.contention = s.env.contention
        ∧ t.env.answers = s.env.answers ∧ t.env.draws = s.env.draws

/-- Reset fails with `F_INIT` exactly when the GPIO subsystem is unavailable or the record is invalid: `MODE` = 3,
`ADDR_BITS` outside 1..24, `MAX_ADDR` at or above 2^`ADDR_BITS`, a role missing that R35 (a), (b) ask for, or two roles on
one pin (R35 (d)); it then starts faulted with `FINFO` 0, an empty trace, and takes no command (70_reset_and_hazards.md
R293, 10_state.md R35). -/
def Obligations.ResetCanFail : Prop :=
  ∀ (s : State) (c : Config) (gpio : Bool) (rest : List HostMove), (∀ j, s.phase ≠ .running j) →
    s.host = .reset c gpio :: rest →
      ∃ t, step s = .next t ∧ t.trace = []
        ∧ (gpio = false ∨ c.mode = .illegal ∨ c.addrBits.toNat = 0 ∨ 24 < c.addrBits.toNat
            ∨ 2 ^ c.addrBits.toNat ≤ c.maxAddr.toNat
            ∨ (∃ i, pinOf c (.dl i) = none) ∨ pinOf c .oe = none ∨ pinOf c .we = none
            ∨ (c.mode = .s2w ∧ (pinOf c .asd = none ∨ pinOf c .asc = none))
            ∨ (c.mode = .s3w ∧ (pinOf c .asd = none ∨ pinOf c .asc = none ∨ pinOf c .ass = none))
            ∨ (c.mode = .direct ∧ ∃ i : Fin 24, i.val < c.addrBits.toNat ∧ pinOf c (.dal i) = none)
            ∨ (∃ r r' n, r ≠ r' ∧ pinOf c r = some n ∧ pinOf c r' = some n)
          ↔ t.fault = true)
        ∧ (t.fault = true → Faulted t .init 0 ∧ ∀ i, exec i t = .refused .faulted)

/-! ### Faults, responses, the trace -/

/-- Taking a fault (60_exceptions.md R273): when a command's pseudocode raises one in a state `u`, the fault record and
the response are written, everything else stays as it was in `u` (the latches, the registers, the trace, the environment,
the configuration, the host's moves and the sink's answers), and every later command is refused. -/
def Obligations.TakingAFault : Prop :=
  ∀ (s u : State) (body : Act Progress) (c : Cause) (info : BitVec 24), s.Accepting →
    body s = .error (.fault c info) u → u.killIn ≠ some 0 →
      ∃ t, runCommand s body = .next t ∧ Faulted t c info ∧ Answered u t (.fault c info)
        ∧ t.pins = u.pins ∧ t.fsm = u.fsm ∧ t.cur = u.cur ∧ t.d = u.d ∧ t.id = u.id ∧ t.trace = u.trace
        ∧ t.env = u.env ∧ t.cfg = u.cfg ∧ t.host = u.host ∧ KeepsSink u t ∧ ∀ i, exec i t = .refused .faulted

/-- Every command that ends gives exactly one response, `Ok` with the payload of its kind or `Fault` with the record it
leaves (10_state.md R37); `INECHO` and `OETEST` never answer `Ok`; a command that is killed or still runs has given none.
The same of every turn of a running command; that a turn is a step of its own is the model's choice (log 2). -/
def Obligations.OneResponsePerCommand : Prop :=
  (∀ (i : Instr) (s t : State), s.Accepting → exec i s = .next t →
      (t.phase = .stopped ∧ t.responses = s.responses ∧ s.killIn ≠ none)
        ∨ (∃ j, t.phase = .running j ∧ t.responses = s.responses ∧ t.fault = false)
        ∨ (∃ p, Answered s t (.ok p) ∧ PayloadOf s.cfg i p ∧ t.fault = false)
        ∨ ∃ c info, Answered s t (.fault c info) ∧ Faulted t c info)
    ∧ ∀ (j : Job) (s : State), s.fault = false →
      ((resume j s).phase = .stopped ∧ (resume j s).responses = s.responses ∧ s.killIn ≠ none)
        ∨ (∃ j', (resume j s).phase = .running j' ∧ (resume j s).responses = s.responses
            ∧ (resume j s).fault = false)
        ∨ (∃ p, Answered s (resume j s) (.ok p) ∧ (resume j s).fault = false
            ∧ match j with
              | .dump => p = .count (BitVec.ofNat 32 (s.cfg.maxAddr.toNat + 1))
              | .inEcho => False
              | .oeTest => False
              | .ioTest _ _ => p = .empty)
        ∨ ∃ c info, Answered s (resume j s) (.fault c info) ∧ Faulted (resume j s) c info

/-- Every change of a latch is an event, and events are only ever added (00_scope.md R11, R16; 20_memory.md R80):
after any step but a reset the trace has grown by some events, and the latches are those these events set. A turn of a
running command is such a step even while a reset waits as the host's next move (60_exceptions.md R278; the queue of
moves: log 3). -/
def Obligations.EveryPinChangeIsAnEvent : Prop :=
  ∀ s t : State, step s = .next t → ¬s.AtReset →
    ∃ es, Emitted s t es ∧ t.pins = latchesAfter s.pins es

/-! ### GPIO -/

/-- `CFGDIR` (40_gpio.md R127, R125): one event, one direction; a pin that becomes an output has an unknown level; every
other latch and register stays. It asks nothing of the current direction. -/
def Obligations.CfgdirSetsADirection : Prop :=
  ∀ (s : State) (r : Role) (d : Direction), s.Undisturbed → mapped s.cfg r = true →
    ∃ t, exec (.cfgdir (roleIndex r) d) s = .next t ∧ Answered s t (.ok .empty) ∧ Emitted s t [.dir r d]
      ∧ t.dir r = some d
      ∧ t.out r = (if d = .output ∧ s.dir r ≠ some .output then none else s.out r)
      ∧ Keeps s t [r] ∧ KeepsRegisters s t ∧ KeepsSink s t

/-- `PINWR` on an output (40_gpio.md R128): one event, also when the level does not change, and one output latch. -/
def Obligations.PinwrDrivesALevel : Prop :=
  ∀ (s : State) (r : Role) (l : Level), s.Undisturbed → mapped s.cfg r = true → s.dir r = some .output →
    ∃ t, exec (.pinwr (roleIndex r) l) s = .next t ∧ Answered s t (.ok .empty) ∧ Emitted s t [.drv r l]
      ∧ t.dir r = some .output ∧ t.out r = some l ∧ Keeps s t [r] ∧ KeepsRegisters s t ∧ KeepsSink s t

/-- `PINRD` on an input (40_gpio.md R129, 20_memory.md R70): one sample, answered with the level the environment
presents; no latch and no register of the block changes. -/
def Obligations.PinrdSamplesALevel : Prop :=
  ∀ (s : State) (r : Role), s.Undisturbed → mapped s.cfg r = true → s.dir r = some .input →
    ∃ t, exec (.pinrd (roleIndex r)) s = .next t ∧ Answered s t (.ok (.level (s.env.pinIn s.pins r).1))
      ∧ Emitted s t [.smp r (s.env.pinIn s.pins r).1] ∧ Keeps s t [] ∧ KeepsRegisters s t ∧ KeepsSink s t

/-- A role that the configuration does not map faults all three operations with `F_ROLE` and its index, before anything
else (40_gpio.md R121). -/
def Obligations.UnmappedRoleFaults : Prop :=
  ∀ (s : State) (r : Role), s.Undisturbed → mapped s.cfg r = false →
    (∀ d, ∃ t, exec (.cfgdir (roleIndex r) d) s = .next t ∧ FaultedAtOnce s t .role (indexInfo (roleIndex r)))
      ∧ (∀ l, ∃ t, exec (.pinwr (roleIndex r) l) s = .next t ∧ FaultedAtOnce s t .role (indexInfo (roleIndex r)))
      ∧ ∃ t, exec (.pinrd (roleIndex r)) s = .next t ∧ FaultedAtOnce s t .role (indexInfo (roleIndex r))

/-- Driving a pin that is not an output raises `F_DIR_WRITE`, sampling one that is not an input `F_DIR_READ`, each with
the role's index and no event (40_gpio.md R122, R123); a pin never configured is neither, so both fault on it (R124). -/
def Obligations.WrongDirectionFaults : Prop :=
  ∀ (s : State) (r : Role), s.Undisturbed → mapped s.cfg r = true →
    (s.dir r ≠ some .output → ∀ l, ∃ t, exec (.pinwr (roleIndex r) l) s = .next t
        ∧ FaultedAtOnce s t .dirWrite (indexInfo (roleIndex r)))
      ∧ (s.dir r ≠ some .input → ∃ t, exec (.pinrd (roleIndex r)) s = .next t
        ∧ FaultedAtOnce s t .dirRead (indexInfo (roleIndex r)))

/-! ### The address shifter -/

/-- `SETADDR` in mode `S2W` (41_address_shifter.md R142 to R144): the pseudocode's events, bit 0 first, the extra pulse,
the clock left low; nothing changes but the two lines' levels. -/
def Obligations.SetaddrTwoWire : Prop :=
  ∀ (s : State) (a : Addr), s.Undisturbed → validConfig s.cfg = true → s.cfg.mode = .s2w →
    s.OutputsReady [.asd, .asc] → a.toNat < 2 ^ s.cfg.addrBits.toNat →
      ∃ t, exec (.setaddr a) s = .next t ∧ Answered s t (.ok .empty) ∧ Emitted s t (twoWireEvents s.cfg a)
        ∧ AddressLeft t a ∧ Keeps s t [.asd, .asc] ∧ KeepsDirections s t ∧ KeepsRegisters s t ∧ KeepsSink s t

/-- `SETADDR` in mode `S3W` (41_address_shifter.md R145): whole bytes, least significant first, bit 7 of each first,
then the strobe; nothing changes but the three lines' levels. -/
def Obligations.SetaddrThreeWire : Prop :=
  ∀ (s : State) (a : Addr), s.Undisturbed → validConfig s.cfg = true → s.cfg.mode = .s3w →
    s.OutputsReady [.asd, .asc, .ass] → a.toNat < 2 ^ s.cfg.addrBits.toNat →
      ∃ t, exec (.setaddr a) s = .next t ∧ Answered s t (.ok .empty) ∧ Emitted s t (threeWireEvents s.cfg a)
        ∧ AddressLeft t a ∧ Keeps s t [.asd, .asc, .ass] ∧ KeepsDirections s t ∧ KeepsRegisters s t
        ∧ KeepsSink s t

/-- `SETADDR` in mode `DIRECT` (41_address_shifter.md R146): bit `i` on `DAL(i)`, ascending, then one settle delay;
nothing changes but the levels of the `N` lines. -/
def Obligations.SetaddrDirect : Prop :=
  ∀ (s : State) (a : Addr), s.Undisturbed → validConfig s.cfg = true → s.cfg.mode = .direct →
    (∀ i : Fin 24, i.val < s.cfg.addrBits.toNat → s.dir (.dal i) = some .output) →
    a.toNat < 2 ^ s.cfg.addrBits.toNat →
      ∃ t, exec (.setaddr a) s = .next t ∧ Answered s t (.ok .empty) ∧ Emitted s t (directEvents s.cfg a)
        ∧ AddressLeft t a ∧ Keeps s t (modeLines s.cfg) ∧ KeepsDirections s t ∧ KeepsRegisters s t
        ∧ KeepsSink s t

/-- An address at or above 2^`N` faults `SETADDR`, `RDCYC` and `WRCYC` with `F_ADDR_RANGE` and the address, before any
event (41_address_shifter.md R141); with `N` = 24 no address is out of range. -/
def Obligations.AddressOutOfRangeFaults : Prop :=
  ∀ (s : State) (a : Addr), s.Undisturbed →
    (2 ^ s.cfg.addrBits.toNat ≤ a.toNat →
        (∃ t, exec (.setaddr a) s = .next t ∧ FaultedAtOnce s t .addrRange a)
          ∧ (∃ t, exec (.rdcyc a) s = .next t ∧ FaultedAtOnce s t .addrRange a)
          ∧ ∀ v, ∃ t, exec (.wrcyc a v) s = .next t ∧ FaultedAtOnce s t .addrRange a)
      ∧ (s.cfg.addrBits = 24 → a.toNat < 2 ^ s.cfg.addrBits.toNat)

/-- `SETADDR` configures no direction (41_address_shifter.md R150), in all three modes: the first line it drives that is
not an output raises `F_DIR_WRITE` with its index (11, 10 and 12 for the clock, the data line and the strobe, 32 and up for
the direct lines), and what was emitted stands. The index a fault carries is that of 30_encoding.md R94, for every role. -/
def Obligations.SetaddrNeedsOutputs : Prop :=
  (∀ r : Role, indexInfo (roleIndex r) = match r with
    | .dl i => BitVec.ofNat 24 i.val
    | .oe => 8
    | .we => 9
    | .asd => 10
    | .asc => 11
    | .ass => 12
    | .dal i => BitVec.ofNat 24 (32 + i.val))
  ∧ ∀ (s : State) (a : Addr), s.Undisturbed → validConfig s.cfg = true → a.toNat < 2 ^ s.cfg.addrBits.toNat →
    (s.cfg.mode ≠ .direct → s.dir .asc ≠ some .output →
        ∃ t, exec (.setaddr a) s = .next t ∧ FaultedAtOnce s t .dirWrite 11)
      ∧ (s.cfg.mode ≠ .direct → s.dir .asc = some .output → s.dir .asd ≠ some .output →
        ∃ t, exec (.setaddr a) s = .next t ∧ FaultedAfter s t .dirWrite 10 [.drv .asc false] ∧ t.fsm = s.fsm)
      ∧ ∀ r before, FirstMissing s a r before →
        ∃ t, exec (.setaddr a) s = .next t ∧ FaultedAfter s t .dirWrite (indexInfo (roleIndex r)) before
          ∧ t.fsm = s.fsm

/-- Counts of `SETADDR_S2W` (41_address_shifter.md R149): drives of the clock and of the data line, delays, events in
all, rising edges when the clock was low, the least duration, and that of one bit's pulse; with `N` = 24, `T_HALF` = 2 and
`hold`, 125 events and 100 microseconds. -/
def Obligations.TwoWireCounts : Prop :=
  ∀ (s t : State) (a : Addr) (es : List Event), s.Undisturbed → validConfig s.cfg = true → s.cfg.mode = .s2w →
    s.OutputsReady [.asd, .asc] → a.toNat < 2 ^ s.cfg.addrBits.toNat → exec (.setaddr a) s = .next t →
    Emitted s t es →
      (drivesOf .asc es).length = 2 * s.cfg.addrBits.toNat + 3
        ∧ (drivesOf .asd es).length = s.cfg.addrBits.toNat + (if s.cfg.xpData = .low then 1 else 0)
        ∧ delaysOf es = List.replicate (2 * s.cfg.addrBits.toNat + 2) s.cfg.tHalf.toNat
        ∧ es.length = 5 * s.cfg.addrBits.toNat + (if s.cfg.xpData = .low then 6 else 5)
        ∧ (s.out .asc = some false → risingEdges .asc (s.out .asc) es = s.cfg.addrBits.toNat + 1)
        ∧ minimumTime es = 2 * (s.cfg.addrBits.toNat + 1) * s.cfg.tHalf.toNat
        ∧ (∀ b, minimumTime (pulseEvents s.cfg b) = 2 * s.cfg.tHalf.toNat)
        ∧ (s.cfg.addrBits = 24 → s.cfg.tHalf = 2 → s.cfg.xpData = .hold → es.length = 125 ∧ minimumTime es = 100)

/-- The address lines carry the address after `SETADDR` (41_address_shifter.md R148; 20_memory.md R71 to R74): bit by
bit through the reference 2-wire chain, the reference 3-wire chain (its strobe low before, as IDLESETUP leaves it) and
the direct wires, whatever the chain held before; no line at or above `N` exists; and the contract's `XADDR` says the
same. -/
def Obligations.AddressLinesCarryTheAddress : Prop :=
  ∀ (s : State) (a : Addr), s.Undisturbed → validConfig s.cfg = true → s.OutputsReady (modeLines s.cfg) →
    (s.env.wiring = .flash ∨ s.env.wiring = .addressLoopback) → (s.cfg.mode = .s3w → s.out .ass = some false) →
    a.toNat < 2 ^ s.cfg.addrBits.toNat →
      ∃ t, exec (.setaddr a) s = .next t ∧ t.env.xaddr = some a
        ∧ ∀ i : Fin 24, addressLine t.cfg t.pins t.env i =
          if i.val < s.cfg.addrBits.toNat then some (a.getLsbD i.val) else none

/-! ### The data bus -/

/-- `BUSDIR` (42_data_bus.md R162, 40_gpio.md R125): eight events in ascending order; afterwards `BusDir()` is the
operand; lines that become outputs have unknown levels, all others keep theirs. -/
def Obligations.BusdirSetsTheBus : Prop :=
  ∀ (s : State) (d : Direction), s.Undisturbed → (∀ i, mapped s.cfg (.dl i) = true) →
    ∃ t, exec (.busdir d) s = .next t ∧ Answered s t (.ok .empty) ∧ Emitted s t (busDirEvents d)
      ∧ busDir t.pins = (match d with | .input => .input | .output => .output)
      ∧ (∀ i, t.dir (.dl i) = some d
        ∧ t.out (.dl i) = (if d = .output ∧ s.dir (.dl i) ≠ some .output then none else s.out (.dl i)))
      ∧ Keeps s t dataRoles ∧ KeepsRegisters s t ∧ KeepsSink s t

/-- `BUSWR` with the bus `Out` (42_data_bus.md R163, R161): bit `i` on `DL(i)`, ascending; nothing else changes. -/
def Obligations.BuswrDrivesAByte : Prop :=
  ∀ (s : State) (v : Byte), s.Undisturbed → (∀ i, mapped s.cfg (.dl i) = true) →
    (∀ i, s.dir (.dl i) = some .output) →
      ∃ t, exec (.buswr v) s = .next t ∧ Answered s t (.ok .empty) ∧ Emitted s t (busDriveEvents v)
        ∧ (∀ i, t.out (.dl i) = some (v.getLsbD i.val)) ∧ Keeps s t dataRoles ∧ KeepsDirections s t
        ∧ KeepsRegisters s t ∧ KeepsSink s t

/-- `BUSRD` with the bus `In` (42_data_bus.md R164, R161; 20_memory.md R70): eight samples in ascending order of the
levels the environment presents, one after the other; the level of `DL(i)` is bit `i` of the byte, which goes to `D` and
to the response; no latch and no other register changes. -/
def Obligations.BusrdComposesAByte : Prop :=
  ∀ s : State, s.Undisturbed → (∀ i, mapped s.cfg (.dl i) = true) → (∀ i, s.dir (.dl i) = some .input) →
    ∃ t v, exec .busrd s = .next t ∧ Answered s t (.ok (.byte v))
      ∧ Emitted s t (busSampleEvents (Env.levels s.pins dataLines s.env))
      ∧ (∀ i : Fin 8, (Env.levels s.pins dataLines s.env)[i.val]? = some (v.getLsbD i.val)) ∧ t.d = v
      ∧ Keeps s t [] ∧ t.id = s.id ∧ t.cur = s.cur ∧ t.fsm = s.fsm ∧ KeepsFault s t ∧ KeepsSink s t

/-- The direction preconditions (42_data_bus.md R165): when `DL(i)` is the lowest line with the wrong direction, `BUSWR`
raises `F_DIR_WRITE` and `BUSRD` raises `F_DIR_READ` with its index, before any event. -/
def Obligations.BusPrecondition : Prop :=
  ∀ (s : State) (i : Fin 8), s.Undisturbed →
    (s.dir (.dl i) ≠ some .output → (∀ j : Fin 8, j < i → s.dir (.dl j) = some .output) →
        ∀ v, ∃ t, exec (.buswr v) s = .next t ∧ FaultedAtOnce s t .dirWrite (BitVec.ofNat 24 i.val))
      ∧ (s.dir (.dl i) ≠ some .input → (∀ j : Fin 8, j < i → s.dir (.dl j) = some .input) →
        ∃ t, exec .busrd s = .next t ∧ FaultedAtOnce s t .dirRead (BitVec.ofNat 24 i.val))

/-- The round trip (42_data_bus.md R166): in the latching loopback `BUSDIR OUT; BUSWR v; BUSDIR IN; BUSRD` returns `v`,
for every byte. -/
def Obligations.BusRoundTrip : Prop :=
  ∀ (s : State) (v : Byte), s.Undisturbed → (∀ i, mapped s.cfg (.dl i) = true) →
    s.env.wiring = .latchingLoopback →
      ∃ t1 t2 t3 t4, exec (.busdir .output) s = .next t1 ∧ exec (.buswr v) t1 = .next t2
        ∧ exec (.busdir .input) t2 = .next t3 ∧ exec .busrd t3 = .next t4 ∧ Answered t3 t4 (.ok (.byte v))

/-! ### The sequencer -/

/-- `IDLESETUP` (43_sequencer.md R183): its events; the bus `In`, WE# and OE# high, the mode's address-control lines low
outputs, the sequencer idle, the address unknown; every other latch and register stays. -/
def Obligations.IdlesetupPreparesThePins : Prop :=
  ∀ s : State, s.Undisturbed → validConfig s.cfg = true →
    ∃ t, exec .idlesetup s = .next t ∧ Answered s t (.ok .empty) ∧ Emitted s t (idleEvents s.cfg)
      ∧ (∀ i, t.dir (.dl i) = some .input ∧ t.out (.dl i) = s.out (.dl i))
      ∧ (∀ r ∈ [Role.we, .oe], t.dir r = some .output ∧ t.out r = some true)
      ∧ (∀ r ∈ modeLines s.cfg, t.dir r = some .output ∧ t.out r = some false)
      ∧ t.fsm = .idle ∧ t.env.xaddr = none ∧ t.SetUp
      ∧ Keeps s t (dataRoles ++ [.we, .oe] ++ modeLines s.cfg)
      ∧ t.d = s.d ∧ t.id = s.id ∧ t.cur = s.cur ∧ KeepsFault s t ∧ KeepsSink s t

/-- `IDLESETUP` is idempotent in its end state (43_sequencer.md R183): issued twice, it leaves the latches as once. -/
def Obligations.IdlesetupTwiceIsOnce : Prop :=
  ∀ s : State, s.Undisturbed → validConfig s.cfg = true →
    ∃ t u, exec .idlesetup s = .next t ∧ exec .idlesetup t = .next u ∧ ∀ r, u.dir r = t.dir r ∧ u.out r = t.out r

/-- `RDCYC` from pins that are set up (43_sequencer.md R186): the rule's events with eight samples; the byte composed of
them in `D` and the response; the pins as R186 leaves them; nothing else changes. -/
def Obligations.RdcycReadsOneByte : Prop :=
  ∀ (s : State) (a : Addr), s.Undisturbed → validConfig s.cfg = true → s.SetUp →
    a.toNat < 2 ^ s.cfg.addrBits.toNat →
      ∃ t ls, exec (.rdcyc a) s = .next t ∧ ls.length = 8 ∧ Answered s t (.ok (.byte (composeByte ls)))
        ∧ Emitted s t (readEvents s.cfg a ls) ∧ t.d = composeByte ls ∧ AfterRead s t a ∧ CycleKeeps s t

/-- `WRCYC` from pins that are set up (43_sequencer.md R190): the rule's events; the bus is left an output that carries
the byte; nothing else changes. -/
def Obligations.WrcycSendsOneByte : Prop :=
  ∀ (s : State) (a : Addr) (v : Byte), s.Undisturbed → validConfig s.cfg = true → s.SetUp →
    a.toNat < 2 ^ s.cfg.addrBits.toNat →
      ∃ t, exec (.wrcyc a v) s = .next t ∧ Answered s t (.ok .empty) ∧ Emitted s t (writeEvents s.cfg a v)
        ∧ t.d = s.d ∧ AfterWrite t a v ∧ CycleKeeps s t

/-- A cycle before the idle setup (43_sequencer.md R186, R190, R195; 60_exceptions.md R273(c), R279): the first line it
drives that is not an output raises `F_DIR_WRITE` and the events so far stand. With WE# missing, `RDCYC` has emitted its
eight direction events and `WRCYC` none; with OE# missing, WE# has been driven too, and `FSM` stays; with an
address-control line missing, the cycle stops inside its address step and `FSM` is left in `AddressSettling`. -/
def Obligations.CycleWithoutSetupFaults : Prop :=
  ∀ (s : State) (a : Addr), s.Undisturbed → validConfig s.cfg = true → a.toNat < 2 ^ s.cfg.addrBits.toNat →
    (s.dir .we ≠ some .output →
        (∃ t, exec (.rdcyc a) s = .next t ∧ FaultedAfter s t .dirWrite 9 (busDirEvents .input) ∧ t.fsm = s.fsm)
          ∧ ∀ v, ∃ t, exec (.wrcyc a v) s = .next t ∧ FaultedAtOnce s t .dirWrite 9)
      ∧ (s.dir .we = some .output → s.dir .oe ≠ some .output →
        (∃ t, exec (.rdcyc a) s = .next t
          ∧ FaultedAfter s t .dirWrite 8 (busDirEvents .input ++ [.drv .we true]) ∧ t.fsm = s.fsm)
          ∧ ∀ v, ∃ t, exec (.wrcyc a v) s = .next t ∧ FaultedAfter s t .dirWrite 8 [.drv .we true] ∧ t.fsm = s.fsm)
      ∧ ∀ r before, s.dir .we = some .output → s.dir .oe = some .output → FirstMissing s a r before →
        (∃ t, exec (.rdcyc a) s = .next t
          ∧ FaultedAfter s t .dirWrite (indexInfo (roleIndex r))
            (busDirEvents .input ++ [.drv .we true, .drv .oe true, .dly s.cfg.tSettle.toNat] ++ before)
          ∧ t.fsm = .addressSettling)
          ∧ ∀ v, ∃ t, exec (.wrcyc a v) s = .next t
            ∧ FaultedAfter s t .dirWrite (indexInfo (roleIndex r))
              ([.drv .we true, .drv .oe true, .dly s.cfg.tSettle.toNat] ++ busDirEvents .output ++ before)
            ∧ t.fsm = .addressSettling

/-- `ALLIN` (43_sequencer.md R194): one event for each mapped role in ascending role index; every mapped role an input,
every level latch, unmapped role and register as it was. -/
def Obligations.AllinReleasesThePins : Prop :=
  ∀ s : State, s.Undisturbed →
    ∃ t, exec .allin s = .next t ∧ Answered s t (.ok .empty)
      ∧ Emitted s t ((Role.all.filter fun r => (pinOf s.cfg r).isSome).map fun r => .dir r .input)
      ∧ (∀ r, mapped s.cfg r = true → t.dir r = some .input) ∧ (∀ r, t.out r = s.out r)
      ∧ Keeps s t (Role.all.filter fun r => (pinOf s.cfg r).isSome) ∧ KeepsRegisters s t ∧ KeepsSink s t

/-- Counts and least durations of the reference configuration (43_sequencer.md R186, R190; 44_composite.md R212;
70_reset_and_hazards.md R311): a cycle is 149 events and 500 microseconds, an identity query 1217 events and 4000. -/
def Obligations.CycleCountsAndTimes : Prop :=
  ∀ s : State, s.Undisturbed → validConfig s.cfg = true → s.cfg.mode = .s2w → s.cfg.addrBits = 24 →
    s.cfg.xpData = .hold → s.cfg.tHalf = 2 → s.cfg.tSettle = 100 →
      (s.SetUp → ∀ a, ∃ t es, exec (.rdcyc a) s = .next t ∧ Emitted s t es ∧ es.length = 149 ∧ minimumTime es = 500)
        ∧ (s.SetUp → ∀ a v, ∃ t es, exec (.wrcyc a v) s = .next t ∧ Emitted s t es ∧ es.length = 149
          ∧ minimumTime es = 500)
        ∧ ∃ t es, exec .idquery s = .next t ∧ Emitted s t es ∧ es.length = 1217 ∧ minimumTime es = 4000

/-- A read cycle reads the chip (43_sequencer.md R186; 20_memory.md R68, R74, R76): behind the intended wiring, in its
read mode, it answers the byte at the address, and the chip stays in that mode without contention. -/
def Obligations.ReadCycleReadsTheFlash : Prop :=
  ∀ (s : State) (a : Addr), s.Undisturbed → validConfig s.cfg = true → s.SetUp → s.ControlsHigh →
    a.toNat < 2 ^ s.cfg.addrBits.toNat → s.env.wiring = .flash → s.env.fmode = .array →
    s.env.contention = false →
      ∃ t, exec (.rdcyc a) s = .next t ∧ Answered s t (.ok (.byte (s.env.flashByte a))) ∧ t.d = s.env.flashByte a
        ∧ t.env.fmode = .array ∧ t.env.contention = false ∧ t.env.xaddr = some a

/-- A write cycle reaches the chip (43_sequencer.md R190; 20_memory.md R69, R74, R77): the chip takes one `MemWrite`
of the byte at the address and goes to the mode that R69's table gives, row by row: each unlock step from its mode
with its address and byte, the leaving write from the identification mode, and `Unknown` from any mode on anything
else. No contention; its contents stay. -/
def Obligations.WriteCycleReachesTheFlash : Prop :=
  ∀ (s : State) (a : Addr) (v : Byte), s.Undisturbed → validConfig s.cfg = true → s.SetUp → s.ControlsHigh →
    a.toNat < 2 ^ s.cfg.addrBits.toNat → s.env.wiring = .flash → s.env.contention = false →
      ∃ t, exec (.wrcyc a v) s = .next t ∧ Answered s t (.ok .empty)
        ∧ t.env.fmode =
          (if s.env.fmode = .array ∧ a = 0xAAA ∧ v = 0xAA then .unlock1
          else if s.env.fmode = .unlock1 ∧ a = 0x555 ∧ v = 0x55 then .unlock2
          else if s.env.fmode = .unlock2 ∧ a = 0xAAA ∧ v = 0x90 then .autoselect
          else if s.env.fmode = .autoselect ∧ a = 0x00 ∧ v = 0xF0 then .array
          else .unknown)
        ∧ t.env.contention = false ∧ t.env.xaddr = some a
        ∧ t.env.flash = s.env.flash

/-! ### The composite commands -/

/-- `IDQUERY` with at least twelve address bits (44_composite.md R211 to R213), in any environment: the idle setup, the
eight cycles in their order, the bus turned back, the print; `ID[k]` is the byte of the `k`-th read; nothing else
changes but what the cycles leave. -/
def Obligations.IdqueryRunsEightCycles : Prop :=
  ∀ s : State, s.Undisturbed → validConfig s.cfg = true → 12 ≤ s.cfg.addrBits.toNat →
    ∃ t l0 l1 l2 l3, exec .idquery s = .next t
      ∧ l0.length = 8 ∧ l1.length = 8 ∧ l2.length = 8 ∧ l3.length = 8
      ∧ t.id = #v[composeByte l0, composeByte l1, composeByte l2, composeByte l3]
      ∧ Answered s t (.ok (.identity t.id))
      ∧ Emitted s t (idleEvents s.cfg
          ++ writeEvents s.cfg 0xAAA 0xAA ++ writeEvents s.cfg 0x555 0x55 ++ writeEvents s.cfg 0xAAA 0x90
          ++ readEvents s.cfg 0x00 l0 ++ readEvents s.cfg 0x02 l1 ++ readEvents s.cfg 0x1C l2
          ++ readEvents s.cfg 0x1E l3 ++ writeEvents s.cfg 0x00 0xF0
          ++ busDirEvents .input ++ [.print (.identity t.id)])
      ∧ t.d = composeByte l3 ∧ t.cur = s.cur ∧ t.fsm = .idle ∧ busDir t.pins = .input ∧ t.SetUp ∧ t.ControlsHigh
      ∧ AddressLeft t 0 ∧ Keeps s t (dataRoles ++ [.we, .oe] ++ modeLines s.cfg) ∧ KeepsFault s t ∧ KeepsSink s t

/-- With fewer than twelve address bits `IDQUERY` faults with `F_ADDR_RANGE` and 0xAAA after its idle setup and the
closing `BUSDIR(In)`, before any cycle event (44_composite.md R212). -/
def Obligations.IdqueryNeedsTwelveBits : Prop :=
  ∀ s : State, s.Undisturbed → validConfig s.cfg = true → s.cfg.addrBits.toNat < 12 →
    ∃ t, exec .idquery s = .next t
      ∧ FaultedAfter s t .addrRange 0xAAA (idleEvents s.cfg ++ busDirEvents .input) ∧ t.fsm = .idle

/-- `IDQUERY` leaves the bus an input regardless of its outcome, unless it is killed (44_composite.md R214): whatever the
configuration, the pins and the environment, once the data lines are mapped. -/
def Obligations.IdqueryLeavesTheBusInput : Prop :=
  ∀ s t : State, s.Undisturbed → (∀ i, mapped s.cfg (.dl i) = true) → exec .idquery s = .next t →
    busDir t.pins = .input

/-- `IDQUERY` returns the chip's identity (44_composite.md R212, R213; 20_memory.md R68, R69, R77): from the read mode and
under `WE_IDLE_HIGH`, the four identity bytes, and the chip is back in its read mode without contention. -/
def Obligations.IdqueryReturnsTheIdentity : Prop :=
  ∀ s : State, s.Undisturbed → validConfig s.cfg = true → 12 ≤ s.cfg.addrBits.toNat → ChipReady s →
    ∃ t, exec .idquery s = .next t ∧ Answered s t (.ok (.identity s.env.flashId)) ∧ t.id = s.env.flashId
      ∧ t.env.fmode = .array ∧ t.env.contention = false

/-- `DUMP` turn by turn (44_composite.md R215 to R217): it starts with the idle setup at address 0; each turn is one
read cycle at the cursor and one byte to the sink; a rejected byte closes the sink and faults with `F_SINK` and the
cursor; the last address closes it and responds with the count; else the cursor moves on by one and the command goes
on. That a turn is a step of its own is the model's choice (log 2). What the host has waiting besides, a kill at the
head apart, changes nothing (60_exceptions.md R278; log 3). -/
def Obligations.DumpGoesByteByByte : Prop :=
  (∀ s : State, s.Undisturbed → validConfig s.cfg = true →
      ∃ t ls, exec .dump s = .next t ∧ ls.length = 8 ∧ t.d = composeByte ls ∧ t.id = s.id
        ∧ t.sinkAnswers = s.sinkAnswers.tail ∧ Keeps s t (dataRoles ++ [.we, .oe] ++ modeLines s.cfg)
        ∧ AfterRead s t 0 ∧ t.SetUp
        ∧ if s.sinkAnswer = false then
            Answered s t (.fault .sink 0) ∧ Faulted t .sink 0 ∧ t.cur = 0
              ∧ Emitted s t (idleEvents s.cfg ++ readEvents s.cfg 0 ls ++ [.sink (composeByte ls) false, .close])
          else if s.cfg.maxAddr = 0 then
            Answered s t (.ok (.count 1)) ∧ KeepsFault s t ∧ t.cur = 0
              ∧ Emitted s t (idleEvents s.cfg ++ readEvents s.cfg 0 ls ++ [.sink (composeByte ls) true, .close])
          else
            GoesOn s t .dump ∧ KeepsFault s t ∧ t.cur = 1
              ∧ Emitted s t (idleEvents s.cfg ++ readEvents s.cfg 0 ls ++ [.sink (composeByte ls) true]))
    ∧ ∀ s : State, s.phase = .running .dump → s.killIn = none → s.NoKillWaiting → validConfig s.cfg = true → s.SetUp →
      s.cur.toNat ≤ s.cfg.maxAddr.toNat →
        ∃ t ls, step s = .next t ∧ ls.length = 8 ∧ t.d = composeByte ls ∧ t.id = s.id
          ∧ t.sinkAnswers = s.sinkAnswers.tail ∧ Keeps s t (dataRoles ++ [.we, .oe] ++ modeLines s.cfg)
          ∧ AfterRead s t s.cur ∧ t.SetUp
          ∧ if s.sinkAnswer = false then
              Answered s t (.fault .sink s.cur) ∧ Faulted t .sink s.cur ∧ t.cur = s.cur
                ∧ Emitted s t (readEvents s.cfg s.cur ls ++ [.sink (composeByte ls) false, .close])
            else if s.cur = s.cfg.maxAddr then
              Answered s t (.ok (.count (BitVec.ofNat 32 (s.cfg.maxAddr.toNat + 1)))) ∧ KeepsFault s t
                ∧ t.cur = s.cur ∧ Emitted s t (readEvents s.cfg s.cur ls ++ [.sink (composeByte ls) true, .close])
            else
              GoesOn s t .dump ∧ KeepsFault s t ∧ t.cur = s.cur + 1
                ∧ Emitted s t (readEvents s.cfg s.cur ls ++ [.sink (composeByte ls) true])

/-- A dump copies the chip (44_composite.md R215, R216, R218; 20_memory.md R62, R63): when the sink accepts every byte
it ends after `MAX_ADDR` + 1 turns with the count, and the bytes accepted are the chip's contents at 0, 1, ...,
`MAX_ADDR`, in that order, each once. That a turn is a step of its own, so the number of steps, is the model's choice
(log 2). What the host has waiting besides, a kill at the head apart, changes nothing (60_exceptions.md R278; log 3).
-/
def Obligations.DumpCopiesTheFlash : Prop :=
  ∀ (s : State) (rest : List Bool), s.Undisturbed → validConfig s.cfg = true → s.NoKillWaiting → ChipReady s →
    s.sinkAnswers = List.replicate (s.cfg.maxAddr.toNat + 1) true ++ rest →
      ∃ (t0 t : State) (es : List Event), exec .dump s = .next t0
        ∧ Host.Core.run Sys2Proof.core s.cfg.maxAddr.toNat t0 = .next t
        ∧ Answered s t (.ok (.count (BitVec.ofNat 32 (s.cfg.maxAddr.toNat + 1)))) ∧ Emitted s t es
        ∧ acceptedBytes es =
            (List.range (s.cfg.maxAddr.toNat + 1)).map (fun k => s.env.flashByte (BitVec.ofNat 24 k))
        ∧ t.env.fmode = .array ∧ t.env.contention = false ∧ t.cur = s.cfg.maxAddr ∧ t.sinkAnswers = rest

/-- A dump stops at the first byte the sink rejects (44_composite.md R217), in any environment: exactly `k` bytes were
accepted, the sink is closed once, at the end, and the response and the fault record say `F_SINK` and `k`. That a turn
is a step of its own, so the number of steps, is the model's choice (log 2). What the host has waiting besides, a kill
at the head apart, changes nothing (60_exceptions.md R278; log 3). -/
def Obligations.DumpStopsAtARejectedByte : Prop :=
  ∀ (s : State) (k : Nat) (rest : List Bool), s.Undisturbed → validConfig s.cfg = true → s.NoKillWaiting →
    k ≤ s.cfg.maxAddr.toNat → s.sinkAnswers = List.replicate k true ++ false :: rest →
      ∃ (t0 t : State) (es : List Event) (v : Byte), exec .dump s = .next t0
        ∧ Host.Core.run Sys2Proof.core k t0 = .next t
        ∧ Answered s t (.fault .sink (BitVec.ofNat 24 k)) ∧ Faulted t .sink (BitVec.ofNat 24 k)
        ∧ Emitted s t (es ++ [.sink v false, .close]) ∧ (acceptedBytes es).length = k
        ∧ (∀ e ∈ es, e ≠ .close ∧ ∀ w, e ≠ .sink w false)

/-! ### The diagnostics -/

/-- `OUTTEST` (45_diagnostics.md R231): its lines, written out as R231 lists them, made outputs in order, then each of
the 32 patterns driven, each line to its bit, and held, then the lines left as the configuration says; nothing else
changes. What R231 leaves open is configuration (R230; log 7, 10) and may have any value here: the 32 patterns
(00_scope.md R6), the bit that each line takes, whether the `N` direct lines of mode `DIRECT` take part, the levels
driven last if any, and the lines made inputs at the end. The reference configuration has the pseudocode's: bit `j` on
line `j`, no direct lines, the last pattern left standing. Its patterns are of R231's three kinds in R231's order,
sequential counting, all-on/all-off, alternating bits; that the count goes in steps of one, that the two patterns of
the other kinds stand in turn and that each kind has at least two are the model's reading (log 7). A valid
configuration may leave the data or the clock line of the shifter unmapped only in mode `DIRECT` (10_state.md R35 (b),
(c)); that the test then faults with `F_ROLE` at the first of them, as 40_gpio.md R121 asks of any operation, although
R231 says 'Faults: none in a valid configuration', is the model's choice (log 10). -/
def Obligations.OuttestDrivesThePatterns : Prop :=
  ThreeKinds Config.reference.outPatterns
    ∧ (∀ x ∈ ([.dl 0, .dl 1, .dl 2, .dl 3, .dl 4, .dl 5, .dl 6, .dl 7, .oe, .we, .asd, .asc, .ass] : List Role).zipIdx,
      Config.reference.outBit[x.1.slot].val = x.2)
    ∧ Config.reference.outDirect = false ∧ Config.reference.outLast = none
    ∧ (∀ r, namesLine Config.reference.outRelease r = false)
    ∧ ∀ s : State, s.Undisturbed →
    (∀ lines : List Role,
      lines = [.dl 0, .dl 1, .dl 2, .dl 3, .dl 4, .dl 5, .dl 6, .dl 7, .oe, .we, .asd, .asc]
        ++ (if mapped s.cfg .ass = true then [.ass] else [])
        ++ (if s.cfg.outDirect = true ∧ s.cfg.mode = .direct then
          (directLines.take s.cfg.addrBits.toNat).map .dal else []) →
      (∀ r ∈ lines, mapped s.cfg r = true) →
      ∃ t, exec .outtest s = .next t ∧ Answered s t (.ok .empty)
        ∧ Emitted s t ((lines.map fun r => .dir r .output)
            ++ (s.cfg.outPatterns.toList.flatMap fun p =>
              (lines.map fun r => .drv r (p.getLsbD s.cfg.outBit[r.slot].val))
                ++ [.dly (1000 * s.cfg.tPattern.toNat)])
            ++ (match s.cfg.outLast with
              | some levels => lines.map fun r => .drv r (levels.getLsbD r.slot.val)
              | none => [])
            ++ (lines.filter (namesLine s.cfg.outRelease)).map fun r => .dir r .input)
        ∧ (∀ r ∈ lines,
            t.dir r = some (if namesLine s.cfg.outRelease r = true then .input else .output)
              ∧ t.out r = some (match s.cfg.outLast with
                | some levels => levels.getLsbD r.slot.val
                | none => s.cfg.outPatterns[31].getLsbD s.cfg.outBit[r.slot].val))
        ∧ Keeps s t lines ∧ KeepsRegisters s t ∧ KeepsSink s t)
      ∧ (validConfig s.cfg = true → mapped s.cfg .asd = false →
        s.cfg.mode = .direct ∧ ∃ t, exec .outtest s = .next t
          ∧ FaultedAfter s t .role 10 (busDirEvents .output ++ [.dir .oe .output, .dir .we .output])
          ∧ t.fsm = s.fsm)
      ∧ (validConfig s.cfg = true → mapped s.cfg .asd = true → mapped s.cfg .asc = false →
        s.cfg.mode = .direct ∧ ∃ t, exec .outtest s = .next t
          ∧ FaultedAfter s t .role 11
            (busDirEvents .output ++ [.dir .oe .output, .dir .we .output, .dir .asd .output])
          ∧ t.fsm = s.fsm)

/-- `INECHO` (45_diagnostics.md R232): the bus made an input, then for ever one bus read, one print and one delay;
after any number of turns it has given no response and is still running, its trace grown by as many turns, whatever
the host has waiting but a kill. Whether WE# and OE# are touched first is open in R232, so it is configuration (R230;
log 10): a touched line is made an output and driven to the configuration's level; the reference configuration touches
neither, as the pseudocode. That WE# comes before OE# and both before the bus is the model's choice (log 10). That the
command's first step ends with the first turn and each further step is one turn is how the model cuts the loop into
steps, its DESIGN CHOICE (log 2). -/
def Obligations.InechoNeverResponds : Prop :=
  (Config.reference.echoWe = none ∧ Config.reference.echoOe = none)
    ∧ ∀ (s : State) (n : Nat) (touched : List (Role × Level)), s.Undisturbed → s.NoKillWaiting →
    (∀ i, mapped s.cfg (.dl i) = true) → (∀ x ∈ touched, mapped s.cfg x.1 = true) →
    touched = (match s.cfg.echoWe with
        | some l => [(.we, l)]
        | none => [])
      ++ (match s.cfg.echoOe with
        | some l => [(.oe, l)]
        | none => []) →
    ∃ (t0 t : State) (lss : List (List Level)), exec .inecho s = .next t0
      ∧ Host.Core.run Sys2Proof.core n t0 = .next t ∧ GoesOn s t0 .inEcho ∧ GoesOn s t .inEcho
      ∧ lss.length = n + 1 ∧ (∀ ls ∈ lss, ls.length = 8)
      ∧ Emitted s t ((touched.flatMap fun x => [.dir x.1 .output, .drv x.1 x.2]) ++ busDirEvents .input
        ++ lss.flatMap fun ls =>
          busSampleEvents ls ++ [.print (.byte (composeByte ls)), .dly (1000 * s.cfg.tEcho.toNat)])
      ∧ (∀ i, t.dir (.dl i) = some .input ∧ t.out (.dl i) = s.out (.dl i))
      ∧ (∀ x ∈ touched, t.dir x.1 = some .output ∧ t.out x.1 = some x.2)
      ∧ Keeps s t (dataRoles ++ touched.map Prod.fst) ∧ t.id = s.id ∧ t.cur = s.cur
      ∧ t.fsm = s.fsm ∧ KeepsFault s t ∧ KeepsSink s t

/-- `IOTEST` (45_diagnostics.md R233; what R233 leaves open is configuration, log 9): the output phase, the bus made
an input, then the wait for 0x0, 0x5 and 0xA in that order. Each poll of the wait is one bus read; a value found as
many polls in a row as the configuration's debouncing asks (R233's pseudocode: at once, debouncing 0) moves it to the
next one, any other poll is followed by the poll delay, and the last value leads to two blinks and the response. That
one step is one poll is how the model cuts the loop into steps, its DESIGN CHOICE (log 2). Bit `k` of the value is the
data line that the configuration names `k`-th. The lines of the two open phases are mapped ones, the data lines as a
whole or not at all and the address-control lines likewise, so the test runs in every configuration that maps the data
lines, never leaves the bus `Mixed`, and sets all mapped address-control lines or none (10_state.md R31, R32, R35). A
blink drives each of its lines to the configuration's on level, then to the other. What the host has waiting besides,
a kill at the head apart, changes nothing (60_exceptions.md R278; log 3). -/
def Obligations.IotestHandshake : Prop :=
  (∀ s : State, s.Undisturbed → (∀ i, mapped s.cfg (.dl i) = true) →
      ∃ t, exec .iotest s = .next t ∧ GoesOn s t (.ioTest [0x0, 0x5, 0xA] 0)
        ∧ Emitted s t (((ioRoles s.cfg s.cfg.ioOutputs).map fun r => .dir r .output)
            ++ (s.cfg.ioPatterns.flatMap fun p =>
              ((ioRoles s.cfg s.cfg.ioOutputs).map fun r => .drv r (p.levels.getLsbD r.slot.val))
                ++ [.dly p.hold])
            ++ busDirEvents .input)
        ∧ busDir t.pins = .input ∧ Keeps s t (dataRoles ++ ioRoles s.cfg s.cfg.ioOutputs) ∧ KeepsRegisters s t
        ∧ KeepsSink s t)
    ∧ (∀ (c : Config) (x : IoLines) (r : Role), r ∈ ioRoles c x ↔ mapped c r = true ∧ match r with
        | .dl _ => x.bus = true
        | .oe => x.oe = true
        | .we => x.we = true
        | .asd => x.address = true
        | .asc => x.address = true
        | .ass => x.address = true
        | .dal _ => x.address = true)
    ∧ (∀ (c : Config) (v : Byte) (k : Fin 4), (handshakeValue c v).getLsbD k.val = v.getLsbD c.ioNibble[k].val)
    ∧ ∀ (s : State) (e : BitVec 4) (await : List (BitVec 4)) (found : Nat),
      s.phase = .running (.ioTest (e :: await) found) →
      s.killIn = none → s.NoKillWaiting → (∀ i, mapped s.cfg (.dl i) = true) →
      (∀ i, s.dir (.dl i) = some .input) →
        ∃ t ls, step s = .next t ∧ ls = Env.levels s.pins dataLines s.env ∧ t.d = composeByte ls ∧ t.id = s.id ∧ t.cur = s.cur
          ∧ t.fsm = s.fsm ∧ KeepsFault s t ∧ KeepsSink s t
          ∧ if handshakeValue s.cfg (composeByte ls) ≠ e ∨ found < s.cfg.ioMatches then
              GoesOn s t (.ioTest (e :: await) (if handshakeValue s.cfg (composeByte ls) = e then found + 1 else 0))
                ∧ Keeps s t [] ∧ Emitted s t (busSampleEvents ls ++ s.cfg.ioPoll.toList.map .dly)
            else if await ≠ [] then
              GoesOn s t (.ioTest await 0) ∧ Keeps s t [] ∧ Emitted s t (busSampleEvents ls)
            else
              Answered s t (.ok .empty) ∧ Keeps s t (ioRoles s.cfg s.cfg.ioBlink)
                ∧ busDir t.pins = (if s.cfg.ioBlink.bus then .output else .input)
                ∧ ∃ (lines : List Role) (blink : Fin 2 → List Event), lines = ioRoles s.cfg s.cfg.ioBlink
                  ∧ (∀ k, blink k =
                    (lines.map fun r => .drv r (s.cfg.ioOnLevels.getLsbD r.slot.val)) ++ [.dly s.cfg.ioOn[k]]
                      ++ (lines.map fun r => .drv r (!s.cfg.ioOnLevels.getLsbD r.slot.val)) ++ [.dly s.cfg.ioOff[k]])
                  ∧ Emitted s t (busSampleEvents ls ++ (lines.map fun r => .dir r .output) ++ blink 0 ++ blink 1)

/-- `OETEST` (45_diagnostics.md R234): the idle setup, then OE# low and high for ever, each held; after any number of
turns it has given no response, is still running, and OE# is high. That the command's first step ends with the first
turn and each further step is one turn is how the model cuts the loop into steps, its DESIGN CHOICE (log 2). What the
host has waiting besides, a kill at the head apart, changes nothing (60_exceptions.md R278; log 3). -/
def Obligations.OetestTogglesForEver : Prop :=
  ∀ (s : State) (n : Nat), s.Undisturbed → validConfig s.cfg = true → s.NoKillWaiting →
    ∃ t0 t : State, exec .oetest s = .next t0 ∧ Host.Core.run Sys2Proof.core n t0 = .next t
      ∧ GoesOn s t0 .oeTest ∧ GoesOn s t .oeTest
      ∧ Emitted s t (idleEvents s.cfg ++ (List.range (n + 1)).flatMap fun _ =>
          [.drv .oe false, .dly (1000 * s.cfg.tOeHalf.toNat), .drv .oe true, .dly (1000 * s.cfg.tOeHalf.toNat)])
      ∧ t.SetUp ∧ t.ControlsHigh ∧ busDir t.pins = .input ∧ t.fsm = .idle
      ∧ Keeps s t (dataRoles ++ [.we, .oe] ++ modeLines s.cfg) ∧ t.d = s.d ∧ t.id = s.id ∧ t.cur = s.cur
      ∧ KeepsFault s t ∧ KeepsSink s t

/-- `ADDRTEST` in the address loopback (45_diagnostics.md R235, R236; 20_memory.md R78): every one of the 40 + `N` checks
passes, each with its address, one settle delay and eight samples of the address's low byte, and the command responds
`Ok`. The reference configuration has R236's eight constants, and the four broadcast bytes that R236 names are the first
four of its 32; R236 names the bytes, not their place, and that they come first is the model's choice (log 8). -/
def Obligations.AddrtestPassesInTheLoopback : Prop :=
  ∀ s : State, s.Undisturbed → validConfig s.cfg = true → s.cfg.mode ≠ .direct → s.env.wiring = .addressLoopback →
    ∃ t, exec .addrtest s = .next t ∧ Answered s t (.ok .empty)
      ∧ Emitted s t (idleEvents s.cfg ++ (checkedAddresses s.cfg).flatMap (checkEvents s.cfg))
      ∧ (checkedAddresses s.cfg).length = 40 + s.cfg.addrBits.toNat
      ∧ Config.reference.addrRandom.toList =
        [0x0f0f0f, 0x111111, 0x121212, 0x747474, 0x898989, 0xa5a5a5, 0xc3c3c3, 0xf1f1f1]
      ∧ Config.reference.addrPatterns.toList.take 4 = [0x0F, 0x11, 0xAA, 0x55]
      ∧ t.SetUp ∧ t.ControlsHigh ∧ busDir t.pins = .input ∧ t.fsm = .idle
      ∧ Keeps s t (dataRoles ++ [.we, .oe] ++ modeLines s.cfg) ∧ t.id = s.id ∧ t.cur = s.cur
      ∧ KeepsFault s t ∧ KeepsSink s t

/-- `ADDRTEST` fails fast (45_diagnostics.md R235, R237), in any environment: in mode `DIRECT` it faults with `F_MODE` at
once; else it passes every one of the 40 + `N` checks, or it stops at the first address whose byte differs, prints both
bytes, and faults with `F_VERIFY`, the expected byte in `FINFO[15:8]` and the byte read in `FINFO[7:0]`. -/
def Obligations.AddrtestStopsAtTheFirstMismatch : Prop :=
  ∀ s : State, s.Undisturbed → validConfig s.cfg = true →
    (s.cfg.mode = .direct → ∃ t, exec .addrtest s = .next t ∧ FaultedAtOnce s t .mode 0x64)
      ∧ (s.cfg.mode ≠ .direct → ∃ t, exec .addrtest s = .next t
        ∧ (checkedAddresses s.cfg).length = 40 + s.cfg.addrBits.toNat
        ∧ ((Answered s t (.ok .empty)
            ∧ Emitted s t (idleEvents s.cfg ++ (checkedAddresses s.cfg).flatMap (checkEvents s.cfg)))
          ∨ ∃ passed a others ls, checkedAddresses s.cfg = passed ++ a :: others ∧ ls.length = 8
            ∧ composeByte ls ≠ lowByte a ∧ t.finfo.extractLsb' 8 8 = lowByte a
            ∧ t.finfo.extractLsb' 0 8 = composeByte ls ∧ t.finfo.extractLsb' 16 8 = 0
            ∧ Faulted t .verify t.finfo ∧ Answered s t (.fault .verify t.finfo)
            ∧ Emitted s t (idleEvents s.cfg ++ passed.flatMap (checkEvents s.cfg)
              ++ addressEvents s.cfg a ++ [.dly s.cfg.tSettle.toNat] ++ busSampleEvents ls
              ++ [.print (.mismatch (lowByte a) (composeByte ls))])
            ∧ busDir t.pins = .input ∧ t.ControlsHigh))

/-! ### The whole machine -/

/-- The layout of `STATUS` and `PINSTATE` (10_state.md R34): the fields in their bits, zero in bit 31, zero codes while
`FAULT = 0` in every state that meets the invariant, and 0 right after reset. -/
def Obligations.StatusLayout : Prop :=
  (∀ s : State,
      s.status.extractLsb' 0 2 = (match s.fsm with
        | .idle => 0
        | .addressSettling => 1
        | .reading => 2
        | .writing => 3)
      ∧ s.status.getLsbD 2 = s.fault ∧ s.status.extractLsb' 3 4 = s.fcode
      ∧ s.status.extractLsb' 7 24 = s.finfo ∧ s.status.getLsbD 31 = false
      ∧ (Inv s → s.fault = false → s.status.extractLsb' 3 4 = 0 ∧ s.status.extractLsb' 7 24 = 0)
      ∧ ∀ r, (s.pinState r).extractLsb' 0 2 = (match s.dir r with
          | none => 0
          | some .input => 1
          | some .output => 2)
        ∧ (s.pinState r).getLsbD 2 = (match s.out r with
          | none => false
          | some l => l))
    ∧ State.reset.status = 0

/-- The state after reset meets the invariant. R38 leaves `CUR` unspecified there; that the invariant's clause on the cursor
(10_state.md R26) holds at reset rests on the model's choice of 0 (log 5). -/
def Obligations.ResetMeetsTheInvariant : Prop := Inv State.reset

/-- Every step keeps the invariant (10_state.md R26, R27, R34; 40_gpio.md R121; 60_exceptions.md R261, R273;
70_reset_and_hazards.md R293): a valid configuration while unfaulted, a zero record while unfaulted and one of the nine
codes while faulted, the cursor always within the dump's bounds (`CUR` at most `MAX_ADDR`, faulted or not), an idle sequencer wherever no fault and no kill cut a cycle,
unmapped roles untouched, and the chip's memory in its canonical form. For a step that is a reset, the clause on the
cursor rests on the model's choice of `CUR` = 0 (log 5). -/
def Obligations.StepKeepsTheInvariant : Prop := ∀ s t : State, Inv s → step s = .next t → Inv t

/-- The block's own cycles never contend for the bus (70_reset_and_hazards.md R298; 20_memory.md R76): from any state
without contention, in any configuration and wiring, `IDLESETUP`, `RDCYC`, `WRCYC`, `IDQUERY`, `DUMP` and the later turns
of a dump reach none, wherever the host's kill cuts them; so OE# low always finds the bus an input. -/
def Obligations.CyclesNeverContend : Prop :=
  (∀ (i : Instr) (s t : State) (killAfter : Option Nat), BusSafe s →
      (i = .idlesetup ∨ (∃ a, i = .rdcyc a) ∨ (∃ a v, i = .wrcyc a v) ∨ i = .idquery ∨ i = .dump) →
      exec i { s with killIn := killAfter } = .next t →
        BusSafe t ∧ (t.dir .oe = some .output → t.out .oe = some false → busDir t.pins = .input))
    ∧ ∀ (s : State) (killAfter : Option Nat), BusSafe s →
      BusSafe (resume .dump { s with killIn := killAfter })

/-- Only a reset rebuilds the block (10_state.md R29, R33; 41_address_shifter.md R147): any other step, a turn of a
running command while a reset waits in the host's queue (log 3) among them, keeps the configuration, the recorded
responses and a recorded fault. No step at all, a reset and a failing reset among them, writes the chip's identity or
a byte of its contents (20_memory.md R69, R75), or changes the environment's wiring and its premise `WE_IDLE_HIGH`.
That the environment is a field of State with a wiring (log 1), and that a reset keeps the wiring and the premise (log
26), is the model's choice. -/
def Obligations.OnlyAResetRebuilds : Prop :=
  ∀ s t : State, step s = .next t →
    (¬s.AtReset →
      t.cfg = s.cfg ∧ (∃ rs, t.responses = s.responses ++ rs)
        ∧ (s.fault = true → (∀ j, s.phase ≠ .running j) → KeepsFault s t))
      ∧ t.env.wiring = s.env.wiring ∧ t.env.weIdleHigh = s.env.weIdleHigh ∧ t.env.flashId = s.env.flashId
      ∧ ∀ a, t.env.flashByte a = s.env.flashByte a

/-- Who writes which register (10_state.md R24 to R27): `D` only a command that reads the bus, `ID` only `IDQUERY`, `CUR`
only `DUMP`, `FSM` only the cycles and the commands that contain one or an idle setup; the fault record only a fault. The
first clause is the step that accepts a command, the second a later turn of one whose loop goes on from step to step, which
is how the model cuts such a command into steps (log 2): so `IOTEST`, whose bus reads all stand in its wait
(45_diagnostics.md R233), writes `D` only in its later turns. -/
def Obligations.RegistersHaveTheirWriters : Prop :=
  (∀ (i : Instr) (s t : State), exec i s = .next t →
    (t.d = s.d ∨ i = .busrd ∨ (∃ a, i = .rdcyc a) ∨ i = .idquery ∨ i = .dump ∨ i = .inecho ∨ i = .addrtest)
      ∧ (t.id = s.id ∨ i = .idquery)
      ∧ (t.cur = s.cur ∨ i = .dump)
      ∧ (t.fsm = s.fsm ∨ i = .idlesetup ∨ (∃ a, i = .rdcyc a) ∨ (∃ a v, i = .wrcyc a v) ∨ i = .idquery ∨ i = .dump
        ∨ i = .oetest ∨ i = .addrtest)
      ∧ (KeepsFault s t ∨ t.fault = true))
    ∧ ∀ (j : Job) (s t : State), t = resume j s →
      (t.d = s.d ∨ j = .dump ∨ j = .inEcho ∨ ∃ await found, j = .ioTest await found)
        ∧ t.id = s.id
        ∧ (t.cur = s.cur ∨ j = .dump)
        ∧ (t.fsm = s.fsm ∨ j = .dump)
        ∧ (KeepsFault s t ∨ t.fault = true)

/-- The exit status of a host that reproduces the command line (60_exceptions.md R276): 0 for `Ok`, 1 for `F_SINK`,
`F_INIT` and `F_VERIFY`, nonzero for every other code. -/
def Obligations.ExitStatus : Prop :=
  (∀ p, exitStatus (.ok p) = 0)
    ∧ (∀ c info, c = .sink ∨ c = .init ∨ c = .verify → exitStatus (.fault c info) = 1)
    ∧ ∀ c info, exitStatus (.fault c info) ≠ 0

end
end

