-- ==== Sys2Proof/Laws/State.lean ====
section
/-! SUPPORT. What each field of the state is after each named update: one lemma per field per update, true by unfolding. -/

namespace Sys2Proof.Machine

variable (s : State)

/-! ### `recordFault` -/

@[simp] theorem State.recordFault_cfg (c : Cause) (i : BitVec 24) : (s.recordFault c i).cfg = s.cfg := rfl
@[simp] theorem State.recordFault_pins (c : Cause) (i : BitVec 24) : (s.recordFault c i).pins = s.pins := rfl
@[simp] theorem State.recordFault_d (c : Cause) (i : BitVec 24) : (s.recordFault c i).d = s.d := rfl
@[simp] theorem State.recordFault_id (c : Cause) (i : BitVec 24) : (s.recordFault c i).id = s.id := rfl
@[simp] theorem State.recordFault_cur (c : Cause) (i : BitVec 24) : (s.recordFault c i).cur = s.cur := rfl
@[simp] theorem State.recordFault_fsm (c : Cause) (i : BitVec 24) : (s.recordFault c i).fsm = s.fsm := rfl
@[simp] theorem State.recordFault_fault (c : Cause) (i : BitVec 24) : (s.recordFault c i).fault = true := rfl
@[simp] theorem State.recordFault_fcode (c : Cause) (i : BitVec 24) : (s.recordFault c i).fcode = causeCode c := rfl
@[simp] theorem State.recordFault_finfo (c : Cause) (i : BitVec 24) : (s.recordFault c i).finfo = i := rfl
@[simp] theorem State.recordFault_phase (c : Cause) (i : BitVec 24) : (s.recordFault c i).phase = s.phase := rfl
@[simp] theorem State.recordFault_killIn (c : Cause) (i : BitVec 24) : (s.recordFault c i).killIn = s.killIn := rfl
@[simp] theorem State.recordFault_host (c : Cause) (i : BitVec 24) : (s.recordFault c i).host = s.host := rfl
@[simp] theorem State.recordFault_sinkAnswers (c : Cause) (i : BitVec 24) : (s.recordFault c i).sinkAnswers = s.sinkAnswers := rfl
@[simp] theorem State.recordFault_sinkDraws (c : Cause) (i : BitVec 24) : (s.recordFault c i).sinkDraws = s.sinkDraws := rfl
@[simp] theorem State.recordFault_trace (c : Cause) (i : BitVec 24) : (s.recordFault c i).trace = s.trace := rfl
@[simp] theorem State.recordFault_responses (c : Cause) (i : BitVec 24) : (s.recordFault c i).responses = s.responses := rfl
@[simp] theorem State.recordFault_env (c : Cause) (i : BitVec 24) : (s.recordFault c i).env = s.env := rfl

/-! ### `respond` -/

@[simp] theorem State.respond_cfg (r : Reply) : (s.respond r).cfg = s.cfg := rfl
@[simp] theorem State.respond_pins (r : Reply) : (s.respond r).pins = s.pins := rfl
@[simp] theorem State.respond_d (r : Reply) : (s.respond r).d = s.d := rfl
@[simp] theorem State.respond_id (r : Reply) : (s.respond r).id = s.id := rfl
@[simp] theorem State.respond_cur (r : Reply) : (s.respond r).cur = s.cur := rfl
@[simp] theorem State.respond_fsm (r : Reply) : (s.respond r).fsm = s.fsm := rfl
@[simp] theorem State.respond_fault (r : Reply) : (s.respond r).fault = s.fault := rfl
@[simp] theorem State.respond_fcode (r : Reply) : (s.respond r).fcode = s.fcode := rfl
@[simp] theorem State.respond_finfo (r : Reply) : (s.respond r).finfo = s.finfo := rfl
@[simp] theorem State.respond_phase (r : Reply) : (s.respond r).phase = .idle := rfl
@[simp] theorem State.respond_killIn (r : Reply) : (s.respond r).killIn = none := rfl
@[simp] theorem State.respond_host (r : Reply) : (s.respond r).host = s.host := rfl
@[simp] theorem State.respond_sinkAnswers (r : Reply) : (s.respond r).sinkAnswers = s.sinkAnswers := rfl
@[simp] theorem State.respond_sinkDraws (r : Reply) : (s.respond r).sinkDraws = s.sinkDraws := rfl
@[simp] theorem State.respond_trace (r : Reply) : (s.respond r).trace = s.trace := rfl
@[simp] theorem State.respond_responses (r : Reply) : (s.respond r).responses = s.responses ++ [{ status := s.status, reply := r }] := rfl
@[simp] theorem State.respond_env (r : Reply) : (s.respond r).env = s.env := rfl

/-! ### `kill` -/

@[simp] theorem State.kill_cfg : (s.kill).cfg = s.cfg := rfl
@[simp] theorem State.kill_pins : (s.kill).pins = s.pins := rfl
@[simp] theorem State.kill_d : (s.kill).d = s.d := rfl
@[simp] theorem State.kill_id : (s.kill).id = s.id := rfl
@[simp] theorem State.kill_cur : (s.kill).cur = s.cur := rfl
@[simp] theorem State.kill_fsm : (s.kill).fsm = s.fsm := rfl
@[simp] theorem State.kill_fault : (s.kill).fault = s.fault := rfl
@[simp] theorem State.kill_fcode : (s.kill).fcode = s.fcode := rfl
@[simp] theorem State.kill_finfo : (s.kill).finfo = s.finfo := rfl
@[simp] theorem State.kill_phase : (s.kill).phase = .stopped := rfl
@[simp] theorem State.kill_killIn : (s.kill).killIn = none := rfl
@[simp] theorem State.kill_host : (s.kill).host = s.host := rfl
@[simp] theorem State.kill_sinkAnswers : (s.kill).sinkAnswers = s.sinkAnswers := rfl
@[simp] theorem State.kill_sinkDraws : (s.kill).sinkDraws = s.sinkDraws := rfl
@[simp] theorem State.kill_trace : (s.kill).trace = s.trace := rfl
@[simp] theorem State.kill_responses : (s.kill).responses = s.responses := rfl
@[simp] theorem State.kill_env : (s.kill).env = s.env := rfl

/-! ### `takeFault` -/

@[simp] theorem State.takeFault_cfg (c : Cause) (i : BitVec 24) : (s.takeFault c i).cfg = s.cfg := rfl
@[simp] theorem State.takeFault_pins (c : Cause) (i : BitVec 24) : (s.takeFault c i).pins = s.pins := rfl
@[simp] theorem State.takeFault_d (c : Cause) (i : BitVec 24) : (s.takeFault c i).d = s.d := rfl
@[simp] theorem State.takeFault_id (c : Cause) (i : BitVec 24) : (s.takeFault c i).id = s.id := rfl
@[simp] theorem State.takeFault_cur (c : Cause) (i : BitVec 24) : (s.takeFault c i).cur = s.cur := rfl
@[simp] theorem State.takeFault_fsm (c : Cause) (i : BitVec 24) : (s.takeFault c i).fsm = s.fsm := rfl
@[simp] theorem State.takeFault_fault (c : Cause) (i : BitVec 24) : (s.takeFault c i).fault = true := rfl
@[simp] theorem State.takeFault_fcode (c : Cause) (i : BitVec 24) : (s.takeFault c i).fcode = causeCode c := rfl
@[simp] theorem State.takeFault_finfo (c : Cause) (i : BitVec 24) : (s.takeFault c i).finfo = i := rfl
@[simp] theorem State.takeFault_phase (c : Cause) (i : BitVec 24) : (s.takeFault c i).phase = .idle := rfl
@[simp] theorem State.takeFault_killIn (c : Cause) (i : BitVec 24) : (s.takeFault c i).killIn = none := rfl
@[simp] theorem State.takeFault_host (c : Cause) (i : BitVec 24) : (s.takeFault c i).host = s.host := rfl
@[simp] theorem State.takeFault_sinkAnswers (c : Cause) (i : BitVec 24) : (s.takeFault c i).sinkAnswers = s.sinkAnswers := rfl
@[simp] theorem State.takeFault_sinkDraws (c : Cause) (i : BitVec 24) : (s.takeFault c i).sinkDraws = s.sinkDraws := rfl
@[simp] theorem State.takeFault_trace (c : Cause) (i : BitVec 24) : (s.takeFault c i).trace = s.trace := rfl
@[simp] theorem State.takeFault_responses (c : Cause) (i : BitVec 24) : (s.takeFault c i).responses = s.responses ++ [{ status := (s.recordFault c i).status, reply := .fault c i }] := rfl
@[simp] theorem State.takeFault_env (c : Cause) (i : BitVec 24) : (s.takeFault c i).env = s.env := rfl

/-! ### `handOver` -/

@[simp] theorem State.handOver_cfg (k : Option Nat) (rest : List HostMove) : (s.handOver k rest).cfg = s.cfg := rfl
@[simp] theorem State.handOver_pins (k : Option Nat) (rest : List HostMove) : (s.handOver k rest).pins = s.pins := rfl
@[simp] theorem State.handOver_d (k : Option Nat) (rest : List HostMove) : (s.handOver k rest).d = s.d := rfl
@[simp] theorem State.handOver_id (k : Option Nat) (rest : List HostMove) : (s.handOver k rest).id = s.id := rfl
@[simp] theorem State.handOver_cur (k : Option Nat) (rest : List HostMove) : (s.handOver k rest).cur = s.cur := rfl
@[simp] theorem State.handOver_fsm (k : Option Nat) (rest : List HostMove) : (s.handOver k rest).fsm = s.fsm := rfl
@[simp] theorem State.handOver_fault (k : Option Nat) (rest : List HostMove) : (s.handOver k rest).fault = s.fault := rfl
@[simp] theorem State.handOver_fcode (k : Option Nat) (rest : List HostMove) : (s.handOver k rest).fcode = s.fcode := rfl
@[simp] theorem State.handOver_finfo (k : Option Nat) (rest : List HostMove) : (s.handOver k rest).finfo = s.finfo := rfl
@[simp] theorem State.handOver_phase (k : Option Nat) (rest : List HostMove) : (s.handOver k rest).phase = s.phase := rfl
@[simp] theorem State.handOver_killIn (k : Option Nat) (rest : List HostMove) : (s.handOver k rest).killIn = k := rfl
@[simp] theorem State.handOver_host (k : Option Nat) (rest : List HostMove) : (s.handOver k rest).host = rest := rfl
@[simp] theorem State.handOver_sinkAnswers (k : Option Nat) (rest : List HostMove) : (s.handOver k rest).sinkAnswers = s.sinkAnswers := rfl
@[simp] theorem State.handOver_sinkDraws (k : Option Nat) (rest : List HostMove) : (s.handOver k rest).sinkDraws = s.sinkDraws := rfl
@[simp] theorem State.handOver_trace (k : Option Nat) (rest : List HostMove) : (s.handOver k rest).trace = s.trace := rfl
@[simp] theorem State.handOver_responses (k : Option Nat) (rest : List HostMove) : (s.handOver k rest).responses = s.responses := rfl
@[simp] theorem State.handOver_env (k : Option Nat) (rest : List HostMove) : (s.handOver k rest).env = s.env := rfl

/-! ### `afterSetDir` -/

@[simp] theorem State.afterSetDir_cfg (r : Role) (d : Direction) : (s.afterSetDir r d).cfg = s.cfg := rfl
@[simp] theorem State.afterSetDir_pins (r : Role) (d : Direction) : (s.afterSetDir r d).pins = setDirPins s.pins r d := rfl
@[simp] theorem State.afterSetDir_d (r : Role) (d : Direction) : (s.afterSetDir r d).d = s.d := rfl
@[simp] theorem State.afterSetDir_id (r : Role) (d : Direction) : (s.afterSetDir r d).id = s.id := rfl
@[simp] theorem State.afterSetDir_cur (r : Role) (d : Direction) : (s.afterSetDir r d).cur = s.cur := rfl
@[simp] theorem State.afterSetDir_fsm (r : Role) (d : Direction) : (s.afterSetDir r d).fsm = s.fsm := rfl
@[simp] theorem State.afterSetDir_fault (r : Role) (d : Direction) : (s.afterSetDir r d).fault = s.fault := rfl
@[simp] theorem State.afterSetDir_fcode (r : Role) (d : Direction) : (s.afterSetDir r d).fcode = s.fcode := rfl
@[simp] theorem State.afterSetDir_finfo (r : Role) (d : Direction) : (s.afterSetDir r d).finfo = s.finfo := rfl
@[simp] theorem State.afterSetDir_phase (r : Role) (d : Direction) : (s.afterSetDir r d).phase = s.phase := rfl
@[simp] theorem State.afterSetDir_killIn (r : Role) (d : Direction) : (s.afterSetDir r d).killIn = s.killIn := rfl
@[simp] theorem State.afterSetDir_host (r : Role) (d : Direction) : (s.afterSetDir r d).host = s.host := rfl
@[simp] theorem State.afterSetDir_sinkAnswers (r : Role) (d : Direction) : (s.afterSetDir r d).sinkAnswers = s.sinkAnswers := rfl
@[simp] theorem State.afterSetDir_sinkDraws (r : Role) (d : Direction) : (s.afterSetDir r d).sinkDraws = s.sinkDraws := rfl
@[simp] theorem State.afterSetDir_trace (r : Role) (d : Direction) : (s.afterSetDir r d).trace = s.trace := rfl
@[simp] theorem State.afterSetDir_responses (r : Role) (d : Direction) : (s.afterSetDir r d).responses = s.responses := rfl
@[simp] theorem State.afterSetDir_env (r : Role) (d : Direction) : (s.afterSetDir r d).env = s.env.onSetDir s.cfg s.pins r d := rfl

/-! ### `afterDrive` -/

@[simp] theorem State.afterDrive_cfg (r : Role) (l : Level) (b : Bool) : (s.afterDrive r l b).cfg = s.cfg := rfl
@[simp] theorem State.afterDrive_pins (r : Role) (l : Level) (b : Bool) : (s.afterDrive r l b).pins = drivePins s.pins r l := rfl
@[simp] theorem State.afterDrive_d (r : Role) (l : Level) (b : Bool) : (s.afterDrive r l b).d = s.d := rfl
@[simp] theorem State.afterDrive_id (r : Role) (l : Level) (b : Bool) : (s.afterDrive r l b).id = s.id := rfl
@[simp] theorem State.afterDrive_cur (r : Role) (l : Level) (b : Bool) : (s.afterDrive r l b).cur = s.cur := rfl
@[simp] theorem State.afterDrive_fsm (r : Role) (l : Level) (b : Bool) : (s.afterDrive r l b).fsm = s.fsm := rfl
@[simp] theorem State.afterDrive_fault (r : Role) (l : Level) (b : Bool) : (s.afterDrive r l b).fault = s.fault := rfl
@[simp] theorem State.afterDrive_fcode (r : Role) (l : Level) (b : Bool) : (s.afterDrive r l b).fcode = s.fcode := rfl
@[simp] theorem State.afterDrive_finfo (r : Role) (l : Level) (b : Bool) : (s.afterDrive r l b).finfo = s.finfo := rfl
@[simp] theorem State.afterDrive_phase (r : Role) (l : Level) (b : Bool) : (s.afterDrive r l b).phase = s.phase := rfl
@[simp] theorem State.afterDrive_killIn (r : Role) (l : Level) (b : Bool) : (s.afterDrive r l b).killIn = s.killIn := rfl
@[simp] theorem State.afterDrive_host (r : Role) (l : Level) (b : Bool) : (s.afterDrive r l b).host = s.host := rfl
@[simp] theorem State.afterDrive_sinkAnswers (r : Role) (l : Level) (b : Bool) : (s.afterDrive r l b).sinkAnswers = s.sinkAnswers := rfl
@[simp] theorem State.afterDrive_sinkDraws (r : Role) (l : Level) (b : Bool) : (s.afterDrive r l b).sinkDraws = s.sinkDraws := rfl
@[simp] theorem State.afterDrive_trace (r : Role) (l : Level) (b : Bool) : (s.afterDrive r l b).trace = s.trace := rfl
@[simp] theorem State.afterDrive_responses (r : Role) (l : Level) (b : Bool) : (s.afterDrive r l b).responses = s.responses := rfl
@[simp] theorem State.afterDrive_env (r : Role) (l : Level) (b : Bool) : (s.afterDrive r l b).env = s.env.onDrive s.cfg s.pins r l b := rfl

/-! ### `afterSink` -/

@[simp] theorem State.afterSink_cfg : s.afterSink.cfg = s.cfg := by
  unfold State.afterSink; split <;> rfl
@[simp] theorem State.afterSink_pins : s.afterSink.pins = s.pins := by
  unfold State.afterSink; split <;> rfl
@[simp] theorem State.afterSink_d : s.afterSink.d = s.d := by
  unfold State.afterSink; split <;> rfl
@[simp] theorem State.afterSink_id : s.afterSink.id = s.id := by
  unfold State.afterSink; split <;> rfl
@[simp] theorem State.afterSink_cur : s.afterSink.cur = s.cur := by
  unfold State.afterSink; split <;> rfl
@[simp] theorem State.afterSink_fsm : s.afterSink.fsm = s.fsm := by
  unfold State.afterSink; split <;> rfl
@[simp] theorem State.afterSink_fault : s.afterSink.fault = s.fault := by
  unfold State.afterSink; split <;> rfl
@[simp] theorem State.afterSink_fcode : s.afterSink.fcode = s.fcode := by
  unfold State.afterSink; split <;> rfl
@[simp] theorem State.afterSink_finfo : s.afterSink.finfo = s.finfo := by
  unfold State.afterSink; split <;> rfl
@[simp] theorem State.afterSink_phase : s.afterSink.phase = s.phase := by
  unfold State.afterSink; split <;> rfl
@[simp] theorem State.afterSink_killIn : s.afterSink.killIn = s.killIn := by
  unfold State.afterSink; split <;> rfl
@[simp] theorem State.afterSink_host : s.afterSink.host = s.host := by
  unfold State.afterSink; split <;> rfl
@[simp] theorem State.afterSink_trace : s.afterSink.trace = s.trace := by
  unfold State.afterSink; split <;> rfl
@[simp] theorem State.afterSink_responses : s.afterSink.responses = s.responses := by
  unfold State.afterSink; split <;> rfl
@[simp] theorem State.afterSink_env : s.afterSink.env = s.env := by
  unfold State.afterSink; split <;> rfl

/-! ### Latches and views -/

/-- Two states with the same latches have the same directions. -/
theorem State.dir_congr {s t : State} (h : t.pins = s.pins) (r : Role) : t.dir r = s.dir r := by
  simp [State.dir, h]

/-- Two states with the same latches have the same output latches. -/
theorem State.out_congr {s t : State} (h : t.pins = s.pins) (r : Role) : t.out r = s.out r := by
  simp [State.out, h]

/-- `STATUS` depends on `FSM` and the fault record only. -/
theorem State.status_congr {s t : State} (h : t.fsm = s.fsm) (hf : t.fault = s.fault) (hc : t.fcode = s.fcode)
    (hi : t.finfo = s.finfo) : t.status = s.status := by
  simp [State.status, h, hf, hc, hi]

@[simp] theorem State.respond_status (r : Reply) : (s.respond r).status = s.status := rfl

@[simp] theorem State.takeFault_status (c : Cause) (i : BitVec 24) :
    (s.takeFault c i).status = (s.recordFault c i).status := rfl

end Sys2Proof.Machine
end

