-- ==== Sys2Proof/Laws/Pins.lean ====
section
/-! SUPPORT. The latch table, and role indexes. -/

namespace Sys2Proof.Machine

/-! ### Roles -/

theorem Role.slot_injective : Function.Injective Role.slot := by
  intro a b h
  cases a <;> cases b <;> simp_all [Role.slot, Fin.ext_iff] <;> omega

theorem Role.mem_all (r : Role) : r ∈ Role.all := by
  cases r with
  | dl i => simp only [Role.all, dataLines, List.mem_append, List.mem_map]; left; left; exact ⟨i, by fin_cases i <;> simp, rfl⟩
  | dal i => simp only [Role.all, directLines, List.mem_append, List.mem_map]; right; exact ⟨i, by fin_cases i <;> simp, rfl⟩
  | _ => simp [Role.all]

/-- A role's index names the role. -/
@[simp] theorem roleOfIndex_roleIndex (r : Role) : roleOfIndex (roleIndex r) = some r := by
  cases r with
  | dl i => fin_cases i <;> decide
  | dal i => fin_cases i <;> decide
  | _ => decide

/-- A legal index is the index of a role (30_encoding.md R94). -/
theorem roleIndex_of_legal {ix : RoleIndex} (h : RoleIndex.legal ix = true) : ∃ r, roleIndex r = ix := by
  have hall : ∀ x : BitVec 6, RoleIndex.legal x = true → (roleOfIndex x).map roleIndex = some x := by decide
  obtain ⟨r, -, hr⟩ := Option.map_eq_some_iff.mp (hall ix h)
  exact ⟨r, hr⟩

/-! ### The table -/

@[simp] theorem pinAt_putPin_self (p : Pins) (r : Role) (x : Pin) : pinAt (putPin p r x) r = x := by
  simp [pinAt, putPin]

theorem pinAt_putPin_of_ne {p : Pins} {r r' : Role} {x : Pin} (h : r' ≠ r) : pinAt (putPin p r x) r' = pinAt p r' := by
  have : (r.slot : Nat) ≠ r'.slot := fun e => h (Role.slot_injective (Fin.ext e.symm))
  simp [pinAt, putPin, this]

theorem pinAt_putPin (p : Pins) (r r' : Role) (x : Pin) :
    pinAt (putPin p r x) r' = if r' = r then x else pinAt p r' := by
  by_cases h : r' = r
  · subst h; simp
  · simp [h, pinAt_putPin_of_ne h]

/-- `SetDir` sets one direction. -/
theorem pinAt_setDirPins_dir (p : Pins) (r r' : Role) (d : Direction) :
    (pinAt (setDirPins p r d) r').dir = if r' = r then some d else (pinAt p r').dir := by
  unfold setDirPins; rw [pinAt_putPin]; split <;> rfl

/-- `SetDir` makes a fresh output's level unknown and keeps every other latch (40_gpio.md R125). -/
theorem pinAt_setDirPins_out (p : Pins) (r r' : Role) (d : Direction) :
    (pinAt (setDirPins p r d) r').out =
      if r' = r ∧ d = .output ∧ (pinAt p r).dir ≠ some .output then none else (pinAt p r').out := by
  unfold setDirPins; rw [pinAt_putPin]
  by_cases h : r' = r
  · subst h
    by_cases h1 : d = .output <;> by_cases h2 : (pinAt p r').dir = some .output <;> simp [freshOutput, h1, h2]
  · simp [h]

/-- `Drive` keeps every direction. -/
@[simp] theorem pinAt_drivePins_dir (p : Pins) (r r' : Role) (l : Level) :
    (pinAt (drivePins p r l) r').dir = (pinAt p r').dir := by
  unfold drivePins; rw [pinAt_putPin]; split
  · subst_vars; rfl
  · rfl

/-- `Drive` sets one output latch. -/
theorem pinAt_drivePins_out (p : Pins) (r r' : Role) (l : Level) :
    (pinAt (drivePins p r l) r').out = if r' = r then some l else (pinAt p r').out := by
  unfold drivePins; rw [pinAt_putPin]; split <;> rfl

theorem State.dir_afterSetDir (s : State) (r r' : Role) (d : Direction) :
    (s.afterSetDir r d).dir r' = if r' = r then some d else s.dir r' := pinAt_setDirPins_dir ..

theorem State.out_afterSetDir (s : State) (r r' : Role) (d : Direction) :
    (s.afterSetDir r d).out r' = if r' = r ∧ d = .output ∧ s.dir r ≠ some .output then none else s.out r' :=
  pinAt_setDirPins_out ..

@[simp] theorem State.dir_afterDrive (s : State) (r r' : Role) (l : Level) (b : Bool) :
    (s.afterDrive r l b).dir r' = s.dir r' := pinAt_drivePins_dir ..

theorem State.out_afterDrive (s : State) (r r' : Role) (l : Level) (b : Bool) :
    (s.afterDrive r l b).out r' = if r' = r then some l else s.out r' := pinAt_drivePins_out ..

end Sys2Proof.Machine
end

