-- ==== Sys2Proof/Laws/Actions.lean ====
section
/-! SUPPORT. Actions: how they run one after another, what the primitives answer when nothing stops them, and the one
inversion that says everything a command can do: a chain of `Micro` changes. -/

namespace Sys2Proof.Machine

/-! ### Running -/

/-- The state an action reaches, whether it answers or stops. -/
def reached {α : Type} : EStateM.Result Stop State α → State
  | .ok _ s => s
  | .error _ s => s

@[simp] theorem reached_ok {α : Type} (a : α) (s : State) :
    reached (.ok a s : EStateM.Result Stop State α) = s := rfl

@[simp] theorem reached_error {α : Type} (e : Stop) (s : State) :
    reached (.error e s : EStateM.Result Stop State α) = s := rfl

theorem act_bind {α β : Type} (x : Act α) (f : α → Act β) (s : State) :
    (x >>= f) s = match x s with
      | .ok a t => f a t
      | .error e t => .error e t := by
  change EStateM.bind x f s = _
  unfold EStateM.bind
  cases x s <;> rfl

/-- An action that answers is followed by its continuation. -/
theorem act_bind_ok {α β : Type} {x : Act α} {f : α → Act β} {s t : State} {a : α} (h : x s = .ok a t) :
    (x >>= f) s = f a t := by rw [act_bind, h]

/-- An action that stops is the end. -/
theorem act_bind_error {α β : Type} {x : Act α} {f : α → Act β} {s t : State} {e : Stop} (h : x s = .error e t) :
    (x >>= f) s = .error e t := by rw [act_bind, h]

@[simp] theorem act_pure {α : Type} (a : α) (s : State) : (pure a : Act α) s = .ok a s := rfl

@[simp] theorem act_get (s : State) : (get : Act State) s = .ok s s := rfl

@[simp] theorem act_modify (f : State → State) (s : State) : (modify f : Act PUnit) s = .ok ⟨⟩ (f s) := rfl

@[simp] theorem act_raise {α : Type} (c : Cause) (i : BitVec 24) (s : State) :
    (raise c i : Act α) s = .error (.fault c i) s := rfl

/-! ### Events -/

/-- A state with one more event in its trace, its kill one event nearer. -/
def State.logged (s : State) (e : Event) (u : State) : State :=
  { u with killIn := s.killIn.map (· - 1), trace := s.trace ++ [e] }

/-- What `emit` can do. -/
theorem emit_cases (e : Event) (u : State → State) (s : State) :
    (s.killIn = some 0 ∧ emit e u s = .error .killed s) ∨
      (s.killIn ≠ some 0 ∧ emit e u s = .ok () (s.logged e (u s))) := by
  unfold emit State.logged
  rcases hk : s.killIn with _ | k
  · exact .inr ⟨by simp, rfl⟩
  · cases k with
    | zero => exact .inl ⟨rfl, rfl⟩
    | succ k => exact .inr ⟨by simp, rfl⟩

theorem emit_ok {e : Event} {u : State → State} {s : State} (h : s.killIn ≠ some 0) :
    emit e u s = .ok () (s.logged e (u s)) := by
  rcases emit_cases e u s with ⟨h', _⟩ | ⟨_, h'⟩
  · exact absurd h' h
  · exact h'

theorem setDir_ok {s : State} {r : Role} {d : Direction} (hk : s.killIn ≠ some 0) (hm : mapped s.cfg r = true) :
    setDir r d s = .ok () (s.logged (.dir r d) (s.afterSetDir r d)) := by
  simp [setDir, hm, emit_ok hk]

theorem drive_ok {s : State} {r : Role} {l : Level} {b : Bool} (hk : s.killIn ≠ some 0)
    (hm : mapped s.cfg r = true) (hd : s.dir r = some .output) :
    drive r l b s = .ok () (s.logged (.drv r l) (s.afterDrive r l b)) := by
  simp [drive, hm, hd, emit_ok hk]

theorem delay_ok {s : State} {us : Nat} (hk : s.killIn ≠ some 0) : delay us s = .ok () (s.logged (.dly us) s) :=
  emit_ok hk

/-- A sample answers what the environment presents (20_memory.md R70). -/
theorem sample_ok {s : State} {r : Role} (hk : s.killIn ≠ some 0) (hm : mapped s.cfg r = true)
    (hd : s.dir r = some .input) :
    sample r s = .ok (s.env.pinIn s.pins r).1
      (s.logged (.smp r (s.env.pinIn s.pins r).1) { s with env := (s.env.pinIn s.pins r).2 }) := by
  simp [sample, hm, hd, emit_ok hk]

theorem sinkWrite_ok {s : State} {v : Byte} (hk : s.killIn ≠ some 0) :
    sinkWrite v s = .ok s.sinkAnswer (s.logged (.sink v s.sinkAnswer) s.afterSink) := by
  simp [sinkWrite, emit_ok hk]

/-! ### Everything a command can do -/

/-- One change of the state inside a command. -/
inductive Micro : State → State → Prop
  | setDir {s : State} (r : Role) (d : Direction) (hk : s.killIn ≠ some 0) (hm : mapped s.cfg r = true) :
      Micro s (s.logged (.dir r d) (s.afterSetDir r d))
  | drive {s : State} (r : Role) (l : Level) (b : Bool) (hk : s.killIn ≠ some 0) (hm : mapped s.cfg r = true)
      (hd : s.dir r = some .output) : Micro s (s.logged (.drv r l) (s.afterDrive r l b))
  | sample {s : State} (r : Role) (hk : s.killIn ≠ some 0) (hm : mapped s.cfg r = true)
      (hd : s.dir r = some .input) :
      Micro s (s.logged (.smp r (s.env.pinIn s.pins r).1) { s with env := (s.env.pinIn s.pins r).2 })
  | quiet {s : State} (e : Event) (hq : ∀ p, e.onPins p = p) (hk : s.killIn ≠ some 0) : Micro s (s.logged e s)
  | sink {s : State} (v : Byte) (hk : s.killIn ≠ some 0) :
      Micro s (s.logged (.sink v s.sinkAnswer) s.afterSink)
  | enter {s : State} (f : Fsm) : Micro s { s with fsm := f }
  | address {s : State} (a : Option Addr) : Micro s { s with env := s.env.present s.pins a }
  | data {s : State} (v : Byte) : Micro s { s with d := v }
  | identity {s : State} (k : Fin 4) (v : Byte) : Micro s { s with id := s.id.set k.val v }

/-- A chain of such changes. -/
abbrev Steps : State → State → Prop := Relation.ReflTransGen Micro

/-- What `DUMP` does besides: its cursor. -/
inductive Change : State → State → Prop
  | micro {s t : State} (h : Micro s t) : Change s t
  | cursorZero {s : State} : Change s { s with cur := 0 }
  | cursorNext {s : State} (h : s.cur ≠ s.cfg.maxAddr) : Change s { s with cur := s.cur + 1 }

/-- A chain of changes: everything a command can do. -/
abbrev Changes : State → State → Prop := Relation.ReflTransGen Change

theorem Steps.changes {s t : State} (h : Steps s t) : Changes s t := by
  induction h with
  | refl => exact .refl
  | tail _ h ih => exact ih.tail (.micro h)

theorem Micro.cfg {s t : State} (h : Micro s t) : t.cfg = s.cfg := by
  cases h <;> simp [State.logged]

theorem Micro.cur {s t : State} (h : Micro s t) : t.cur = s.cur := by
  cases h <;> simp [State.logged]

theorem Steps.cfg {s t : State} (h : Steps s t) : t.cfg = s.cfg := by
  induction h with
  | refl => rfl
  | tail _ h ih => rw [h.cfg, ih]

theorem Steps.cur {s t : State} (h : Steps s t) : t.cur = s.cur := by
  induction h with
  | refl => rfl
  | tail _ h ih => rw [h.cur, ih]

/-- An action does nothing but such changes, and it is killed only where the host's kill is due. -/
structure Within {α : Type} (x : Act α) : Prop where
  steps : ∀ s, Steps s (reached (x s))
  killed : ∀ s t, x s = .error .killed t → t.killIn = some 0

theorem within_pure {α : Type} (a : α) : Within (pure a : Act α) := ⟨fun _ => .refl, fun _ _ h => by cases h⟩

theorem within_get : Within (get : Act State) := ⟨fun _ => .refl, fun _ _ h => by cases h⟩

theorem within_raise {α : Type} (c : Cause) (i : BitVec 24) : Within (raise c i : Act α) :=
  ⟨fun _ => .refl, fun _ _ h => by cases h⟩

theorem within_bind {α β : Type} {x : Act α} {f : α → Act β} (hx : Within x) (hf : ∀ a, Within (f a)) :
    Within (x >>= f) := by
  refine ⟨fun s => ?_, fun s t ht => ?_⟩
  · have h := hx.steps s
    rw [act_bind]
    cases hxs : x s with
    | ok a t => rw [hxs] at h; exact h.trans ((hf a).steps t)
    | error e t => rw [hxs] at h; exact h
  · rw [act_bind] at ht
    cases hxs : x s with
    | ok a u => rw [hxs] at ht; exact (hf a).killed u t ht
    | error e u => rw [hxs] at ht; cases ht; exact hx.killed s _ hxs

theorem within_modify {f : State → State} (h : ∀ s, Micro s (f s)) : Within (modify f : Act PUnit) :=
  ⟨fun s => .single (h s), fun _ _ h => by cases h⟩

theorem within_setDir (r : Role) (d : Direction) : Within (setDir r d) := by
  suffices h : ∀ s, (Steps s (reached (setDir r d s))) ∧ ∀ t, setDir r d s = .error .killed t → t.killIn = some 0 from
    ⟨fun s => (h s).1, fun s => (h s).2⟩
  intro s
  by_cases hm : mapped s.cfg r = true
  · by_cases hk : s.killIn = some 0
    · simp only [setDir, hm, if_true]
      rcases emit_cases (.dir r d) (fun t => t.afterSetDir r d) s with ⟨-, h⟩ | ⟨h, -⟩
      · rw [h]; exact ⟨.refl, fun t ht => by cases ht; exact hk⟩
      · exact absurd hk h
    · rw [setDir_ok hk hm]; exact ⟨.single (.setDir r d hk hm), fun t ht => by cases ht⟩
  · simp only [setDir, hm]; exact ⟨.refl, fun t ht => by cases ht⟩

theorem within_drive (r : Role) (l : Level) (b : Bool) : Within (drive r l b) := by
  suffices h : ∀ s, (Steps s (reached (drive r l b s))) ∧ ∀ t, drive r l b s = .error .killed t → t.killIn = some 0 from
    ⟨fun s => (h s).1, fun s => (h s).2⟩
  intro s
  by_cases hm : mapped s.cfg r = true
  · by_cases hd : s.dir r = some .output
    · by_cases hk : s.killIn = some 0
      · simp only [drive, hm, hd, if_true]
        rcases emit_cases (.drv r l) (fun t => t.afterDrive r l b) s with ⟨-, h⟩ | ⟨h, -⟩
        · rw [h]; exact ⟨.refl, fun t ht => by cases ht; exact hk⟩
        · exact absurd hk h
      · rw [drive_ok hk hm hd]; exact ⟨.single (.drive r l b hk hm hd), fun t ht => by cases ht⟩
    · simp only [drive, hm, hd, if_true, if_false]; exact ⟨.refl, fun t ht => by cases ht⟩
  · simp only [drive, hm]; exact ⟨.refl, fun t ht => by cases ht⟩

theorem within_sample (r : Role) : Within (sample r) := by
  suffices h : ∀ s, (Steps s (reached (sample r s))) ∧ ∀ t, sample r s = .error .killed t → t.killIn = some 0 from
    ⟨fun s => (h s).1, fun s => (h s).2⟩
  intro s
  by_cases hm : mapped s.cfg r = true
  · by_cases hd : s.dir r = some .input
    · by_cases hk : s.killIn = some 0
      · simp only [sample, hm, hd, if_true]
        rcases emit_cases (.smp r (s.env.pinIn s.pins r).1) (fun t => { t with env := (s.env.pinIn s.pins r).2 }) s with
          ⟨-, h⟩ | ⟨h, -⟩
        · rw [h]; exact ⟨.refl, fun t ht => by cases ht; exact hk⟩
        · exact absurd hk h
      · rw [sample_ok hk hm hd]; exact ⟨.single (.sample r hk hm hd), fun t ht => by cases ht⟩
    · simp only [sample, hm, hd, if_true, if_false]; exact ⟨.refl, fun t ht => by cases ht⟩
  · simp only [sample, hm]; exact ⟨.refl, fun t ht => by cases ht⟩

theorem within_quiet (e : Event) (hq : ∀ p, e.onPins p = p := by exact fun _ => rfl) : Within (emit e id) := by
  suffices h : ∀ s, (Steps s (reached (emit e id s))) ∧ ∀ t, emit e id s = .error .killed t → t.killIn = some 0 from
    ⟨fun s => (h s).1, fun s => (h s).2⟩
  intro s
  rcases emit_cases e id s with ⟨hk, h⟩ | ⟨hk, h⟩
  · rw [h]; exact ⟨.refl, fun t ht => by cases ht; exact hk⟩
  · rw [h]; exact ⟨.single (.quiet e hq hk), fun t ht => by cases ht⟩

theorem within_sinkWrite (v : Byte) : Within (sinkWrite v) := by
  suffices h : ∀ s, (Steps s (reached (sinkWrite v s))) ∧ ∀ t, sinkWrite v s = .error .killed t → t.killIn = some 0 from
    ⟨fun s => (h s).1, fun s => (h s).2⟩
  intro s
  unfold sinkWrite
  rcases emit_cases (.sink v s.sinkAnswer) State.afterSink s with ⟨hk, h⟩ | ⟨hk, h⟩
  · rw [h]; exact ⟨.refl, fun t ht => by cases ht; exact hk⟩
  · rw [h]; exact ⟨.single (.sink v hk), fun t ht => by cases ht⟩

theorem within_runOp (op : PinOp) : Within (runOp op) := by
  cases op with
  | setDir r d => exact within_setDir r d
  | drive r l => exact within_drive r l false
  | shift r l => exact within_drive r l true
  | delay us => exact within_quiet _
  | enter f => exact ⟨fun _ => .single (.enter f), fun _ _ h => by cases h⟩
  | address a => exact ⟨fun _ => .single (.address a), fun _ _ h => by cases h⟩

theorem within_runOps (ops : List PinOp) : Within (runOps ops) := by
  induction ops with
  | nil => exact within_pure _
  | cons op ops ih => exact within_bind (within_runOp op) fun _ => ih

theorem within_runWith (f : Config → List PinOp) : Within (runWith f) :=
  within_bind within_get fun _ => within_runOps _

theorem within_finish {x : Act Unit} (h : Within x) : Within (finish x) :=
  within_bind h fun _ => within_pure _

theorem within_withRole {α : Type} (ix : RoleIndex) {f : Role → Act α} (h : ∀ r, Within (f r)) :
    Within (withRole ix f) := by
  unfold withRole
  split
  · exact h _
  · exact within_raise _ _

theorem within_checkRange (a : Addr) : Within (checkRange a) := by
  refine ⟨fun s => ?_, fun s t ht => ?_⟩
  · unfold checkRange; split <;> exact .refl
  · unfold checkRange at ht; split at ht <;> cases ht

theorem within_setAddress (a : Addr) : Within (setAddress a) := by
  refine within_bind (within_checkRange a) fun _ => within_bind within_get fun s => ?_
  split
  · exact within_raise _ _
  · exact within_runOps _

theorem within_requireBus (d : Direction) : Within (requireBus d) := by
  refine ⟨fun s => ?_, fun s t ht => ?_⟩
  · unfold requireBus; split <;> exact .refl
  · unfold requireBus at ht; split at ht <;> cases ht

theorem within_busWrite (v : Byte) : Within (busWrite v) :=
  within_bind (within_requireBus _) fun _ => within_runOps _

theorem within_sampleLines (is : List (Fin 8)) : Within (sampleLines is) := by
  induction is with
  | nil => exact within_pure _
  | cons i is ih => exact within_bind (within_sample _) fun _ => within_bind ih fun _ => within_pure _

theorem within_busRead : Within busRead :=
  within_bind (within_requireBus _) fun _ => within_bind (within_sampleLines _) fun _ =>
    within_bind (within_modify fun _ => .data _) fun _ => within_pure _

theorem within_readCycle (a : Addr) : Within (readCycle a) :=
  within_bind (within_checkRange a) fun _ => within_bind (within_runWith _) fun _ =>
    within_bind (within_setAddress a) fun _ => within_bind (within_runWith _) fun _ =>
      within_bind within_busRead fun _ => within_bind (within_runWith _) fun _ => within_pure _

theorem within_writeCycle (a : Addr) (v : Byte) : Within (writeCycle a v) :=
  within_bind (within_checkRange a) fun _ => within_bind (within_runWith _) fun _ =>
    within_bind (within_setAddress a) fun _ => within_bind (within_busWrite v) fun _ => within_runWith _

theorem within_writeAll (l : List (Addr × Byte)) : Within (writeAll l) := by
  induction l with
  | nil => exact within_pure _
  | cons x l ih => exact within_bind (within_writeCycle x.1 x.2) fun _ => ih

theorem within_readIdentity (l : List (Fin 4 × Addr)) : Within (readIdentity l) := by
  induction l with
  | nil => exact within_pure _
  | cons x l ih =>
    exact within_bind (within_readCycle x.2) fun v => within_bind (within_modify fun _ => .identity x.1 v) fun _ => ih

theorem within_autoselect : Within autoselect :=
  within_bind (within_writeAll _) fun _ => within_bind (within_readIdentity _) fun _ => within_writeCycle _ _

theorem within_closingBus {x : Act Unit} (h : Within x) : Within (closingBus x) := by
  refine ⟨fun s => ?_, fun s t ht => ?_⟩
  · have hx := h.steps s
    unfold closingBus
    split
    next t ht => rw [ht] at hx; exact hx.trans ((within_runOps _).steps t)
    next t ht => rw [ht] at hx; exact hx
    next c i t ht =>
      rw [ht] at hx
      have hc := (within_runOps (busdirOps .input)).steps t
      split
      all_goals (next u hu => rw [hu] at hc; exact hx.trans hc)
  · unfold closingBus at ht
    split at ht
    · exact (within_runOps _).killed _ _ ht
    next u hu => cases ht; exact h.killed s _ hu
    next c i u hu =>
      split at ht
      next w hw => cases ht; exact (within_runOps _).killed _ _ hw
      · cases ht
      · cases ht

theorem within_identityQuery : Within identityQuery :=
  within_bind (within_runWith _) fun _ => within_bind (within_closingBus within_autoselect) fun _ =>
    within_bind within_get fun _ => within_bind (within_quiet _) fun _ => within_pure _

theorem within_echoTurn : Within echoTurn :=
  within_bind within_busRead fun _ => within_bind (within_quiet _) fun _ =>
    within_bind (within_runWith _) fun _ => within_pure _

theorem within_echoStart : Within echoStart := within_bind (within_runWith _) fun _ => within_echoTurn

theorem within_blinkEnd : Within blinkEnd := within_bind (within_runWith _) fun _ => within_pure _

theorem within_ioTurn (l : List (BitVec 4)) (found : Nat) : Within (ioTurn l found) := by
  cases l with
  | nil => exact within_blinkEnd
  | cons e rest =>
    refine within_bind within_busRead fun v => within_bind within_get fun s => ?_
    split
    · split
      · exact within_bind (within_runWith _) fun _ => within_pure _
      · split
        · exact within_blinkEnd
        · exact within_pure _
    · exact within_bind (within_runWith _) fun _ => within_pure _

theorem within_ioStart : Within ioStart :=
  within_bind (within_runWith _) fun _ => within_bind (within_runOps _) fun _ => within_pure _

theorem within_oeTurn : Within oeTurn := within_bind (within_runWith _) fun _ => within_pure _

theorem within_oeStart : Within oeStart := within_bind (within_runWith _) fun _ => within_oeTurn

theorem within_checkAddress (a : Addr) : Within (checkAddress a) := by
  refine within_bind (within_setAddress a) fun _ => within_bind (within_runWith _) fun _ =>
    within_bind within_busRead fun v => ?_
  split
  · exact within_pure _
  · exact within_bind (within_quiet _) fun _ => within_raise _ _

theorem within_checkAll (l : List Addr) : Within (checkAll l) := by
  induction l with
  | nil => exact within_pure _
  | cons a l ih => exact within_bind (within_checkAddress a) fun _ => ih

theorem within_addressTest : Within addressTest := by
  refine within_bind within_get fun s => ?_
  split
  · exact within_raise _ _
  · exact within_bind (within_runWith _) fun _ => within_checkAll _

/-! ### The cursor -/

/-- Everything a stretch of pseudocode can do from a state: `Changes`, and a kill only where it is due. -/
structure Does {α : Type} (x : Act α) (s : State) : Prop where
  changes : Changes s (reached (x s))
  killed : ∀ t, x s = .error .killed t → t.killIn = some 0

theorem Within.does {α : Type} {x : Act α} (h : Within x) (s : State) : Does x s :=
  ⟨(h.steps s).changes, h.killed s⟩

theorem does_bind {α β : Type} {x : Act α} {f : α → Act β} {s : State} (hx : Does x s)
    (hf : ∀ a t, x s = .ok a t → Does (f a) t) : Does (x >>= f) s := by
  have h1 := hx.changes
  refine ⟨?_, fun t ht => ?_⟩
  · rw [act_bind]
    cases hxs : x s with
    | ok a t => rw [hxs] at h1; exact h1.trans (hf a t hxs).changes
    | error e t => rw [hxs] at h1; exact h1
  · rw [act_bind] at ht
    cases hxs : x s with
    | ok a u => rw [hxs] at ht; exact (hf a u hxs).killed t ht
    | error e u => rw [hxs] at ht; cases ht; exact hx.killed _ hxs

theorem does_modify {f : State → State} {s : State} (h : Change s (f s)) : Does (modify f : Act PUnit) s :=
  ⟨.single h, fun _ h => by cases h⟩

/-- One turn of the dump's loop: the cursor moves only below its bound (44_composite.md R216). -/
theorem does_dumpTurn (s : State) : Does dumpTurn s := by
  refine does_bind (within_get.does s) fun c s' hs' => ?_
  obtain ⟨rfl, rfl⟩ : s = c ∧ s = s' := by simpa using hs'
  refine does_bind ((within_readCycle s.cur).does s) fun v t ht => ?_
  have h1 : Steps s t := by have := (within_readCycle s.cur).steps s; rwa [ht] at this
  refine does_bind ((within_sinkWrite v).does t) fun ok u hu => ?_
  have h2 : Steps t u := by have := (within_sinkWrite v).steps t; rwa [hu] at this
  split
  · split
    · exact (within_bind (within_quiet _) (fun _ => within_pure _)).does u
    next hne =>
      refine does_bind (does_modify (.cursorNext ?_)) fun _ w _ => (within_pure _).does w
      rw [Steps.cur (h1.trans h2), Steps.cfg (h1.trans h2)]; exact hne
  · exact (within_bind (within_quiet _) (fun _ => within_raise _ _)).does u

theorem does_dumpStart (s : State) : Does dumpStart s :=
  does_bind ((within_runWith _).does s) fun _ _ _ =>
    does_bind (does_modify .cursorZero) fun _ u _ => does_dumpTurn u

/-! ### Every command -/

/-- The pseudocode of a command (30_encoding.md R95). -/
def bodyOf : Instr → Act Progress
  | .cfgdir role dir => finish (withRole role fun r => setDir r dir)
  | .pinwr role level => finish (withRole role fun r => drive r level false)
  | .pinrd role => pinRead role
  | .setaddr addr => finish (setAddress addr)
  | .busdir dir => finish (runOps (busdirOps dir))
  | .buswr value => finish (busWrite value)
  | .busrd => busReadCommand
  | .idlesetup => finish idleSetup
  | .rdcyc addr => readCycleCommand addr
  | .wrcyc addr data => finish (writeCycle addr data)
  | .allin => finish (runWith allInputOps)
  | .idquery => identityQuery
  | .dump => dumpStart
  | .outtest => finish (runWith outTestOps)
  | .inecho => echoStart
  | .iotest => ioStart
  | .oetest => oeStart
  | .addrtest => finish addressTest

/-- Every command is accepted and run in the one way. -/
theorem exec_eq (i : Instr) (s : State) : exec i s = runCommand s (bodyOf i) := by
  cases i <;> rfl

/-- Everything a command's pseudocode can do. -/
theorem does_bodyOf (i : Instr) (s : State) : Does (bodyOf i) s := by
  cases i with
  | cfgdir role dir => exact (within_finish (within_withRole role fun r => within_setDir r dir)).does s
  | pinwr role level => exact (within_finish (within_withRole role fun r => within_drive r level false)).does s
  | pinrd role =>
    exact (within_bind (within_withRole role within_sample) (fun _ => within_pure _)).does s
  | setaddr addr => exact (within_finish (within_setAddress addr)).does s
  | busdir dir => exact (within_finish (within_runOps _)).does s
  | buswr value => exact (within_finish (within_busWrite value)).does s
  | busrd => exact (within_bind within_busRead (fun _ => within_pure _)).does s
  | idlesetup => exact (within_finish (within_runWith _)).does s
  | rdcyc addr => exact (within_bind (within_readCycle addr) (fun _ => within_pure _)).does s
  | wrcyc addr data => exact (within_finish (within_writeCycle addr data)).does s
  | allin => exact (within_finish (within_runWith _)).does s
  | idquery => exact within_identityQuery.does s
  | dump => exact does_dumpStart s
  | outtest => exact (within_finish (within_runWith _)).does s
  | inecho => exact within_echoStart.does s
  | iotest => exact within_ioStart.does s
  | oetest => exact within_oeStart.does s
  | addrtest => exact (within_finish within_addressTest).does s

theorem changes_bodyOf (i : Instr) (s : State) : Changes s (reached (bodyOf i s)) := (does_bodyOf i s).changes

/-- Everything a turn of a running command can do. -/
theorem does_jobTurn (j : Job) (s : State) : Does (jobTurn j) s := by
  cases j with
  | dump => exact does_dumpTurn s
  | inEcho => exact within_echoTurn.does s
  | oeTest => exact within_oeTurn.does s
  | ioTest l found => exact (within_ioTurn l found).does s

theorem changes_jobTurn (j : Job) (s : State) : Changes s (reached (jobTurn j s)) := (does_jobTurn j s).changes

/-- An accepted command answers the settled state of its pseudocode. -/
theorem exec_accepting {s : State} (i : Instr) (h : s.Accepting) : exec i s = .next (settle (bodyOf i s)) := by
  rw [exec_eq]; simp [runCommand, h.1, h.2]

/-- Pseudocode that answers a next state was accepted. -/
theorem accepting_of_runCommand {s t : State} {body : Act Progress} (h : runCommand s body = .next t) :
    s.Accepting ∧ t = settle (body s) := by
  unfold runCommand at h
  split at h
  · cases h
  · cases h
  next hp =>
    split at h
    · cases h
    next hf =>
      cases h
      exact ⟨⟨hp, by simpa using hf⟩, rfl⟩

/-- A command that answers a next state was accepted. -/
theorem accepting_of_exec {i : Instr} {s t : State} (h : exec i s = .next t) :
    s.Accepting ∧ t = settle (bodyOf i s) := by
  rw [exec_eq] at h
  exact accepting_of_runCommand h

/-- The five ways a stretch of pseudocode is settled. -/
theorem settle_cases (x : EStateM.Result Stop State Progress) :
    settle x = (reached x).kill ∨ (∃ p, settle x = (reached x).respond (.ok p)) ∨
      (∃ j, settle x = { reached x with phase := .running j }) ∨
      ∃ c i, settle x = (reached x).takeFault c i := by
  match x with
  | .ok (.done p) s =>
    by_cases h : s.killIn = some 0
    · exact .inl (by simp [settle, h])
    · exact .inr (.inl ⟨p, by simp [settle, h]⟩)
  | .ok (.more j) s => exact .inr (.inr (.inl ⟨j, rfl⟩))
  | .error (.fault c i) s =>
    by_cases h : s.killIn = some 0
    · exact .inl (by simp [settle, h])
    · exact .inr (.inr (.inr ⟨c, i, by simp [settle, h]⟩))
  | .error .killed s => exact .inl rfl

end Sys2Proof.Machine
end

