-- ==== Sys2Proof/Laws/Config.lean ====
section
/-! SUPPORT. What a valid configuration gives, and which direct lines a configuration uses. -/

namespace Sys2Proof.Machine

theorem mem_take_directLines {n : Nat} {i : Fin 24} : i ∈ directLines.take n ↔ i.val < n := by
  have hall : ∀ n, n ≤ 24 → ∀ i : Fin 24, i ∈ directLines.take n ↔ i.val < n := by decide
  by_cases h : n ≤ 24
  · exact hall n h i
  · have h1 : directLines.take n = directLines := List.take_of_length_le (by simp [directLines]; omega)
    have h2 : i ∈ directLines := by fin_cases i <;> decide
    have := i.isLt
    simp only [h1, h2, true_iff]
    omega

theorem dal_mem_usedDirectLines {c : Config} {i : Fin 24} : Role.dal i ∈ usedDirectLines c ↔ i.val < addrBits c := by
  rw [usedDirectLines, List.mem_map]
  exact ⟨fun ⟨j, hj, e⟩ => by cases e; exact mem_take_directLines.mp hj, fun h => ⟨i, mem_take_directLines.mpr h, rfl⟩⟩

theorem mem_usedDirectLines {c : Config} {r : Role} :
    r ∈ usedDirectLines c ↔ ∃ i : Fin 24, r = .dal i ∧ i.val < addrBits c := by
  rw [usedDirectLines, List.mem_map]
  exact ⟨fun ⟨j, hj, e⟩ => ⟨j, e.symm, mem_take_directLines.mp hj⟩,
    fun ⟨j, e, hj⟩ => ⟨j, mem_take_directLines.mpr hj, e.symm⟩⟩

/-- What reset checks (70_reset_and_hazards.md R293), as propositions. -/
theorem validConfig_iff (c : Config) :
    validConfig c = true ↔
      c.mode ≠ .illegal ∧ 1 ≤ addrBits c ∧ addrBits c ≤ 24 ∧ c.maxAddr.toNat < 2 ^ addrBits c
        ∧ (∀ r ∈ requiredRoles c, mapped c r = true) ∧ injective c = true := by
  simp only [validConfig, Bool.and_eq_true, decide_eq_true_eq, List.all_eq_true, and_assoc]

section
variable {c : Config} (h : validConfig c = true)
include h

theorem valid_mode : c.mode ≠ .illegal := ((validConfig_iff c).mp h).1

theorem valid_addrBits : 1 ≤ addrBits c ∧ addrBits c ≤ 24 :=
  ⟨((validConfig_iff c).mp h).2.1, ((validConfig_iff c).mp h).2.2.1⟩

theorem valid_maxAddr : c.maxAddr.toNat < 2 ^ addrBits c := ((validConfig_iff c).mp h).2.2.2.1

theorem valid_required : ∀ r ∈ requiredRoles c, mapped c r = true := ((validConfig_iff c).mp h).2.2.2.2.1

theorem valid_data (i : Fin 8) : mapped c (.dl i) = true := by
  refine valid_required h _ ?_
  simp only [requiredRoles, List.mem_append, List.mem_map]
  exact .inl (.inl ⟨i, by fin_cases i <;> decide, rfl⟩)

theorem valid_we : mapped c .we = true := valid_required h _ (by simp [requiredRoles])

theorem valid_oe : mapped c .oe = true := valid_required h _ (by simp [requiredRoles])

theorem valid_lines : ∀ r ∈ modeLines c, mapped c r = true := fun r hr =>
  valid_required h _ (by simp only [requiredRoles, List.mem_append]; exact .inr hr)

end

/-- Two roles on one pin are what `injective` rules out (10_state.md R35 (d)). -/
theorem injective_iff (c : Config) :
    injective c = true ↔ ∀ r r' n, pinOf c r = some n → pinOf c r' = some n → r = r' := by
  have hnd : Role.all.Nodup := by decide
  rw [injective, decide_eq_true_eq]
  constructor
  · intro h r r' n h1 h2
    by_contra hne
    rw [List.Nodup, List.pairwise_filterMap] at h
    have hsymm : Std.Symm fun x y : Role =>
        ∀ b : BitVec 8, pinOf c x = some b → ∀ b' : BitVec 8, pinOf c y = some b' → b ≠ b' :=
      ⟨fun x y hxy b hb b' hb' e => hxy b' hb' b hb e.symm⟩
    exact List.Pairwise.forall h (Role.mem_all r) (Role.mem_all r') hne n h1 n h2 rfl
  · intro h
    exact List.Nodup.filterMap (fun a a' b ha ha' => h a a' b ha ha') hnd

end Sys2Proof.Machine
end

