-- ==== Sys2Proof/Laws/Frame.lean ====
section
/-! SUPPORT. What the environment's reactions and a command's changes leave alone. -/

namespace Sys2Proof.Machine

/-! ### The environment -/

/-- The parts of the environment that never change: its wiring and premises, the chip's contents and identity
(20_memory.md R69, R75). -/
structure Env.Same (e f : Env) : Prop where
  wiring : f.wiring = e.wiring
  weIdleHigh : f.weIdleHigh = e.weIdleHigh
  flash : f.flash = e.flash
  flashId : f.flashId = e.flashId

theorem Env.Same.rfl' (e : Env) : e.Same e := ⟨rfl, rfl, rfl, rfl⟩

theorem Env.Same.trans {e f g : Env} (h : e.Same f) (k : f.Same g) : e.Same g :=
  ⟨k.wiring.trans h.wiring, k.weIdleHigh.trans h.weIdleHigh, k.flash.trans h.flash, k.flashId.trans h.flashId⟩

theorem Env.draw_same (e : Env) : e.Same e.draw.2 := by
  unfold Env.draw; split <;> exact ⟨rfl, rfl, rfl, rfl⟩

theorem Env.drawMany_same (n : Nat) (e : Env) : e.Same (e.drawMany n).2 := by
  induction n generalizing e with
  | zero => exact .rfl' e
  | succ n ih => exact e.draw_same.trans (ih _)

theorem Env.drawByte_same (e : Env) : e.Same e.drawByte.2 := e.drawMany_same 8

theorem Env.memRead_same (e : Env) (a : Addr) : e.Same (e.memRead a).2 := by
  unfold Env.memRead
  split
  · exact .rfl' e
  · split
    · exact .rfl' e
    · split
      · exact .rfl' e
      · split
        · exact .rfl' e
        · split
          · exact .rfl' e
          · exact e.drawByte_same
  · exact e.drawByte_same.trans ⟨rfl, rfl, rfl, rfl⟩
  · exact e.drawByte_same.trans ⟨rfl, rfl, rfl, rfl⟩
  · exact e.drawByte_same

theorem Env.chooseByte_same (p : Pins) (e : Env) : e.Same (e.chooseByte p) := by
  unfold Env.chooseByte
  split
  · exact ⟨rfl, rfl, rfl, rfl⟩
  next a _ =>
    split
    · exact .rfl' e
    · split
      · exact (e.memRead_same a).trans ⟨rfl, rfl, rfl, rfl⟩
      · exact ⟨rfl, rfl, rfl, rfl⟩

/-- Everything a stray read can do: nothing, or in an unlock mode with OE# not high one draw, which may end the mode
(10_state.md R23, 20_memory.md R68). -/
theorem Env.strayRead_cases (p : Pins) (e : Env) :
    e.strayRead p = e ∨ (e.fmode.unlocking = true ∧ e.held = none ∧ mayRead p = true
      ∧ (e.strayRead p = e.draw.2 ∨ e.strayRead p = { e.draw.2 with fmode := .unknown })) := by
  unfold Env.strayRead
  split
  next h =>
    simp only [Bool.and_eq_true, Option.isNone_iff_eq_none] at h
    refine .inr ⟨h.1.1, h.1.2, h.2, ?_⟩
    dsimp only
    split
    · exact .inl rfl
    · exact .inr rfl
  · exact .inl rfl

theorem Env.strayRead_same (p : Pins) (e : Env) : e.Same (e.strayRead p) := by
  rcases e.strayRead_cases p with h | ⟨-, -, -, h | h⟩ <;> rw [h]
  · exact .rfl' e
  · exact e.draw_same
  · exact e.draw_same.trans ⟨rfl, rfl, rfl, rfl⟩

theorem Env.react_same (p : Pins) (e : Env) : e.Same (e.react p) := by
  unfold Env.react
  split
  · exact ((e.chooseByte_same p).trans (Env.strayRead_same p _)).trans ⟨rfl, rfl, rfl, rfl⟩
  · exact .rfl' e

theorem Env.chainDrive_same (c : Config) (p : Pins) (r : Role) (l : Level) (e : Env) :
    e.Same (e.chainDrive c p r l) := by
  unfold Env.chainDrive
  split
  · exact ⟨rfl, rfl, rfl, rfl⟩
  · exact ⟨rfl, rfl, rfl, rfl⟩
  · split <;> exact ⟨rfl, rfl, rfl, rfl⟩
  · split <;> exact ⟨rfl, rfl, rfl, rfl⟩
  · exact .rfl' e

theorem Env.contractDrive_same (p : Pins) (r : Role) (l : Level) (e : Env) : e.Same (e.contractDrive p r l) := by
  unfold Env.contractDrive; split <;> exact ⟨rfl, rfl, rfl, rfl⟩

theorem Env.chainSetDir_same (c : Config) (p : Pins) (r : Role) (d : Direction) (e : Env) :
    e.Same (e.chainSetDir c p r d) := by
  unfold Env.chainSetDir
  split
  · split
    · exact ⟨rfl, rfl, rfl, rfl⟩
    · split <;> exact ⟨rfl, rfl, rfl, rfl⟩
    · exact .rfl' e
  · exact .rfl' e

theorem Env.contractSetDir_same (r : Role) (e : Env) : e.Same (e.contractSetDir r) := by
  unfold Env.contractSetDir; split <;> exact ⟨rfl, rfl, rfl, rfl⟩

theorem Env.writeEnableDrive_same (p : Pins) (l : Level) (e : Env) : e.Same (e.writeEnableDrive p l) := by
  simp only [Env.writeEnableDrive]
  split
  · split <;> exact ⟨rfl, rfl, rfl, rfl⟩
  · split <;> exact ⟨rfl, rfl, rfl, rfl⟩
  · exact ⟨rfl, rfl, rfl, rfl⟩
  · exact .rfl' e

theorem Env.writeEnableLoose_same (p : Pins) (e : Env) : e.Same (e.writeEnableLoose p) := by
  unfold Env.writeEnableLoose; split <;> exact ⟨rfl, rfl, rfl, rfl⟩

theorem Env.pathDrive_same (c : Config) (p : Pins) (r : Role) (l : Level) (e : Env) :
    e.Same (e.pathDrive c p r l) := by
  unfold Env.pathDrive
  split
  · exact (e.chainDrive_same c p r l).trans (Env.contractDrive_same ..)
  · exact .rfl' e

theorem Env.enterShift_same (b : Bool) (e : Env) : e.Same (e.enterShift b) := by
  cases b <;> exact ⟨rfl, rfl, rfl, rfl⟩

theorem Env.lineDrive_same (p : Pins) (r : Role) (l : Level) (e : Env) : e.Same (e.lineDrive p r l) := by
  unfold Env.lineDrive
  split
  · exact ⟨rfl, rfl, rfl, rfl⟩
  · split
    · exact e.writeEnableDrive_same p l
    · exact .rfl' e
  · exact .rfl' e

theorem Env.onDrive_same (c : Config) (p : Pins) (r : Role) (l : Level) (b : Bool) (e : Env) :
    e.Same (e.onDrive c p r l b) :=
  (((e.pathDrive_same c p r l).trans (Env.enterShift_same ..)).trans (Env.lineDrive_same ..)).trans
    (Env.react_same ..)

theorem Env.pathSetDir_same (c : Config) (p : Pins) (r : Role) (d : Direction) (e : Env) :
    e.Same (e.pathSetDir c p r d) := by
  unfold Env.pathSetDir
  split
  · exact (e.chainSetDir_same c p r d).trans (Env.contractSetDir_same ..)
  · exact .rfl' e

theorem Env.lineSetDir_same (p : Pins) (r : Role) (d : Direction) (e : Env) : e.Same (e.lineSetDir p r d) := by
  unfold Env.lineSetDir
  split
  · split
    · exact ⟨rfl, rfl, rfl, rfl⟩
    · exact .rfl' e
  · split
    · exact e.writeEnableLoose_same p
    · exact .rfl' e
  · exact .rfl' e

theorem Env.onSetDir_same (c : Config) (p : Pins) (r : Role) (d : Direction) (e : Env) :
    e.Same (e.onSetDir c p r d) :=
  ((e.pathSetDir_same c p r d).trans (Env.lineSetDir_same ..)).trans (Env.react_same ..)

theorem Env.present_same (p : Pins) (a : Option Addr) (e : Env) : e.Same (e.present p a) := by
  unfold Env.present
  exact Env.Same.trans (f := { e with xaddr := if e.wired then a else none }) ⟨rfl, rfl, rfl, rfl⟩ (Env.react_same _ _)

theorem Env.onReset_same (p : Pins) (e : Env) : e.Same (e.onReset p) := by
  unfold Env.onReset
  refine Env.Same.trans (f := if e.wiring = .flash then e.writeEnableLoose p else e) ?_ ⟨rfl, rfl, rfl, rfl⟩
  split
  · exact Env.writeEnableLoose_same _ _
  · exact .rfl' e

theorem Env.pinIn_same (p : Pins) (r : Role) (e : Env) : e.Same (e.pinIn p r).2 := by
  unfold Env.pinIn
  split
  · split
    · exact .rfl' e
    · exact e.draw_same
  · split
    · exact .rfl' e
    · exact e.draw_same
  · split
    · exact .rfl' e
    · exact e.draw_same
  · exact e.draw_same

/-! ### A command's changes -/

/-- What every command leaves alone until it is answered. -/
structure Frame (s t : State) : Prop where
  cfg : t.cfg = s.cfg
  fault : t.fault = s.fault
  fcode : t.fcode = s.fcode
  finfo : t.finfo = s.finfo
  phase : t.phase = s.phase
  host : t.host = s.host
  responses : t.responses = s.responses
  env : s.env.Same t.env
  trace : ∃ es, t.trace = s.trace ++ es
  untouched : ∀ r, mapped s.cfg r = false → t.dir r = s.dir r ∧ t.out r = s.out r

theorem Frame.rfl' (s : State) : Frame s s :=
  ⟨rfl, rfl, rfl, rfl, rfl, rfl, rfl, .rfl' _, ⟨[], by simp⟩, fun _ _ => ⟨rfl, rfl⟩⟩

theorem Frame.trans {s t u : State} (h : Frame s t) (k : Frame t u) : Frame s u where
  cfg := k.cfg.trans h.cfg
  fault := k.fault.trans h.fault
  fcode := k.fcode.trans h.fcode
  finfo := k.finfo.trans h.finfo
  phase := k.phase.trans h.phase
  host := k.host.trans h.host
  responses := k.responses.trans h.responses
  env := h.env.trans k.env
  trace := by
    obtain ⟨es, hs⟩ := h.trace
    obtain ⟨fs, ks⟩ := k.trace
    exact ⟨es ++ fs, by rw [ks, hs, List.append_assoc]⟩
  untouched := fun r hr => by
    obtain ⟨h1, h2⟩ := h.untouched r hr
    obtain ⟨k1, k2⟩ := k.untouched r (by rw [h.cfg]; exact hr)
    exact ⟨k1.trans h1, k2.trans h2⟩

theorem Micro.frame {s t : State} (h : Micro s t) : Frame s t := by
  cases h with
  | setDir r d hk hm =>
    refine ⟨rfl, rfl, rfl, rfl, rfl, rfl, rfl, Env.onSetDir_same .., ⟨[_], rfl⟩, fun r' hr' => ?_⟩
    have : r' ≠ r := by rintro rfl; simp [hm] at hr'
    exact ⟨(State.dir_afterSetDir s r r' d).trans (by simp [this]),
      (State.out_afterSetDir s r r' d).trans (by simp [this])⟩
  | drive r l b hk hm hd =>
    refine ⟨rfl, rfl, rfl, rfl, rfl, rfl, rfl, Env.onDrive_same .., ⟨[_], rfl⟩, fun r' hr' => ?_⟩
    have : r' ≠ r := by rintro rfl; simp [hm] at hr'
    exact ⟨State.dir_afterDrive s r r' l b, (State.out_afterDrive s r r' l b).trans (by simp [this])⟩
  | sample r hk hm hd =>
    exact ⟨rfl, rfl, rfl, rfl, rfl, rfl, rfl, Env.pinIn_same .., ⟨[_], rfl⟩, fun _ _ => ⟨rfl, rfl⟩⟩
  | quiet e hq hk => exact ⟨rfl, rfl, rfl, rfl, rfl, rfl, rfl, .rfl' _, ⟨[_], rfl⟩, fun _ _ => ⟨rfl, rfl⟩⟩
  | sink v hk =>
    refine ⟨?_, ?_, ?_, ?_, ?_, ?_, ?_, ?_, ⟨[_], rfl⟩, fun _ _ => ⟨?_, ?_⟩⟩ <;>
      simp [State.logged, State.dir, State.out, Env.Same.rfl']
  | enter f => exact ⟨rfl, rfl, rfl, rfl, rfl, rfl, rfl, .rfl' _, ⟨[], by simp⟩, fun _ _ => ⟨rfl, rfl⟩⟩
  | address a => exact ⟨rfl, rfl, rfl, rfl, rfl, rfl, rfl, Env.present_same .., ⟨[], by simp⟩, fun _ _ => ⟨rfl, rfl⟩⟩
  | data v => exact ⟨rfl, rfl, rfl, rfl, rfl, rfl, rfl, .rfl' _, ⟨[], by simp⟩, fun _ _ => ⟨rfl, rfl⟩⟩
  | identity k v => exact ⟨rfl, rfl, rfl, rfl, rfl, rfl, rfl, .rfl' _, ⟨[], by simp⟩, fun _ _ => ⟨rfl, rfl⟩⟩

theorem Change.frame {s t : State} (h : Change s t) : Frame s t := by
  cases h with
  | micro h => exact h.frame
  | cursorZero => exact ⟨rfl, rfl, rfl, rfl, rfl, rfl, rfl, .rfl' _, ⟨[], by simp⟩, fun _ _ => ⟨rfl, rfl⟩⟩
  | cursorNext h => exact ⟨rfl, rfl, rfl, rfl, rfl, rfl, rfl, .rfl' _, ⟨[], by simp⟩, fun _ _ => ⟨rfl, rfl⟩⟩

/-- A command's changes leave the frame alone. -/
theorem Changes.frame {s t : State} (h : Changes s t) : Frame s t := by
  induction h with
  | refl => exact .rfl' s
  | tail _ h ih => exact ih.trans h.frame

/-- Below its bound the cursor does not wrap (44_composite.md R216). -/
theorem cursor_succ_le {a m : Addr} (h : a.toNat ≤ m.toNat) (hne : a ≠ m) : (a + 1).toNat ≤ m.toNat := by
  have h1 : a.toNat ≠ m.toNat := fun e => hne (BitVec.eq_of_toNat_eq e)
  have h2 := m.isLt
  rw [BitVec.toNat_add]
  simp only [BitVec.reduceToNat]
  omega

/-- The cursor stays within the dump's bounds (10_state.md R26). -/
theorem Changes.cursor {s t : State} (h : Changes s t) (hs : s.cur.toNat ≤ s.cfg.maxAddr.toNat) :
    t.cur.toNat ≤ t.cfg.maxAddr.toNat := by
  induction h with
  | refl => exact hs
  | tail _ h ih =>
    cases h with
    | micro h => rw [h.cur, h.cfg]; exact ih
    | cursorZero => simp
    | cursorNext h => exact cursor_succ_le ih h

/-- Without a kill set, none is set later. -/
theorem Micro.killIn_none {s t : State} (h : Micro s t) (hs : s.killIn = none) : t.killIn = none := by
  cases h <;> simp [State.logged, hs]

theorem Changes.killIn_none {s t : State} (h : Changes s t) (hs : s.killIn = none) : t.killIn = none := by
  induction h with
  | refl => exact hs
  | tail _ h ih =>
    cases h with
    | micro h => exact h.killIn_none ih
    | cursorZero => exact ih
    | cursorNext h => exact ih

/-- Pseudocode that runs without a kill set is not killed. -/
theorem Does.not_killed {α : Type} {x : Act α} {s : State} (h : Does x s) (hk : s.killIn = none) (t : State) :
    x s ≠ .error .killed t := fun e => by
  have h1 := h.killed t e
  have h2 := h.changes
  rw [e] at h2
  have h3 := h2.killIn_none hk
  simp only [reached_error] at h3
  rw [h3] at h1
  cases h1

/-! ### The trace and the latches -/

theorem latchesAfter_append (p : Pins) (a b : List Event) :
    latchesAfter p (a ++ b) = latchesAfter (latchesAfter p a) b := List.foldl_append ..

/-- Every change of a latch is an event. -/
theorem Micro.latches {s t : State} (h : Micro s t) :
    ∃ es, t.trace = s.trace ++ es ∧ t.pins = latchesAfter s.pins es := by
  cases h with
  | setDir r d hk hm => exact ⟨[_], rfl, rfl⟩
  | drive r l b hk hm hd => exact ⟨[_], rfl, rfl⟩
  | sample r hk hm hd => exact ⟨[_], rfl, rfl⟩
  | sink v hk => exact ⟨[_], rfl, State.afterSink_pins s⟩
  | quiet e hq hk => exact ⟨[e], rfl, (hq s.pins).symm⟩
  | enter f => exact ⟨[], by simp, rfl⟩
  | address a => exact ⟨[], by simp, rfl⟩
  | data v => exact ⟨[], by simp, rfl⟩
  | identity k v => exact ⟨[], by simp, rfl⟩

theorem Changes.latches {s t : State} (h : Changes s t) :
    ∃ es, t.trace = s.trace ++ es ∧ t.pins = latchesAfter s.pins es := by
  induction h with
  | refl => exact ⟨[], by simp, rfl⟩
  | tail _ h ih =>
    obtain ⟨es, h1, h2⟩ := ih
    cases h with
    | micro h =>
      obtain ⟨fs, k1, k2⟩ := h.latches
      exact ⟨es ++ fs, by rw [k1, h1, List.append_assoc], by rw [k2, h2, latchesAfter_append]⟩
    | cursorZero => exact ⟨es, h1, h2⟩
    | cursorNext h => exact ⟨es, h1, h2⟩

end Sys2Proof.Machine
end

