-- ==== Sys2Proof/Laws/Ops.lean ====
section
/-! SUPPORT. Lists of steps: when none of them stops, and the closed form of the state they reach. -/

namespace Sys2Proof.Machine

/-! ### What a list of steps does to each part of the state -/

/-- The latches after a step. -/
def PinOp.onPins (p : Pins) : PinOp → Pins
  | .setDir r d => setDirPins p r d
  | .drive r l => drivePins p r l
  | .shift r l => drivePins p r l
  | .delay _ => p
  | .enter _ => p
  | .address _ => p

/-- The environment after a step; `p` are the latches before it. -/
def PinOp.onEnv (c : Config) (p : Pins) (e : Env) : PinOp → Env
  | .setDir r d => e.onSetDir c p r d
  | .drive r l => e.onDrive c p r l false
  | .shift r l => e.onDrive c p r l true
  | .delay _ => e
  | .enter _ => e
  | .address a => e.present p a

/-- `FSM` after a step. -/
def PinOp.onFsm (f : Fsm) : PinOp → Fsm
  | .enter g => g
  | _ => f

/-- The latches after a list of steps. -/
def pinsAfter (ops : List PinOp) (p : Pins) : Pins := ops.foldl PinOp.onPins p

/-- The environment after a list of steps. -/
def envAfter (c : Config) : List PinOp → Pins → Env → Env
  | [], _, e => e
  | op :: ops, p, e => envAfter c ops (op.onPins p) (op.onEnv c p e)

/-- `FSM` after a list of steps. -/
def fsmAfter (ops : List PinOp) (f : Fsm) : Fsm := ops.foldl PinOp.onFsm f

/-- A step does not stop: its role is mapped and, for a drive, an output (00_scope.md R11). -/
def PinOp.Ready (c : Config) (p : Pins) : PinOp → Prop
  | .setDir r _ => mapped c r = true
  | .drive r _ => mapped c r = true ∧ (pinAt p r).dir = some .output
  | .shift r _ => mapped c r = true ∧ (pinAt p r).dir = some .output
  | .delay _ => True
  | .enter _ => True
  | .address _ => True

/-- No step of the list stops. -/
inductive AllReady (c : Config) : List PinOp → Pins → Prop
  | nil {p : Pins} : AllReady c [] p
  | cons {op : PinOp} {ops : List PinOp} {p : Pins} (h : op.Ready c p) (hs : AllReady c ops (op.onPins p)) :
      AllReady c (op :: ops) p

@[simp] theorem allReady_nil (c : Config) (p : Pins) : AllReady c [] p := .nil

theorem allReady_cons {c : Config} {op : PinOp} {ops : List PinOp} {p : Pins} :
    AllReady c (op :: ops) p ↔ op.Ready c p ∧ AllReady c ops (op.onPins p) :=
  ⟨fun h => by cases h with | cons h hs => exact ⟨h, hs⟩, fun h => .cons h.1 h.2⟩

/-- The state after a list of steps none of which stops. -/
def State.ran (s : State) (ops : List PinOp) : State :=
  { s with
    pins := pinsAfter ops s.pins
    env := envAfter s.cfg ops s.pins s.env
    fsm := fsmAfter ops s.fsm
    trace := s.trace ++ eventsOf ops }

@[simp] theorem State.ran_nil (s : State) : s.ran [] = s := by
  simp [State.ran, pinsAfter, envAfter, fsmAfter, eventsOf]

theorem eventsOf_cons (op : PinOp) (ops : List PinOp) : eventsOf (op :: ops) = eventsOf [op] ++ eventsOf ops := by
  change List.filterMap _ ([op] ++ ops) = _
  rw [List.filterMap_append]; rfl

@[simp] theorem eventsOf_append (a b : List PinOp) : eventsOf (a ++ b) = eventsOf a ++ eventsOf b :=
  List.filterMap_append ..

theorem State.ran_cons (s : State) (op : PinOp) (ops : List PinOp) : s.ran (op :: ops) = (s.ran [op]).ran ops := by
  simp only [State.ran, eventsOf_cons op ops, List.append_assoc]
  rfl

theorem State.ran_append (s : State) (a b : List PinOp) : s.ran (a ++ b) = (s.ran a).ran b := by
  induction a generalizing s with
  | nil => simp
  | cons op a ih => rw [List.cons_append, State.ran_cons, ih, ← State.ran_cons]

/-- One step that is ready. -/
theorem runOp_ready {s : State} {op : PinOp} (hk : s.killIn = none) (h : op.Ready s.cfg s.pins) :
    runOp op s = .ok () (s.ran [op]) := by
  have hk' : s.killIn ≠ some 0 := by simp [hk]
  cases op with
  | setDir r d =>
    rw [runOp, setDir_ok hk' h]
    simp [State.ran, State.logged, hk, State.afterSetDir, pinsAfter, envAfter, fsmAfter, eventsOf, PinOp.event,
      PinOp.onPins, PinOp.onEnv, PinOp.onFsm]
  | drive r l =>
    rw [runOp, drive_ok hk' h.1 h.2]
    simp [State.ran, State.logged, hk, State.afterDrive, pinsAfter, envAfter, fsmAfter, eventsOf, PinOp.event,
      PinOp.onPins, PinOp.onEnv, PinOp.onFsm]
  | shift r l =>
    rw [runOp, drive_ok hk' h.1 h.2]
    simp [State.ran, State.logged, hk, State.afterDrive, pinsAfter, envAfter, fsmAfter, eventsOf, PinOp.event,
      PinOp.onPins, PinOp.onEnv, PinOp.onFsm]
  | delay us =>
    rw [runOp, delay_ok hk']
    simp [State.ran, State.logged, hk, pinsAfter, envAfter, fsmAfter, eventsOf, PinOp.event, PinOp.onPins,
      PinOp.onEnv, PinOp.onFsm]
  | enter f =>
    simp [runOp, State.ran, pinsAfter, envAfter, fsmAfter, eventsOf, PinOp.event, PinOp.onPins, PinOp.onEnv,
      PinOp.onFsm]
  | address a =>
    simp [runOp, State.ran, pinsAfter, envAfter, fsmAfter, eventsOf, PinOp.event, PinOp.onPins, PinOp.onEnv,
      PinOp.onFsm]

/-- A list of steps that are ready runs to its end. -/
theorem runOps_ready {ops : List PinOp} {s : State} (hk : s.killIn = none) (h : AllReady s.cfg ops s.pins) :
    runOps ops s = .ok () (s.ran ops) := by
  induction ops generalizing s with
  | nil => simp [runOps]
  | cons op ops ih =>
    obtain ⟨h1, h2⟩ := allReady_cons.mp h
    rw [runOps, act_bind_ok (runOp_ready hk h1), State.ran_cons s op ops]
    exact ih (s := s.ran [op]) hk h2

theorem runWith_ready {f : Config → List PinOp} {s : State} (hk : s.killIn = none)
    (h : AllReady s.cfg (f s.cfg) s.pins) : runWith f s = .ok () (s.ran (f s.cfg)) := by
  rw [runWith, act_bind_ok (act_get s)]
  exact runOps_ready hk h

/-- Steps one after the other. -/
theorem runOps_append (a b : List PinOp) : runOps (a ++ b) = (runOps a >>= fun _ => runOps b) := by
  induction a with
  | nil => rfl
  | cons op a ih =>
    rw [List.cons_append, runOps, runOps, ih]
    exact (bind_assoc _ _ _).symm

/-- Steps that are ready up to one that stops (43_sequencer.md R195). -/
theorem runOps_stops {ops pre post : List PinOp} {op : PinOp} {s t : State} {e : Stop} (ho : ops = pre ++ op :: post)
    (hk : s.killIn = none) (h : AllReady s.cfg pre s.pins) (hop : runOp op (s.ran pre) = .error e t) :
    runOps ops s = .error e t := by
  rw [ho, runOps_append, act_bind_ok (runOps_ready hk h), runOps, act_bind_error hop]

/-- A drive of a mapped line that is no output (40_gpio.md R122). -/
theorem drive_missing {r : Role} {l : Level} {b : Bool} {s : State} (hm : mapped s.cfg r = true)
    (hd : s.dir r ≠ some .output) : drive r l b s = .error (.fault .dirWrite (indexInfo (roleIndex r))) s := by
  simp [drive, hm, hd]

/-- A direction set for a role that is not mapped (40_gpio.md R121). -/
theorem setDir_unmapped {r : Role} {d : Direction} {s : State} (hm : mapped s.cfg r = false) :
    setDir r d s = .error (.fault .role (indexInfo (roleIndex r))) s := by
  simp [setDir, hm]

/-! ### Readiness -/

theorem pinsAfter_append (a b : List PinOp) (p : Pins) : pinsAfter (a ++ b) p = pinsAfter b (pinsAfter a p) :=
  List.foldl_append ..

theorem allReady_append {c : Config} {a b : List PinOp} {p : Pins} :
    AllReady c (a ++ b) p ↔ AllReady c a p ∧ AllReady c b (pinsAfter a p) := by
  induction a generalizing p with
  | nil => simp [pinsAfter]
  | cons op a ih => simp only [List.cons_append, allReady_cons, ih, and_assoc, pinsAfter, List.foldl_cons]

theorem envAfter_append (c : Config) (a b : List PinOp) (p : Pins) (e : Env) :
    envAfter c (a ++ b) p e = envAfter c b (pinsAfter a p) (envAfter c a p e) := by
  induction a generalizing p e with
  | nil => rfl
  | cons op a ih => exact ih _ _

/-- A step that sets no direction. -/
def PinOp.keepsDirections : PinOp → Bool
  | .setDir _ _ => false
  | _ => true

theorem PinOp.onPins_dir {op : PinOp} (h : op.keepsDirections = true) (p : Pins) (r : Role) :
    (pinAt (op.onPins p) r).dir = (pinAt p r).dir := by
  cases op <;> simp_all [PinOp.keepsDirections, PinOp.onPins]

theorem pinsAfter_dir {ops : List PinOp} (h : ∀ op ∈ ops, op.keepsDirections = true) (p : Pins) (r : Role) :
    (pinAt (pinsAfter ops p) r).dir = (pinAt p r).dir := by
  induction ops generalizing p with
  | nil => rfl
  | cons op ops ih =>
    rw [pinsAfter, List.foldl_cons]
    exact (ih (fun o ho => h o (List.mem_cons_of_mem _ ho)) _).trans
      (PinOp.onPins_dir (h op List.mem_cons_self) p r)

/-- The roles a step acts on. -/
def PinOp.role : PinOp → Option Role
  | .setDir r _ => some r
  | .drive r _ => some r
  | .shift r _ => some r
  | .delay _ => none
  | .enter _ => none
  | .address _ => none

theorem PinOp.onPins_other {op : PinOp} {r : Role} (h : op.role ≠ some r) (p : Pins) :
    pinAt (op.onPins p) r = pinAt p r := by
  cases op with
  | setDir r' d => exact pinAt_putPin_of_ne fun e => h (congrArg some e.symm)
  | drive r' l => exact pinAt_putPin_of_ne fun e => h (congrArg some e.symm)
  | shift r' l => exact pinAt_putPin_of_ne fun e => h (congrArg some e.symm)
  | delay _ => rfl
  | enter _ => rfl
  | address _ => rfl

/-- A role that no step of the list acts on keeps its latches. -/
theorem pinsAfter_other {ops : List PinOp} {r : Role} (h : ∀ op ∈ ops, op.role ≠ some r) (p : Pins) :
    pinAt (pinsAfter ops p) r = pinAt p r := by
  induction ops generalizing p with
  | nil => rfl
  | cons op ops ih =>
    rw [pinsAfter, List.foldl_cons]
    exact (ih (fun o ho => h o (List.mem_cons_of_mem _ ho)) _).trans
      (PinOp.onPins_other (h op List.mem_cons_self) p)

/-- Steps that set no direction are all ready when each is ready at the start. -/
theorem allReady_of_static {c : Config} {ops : List PinOp} {p : Pins}
    (hd : ∀ op ∈ ops, op.keepsDirections = true) (h : ∀ op ∈ ops, op.Ready c p) : AllReady c ops p := by
  induction ops generalizing p with
  | nil => exact .nil
  | cons op ops ih =>
    refine .cons (h op List.mem_cons_self) (ih (fun o ho => hd o (List.mem_cons_of_mem _ ho)) fun o ho => ?_)
    have h1 := h o (List.mem_cons_of_mem _ ho)
    have h2 := PinOp.onPins_dir (hd op List.mem_cons_self) p
    cases o <;> simp_all [PinOp.Ready]

/-- The latches follow the events (00_scope.md R11). -/
theorem latchesAfter_eventsOf (ops : List PinOp) (p : Pins) : latchesAfter p (eventsOf ops) = pinsAfter ops p := by
  induction ops generalizing p with
  | nil => rfl
  | cons op ops ih =>
    rw [eventsOf_cons, latchesAfter, List.foldl_append]
    have : List.foldl Event.onPins p (eventsOf [op]) = op.onPins p := by cases op <;> rfl
    rw [this]
    exact ih _

/-! ### The environment's constants -/

theorem PinOp.onEnv_same (c : Config) (p : Pins) (e : Env) (op : PinOp) : e.Same (op.onEnv c p e) := by
  cases op with
  | setDir r d => exact Env.onSetDir_same ..
  | drive r l => exact Env.onDrive_same ..
  | shift r l => exact Env.onDrive_same ..
  | delay us => exact .rfl' e
  | enter f => exact .rfl' e
  | address a => exact Env.present_same ..

theorem envAfter_same (c : Config) (ops : List PinOp) (p : Pins) (e : Env) : e.Same (envAfter c ops p e) := by
  induction ops generalizing p e with
  | nil => exact .rfl' e
  | cons op ops ih => exact (op.onEnv_same c p e).trans (ih _ _)

/-! ### The last level driven -/

/-- The level a list of steps last drives on a role. -/
def lastLevel (r : Role) : List PinOp → Option Level
  | [] => none
  | op :: ops =>
    match lastLevel r ops with
    | some l => some l
    | none =>
      match op with
      | .drive r' l => if r' = r then some l else none
      | .shift r' l => if r' = r then some l else none
      | _ => none

theorem lastLevel_append (r : Role) (a b : List PinOp) :
    lastLevel r (a ++ b) = (lastLevel r b).or (lastLevel r a) := by
  induction a with
  | nil => cases h : lastLevel r b <;> simp [lastLevel, h]
  | cons op a ih =>
    simp only [List.cons_append, lastLevel, ih]
    cases lastLevel r b <;> cases lastLevel r a <;> simp

/-- The output latch of a role after steps that do not set its direction. -/
theorem pinsAfter_out {ops : List PinOp} {r : Role} (h : ∀ op ∈ ops, op.keepsDirections = true) (p : Pins) :
    (pinAt (pinsAfter ops p) r).out = (lastLevel r ops).or (pinAt p r).out := by
  induction ops generalizing p with
  | nil => simp [pinsAfter, lastLevel]
  | cons op ops ih =>
    rw [pinsAfter, List.foldl_cons]
    refine (ih (fun o ho => h o (List.mem_cons_of_mem _ ho)) _).trans ?_
    have hop := h op List.mem_cons_self
    cases hl : lastLevel r ops with
    | some l => simp [lastLevel, hl]
    | none =>
      cases op with
      | setDir r' d => cases hop
      | drive r' l =>
        by_cases hr : r' = r
        · subst hr; simp [lastLevel, hl, PinOp.onPins, pinAt_drivePins_out]
        · simp [lastLevel, hl, PinOp.onPins, pinAt_drivePins_out, hr, Ne.symm hr]
      | shift r' l =>
        by_cases hr : r' = r
        · subst hr; simp [lastLevel, hl, PinOp.onPins, pinAt_drivePins_out]
        · simp [lastLevel, hl, PinOp.onPins, pinAt_drivePins_out, hr, Ne.symm hr]
      | delay _ => simp [lastLevel, hl, PinOp.onPins]
      | enter _ => simp [lastLevel, hl, PinOp.onPins]
      | address _ => simp [lastLevel, hl, PinOp.onPins]

end Sys2Proof.Machine
end

