-- ==== Sys2Proof/Laws/Cycles.lean ====
section
/-! SUPPORT. The bus, the shifter, the cycles and the idle setup when nothing stops them: the state each reaches. -/

namespace Sys2Proof.Machine

/-! ### Fields of a state after a list of steps -/

section
variable (s : State) (ops : List PinOp)

@[simp] theorem State.ran_cfg : (s.ran ops).cfg = s.cfg := rfl
@[simp] theorem State.ran_pins : (s.ran ops).pins = pinsAfter ops s.pins := rfl
@[simp] theorem State.ran_d : (s.ran ops).d = s.d := rfl
@[simp] theorem State.ran_id : (s.ran ops).id = s.id := rfl
@[simp] theorem State.ran_cur : (s.ran ops).cur = s.cur := rfl
@[simp] theorem State.ran_fsm : (s.ran ops).fsm = fsmAfter ops s.fsm := rfl
@[simp] theorem State.ran_fault : (s.ran ops).fault = s.fault := rfl
@[simp] theorem State.ran_fcode : (s.ran ops).fcode = s.fcode := rfl
@[simp] theorem State.ran_finfo : (s.ran ops).finfo = s.finfo := rfl
@[simp] theorem State.ran_phase : (s.ran ops).phase = s.phase := rfl
@[simp] theorem State.ran_killIn : (s.ran ops).killIn = s.killIn := rfl
@[simp] theorem State.ran_host : (s.ran ops).host = s.host := rfl
@[simp] theorem State.ran_sinkAnswers : (s.ran ops).sinkAnswers = s.sinkAnswers := rfl
@[simp] theorem State.ran_sinkDraws : (s.ran ops).sinkDraws = s.sinkDraws := rfl
@[simp] theorem State.ran_trace : (s.ran ops).trace = s.trace ++ eventsOf ops := rfl
@[simp] theorem State.ran_responses : (s.ran ops).responses = s.responses := rfl
@[simp] theorem State.ran_env : (s.ran ops).env = envAfter s.cfg ops s.pins s.env := rfl

end

/-- The latches of a role that no step acts on. -/
theorem State.ran_other (s : State) {ops : List PinOp} {r : Role} (h : ∀ op ∈ ops, op.role ≠ some r) :
    (s.ran ops).dir r = s.dir r ∧ (s.ran ops).out r = s.out r := by
  unfold State.dir State.out
  rw [State.ran_pins, pinsAfter_other h]
  exact ⟨rfl, rfl⟩

theorem State.ran_dir (s : State) {ops : List PinOp} (h : ∀ op ∈ ops, op.keepsDirections = true) (r : Role) :
    (s.ran ops).dir r = s.dir r := pinsAfter_dir h _ r

theorem State.ran_out (s : State) {ops : List PinOp} (h : ∀ op ∈ ops, op.keepsDirections = true) (r : Role) :
    (s.ran ops).out r = (lastLevel r ops).or (s.out r) := pinsAfter_out h _

theorem ready_of_role {c : Config} {p : Pins} {op : PinOp} (hd : op.keepsDirections = true)
    (h : ∀ r, op.role = some r → mapped c r = true ∧ (pinAt p r).dir = some .output) : op.Ready c p := by
  cases op with
  | setDir r d => cases hd
  | drive r l => exact h r rfl
  | shift r l => exact h r rfl
  | delay _ => trivial
  | enter _ => trivial
  | address _ => trivial

/-! ### Directions of several roles -/

theorem allReady_setDirs {c : Config} {rs : List Role} {d : Direction} {p : Pins}
    (h : ∀ r ∈ rs, mapped c r = true) : AllReady c (rs.map fun r => .setDir r d) p := by
  induction rs generalizing p with
  | nil => exact .nil
  | cons r rs ih => exact .cons (h r List.mem_cons_self) (ih fun x hx => h x (List.mem_cons_of_mem _ hx))

/-- Each of several distinct roles ends as one `SetDir` leaves it. -/
theorem pinsAfter_setDirs {rs : List Role} (hn : rs.Nodup) {r : Role} (hr : r ∈ rs) (d : Direction) (p : Pins) :
    pinAt (pinsAfter (rs.map fun r => .setDir r d) p) r = pinAt (setDirPins p r d) r := by
  induction rs generalizing p with
  | nil => cases hr
  | cons x rs ih =>
    rw [List.nodup_cons] at hn
    simp only [List.map_cons, pinsAfter, List.foldl_cons, PinOp.onPins]
    rcases List.mem_cons.mp hr with rfl | hr'
    · refine pinsAfter_other (fun op hop => ?_) _
      obtain ⟨y, hy, rfl⟩ := List.mem_map.mp hop
      simp only [PinOp.role, ne_eq, Option.some.injEq]
      rintro rfl
      exact hn.1 hy
    · have hne : r ≠ x := fun e => hn.1 (e ▸ hr')
      refine (ih hn.2 hr' _).trans ?_
      simp only [setDirPins, freshOutput, pinAt_putPin_self, pinAt_putPin_of_ne hne]
      rfl

theorem dataLines_mem (i : Fin 8) : i ∈ dataLines := by fin_cases i <;> decide

theorem directLines_mem (i : Fin 24) : i ∈ directLines := by fin_cases i <;> decide

theorem busdirOps_eq (d : Direction) : busdirOps d = (dataLines.map Role.dl).map fun r => .setDir r d := by
  simp [busdirOps]

theorem dataRoles_nodup : (dataLines.map Role.dl).Nodup := by decide

theorem mem_dataRoles (i : Fin 8) : Role.dl i ∈ dataLines.map Role.dl := List.mem_map_of_mem (dataLines_mem i)

theorem busdirOps_ready {c : Config} {p : Pins} (d : Direction) (h : ∀ i, mapped c (.dl i) = true) :
    AllReady c (busdirOps d) p := by
  rw [busdirOps_eq]
  refine allReady_setDirs fun r hr => ?_
  obtain ⟨i, -, rfl⟩ := List.mem_map.mp hr
  exact h i

/-- `BUSDIR` leaves each data line as one `SetDir` does (42_data_bus.md R162). -/
theorem pinsAfter_busdir (d : Direction) (p : Pins) (i : Fin 8) :
    pinAt (pinsAfter (busdirOps d) p) (.dl i) = pinAt (setDirPins p (.dl i) d) (.dl i) := by
  rw [busdirOps_eq]
  exact pinsAfter_setDirs dataRoles_nodup (mem_dataRoles i) d p

theorem pinsAfter_busdir_dir (d : Direction) (p : Pins) (i : Fin 8) :
    (pinAt (pinsAfter (busdirOps d) p) (.dl i)).dir = some d := by
  rw [pinsAfter_busdir, pinAt_setDirPins_dir]; simp

theorem busdirOps_role {d : Direction} {op : PinOp} (h : op ∈ busdirOps d) : ∃ i, op.role = some (.dl i) := by
  obtain ⟨i, -, rfl⟩ := List.mem_map.mp h
  exact ⟨i, rfl⟩

theorem pinsAfter_busdir_other {r : Role} (h : ∀ i, r ≠ .dl i) (d : Direction) (p : Pins) :
    pinAt (pinsAfter (busdirOps d) p) r = pinAt p r := by
  refine pinsAfter_other (fun op hop => ?_) p
  obtain ⟨i, hi⟩ := busdirOps_role hop
  rw [hi]
  exact fun e => h i (Option.some.inj e).symm

/-! ### The bus -/

theorem busDriveOps_keepsDirections (v : Byte) : ∀ op ∈ busDriveOps v, op.keepsDirections = true := by
  intro op hop
  obtain ⟨i, -, rfl⟩ := List.mem_map.mp hop
  rfl

theorem busDriveOps_role {v : Byte} {op : PinOp} (h : op ∈ busDriveOps v) : ∃ i, op.role = some (.dl i) := by
  obtain ⟨i, -, rfl⟩ := List.mem_map.mp h
  exact ⟨i, rfl⟩

theorem lastLevel_none {r : Role} {ops : List PinOp} (h : ∀ op ∈ ops, op.role ≠ some r) : lastLevel r ops = none := by
  induction ops with
  | nil => rfl
  | cons op ops ih =>
    have h1 := h op List.mem_cons_self
    have h2 := ih fun o ho => h o (List.mem_cons_of_mem _ ho)
    cases op with
    | drive r' l => simp only [lastLevel, h2]; exact if_neg fun e => h1 (congrArg some e)
    | shift r' l => simp only [lastLevel, h2]; exact if_neg fun e => h1 (congrArg some e)
    | _ => simp only [lastLevel, h2]

theorem lastLevel_busDrive (v : Byte) (i : Fin 8) : lastLevel (.dl i) (busDriveOps v) = some (v.getLsbD i.val) := by
  fin_cases i <;> simp [lastLevel, busDriveOps, dataLines]

theorem requireBus_ok {d : Direction} {s : State} (h : ∀ i, s.dir (.dl i) = some d) : requireBus d s = .ok () s := by
  have : firstOffender s.pins d = none := by
    simp only [firstOffender, List.find?_eq_none, decide_eq_true_eq, not_not]
    exact fun i _ => h i
  simp [requireBus, this]

theorem busWrite_ready {s : State} (v : Byte) (hk : s.killIn = none) (hm : ∀ i, mapped s.cfg (.dl i) = true)
    (hd : ∀ i, s.dir (.dl i) = some .output) : busWrite v s = .ok () (s.ran (busDriveOps v)) := by
  rw [busWrite, act_bind_ok (requireBus_ok hd)]
  refine runOps_ready hk (allReady_of_static (busDriveOps_keepsDirections v) fun op hop =>
    ready_of_role (busDriveOps_keepsDirections v op hop) fun r hr => ?_)
  obtain ⟨i, hi⟩ := busDriveOps_role hop
  obtain rfl : r = .dl i := by rw [hr] at hi; exact Option.some.inj hi
  exact ⟨hm i, hd i⟩

/-- The environment after samples of these data lines. -/
def Env.afterLevels (p : Pins) : List (Fin 8) → Env → Env
  | [], e => e
  | i :: is, e => Env.afterLevels p is (e.pinIn p (.dl i)).2

@[simp] theorem Env.levels_length (p : Pins) (is : List (Fin 8)) (e : Env) :
    (Env.levels p is e).length = is.length := by
  induction is generalizing e with
  | nil => rfl
  | cons i is ih => simp [Env.levels, ih]

theorem Env.afterLevels_same (p : Pins) (is : List (Fin 8)) (e : Env) : e.Same (Env.afterLevels p is e) := by
  induction is generalizing e with
  | nil => exact .rfl' e
  | cons i is ih => exact (e.pinIn_same p _).trans (ih _)

/-- A bus read: what the state becomes (42_data_bus.md R164). -/
def State.sampledBus (s : State) : State :=
  { s with
    d := composeByte (Env.levels s.pins dataLines s.env)
    env := Env.afterLevels s.pins dataLines s.env
    trace := s.trace ++ busSampleEvents (Env.levels s.pins dataLines s.env) }

theorem sampleLines_ready {is : List (Fin 8)} {s : State} (hk : s.killIn = none)
    (hm : ∀ i, mapped s.cfg (.dl i) = true) (hd : ∀ i, s.dir (.dl i) = some .input) :
    sampleLines is s = .ok (Env.levels s.pins is s.env)
      { s with
        env := Env.afterLevels s.pins is s.env
        trace := s.trace ++ List.zipWith (fun i l => .smp (.dl i) l) is (Env.levels s.pins is s.env) } := by
  induction is generalizing s with
  | nil => simp [sampleLines, Env.levels, Env.afterLevels]
  | cons i is ih =>
    rw [sampleLines, act_bind_ok (sample_ok (by simp [hk]) (hm i) (hd i)), act_bind_ok (ih ?_ ?_ ?_)]
    · simp [Env.levels, Env.afterLevels, State.logged, hk]
    · simp [State.logged, hk]
    · exact hm
    · exact hd

theorem busRead_ready {s : State} (hk : s.killIn = none) (hm : ∀ i, mapped s.cfg (.dl i) = true)
    (hd : ∀ i, s.dir (.dl i) = some .input) :
    busRead s = .ok (composeByte (Env.levels s.pins dataLines s.env)) s.sampledBus := by
  rw [busRead, act_bind_ok (requireBus_ok hd), act_bind_ok (sampleLines_ready hk hm hd)]
  rfl

/-! ### The shifter -/

theorem checkRange_ok {s : State} {a : Addr} (h : outOfRange s.cfg a = false) : checkRange a s = .ok () s := by
  simp [checkRange, h]

theorem checkRange_fault {s : State} {a : Addr} (h : outOfRange s.cfg a = true) :
    checkRange a s = .error (.fault .addrRange a) s := by simp [checkRange, h]

theorem setaddrOps_keepsDirections (c : Config) (a : Addr) : ∀ op ∈ setaddrOps c a, op.keepsDirections = true := by
  intro op hop
  unfold setaddrOps at hop
  split at hop
  · simp only [setaddrTwoWire, shiftBit, extraPulse, List.mem_append, List.mem_flatMap, List.mem_cons,
      List.not_mem_nil, or_false] at hop
    split at hop <;> aesop
  · simp only [setaddrThreeWire, shiftByte, shiftBit, strobePulse, List.mem_append, List.mem_flatMap, List.mem_cons,
      List.not_mem_nil, or_false] at hop
    aesop
  · simp only [setaddrDirect, List.mem_append, List.mem_map, List.mem_cons, List.not_mem_nil, or_false] at hop
    aesop
  · simp only [List.nil_append, List.mem_cons, List.not_mem_nil, or_false] at hop
    subst hop; rfl

/-- `SETADDR` acts on its mode's lines only (41_address_shifter.md R150). -/
theorem setaddrOps_role {c : Config} {a : Addr} {op : PinOp} {r : Role} (h : op ∈ setaddrOps c a)
    (hr : op.role = some r) : r ∈ modeLines c := by
  unfold setaddrOps at h
  split at h
  next hm =>
    simp only [modeLines, hm]
    simp only [setaddrTwoWire, shiftBit, extraPulse, List.mem_append, List.mem_flatMap, List.mem_cons,
      List.not_mem_nil, or_false] at h
    split at h <;> aesop (add norm PinOp.role)
  next hm =>
    simp only [modeLines, hm]
    simp only [setaddrThreeWire, shiftByte, shiftBit, strobePulse, List.mem_append, List.mem_flatMap, List.mem_cons,
      List.not_mem_nil, or_false] at h
    aesop (add norm PinOp.role)
  next hm =>
    simp only [modeLines, hm, usedDirectLines, List.mem_map]
    simp only [setaddrDirect, List.mem_append, List.mem_map, List.mem_cons, List.not_mem_nil, or_false] at h
    aesop (add norm PinOp.role)
  · simp only [List.nil_append, List.mem_cons, List.not_mem_nil, or_false] at h
    subst h; cases hr

theorem setaddrOps_ready {c : Config} {a : Addr} {p : Pins}
    (h : ∀ r ∈ modeLines c, mapped c r = true ∧ (pinAt p r).dir = some .output) : AllReady c (setaddrOps c a) p :=
  allReady_of_static (setaddrOps_keepsDirections c a) fun op hop =>
    ready_of_role (setaddrOps_keepsDirections c a op hop) fun _ hr => h _ (setaddrOps_role hop hr)

theorem setAddress_ready {s : State} {a : Addr} (hk : s.killIn = none) (hr : outOfRange s.cfg a = false)
    (hm : s.cfg.mode ≠ .illegal) (h : s.OutputsReady (modeLines s.cfg)) :
    setAddress a s = .ok () (s.ran (setaddrOps s.cfg a)) := by
  rw [setAddress, act_bind_ok (checkRange_ok hr), act_bind_ok (act_get s), if_neg hm]
  exact runOps_ready hk (setaddrOps_ready h)

/-! ### The idle setup -/

theorem setUp_ready {c : Config} {r : Role} {l : Level} {p : Pins} (h : mapped c r = true) :
    AllReady c (setUp r l) p := by
  refine .cons h (.cons ⟨h, ?_⟩ .nil)
  simp only [PinOp.onPins, pinAt_setDirPins_dir, if_true]

theorem setUps_ready {c : Config} {rs : List Role} {l : Level} {p : Pins} (h : ∀ r ∈ rs, mapped c r = true) :
    AllReady c (rs.flatMap fun r => setUp r l) p := by
  induction rs generalizing p with
  | nil => exact .nil
  | cons r rs ih =>
    rw [List.flatMap_cons, allReady_append]
    exact ⟨setUp_ready (h r List.mem_cons_self), ih fun x hx => h x (List.mem_cons_of_mem _ hx)⟩

theorem setUp_role {r : Role} {l : Level} {op : PinOp} (h : op ∈ setUp r l) : op.role = some r := by
  simp only [setUp, List.mem_cons, List.not_mem_nil, or_false] at h
  rcases h with rfl | rfl <;> rfl

/-- A role set up is an output at its level (43_sequencer.md R183). -/
theorem pinsAfter_setUp (r : Role) (l : Level) (p : Pins) :
    pinAt (pinsAfter (setUp r l) p) r = { dir := some .output, out := some l } := by
  simp only [setUp, pinsAfter, List.foldl_cons, List.foldl_nil, PinOp.onPins, drivePins, setDirPins,
    pinAt_putPin_self]

theorem pinsAfter_setUps {rs : List Role} (hn : rs.Nodup) {r : Role} (hr : r ∈ rs) (l : Level) (p : Pins) :
    pinAt (pinsAfter (rs.flatMap fun r => setUp r l) p) r = { dir := some .output, out := some l } := by
  induction rs generalizing p with
  | nil => cases hr
  | cons x rs ih =>
    rw [List.nodup_cons] at hn
    rw [List.flatMap_cons, pinsAfter_append]
    by_cases hr' : r ∈ rs
    · exact ih hn.2 hr' _
    · obtain rfl : r = x := by simpa [hr'] using hr
      rw [pinsAfter_other, pinsAfter_setUp]
      intro op hop
      obtain ⟨y, hy, hop⟩ := List.mem_flatMap.mp hop
      rw [setUp_role hop]
      rintro ⟨⟩
      exact hr' hy

theorem modeLines_isAddressLine {c : Config} {r : Role} (h : r ∈ modeLines c) : isAddressLine r = true := by
  unfold modeLines at h
  split at h
  · simp only [List.mem_cons, List.not_mem_nil, or_false] at h
    rcases h with rfl | rfl <;> rfl
  · simp only [List.mem_cons, List.not_mem_nil, or_false] at h
    rcases h with rfl | rfl | rfl <;> rfl
  · obtain ⟨a, -, rfl⟩ := List.mem_map.mp h; rfl
  · cases h

theorem modeLines_nodup (c : Config) : (modeLines c).Nodup := by
  unfold modeLines
  split
  · decide
  · decide
  · refine List.Nodup.map (fun a b h => by cases h; rfl) (List.Nodup.sublist (List.take_sublist _ _) (by decide))
  · decide

theorem idleSetupOps_ready {c : Config} {p : Pins} (h : ∀ r ∈ requiredRoles c, mapped c r = true) :
    AllReady c (idleSetupOps c) p := by
  simp only [requiredRoles, List.mem_append] at h
  simp only [idleSetupOps, allReady_append]
  refine ⟨⟨⟨⟨busdirOps_ready _ fun i => ?_, setUp_ready ?_⟩, setUp_ready ?_⟩, setUps_ready fun r hr => ?_⟩,
    .cons trivial (.cons trivial .nil)⟩
  · exact h _ (.inl (.inl (mem_dataRoles i)))
  · exact h _ (.inl (.inr (by simp)))
  · exact h _ (.inl (.inr (by simp)))
  · exact h _ (.inr hr)

/-- The latches after `IDLESETUP` (43_sequencer.md R183): the bus an input, WE# and OE# high, the address-control lines
low, every other role as it was. -/
theorem pinsAfter_idleSetup (c : Config) (p : Pins) (r : Role) :
    pinAt (pinsAfter (idleSetupOps c) p) r =
      match r with
      | .dl i => pinAt (setDirPins p (.dl i) .input) (.dl i)
      | .we => { dir := some .output, out := some true }
      | .oe => { dir := some .output, out := some true }
      | r => if r ∈ modeLines c then { dir := some .output, out := some false } else pinAt p r := by
  have hlines : ∀ {q : Pins} {r : Role}, r ∉ modeLines c →
      pinAt (pinsAfter ((modeLines c).flatMap fun r => setUp r false) q) r = pinAt q r := by
    intro q r hr
    refine pinsAfter_other (fun op hop => ?_) q
    obtain ⟨y, hy, hop⟩ := List.mem_flatMap.mp hop
    rw [setUp_role hop]
    rintro ⟨⟩
    exact hr hy
  have hup : ∀ {q : Pins} {r x : Role} {l : Level}, r ≠ x → pinAt (pinsAfter (setUp x l) q) r = pinAt q r := by
    intro q r x l hr
    refine pinsAfter_other (fun op hop => ?_) q
    rw [setUp_role hop]
    rintro ⟨⟩
    exact hr rfl
  have htail : ∀ q : Pins, pinsAfter [.enter .idle, .address none] q = q := fun _ => rfl
  simp only [idleSetupOps, pinsAfter_append, htail]
  cases r with
  | dl i =>
    have : Role.dl i ∉ modeLines c := fun h => by simpa [isAddressLine] using modeLines_isAddressLine h
    rw [hlines this, hup (by simp), hup (by simp), pinsAfter_busdir]
  | we =>
    have : Role.we ∉ modeLines c := fun h => by simpa [isAddressLine] using modeLines_isAddressLine h
    rw [hlines this, hup (by simp), pinsAfter_setUp]
  | oe =>
    have : Role.oe ∉ modeLines c := fun h => by simpa [isAddressLine] using modeLines_isAddressLine h
    rw [hlines this, pinsAfter_setUp]
  | asd | asc | ass | dal i =>
    dsimp only
    split
    next h => exact pinsAfter_setUps (modeLines_nodup c) h _ _
    next h => rw [hlines h, hup (by simp), hup (by simp), pinsAfter_busdir_other (by simp)]

theorem idleSetup_ready {s : State} (hk : s.killIn = none) (h : ∀ r ∈ requiredRoles s.cfg, mapped s.cfg r = true) :
    idleSetup s = .ok () (s.ran (idleSetupOps s.cfg)) := runWith_ready hk (idleSetupOps_ready h)

/-- After `IDLESETUP` the pins are set up for cycles (60_exceptions.md R279). -/
theorem ran_idleSetup_setUp {s : State} (h : ∀ r ∈ requiredRoles s.cfg, mapped s.cfg r = true) :
    (s.ran (idleSetupOps s.cfg)).SetUp ∧ (s.ran (idleSetupOps s.cfg)).ControlsHigh := by
  simp only [requiredRoles, List.mem_append] at h
  refine ⟨fun r hr => ?_, ?_, ?_⟩
  · simp only [State.dir, State.ran_pins, State.ran_cfg, List.mem_cons] at hr ⊢
    rw [pinsAfter_idleSetup]
    rcases hr with rfl | rfl | hr
    · exact ⟨h _ (.inl (.inr (by simp))), rfl⟩
    · exact ⟨h _ (.inl (.inr (by simp))), rfl⟩
    · refine ⟨h _ (.inr hr), ?_⟩
      have := modeLines_isAddressLine hr
      cases r <;> simp_all [isAddressLine]
  · simp only [State.out, State.ran_pins]; rw [pinsAfter_idleSetup]
  · simp only [State.out, State.ran_pins]; rw [pinsAfter_idleSetup]

/-! ### The cycles -/

/-- The steps of a read cycle before its samples (43_sequencer.md R186). -/
def readOpsBefore (c : Config) (a : Addr) : List PinOp := readLead c ++ setaddrOps c a ++ readOpen c

/-- The steps of a write cycle (43_sequencer.md R190). -/
def writeOps (c : Config) (a : Addr) (v : Byte) : List PinOp :=
  writeLead c ++ setaddrOps c a ++ busDriveOps v ++ writePulse c

/-- The state a read cycle reaches when nothing stops it. -/
def State.afterRead (s : State) (a : Addr) : State :=
  (s.ran (readOpsBefore s.cfg a)).sampledBus.ran (readClose s.cfg)

/-- The byte a read cycle answers when nothing stops it. -/
def State.readByte (s : State) (a : Addr) : Byte :=
  composeByte (Env.levels (s.ran (readOpsBefore s.cfg a)).pins dataLines (s.ran (readOpsBefore s.cfg a)).env)

theorem pinsAfter_setaddr_dir (c : Config) (a : Addr) (p : Pins) (r : Role) :
    (pinAt (pinsAfter (setaddrOps c a) p) r).dir = (pinAt p r).dir :=
  pinsAfter_dir (setaddrOps_keepsDirections c a) p r

theorem readLead_dir (c : Config) (p : Pins) {r : Role} (h : ∀ i, r ≠ .dl i) :
    (pinAt (pinsAfter (readLead c) p) r).dir = (pinAt p r).dir := by
  rw [readLead, pinsAfter_append, pinsAfter_dir (by simp [PinOp.keepsDirections]), pinsAfter_busdir_other h]

theorem readLead_bus (c : Config) (p : Pins) (i : Fin 8) :
    (pinAt (pinsAfter (readLead c) p) (.dl i)).dir = some .input := by
  rw [readLead, pinsAfter_append, pinsAfter_dir (by simp [PinOp.keepsDirections]), pinsAfter_busdir_dir]

theorem writeLead_dir (c : Config) (p : Pins) {r : Role} (h : ∀ i, r ≠ .dl i) :
    (pinAt (pinsAfter (writeLead c) p) r).dir = (pinAt p r).dir := by
  rw [writeLead, pinsAfter_append, pinsAfter_append, pinsAfter_dir (by simp [PinOp.keepsDirections]),
    pinsAfter_busdir_other h, pinsAfter_dir (by simp [PinOp.keepsDirections])]

theorem writeLead_bus (c : Config) (p : Pins) (i : Fin 8) :
    (pinAt (pinsAfter (writeLead c) p) (.dl i)).dir = some .output := by
  rw [writeLead, pinsAfter_append, pinsAfter_append, pinsAfter_dir (by simp [PinOp.keepsDirections]),
    pinsAfter_busdir_dir]

theorem ne_dl_of_modeLines {c : Config} {r : Role} (h : r ∈ modeLines c) (i : Fin 8) : r ≠ .dl i := by
  rintro rfl
  simpa [isAddressLine] using modeLines_isAddressLine h

theorem State.SetUp.we {s : State} (h : s.SetUp) : mapped s.cfg .we = true ∧ s.dir .we = some .output :=
  h _ List.mem_cons_self

theorem State.SetUp.oe {s : State} (h : s.SetUp) : mapped s.cfg .oe = true ∧ s.dir .oe = some .output :=
  h _ (List.mem_cons_of_mem _ List.mem_cons_self)

theorem State.SetUp.lines {s : State} (h : s.SetUp) : s.OutputsReady (modeLines s.cfg) :=
  fun r hr => h r (List.mem_cons_of_mem _ (List.mem_cons_of_mem _ hr))

theorem readLead_ready {s : State} (hm : ∀ i, mapped s.cfg (.dl i) = true) (h : s.SetUp) :
    AllReady s.cfg (readLead s.cfg) s.pins := by
  rw [readLead, allReady_append]
  refine ⟨busdirOps_ready _ hm, allReady_of_static (by simp [PinOp.keepsDirections]) fun op hop => ?_⟩
  simp only [List.mem_cons, List.not_mem_nil, or_false] at hop
  rcases hop with rfl | rfl | rfl | rfl
  · exact ⟨h.we.1, by rw [pinsAfter_busdir_other (by simp)]; exact h.we.2⟩
  · exact ⟨h.oe.1, by rw [pinsAfter_busdir_other (by simp)]; exact h.oe.2⟩
  · trivial
  · trivial

theorem runWith_ran {f : Config → List PinOp} {s : State} {ops : List PinOp} (hk : s.killIn = none)
    (h : AllReady s.cfg (f s.cfg) (pinsAfter ops s.pins)) :
    runWith f (s.ran ops) = .ok () (s.ran (ops ++ f s.cfg)) := by
  rw [State.ran_append]
  exact runWith_ready (s := s.ran ops) hk h

theorem setAddress_ran {s : State} {ops : List PinOp} {a : Addr} (hk : s.killIn = none)
    (hr : outOfRange s.cfg a = false) (hm : s.cfg.mode ≠ .illegal)
    (h : ∀ r ∈ modeLines s.cfg, mapped s.cfg r = true ∧ (pinAt (pinsAfter ops s.pins) r).dir = some .output) :
    setAddress a (s.ran ops) = .ok () (s.ran (ops ++ setaddrOps s.cfg a)) := by
  rw [State.ran_append]
  exact setAddress_ready (s := s.ran ops) hk hr hm h

theorem busWrite_ran {s : State} {ops : List PinOp} (v : Byte) (hk : s.killIn = none)
    (hm : ∀ i, mapped s.cfg (.dl i) = true) (h : ∀ i, (pinAt (pinsAfter ops s.pins) (.dl i)).dir = some .output) :
    busWrite v (s.ran ops) = .ok () (s.ran (ops ++ busDriveOps v)) := by
  rw [State.ran_append]
  exact busWrite_ready (s := s.ran ops) v hk hm h

theorem busRead_ran {s : State} {ops : List PinOp} (hk : s.killIn = none) (hm : ∀ i, mapped s.cfg (.dl i) = true)
    (h : ∀ i, (pinAt (pinsAfter ops s.pins) (.dl i)).dir = some .input) :
    busRead (s.ran ops) = .ok (composeByte (Env.levels (s.ran ops).pins dataLines (s.ran ops).env)) (s.ran ops).sampledBus :=
  busRead_ready (s := s.ran ops) hk hm h

theorem runWith_sampled {f : Config → List PinOp} {s : State} {ops : List PinOp} (hk : s.killIn = none)
    (h : AllReady s.cfg (f s.cfg) (pinsAfter ops s.pins)) :
    runWith f (s.ran ops).sampledBus = .ok () ((s.ran ops).sampledBus.ran (f s.cfg)) :=
  runWith_ready (s := (s.ran ops).sampledBus) hk h

/-- A read cycle that nothing stops (43_sequencer.md R186). -/
theorem readCycle_ready {s : State} {a : Addr} (hk : s.killIn = none) (hr : outOfRange s.cfg a = false)
    (hmode : s.cfg.mode ≠ .illegal) (hm : ∀ i, mapped s.cfg (.dl i) = true) (h : s.SetUp) :
    readCycle a s = .ok (s.readByte a) (s.afterRead a) := by
  have h1 : runWith readLead s = .ok () (s.ran (readLead s.cfg)) := runWith_ready hk (readLead_ready hm h)
  have h2 : setAddress a (s.ran (readLead s.cfg)) = .ok () (s.ran (readLead s.cfg ++ setaddrOps s.cfg a)) :=
    setAddress_ran hk hr hmode fun r hx =>
      ⟨(h.lines r hx).1, (readLead_dir _ _ (ne_dl_of_modeLines hx)).trans (h.lines r hx).2⟩
  have hdir2 : ∀ r, (pinAt (pinsAfter (readLead s.cfg ++ setaddrOps s.cfg a) s.pins) r).dir =
      (pinAt (pinsAfter (readLead s.cfg) s.pins) r).dir := fun r => by rw [pinsAfter_append, pinsAfter_setaddr_dir]
  have hopen : AllReady s.cfg (readOpen s.cfg) (pinsAfter (readLead s.cfg ++ setaddrOps s.cfg a) s.pins) := by
    refine allReady_of_static (by simp [readOpen, PinOp.keepsDirections]) fun op hop => ?_
    simp only [readOpen, List.mem_cons, List.not_mem_nil, or_false] at hop
    rcases hop with rfl | rfl | rfl | rfl
    · trivial
    · trivial
    · exact ⟨h.oe.1, by rw [hdir2, readLead_dir _ _ (by simp)]; exact h.oe.2⟩
    · trivial
  have h3 : runWith readOpen (s.ran (readLead s.cfg ++ setaddrOps s.cfg a)) =
      .ok () (s.ran (readOpsBefore s.cfg a)) := runWith_ran hk hopen
  have hdir3 : ∀ r, (pinAt (pinsAfter (readOpsBefore s.cfg a) s.pins) r).dir =
      (pinAt (pinsAfter (readLead s.cfg) s.pins) r).dir := fun r => by
    rw [readOpsBefore, pinsAfter_append, pinsAfter_dir (by simp [readOpen, PinOp.keepsDirections]), hdir2]
  have h4 : busRead (s.ran (readOpsBefore s.cfg a)) =
      .ok (s.readByte a) (s.ran (readOpsBefore s.cfg a)).sampledBus :=
    busRead_ran hk hm fun i => (hdir3 _).trans (readLead_bus _ _ i)
  have hclose : AllReady s.cfg (readClose s.cfg) (pinsAfter (readOpsBefore s.cfg a) s.pins) := by
    refine allReady_of_static (by simp [readClose, PinOp.keepsDirections]) fun op hop => ?_
    simp only [readClose, List.mem_cons, List.not_mem_nil, or_false] at hop
    rcases hop with rfl | rfl | rfl
    · exact ⟨h.oe.1, (hdir3 _).trans ((readLead_dir _ _ (by simp)).trans h.oe.2)⟩
    · trivial
    · trivial
  have h5 : runWith readClose (s.ran (readOpsBefore s.cfg a)).sampledBus = .ok () (s.afterRead a) :=
    runWith_sampled hk hclose
  rw [readCycle, act_bind_ok (checkRange_ok hr), act_bind_ok h1, act_bind_ok h2, act_bind_ok h3, act_bind_ok h4,
    act_bind_ok h5, act_pure]

/-- A write cycle that nothing stops (43_sequencer.md R190). -/
theorem writeCycle_ready {s : State} {a : Addr} (v : Byte) (hk : s.killIn = none) (hr : outOfRange s.cfg a = false)
    (hmode : s.cfg.mode ≠ .illegal) (hm : ∀ i, mapped s.cfg (.dl i) = true) (h : s.SetUp) :
    writeCycle a v s = .ok () (s.ran (writeOps s.cfg a v)) := by
  have hlead : AllReady s.cfg (writeLead s.cfg) s.pins := by
    rw [writeLead, allReady_append, allReady_append]
    refine ⟨⟨allReady_of_static (by simp [PinOp.keepsDirections]) fun op hop => ?_, busdirOps_ready _ hm⟩,
      .cons trivial .nil⟩
    simp only [List.mem_cons, List.not_mem_nil, or_false] at hop
    rcases hop with rfl | rfl | rfl
    · exact h.we
    · exact h.oe
    · trivial
  have h1 : runWith writeLead s = .ok () (s.ran (writeLead s.cfg)) := runWith_ready hk hlead
  have h2 : setAddress a (s.ran (writeLead s.cfg)) = .ok () (s.ran (writeLead s.cfg ++ setaddrOps s.cfg a)) :=
    setAddress_ran hk hr hmode fun r hx =>
      ⟨(h.lines r hx).1, (writeLead_dir _ _ (ne_dl_of_modeLines hx)).trans (h.lines r hx).2⟩
  have hdir2 : ∀ r, (pinAt (pinsAfter (writeLead s.cfg ++ setaddrOps s.cfg a) s.pins) r).dir =
      (pinAt (pinsAfter (writeLead s.cfg) s.pins) r).dir := fun r => by rw [pinsAfter_append, pinsAfter_setaddr_dir]
  have h3 : busWrite v (s.ran (writeLead s.cfg ++ setaddrOps s.cfg a)) =
      .ok () (s.ran (writeLead s.cfg ++ setaddrOps s.cfg a ++ busDriveOps v)) :=
    busWrite_ran v hk hm fun i => (hdir2 _).trans (writeLead_bus _ _ i)
  have hpulse : AllReady s.cfg (writePulse s.cfg)
      (pinsAfter (writeLead s.cfg ++ setaddrOps s.cfg a ++ busDriveOps v) s.pins) := by
    have hwe : (pinAt (pinsAfter (writeLead s.cfg ++ setaddrOps s.cfg a ++ busDriveOps v) s.pins) .we).dir =
        some .output := by
      rw [pinsAfter_append, pinsAfter_dir (busDriveOps_keepsDirections v), hdir2, writeLead_dir _ _ (by simp)]
      exact h.we.2
    refine allReady_of_static (by simp [writePulse, PinOp.keepsDirections]) fun op hop => ?_
    simp only [writePulse, List.mem_cons, List.not_mem_nil, or_false] at hop
    rcases hop with rfl | rfl | rfl | rfl | rfl | rfl | rfl
    · trivial
    · trivial
    · exact ⟨h.we.1, hwe⟩
    · trivial
    · exact ⟨h.we.1, hwe⟩
    · trivial
    · trivial
  have h4 : runWith writePulse (s.ran (writeLead s.cfg ++ setaddrOps s.cfg a ++ busDriveOps v)) =
      .ok () (s.ran (writeOps s.cfg a v)) := runWith_ran hk hpulse
  rw [writeCycle, act_bind_ok (checkRange_ok hr), act_bind_ok h1, act_bind_ok h2, act_bind_ok h3, h4]

end Sys2Proof.Machine
end

