-- ==== Sys2Proof/Laws/Events.lean ====
section
/-! SUPPORT. The events of the sequences of steps, as the rules write them down, and where they leave the address
lines. -/

namespace Sys2Proof.Machine

theorem eventsOf_flatMap {α : Type} (l : List α) (f : α → List PinOp) :
    eventsOf (l.flatMap f) = l.flatMap fun x => eventsOf (f x) := by
  induction l with
  | nil => rfl
  | cons x l ih => rw [List.flatMap_cons, eventsOf_append, ih, List.flatMap_cons]

theorem eventsOf_map {α : Type} (l : List α) (f : α → PinOp) (g : α → Event) (h : ∀ x, (f x).event = some (g x)) :
    eventsOf (l.map f) = l.map g := by
  induction l with
  | nil => rfl
  | cons x l ih => rw [List.map_cons, eventsOf_cons, ih, eventsOf, List.filterMap_cons_some (h x)]; rfl

theorem eventsOf_busdir (d : Direction) : eventsOf (busdirOps d) = busDirEvents d :=
  eventsOf_map _ _ _ fun _ => rfl

theorem eventsOf_busDrive (v : Byte) : eventsOf (busDriveOps v) = busDriveEvents v := eventsOf_map _ _ _ fun _ => rfl

theorem eventsOf_shiftBit (c : Config) (b : Level) : eventsOf (shiftBit c b) = pulseEvents c b := rfl

/-- Shifting down step by step reads the bits in ascending order (41_address_shifter.md R142). -/
theorem serialBits_eq (n : Nat) (a : Addr) : serialBits n a = (List.range n).map fun k => a.getLsbD k := by
  induction n generalizing a with
  | zero => rfl
  | succ n ih =>
    rw [serialBits, ih, List.range_succ_eq_map, List.map_cons, List.map_map]
    congr 1
    refine List.map_congr_left fun k _ => ?_
    simp [Nat.add_comm]

theorem byteBits_eq (a : Addr) (j : Nat) :
    byteBits a j = [7, 6, 5, 4, 3, 2, 1, 0].map fun i => a.getLsbD (8 * j + i) := by
  refine List.map_congr_left fun i hi => ?_
  have : i < 8 := by
    simp only [List.mem_cons, List.not_mem_nil, or_false] at hi
    omega
  simp [this]

/-- The events of `SETADDR` (41_address_shifter.md R142 to R146). -/
theorem eventsOf_setaddr (c : Config) (a : Addr) : eventsOf (setaddrOps c a) = addressEvents c a := by
  have htail : eventsOf [.address (some a)] = [] := rfl
  rw [setaddrOps, eventsOf_append, htail, List.append_nil, addressEvents]
  cases c.mode with
  | s2w =>
    simp only [setaddrTwoWire, twoWireEvents, eventsOf_append, eventsOf_flatMap, eventsOf_shiftBit, serialBits_eq,
      List.flatMap_map]
    congr 1
    congr 1
    unfold extraPulse extraPulseEvents
    cases c.xpData <;> rfl
  | s3w =>
    simp only [setaddrThreeWire, threeWireEvents, eventsOf_append, eventsOf_flatMap, shiftByte, eventsOf_shiftBit,
      byteBits_eq, List.flatMap_assoc, List.flatMap_map]
    rfl
  | direct =>
    simp only [setaddrDirect, directEvents, eventsOf_append]
    rw [eventsOf_map _ _ (fun i => Event.drv (.dal i) (a.getLsbD i.val)) fun _ => rfl]
    rfl
  | illegal => rfl

/-- The events of `IDLESETUP` (43_sequencer.md R183). -/
theorem eventsOf_idleSetup (c : Config) : eventsOf (idleSetupOps c) = idleEvents c := by
  simp only [idleSetupOps, idleEvents, eventsOf_append, eventsOf_busdir, eventsOf_flatMap, modeLines, usedDirectLines]
  cases c.mode with
  | s2w => rfl
  | s3w => rfl
  | direct =>
    have htail : eventsOf [.enter .idle, .address none] = [] := rfl
    rw [htail, List.append_nil, List.flatMap_map]
    rfl
  | illegal => rfl

/-- The events of a read cycle (43_sequencer.md R186). -/
theorem afterRead_trace (s : State) (a : Addr) :
    (s.afterRead a).trace =
      s.trace ++ readEvents s.cfg a (Env.levels (s.ran (readOpsBefore s.cfg a)).pins dataLines (s.ran (readOpsBefore s.cfg a)).env) := by
  simp only [State.afterRead, State.ran_trace, State.sampledBus, readOpsBefore, eventsOf_append, eventsOf_setaddr,
    readLead, eventsOf_busdir, readEvents, List.append_assoc]
  rfl

/-- The events of a write cycle (43_sequencer.md R190). -/
theorem eventsOf_write (c : Config) (a : Addr) (v : Byte) : eventsOf (writeOps c a v) = writeEvents c a v := by
  simp only [writeOps, eventsOf_append, eventsOf_setaddr, writeLead, eventsOf_busdir, eventsOf_busDrive, writeEvents,
    List.append_assoc]
  rfl

/-! ### Where `SETADDR` leaves the address lines -/

theorem lastLevel_flatMap_last {α : Type} {r : Role} {l : Level} {f : α → List PinOp} (xs : List α) (x : α)
    (h : lastLevel r (f x) = some l) : lastLevel r ((xs ++ [x]).flatMap f) = some l := by
  rw [List.flatMap_append, lastLevel_append]
  simp [h]

theorem lastLevel_map_of_mem {α : Type} [DecidableEq α] {r : Role} {f : α → PinOp} {l : Level} {x : α} {xs : List α}
    (hx : x ∈ xs) (h : lastLevel r [f x] = some l) (hne : ∀ y ∈ xs, y ≠ x → (f y).role ≠ some r) :
    lastLevel r (xs.map f) = some l := by
  induction xs with
  | nil => cases hx
  | cons y ys ih =>
    rw [List.map_cons, ← List.singleton_append, lastLevel_append]
    by_cases hys : x ∈ ys
    · rw [ih hys fun z hz => hne z (List.mem_cons_of_mem _ hz)]; rfl
    · have hxy : x = y := by simpa [hys] using hx
      subst hxy
      rw [lastLevel_none, h]; rfl
      intro op hop
      obtain ⟨z, hz, rfl⟩ := List.mem_map.mp hop
      exact hne z (List.mem_cons_of_mem _ hz) fun e => hys (e ▸ hz)

/-- The levels `SETADDR` leaves in mode `S2W` (41_address_shifter.md R143, R144). -/
theorem lastLevel_twoWire {c : Config} (hm : c.mode = .s2w) (hn : 1 ≤ addrBits c) (a : Addr) :
    lastLevel .asc (setaddrOps c a) = some false
      ∧ lastLevel .asd (setaddrOps c a) = some (match c.xpData with
        | .hold => a.getLsbD (addrBits c - 1)
        | .low => false) := by
  have hr : List.range (addrBits c) = List.range (addrBits c - 1) ++ [addrBits c - 1] := by
    rw [← List.range_succ]; congr 1; omega
  have h1 : lastLevel .asd ((List.range (addrBits c)).flatMap fun k => shiftBit c (a.getLsbD k)) =
      some (a.getLsbD (addrBits c - 1)) := by
    rw [hr]; exact lastLevel_flatMap_last _ _ (by simp [shiftBit, lastLevel])
  simp only [setaddrOps, hm, setaddrTwoWire, lastLevel_append]
  refine ⟨by simp [lastLevel], ?_⟩
  rw [h1]
  unfold extraPulse
  cases c.xpData <;> simp [lastLevel]

/-- The levels `SETADDR` leaves in mode `S3W` (41_address_shifter.md R145). -/
theorem lastLevel_threeWire {c : Config} (hm : c.mode = .s3w) (hn : 1 ≤ addrBits c) (a : Addr) :
    lastLevel .asc (setaddrOps c a) = some false ∧ lastLevel .ass (setaddrOps c a) = some false
      ∧ lastLevel .asd (setaddrOps c a) = some (a.getLsbD (8 * (addrBytes c - 1))) := by
  have hb : 1 ≤ addrBytes c := by unfold addrBytes; omega
  have hr : List.range (addrBytes c) = List.range (addrBytes c - 1) ++ [addrBytes c - 1] := by
    rw [← List.range_succ]; congr 1; omega
  have h1 : lastLevel .asd ((List.range (addrBytes c)).flatMap (shiftByte c a)) =
      some (a.getLsbD (8 * (addrBytes c - 1))) := by
    rw [hr]; exact lastLevel_flatMap_last _ _ (by simp [shiftByte, shiftBit, lastLevel])
  simp only [setaddrOps, hm, setaddrThreeWire, lastLevel_append, h1]
  refine ⟨by simp [lastLevel, strobePulse], by simp [lastLevel, strobePulse], by simp [lastLevel, strobePulse]⟩

/-- The level `SETADDR` leaves on a direct line (41_address_shifter.md R146). -/
theorem lastLevel_direct {c : Config} (hm : c.mode = .direct) (a : Addr) {i : Fin 24} (hi : i.val < addrBits c) :
    lastLevel (.dal i) (setaddrOps c a) = some (a.getLsbD i.val) := by
  simp only [setaddrOps, hm, setaddrDirect, lastLevel_append]
  have h : lastLevel (.dal i)
      ((directLines.take (addrBits c)).map fun i => PinOp.shift (.dal i) (a.getLsbD i.val)) =
        some (a.getLsbD i.val) := by
    refine lastLevel_map_of_mem (mem_take_directLines.mpr hi) (by simp [lastLevel]) fun y _ hy => ?_
    simpa [PinOp.role] using hy
  rw [h]
  simp [lastLevel]

/-- Steps that drive the address lines last as `SETADDR` does leave the address on them (41_address_shifter.md R144 to
R146). -/
theorem addressLeft_of_last {t : State} {a : Addr}
    (h : ∀ r l, lastLevel r (setaddrOps t.cfg a) = some l → t.out r = some l) (hn : 1 ≤ addrBits t.cfg) :
    AddressLeft t a := by
  unfold AddressLeft
  cases hm : t.cfg.mode with
  | s2w =>
    obtain ⟨h1, h2⟩ := lastLevel_twoWire hm hn a
    exact ⟨h _ _ h1, h _ _ h2⟩
  | s3w =>
    obtain ⟨h1, h2, h3⟩ := lastLevel_threeWire hm hn a
    exact ⟨h _ _ h1, h _ _ h2, h _ _ h3⟩
  | direct => exact fun i hi => h _ _ (lastLevel_direct hm a hi)
  | illegal => trivial

end Sys2Proof.Machine
end

