-- ==== Sys2Proof/Laws/Answers.lean ====
section
/-! SUPPORT. From pseudocode that runs to its end, or faults, to the answered command. -/

namespace Sys2Proof.Machine

/-- An address in range (41_address_shifter.md R141). -/
theorem outOfRange_false {c : Config} {a : Addr} (h : a.toNat < 2 ^ c.addrBits.toNat) : outOfRange c a = false :=
  decide_eq_false (Nat.not_le.mpr h)

/-- A command with an empty payload whose pseudocode ends. -/
theorem exec_finish {s t : State} {x : Act Unit} {i : Instr} (hb : bodyOf i = finish x) (hs : s.Undisturbed)
    (h : x s = .ok () t) (ht : t.killIn = none) : exec i s = .next (t.respond (.ok .empty)) := by
  rw [exec_accepting i hs.1, hb, finish, act_bind_ok h, act_pure]
  simp [settle, ht]

/-- A command whose pseudocode ends with a payload. -/
theorem exec_done {s t : State} {i : Instr} {p : Payload} (hs : s.Undisturbed) (h : bodyOf i s = .ok (.done p) t)
    (ht : t.killIn = none) : exec i s = .next (t.respond (.ok p)) := by
  rw [exec_accepting i hs.1, h]
  simp [settle, ht]

/-- A command whose pseudocode faults (60_exceptions.md R273). -/
theorem exec_fault {s t : State} {i : Instr} {c : Cause} {info : BitVec 24} (hs : s.Undisturbed)
    (h : bodyOf i s = .error (.fault c info) t) (ht : t.killIn = none) : exec i s = .next (t.takeFault c info) := by
  rw [exec_accepting i hs.1, h]
  simp [settle, ht]

theorem answered_respond {s t : State} {r : Reply} (h : t.responses = s.responses) : Answered s (t.respond r) r :=
  ⟨rfl, rfl, by simp only [State.respond, h]; rfl⟩

theorem answered_takeFault {s t : State} {c : Cause} {info : BitVec 24} (h : t.responses = s.responses) :
    Answered s (t.takeFault c info) (.fault c info) :=
  ⟨rfl, rfl, by simp only [State.takeFault, State.respond, State.recordFault, h]; rfl⟩

/-- A fault before the first event, in the state the command found. -/
theorem faultedAtOnce_takeFault (s : State) (c : Cause) (info : BitVec 24) :
    FaultedAtOnce s (s.takeFault c info) c info :=
  ⟨⟨rfl, rfl, rfl⟩, answered_takeFault rfl, (List.append_nil _).symm, rfl, rfl, rfl, rfl, rfl, rfl, rfl, rfl, rfl, rfl⟩

/-- A fault after steps that ran: their events stand (60_exceptions.md R273, 43_sequencer.md R195). -/
theorem faultedAfter_ran (s : State) (ops : List PinOp) (c : Cause) (info : BitVec 24) :
    FaultedAfter s ((s.ran ops).takeFault c info) c info (eventsOf ops) := by
  refine ⟨⟨rfl, rfl, rfl⟩, answered_takeFault (State.ran_responses _ _), ?_, ?_, ?_, ?_, ?_, ?_, ?_, ?_, ?_⟩
  · rw [Emitted, State.takeFault_trace, State.ran_trace]
  · rw [State.takeFault_pins, State.ran_pins, latchesAfter_eventsOf]
  · rw [State.takeFault_d, State.ran_d]
  · rw [State.takeFault_id, State.ran_id]
  · rw [State.takeFault_cur, State.ran_cur]
  · rw [State.takeFault_cfg, State.ran_cfg]
  · rw [State.takeFault_host, State.ran_host]
  · rw [State.takeFault_sinkAnswers, State.ran_sinkAnswers]
  · rw [State.takeFault_sinkDraws, State.ran_sinkDraws]

/-- What a list of steps leaves alone. -/
theorem keeps_ran {s : State} {ops : List PinOp} {rs : List Role} {r : Reply}
    (h : ∀ op ∈ ops, ∀ x, op.role = some x → x ∈ rs) : Keeps s ((s.ran ops).respond r) rs := by
  have e := envAfter_same s.cfg ops s.pins s.env
  refine ⟨rfl, rfl, e.wiring, e.weIdleHigh, fun a => ?_, e.flashId, fun r hr => ?_⟩
  · change Memory.lookup (envAfter s.cfg ops s.pins s.env).flash a = _
    rw [e.flash]
  · exact s.ran_other fun op hop hx => hr (h op hop r hx)

/-- Steps that enter no state of the sequencer keep `FSM`. -/
theorem fsmAfter_of_no_enter {ops : List PinOp} (h : ∀ op ∈ ops, ∀ f, op ≠ .enter f) (f : Fsm) : fsmAfter ops f = f := by
  induction ops generalizing f with
  | nil => rfl
  | cons op ops ih =>
    have : op.onFsm f = f := by
      cases op with
      | enter g => exact absurd rfl (h _ List.mem_cons_self g)
      | _ => rfl
    rw [fsmAfter, List.foldl_cons, this]
    exact ih (fun o ho => h o (List.mem_cons_of_mem _ ho)) f

theorem setaddrOps_no_enter (c : Config) (a : Addr) : ∀ op ∈ setaddrOps c a, ∀ f, op ≠ .enter f := by
  intro op hop f e
  subst e
  unfold setaddrOps at hop
  split at hop
  · simp only [setaddrTwoWire, shiftBit, extraPulse, List.mem_append, List.mem_flatMap, List.mem_cons,
      List.not_mem_nil, or_false] at hop
    split at hop <;> simp at hop
  · simp [setaddrThreeWire, shiftByte, shiftBit, strobePulse] at hop
  · simp only [setaddrDirect, List.mem_append, List.mem_cons, List.not_mem_nil, or_false, List.mem_map, reduceCtorEq,
      and_false, exists_false] at hop
  · simp at hop

end Sys2Proof.Machine
end

