-- ==== Sys2Proof/Laws/Bus.lean ====
section
/-! SUPPORT. The data bus: bytes and their levels, the derived direction, the lowest offender, and the latching
loopback. -/

namespace Sys2Proof.Machine

/-! ### Bytes and levels -/

theorem composeByte_getLsbD {ls : List Level} (h : ls.length = 8) (i : Fin 8) :
    ls[i.val]? = some ((composeByte ls).getLsbD i.val) := by
  match ls, h with
  | [a, b, c, d, e, f, g, k], _ =>
    revert a b c d e f g k
    fin_cases i <;> decide

@[simp] theorem composeByte_byteLevels (v : Byte) : composeByte (byteLevels v) = v := by
  refine BitVec.eq_of_getLsbD_eq fun i hi => ?_
  have h := composeByte_getLsbD (ls := byteLevels v) (by simp [byteLevels, dataLines]) ⟨i, hi⟩
  have h2 : (byteLevels v)[i]? = some (v.getLsbD i) := by
    have : dataLines[i]? = some ⟨i, hi⟩ := by
      have : ∀ j : Fin 8, dataLines[j.val]? = some j := by decide
      exact this ⟨i, hi⟩
    rw [byteLevels, List.getElem?_map, this]
    rfl
  rw [h2] at h
  exact (Option.some.inj h).symm

/-- Eight levels are those of the byte they compose (42_data_bus.md R161). -/
theorem byteLevels_composeByte {ls : List Level} (h : ls.length = 8) : byteLevels (composeByte ls) = ls := by
  refine List.ext_getElem? fun i => ?_
  by_cases hi : i < 8
  · rw [composeByte_getLsbD h ⟨i, hi⟩]
    have : dataLines[i]? = some ⟨i, hi⟩ := by
      have : ∀ j : Fin 8, dataLines[j.val]? = some j := by decide
      exact this ⟨i, hi⟩
    rw [byteLevels, List.getElem?_map, this]
    rfl
  · have : (byteLevels (composeByte ls)).length = 8 := by simp [byteLevels, dataLines]
    rw [List.getElem?_eq_none (by omega), List.getElem?_eq_none (by omega)]

/-! ### Directions -/

theorem busDir_input {p : Pins} (h : ∀ i, (pinAt p (.dl i)).dir = some .input) : busDir p = .input := by
  have : busAll p .input = true := by simp [busAll, h]
  simp [busDir, this]

theorem busDir_output {p : Pins} (h : ∀ i, (pinAt p (.dl i)).dir = some .output) : busDir p = .output := by
  have h1 : busAll p .input = false := by simp [busAll, h, dataLines]
  have h2 : busAll p .output = true := by simp [busAll, h]
  simp [busDir, h1, h2]

theorem input_of_busDir {p : Pins} (h : busDir p = .input) (i : Fin 8) : (pinAt p (.dl i)).dir = some .input := by
  unfold busDir at h
  split at h
  next h1 =>
    simp only [busAll, List.all_eq_true, decide_eq_true_eq] at h1
    exact h1 i (dataLines_mem i)
  next => split at h <;> cases h

/-- The lowest line with the wrong direction (42_data_bus.md R165). -/
theorem firstOffender_eq {p : Pins} {d : Direction} {i : Fin 8} (h : (pinAt p (.dl i)).dir ≠ some d)
    (hj : ∀ j : Fin 8, j < i → (pinAt p (.dl j)).dir = some d) : firstOffender p d = some i := by
  unfold firstOffender
  fin_cases i <;> simp_all [dataLines, List.find?]

/-- The level latches after `BUSDIR` (40_gpio.md R125). -/
theorem ran_busdir_out (s : State) (d : Direction) (i : Fin 8) :
    (s.ran (busdirOps d)).out (.dl i) =
      if d = .output ∧ s.dir (.dl i) ≠ some .output then none else s.out (.dl i) := by
  have h : (s.ran (busdirOps d)).out (.dl i) = (pinAt (pinsAfter (busdirOps d) s.pins) (.dl i)).out := rfl
  rw [h, pinsAfter_busdir, pinAt_setDirPins_out]
  simp only [true_and]
  rfl

theorem busdirOps_no_enter (d : Direction) : ∀ op ∈ busdirOps d, ∀ f, op ≠ .enter f := by
  intro op hop f e
  subst e
  simp [busdirOps] at hop

theorem busDriveOps_no_enter (v : Byte) : ∀ op ∈ busDriveOps v, ∀ f, op ≠ .enter f := by
  intro op hop f e
  subst e
  simp [busDriveOps] at hop

theorem busdirOps_role_mem {d : Direction} {op : PinOp} {r : Role} (h : op ∈ busdirOps d) (hr : op.role = some r) :
    r ∈ dataRoles := by
  obtain ⟨i, hi⟩ := busdirOps_role h
  rw [hi] at hr
  cases hr
  exact mem_dataRoles i

theorem busDriveOps_role_mem {v : Byte} {op : PinOp} {r : Role} (h : op ∈ busDriveOps v) (hr : op.role = some r) :
    r ∈ dataRoles := by
  obtain ⟨i, hi⟩ := busDriveOps_role h
  rw [hi] at hr
  cases hr
  exact mem_dataRoles i

/-! ### The latching loopback (20_memory.md R87) -/

/-- Behind the latching loopback a `SetDir` of a data line makes a fresh output's level unknown and changes nothing
else in the environment. -/
theorem loopback_setDir {e : Env} (hw : e.wiring = .latchingLoopback) (c : Config) (p : Pins) (i : Fin 8)
    (d : Direction) : e.onSetDir c p (.dl i) d =
      if freshOutput p (.dl i) d then { e with lastDriven := e.lastDriven.set i.val none } else e := by
  unfold Env.onSetDir Env.pathSetDir Env.lineSetDir Env.react
  by_cases h : freshOutput p (.dl i) d = true <;> simp [Env.wired, hw, h]

/-- Behind the latching loopback a `Drive` of a data line is remembered. -/
theorem loopback_drive {e : Env} (hw : e.wiring = .latchingLoopback) (c : Config) (p : Pins) (i : Fin 8) (l : Level) :
    e.onDrive c p (.dl i) l false = { e with lastDriven := e.lastDriven.set i.val (some l) } := by
  unfold Env.onDrive Env.pathDrive Env.enterShift Env.lineDrive Env.react
  simp [Env.wired, hw]

/-- Data lines made inputs change nothing in the environment. -/
theorem loopback_inputs (c : Config) (is : List (Fin 8)) (p : Pins) {e : Env} (hw : e.wiring = .latchingLoopback) :
    envAfter c (is.map fun i => .setDir (.dl i) .input) p e = e := by
  induction is generalizing p with
  | nil => rfl
  | cons i is ih =>
    have hi : e.onSetDir c p (.dl i) .input = e := by rw [loopback_setDir hw]; simp [freshOutput]
    simp only [List.map_cons, envAfter, PinOp.onEnv, hi]
    exact ih _

theorem loopback_drives (v : Byte) (c : Config) (is : List (Fin 8)) (p : Pins) {e : Env}
    (hw : e.wiring = .latchingLoopback) :
    (envAfter c (is.map fun i => .drive (.dl i) (v.getLsbD i.val)) p e).wiring = .latchingLoopback
      ∧ ∀ i : Fin 8, (envAfter c (is.map fun i => .drive (.dl i) (v.getLsbD i.val)) p e).lastDriven[i] =
        if i ∈ is then some (v.getLsbD i.val) else e.lastDriven[i] := by
  induction is generalizing p e with
  | nil => exact ⟨hw, fun i => by simp [envAfter]⟩
  | cons j is ih =>
    have hd := loopback_drive hw c p j (v.getLsbD j.val)
    obtain ⟨h1, h2⟩ := ih (drivePins p (.dl j) (v.getLsbD j.val))
      (e := { e with lastDriven := e.lastDriven.set j.val (some (v.getLsbD j.val)) }) hw
    simp only [List.map_cons, envAfter, PinOp.onEnv, PinOp.onPins, hd]
    refine ⟨h1, fun i => ?_⟩
    rw [h2 i]
    by_cases hi : i ∈ is
    · simp [hi]
    · by_cases hij : i = j
      · subst hij; simp [hi]
      · have : (j : Nat) ≠ i := fun e => hij (Fin.ext e.symm)
        simp [hi, hij, this]

/-- Samples in the latching loopback answer the levels last driven. -/
theorem loopback_levels (v : Byte) (p : Pins) (is : List (Fin 8)) {e : Env} (hw : e.wiring = .latchingLoopback)
    (h : ∀ i : Fin 8, e.lastDriven[i] = some (v.getLsbD i.val)) :
    Env.levels p is e = is.map fun i => v.getLsbD i.val := by
  induction is with
  | nil => rfl
  | cons i is ih =>
    have hp : e.pinIn p (.dl i) = (v.getLsbD i.val, e) := by
      unfold Env.pinIn
      simp only [hw, h i]
    rw [Env.levels, hp, ih, List.map_cons]

end Sys2Proof.Machine
end

