-- ==== Sys2Proof/Laws/CycleEnds.lean ====
section
/-! SUPPORT. Where the idle setup and the cycles leave the pins, the sequencer and everything else. -/

namespace Sys2Proof.Machine

/-! ### Which roles the steps act on -/

theorem we_notin_modeLines (c : Config) : Role.we ∉ modeLines c :=
  fun h => by simpa [isAddressLine] using modeLines_isAddressLine h

theorem oe_notin_modeLines (c : Config) : Role.oe ∉ modeLines c :=
  fun h => by simpa [isAddressLine] using modeLines_isAddressLine h

/-- The roles a cycle and the idle setup act on (43_sequencer.md R183, R186, R190). -/
theorem idleSetupOps_role {c : Config} {op : PinOp} {r : Role} (h : op ∈ idleSetupOps c) (hr : op.role = some r) :
    r ∈ dataRoles ++ [.we, .oe] ++ modeLines c := by
  simp only [idleSetupOps, List.mem_append, List.mem_cons, List.not_mem_nil, or_false] at h
  rw [List.mem_append, List.mem_append]
  rcases h with (((h | h) | h) | h) | rfl | rfl
  · exact .inl (.inl (busdirOps_role_mem h hr))
  · rw [setUp_role h] at hr; cases hr; exact .inl (.inr (by simp))
  · rw [setUp_role h] at hr; cases hr; exact .inl (.inr (by simp))
  · obtain ⟨y, hy, h⟩ := List.mem_flatMap.mp h
    rw [setUp_role h] at hr; cases hr; exact .inr hy
  · cases hr
  · cases hr

theorem readLead_role {c : Config} {op : PinOp} {r : Role} (h : op ∈ readLead c) (hr : op.role = some r) :
    r ∈ dataRoles ++ [.we, .oe] ++ modeLines c := by
  simp only [readLead, List.mem_append, List.mem_cons, List.not_mem_nil, or_false] at h
  rw [List.mem_append, List.mem_append]
  rcases h with h | rfl | rfl | rfl | rfl
  · exact .inl (.inl (busdirOps_role_mem h hr))
  all_goals (cases hr <;> exact .inl (.inr (by simp)))

theorem readOpsBefore_role {c : Config} {a : Addr} {op : PinOp} {r : Role} (h : op ∈ readOpsBefore c a)
    (hr : op.role = some r) : r ∈ dataRoles ++ [.we, .oe] ++ modeLines c := by
  simp only [readOpsBefore, List.mem_append] at h
  rcases h with (h | h) | h
  · exact readLead_role h hr
  · exact List.mem_append_right _ (setaddrOps_role h hr)
  · simp only [readOpen, List.mem_cons, List.not_mem_nil, or_false] at h
    rcases h with rfl | rfl | rfl | rfl <;> cases hr
    simp

theorem readClose_role {c : Config} {op : PinOp} {r : Role} (h : op ∈ readClose c) (hr : op.role = some r) :
    r = .oe := by
  simp only [readClose, List.mem_cons, List.not_mem_nil, or_false] at h
  rcases h with rfl | rfl | rfl <;> cases hr
  rfl

theorem writeOps_role {c : Config} {a : Addr} {v : Byte} {op : PinOp} {r : Role} (h : op ∈ writeOps c a v)
    (hr : op.role = some r) : r ∈ dataRoles ++ [.we, .oe] ++ modeLines c := by
  simp only [writeOps, writeLead, writePulse, List.mem_append, List.mem_cons, List.not_mem_nil, or_false] at h
  rcases h with ((((h | h) | h) | h) | h) | h
  · rcases h with rfl | rfl | rfl <;> cases hr <;> simp
  · exact List.mem_append_left _ (List.mem_append_left _ (busdirOps_role_mem h hr))
  · subst h; cases hr
  · exact List.mem_append_right _ (setaddrOps_role h hr)
  · exact List.mem_append_left _ (List.mem_append_left _ (busDriveOps_role_mem h hr))
  · rcases h with rfl | rfl | rfl | rfl | rfl | rfl | rfl <;> cases hr <;> simp

/-! ### The state after a read cycle -/

@[simp] theorem State.sampledBus_pins (s : State) : s.sampledBus.pins = s.pins := by rw [State.sampledBus]
@[simp] theorem State.sampledBus_cfg (s : State) : s.sampledBus.cfg = s.cfg := by rw [State.sampledBus]

@[simp] theorem State.afterRead_cfg (s : State) (a : Addr) : (s.afterRead a).cfg = s.cfg := rfl
@[simp] theorem State.afterRead_id (s : State) (a : Addr) : (s.afterRead a).id = s.id := rfl
@[simp] theorem State.afterRead_cur (s : State) (a : Addr) : (s.afterRead a).cur = s.cur := rfl
@[simp] theorem State.afterRead_d (s : State) (a : Addr) : (s.afterRead a).d = s.readByte a := rfl
@[simp] theorem State.afterRead_fault (s : State) (a : Addr) : (s.afterRead a).fault = s.fault := rfl
@[simp] theorem State.afterRead_fcode (s : State) (a : Addr) : (s.afterRead a).fcode = s.fcode := rfl
@[simp] theorem State.afterRead_finfo (s : State) (a : Addr) : (s.afterRead a).finfo = s.finfo := rfl
@[simp] theorem State.afterRead_phase (s : State) (a : Addr) : (s.afterRead a).phase = s.phase := rfl
@[simp] theorem State.afterRead_killIn (s : State) (a : Addr) : (s.afterRead a).killIn = s.killIn := rfl
@[simp] theorem State.afterRead_host (s : State) (a : Addr) : (s.afterRead a).host = s.host := rfl
@[simp] theorem State.afterRead_sinkAnswers (s : State) (a : Addr) : (s.afterRead a).sinkAnswers = s.sinkAnswers := rfl
@[simp] theorem State.afterRead_sinkDraws (s : State) (a : Addr) : (s.afterRead a).sinkDraws = s.sinkDraws := rfl
@[simp] theorem State.afterRead_responses (s : State) (a : Addr) : (s.afterRead a).responses = s.responses := rfl

theorem State.afterRead_pins (s : State) (a : Addr) :
    (s.afterRead a).pins = pinsAfter (readOpsBefore s.cfg a ++ readClose s.cfg) s.pins := by
  rw [pinsAfter_append, State.afterRead, State.ran_pins, State.sampledBus_pins, State.ran_pins]

/-- After a read cycle the sequencer is idle (43_sequencer.md R186). -/
@[simp] theorem State.afterRead_fsm (s : State) (a : Addr) : (s.afterRead a).fsm = .idle := by
  rw [State.afterRead, State.ran_fsm, readClose, fsmAfter]
  simp only [List.foldl_cons, List.foldl_nil, PinOp.onFsm]

theorem readOps_other {c : Config} {a : Addr} {r : Role} (p : Pins)
    (h : r ∉ dataRoles ++ [.we, .oe] ++ modeLines c) :
    pinAt (pinsAfter (readOpsBefore c a ++ readClose c) p) r = pinAt p r := by
  refine pinsAfter_other (fun op hop hr => h ?_) p
  rcases List.mem_append.mp hop with hop | hop
  · exact readOpsBefore_role hop hr
  · rw [readClose_role hop hr]; simp

/-- The directions after a read cycle: the bus an input, every other role as it was (43_sequencer.md R186). -/
theorem readOps_dir (c : Config) (a : Addr) (p : Pins) {r : Role} (h : ∀ i, r ≠ .dl i) :
    (pinAt (pinsAfter (readOpsBefore c a ++ readClose c) p) r).dir = (pinAt p r).dir := by
  rw [pinsAfter_append, pinsAfter_dir (by simp [readClose, PinOp.keepsDirections]), readOpsBefore, pinsAfter_append,
    pinsAfter_dir (by simp [readOpen, PinOp.keepsDirections]), pinsAfter_append, pinsAfter_setaddr_dir,
    readLead_dir c p h]

theorem readOps_bus (c : Config) (a : Addr) (p : Pins) (i : Fin 8) :
    pinAt (pinsAfter (readOpsBefore c a ++ readClose c) p) (.dl i) = { dir := some .input, out := (pinAt p (.dl i)).out } := by
  have hs : ∀ op ∈ setaddrOps c a ++ readOpen c ++ readClose c, op.role ≠ some (.dl i) := by
    intro op hop hr
    simp only [List.mem_append, readOpen, readClose, List.mem_cons, List.not_mem_nil, or_false] at hop
    rcases hop with (hop | hop) | hop
    · exact ne_dl_of_modeLines (setaddrOps_role hop hr) i rfl
    · rcases hop with rfl | rfl | rfl | rfl <;> cases hr
    · rcases hop with rfl | rfl | rfl <;> cases hr
  have hl : ∀ op ∈ [PinOp.drive .we true, .drive .oe true, .delay (tSettle c), .enter .addressSettling],
      op.role ≠ some (.dl i) := by simp [PinOp.role]
  have hd := pinAt_setDirPins_dir p (.dl i) (.dl i) .input
  have ho := pinAt_setDirPins_out p (.dl i) (.dl i) .input
  rw [readOpsBefore, readLead, List.append_assoc, List.append_assoc, List.append_assoc, pinsAfter_append, pinsAfter_append,
    ← List.append_assoc (setaddrOps c a), pinsAfter_other hs, pinsAfter_other hl, pinsAfter_busdir]
  cases h : pinAt (setDirPins p (.dl i) .input) (.dl i)
  rw [h] at hd ho
  simp_all

/-- WE# and OE# are high after a read cycle (43_sequencer.md R186). -/
theorem readOps_controls (c : Config) (a : Addr) (p : Pins) :
    (pinAt (pinsAfter (readOpsBefore c a ++ readClose c) p) .we).out = some true
      ∧ (pinAt (pinsAfter (readOpsBefore c a ++ readClose c) p) .oe).out = some true := by
  have hn : ∀ r, isAddressLine r = false → lastLevel r (setaddrOps c a) = none := fun r hr =>
    lastLevel_none fun op hop e => by
      rw [modeLines_isAddressLine (setaddrOps_role hop e)] at hr; cases hr
  have hrest : ∀ op ∈ [PinOp.drive .we true, .drive .oe true, .delay (tSettle c), .enter .addressSettling]
      ++ setaddrOps c a ++ readOpen c ++ readClose c, op.keepsDirections = true := by
    intro op hop
    simp only [List.mem_append] at hop
    rcases hop with ((hop | hop) | hop) | hop
    · revert op; simp [PinOp.keepsDirections]
    · exact setaddrOps_keepsDirections c a op hop
    · revert op; simp [readOpen, PinOp.keepsDirections]
    · revert op; simp [readClose, PinOp.keepsDirections]
  have e : readOpsBefore c a ++ readClose c = busdirOps .input
      ++ ([PinOp.drive .we true, .drive .oe true, .delay (tSettle c), .enter .addressSettling]
      ++ setaddrOps c a ++ readOpen c ++ readClose c) := by
    simp only [readOpsBefore, readLead, List.append_assoc]
  rw [e, pinsAfter_append, pinsAfter_out hrest, pinsAfter_out hrest]
  simp only [lastLevel_append, hn .we rfl, hn .oe rfl]
  exact ⟨by simp [lastLevel, readOpen, readClose], by simp [lastLevel, readOpen, readClose]⟩

theorem lastLevel_readOps_line {c : Config} {a : Addr} {r : Role} {l : Level} (hr : isAddressLine r = true)
    (h : lastLevel r (setaddrOps c a) = some l) (p : Pins) :
    (pinAt (pinsAfter (readOpsBefore c a ++ readClose c) p) r).out = some l := by
  have hrest : ∀ op ∈ readOpen c ++ readClose c, op.role ≠ some r := by
    rintro op hop e
    simp only [List.mem_append, readOpen, readClose, List.mem_cons, List.not_mem_nil, or_false] at hop
    rcases hop with hop | hop
    · rcases hop with rfl | rfl | rfl | rfl <;> (cases e; try cases hr)
    · rcases hop with rfl | rfl | rfl <;> (cases e; try cases hr)
  rw [readOpsBefore, List.append_assoc, pinsAfter_append, pinsAfter_other hrest, pinsAfter_append,
    pinsAfter_out (setaddrOps_keepsDirections c a), h]
  rfl

/-- The pins after a read cycle (43_sequencer.md R186). -/
theorem afterRead_ends {s : State} (a : Addr) (hn : 1 ≤ addrBits s.cfg) : AfterRead s (s.afterRead a) a := by
  refine ⟨fun i => ?_, ?_, addressLeft_of_last (fun r l h => ?_) hn, s.afterRead_fsm a⟩
  · unfold State.dir State.out
    rw [State.afterRead_pins, readOps_bus]
    exact ⟨rfl, rfl⟩
  · unfold State.ControlsHigh State.out
    rw [State.afterRead_pins]
    exact readOps_controls _ _ _
  · unfold State.out
    rw [State.afterRead_pins]
    refine lastLevel_readOps_line ?_ h _
    by_contra hr
    rw [lastLevel_none] at h
    · cases h
    · intro op hop e
      exact hr (modeLines_isAddressLine (setaddrOps_role hop e))

/-- What a read cycle leaves alone (43_sequencer.md R186). -/
theorem afterRead_keeps (s : State) (a : Addr) : CycleKeeps s (s.afterRead a) := by
  have e : s.env.Same (s.afterRead a).env :=
    ((envAfter_same s.cfg (readOpsBefore s.cfg a) s.pins s.env).trans (Env.afterLevels_same _ _ _)).trans
      (envAfter_same _ _ _ _)
  refine ⟨⟨rfl, rfl, e.wiring, e.weIdleHigh, fun x => by rw [e.flash], e.flashId, fun r hr => ?_⟩, rfl, rfl,
    ⟨rfl, rfl, rfl⟩, ⟨rfl, rfl⟩, fun r hr => ?_⟩
  · unfold State.dir State.out
    rw [State.afterRead_pins, readOps_other _ hr]
    exact ⟨rfl, rfl⟩
  · unfold State.dir
    rw [State.afterRead_pins]
    exact readOps_dir _ _ _ fun i e => hr (e ▸ mem_dataRoles i)

/-! ### The state after a write cycle -/

theorem writeOps_dir (c : Config) (a : Addr) (v : Byte) (p : Pins) (r : Role) :
    (pinAt (pinsAfter (writeOps c a v) p) r).dir = (pinAt (pinsAfter (writeLead c) p) r).dir := by
  rw [writeOps, pinsAfter_append, pinsAfter_dir (by simp [writePulse, PinOp.keepsDirections]), pinsAfter_append,
    pinsAfter_dir (busDriveOps_keepsDirections v), pinsAfter_append, pinsAfter_setaddr_dir]

theorem writeOps_bus (c : Config) (a : Addr) (v : Byte) (p : Pins) (i : Fin 8) :
    pinAt (pinsAfter (writeOps c a v) p) (.dl i) = { dir := some .output, out := some (v.getLsbD i.val) } := by
  have hd : (pinAt (pinsAfter (writeOps c a v) p) (.dl i)).dir = some .output := by rw [writeOps_dir, writeLead_bus]
  have hp : ∀ op ∈ writePulse c, op.role ≠ some (.dl i) := by simp [writePulse, PinOp.role]
  have ho : (pinAt (pinsAfter (writeOps c a v) p) (.dl i)).out = some (v.getLsbD i.val) := by
    rw [writeOps, pinsAfter_append, pinsAfter_other hp, pinsAfter_append, pinsAfter_out (busDriveOps_keepsDirections v),
      lastLevel_busDrive]
    rfl
  cases h : pinAt (pinsAfter (writeOps c a v) p) (.dl i)
  simp_all

theorem writeOps_controls (c : Config) (a : Addr) (v : Byte) (p : Pins) :
    (pinAt (pinsAfter (writeOps c a v) p) .we).out = some true
      ∧ (pinAt (pinsAfter (writeOps c a v) p) .oe).out = some true := by
  have hk : ∀ op ∈ setaddrOps c a ++ busDriveOps v ++ writePulse c, op.keepsDirections = true := by
    intro op hop
    simp only [List.mem_append] at hop
    rcases hop with (hop | hop) | hop
    · exact setaddrOps_keepsDirections c a op hop
    · exact busDriveOps_keepsDirections v op hop
    · revert op; simp [writePulse, PinOp.keepsDirections]
  have ha : ∀ r, isAddressLine r = false → lastLevel r (setaddrOps c a) = none := fun r hr =>
    lastLevel_none fun op hop e => by
      rw [modeLines_isAddressLine (setaddrOps_role hop e)] at hr; cases hr
  have hb : ∀ r, r ∉ dataRoles → lastLevel r (busDriveOps v) = none := fun r hr =>
    lastLevel_none fun op hop e => hr (busDriveOps_role_mem hop e)
  have hd : ∀ r, r ∉ dataRoles → ∀ op ∈ busdirOps .output ++ [PinOp.enter .addressSettling], op.role ≠ some r := by
    intro r hr op hop e
    rcases List.mem_append.mp hop with hop | hop
    · exact hr (busdirOps_role_mem hop e)
    · simp only [List.mem_cons, List.not_mem_nil, or_false] at hop
      subst hop; cases e
  have e : writeOps c a v = writeLead c ++ (setaddrOps c a ++ busDriveOps v ++ writePulse c) := by
    simp only [writeOps, List.append_assoc]
  rw [e, pinsAfter_append, pinsAfter_out hk, pinsAfter_out hk]
  simp only [lastLevel_append, ha .we rfl, ha .oe rfl, hb .we (by decide), hb .oe (by decide)]
  constructor
  · simp [lastLevel, writePulse]
  · rw [writeLead, List.append_assoc, pinsAfter_append, pinsAfter_other (hd .oe (by decide)),
      pinsAfter_out (by simp [PinOp.keepsDirections])]
    simp [lastLevel, writePulse]

theorem lastLevel_writeOps_line {c : Config} {a : Addr} {v : Byte} {r : Role} {l : Level} (hr : isAddressLine r = true)
    (h : lastLevel r (setaddrOps c a) = some l) (p : Pins) :
    (pinAt (pinsAfter (writeOps c a v) p) r).out = some l := by
  have hrest : ∀ op ∈ busDriveOps v ++ writePulse c, op.role ≠ some r := by
    rintro op hop e
    rcases List.mem_append.mp hop with hop | hop
    · obtain ⟨i, hi⟩ := busDriveOps_role hop
      rw [hi] at e; cases e; cases hr
    · simp only [writePulse, List.mem_cons, List.not_mem_nil, or_false] at hop
      rcases hop with rfl | rfl | rfl | rfl | rfl | rfl | rfl <;> cases e <;> cases hr
  rw [writeOps, List.append_assoc, pinsAfter_append, pinsAfter_other hrest, pinsAfter_append,
    pinsAfter_out (setaddrOps_keepsDirections c a), h]
  rfl

theorem fsmAfter_writeOps (c : Config) (a : Addr) (v : Byte) (f : Fsm) : fsmAfter (writeOps c a v) f = .idle := by
  rw [writeOps, fsmAfter, List.foldl_append, writePulse]
  simp only [List.foldl_cons, List.foldl_nil, PinOp.onFsm]

/-- The pins after a write cycle (43_sequencer.md R190). -/
theorem afterWrite_ends {s : State} (a : Addr) (v : Byte) (hn : 1 ≤ addrBits s.cfg) :
    AfterWrite (s.ran (writeOps s.cfg a v)) a v := by
  refine ⟨fun i => ?_, ?_, addressLeft_of_last (fun r l h => ?_) hn, fsmAfter_writeOps _ _ _ _⟩
  · unfold State.dir State.out
    rw [State.ran_pins, writeOps_bus]
    exact ⟨rfl, rfl⟩
  · simp only [State.ControlsHigh, State.out, State.ran_pins]
    exact writeOps_controls _ _ _ _
  · rw [State.ran_cfg] at h
    simp only [State.out, State.ran_pins]
    refine lastLevel_writeOps_line ?_ h _
    by_contra hr
    rw [lastLevel_none] at h
    · cases h
    · intro op hop e
      exact hr (modeLines_isAddressLine (setaddrOps_role hop e))

/-- What a write cycle leaves alone (43_sequencer.md R190). -/
theorem afterWrite_keeps (s : State) (a : Addr) (v : Byte) : CycleKeeps s (s.ran (writeOps s.cfg a v)) := by
  have e := envAfter_same s.cfg (writeOps s.cfg a v) s.pins s.env
  refine ⟨⟨rfl, rfl, e.wiring, e.weIdleHigh, fun x => ?_, e.flashId, fun r hr => ?_⟩, rfl, rfl, ⟨rfl, rfl, rfl⟩,
    ⟨rfl, rfl⟩, fun r hr => ?_⟩
  · rw [State.ran_env, e.flash]
  · exact s.ran_other fun op hop e => hr (writeOps_role hop e)
  · unfold State.dir
    rw [State.ran_pins, writeOps_dir]
    exact writeLead_dir _ _ fun i e => hr (e ▸ mem_dataRoles i)

/-! ### The pins stay set up -/

theorem State.SetUp.of_keeps {s t : State} (h : s.SetUp) (hc : t.cfg = s.cfg)
    (hd : ∀ r, r ∉ dataRoles → t.dir r = s.dir r) : t.SetUp := by
  intro r hr
  rw [hc] at hr ⊢
  refine ⟨(h r hr).1, (hd r ?_).trans (h r hr).2⟩
  intro hx
  obtain ⟨i, -, rfl⟩ := List.mem_map.mp hx
  simp only [List.mem_cons, reduceCtorEq, false_or] at hr
  exact ne_dl_of_modeLines hr i rfl

theorem State.SetUp.afterRead {s : State} (h : s.SetUp) (a : Addr) : (s.afterRead a).SetUp :=
  h.of_keeps rfl (afterRead_keeps s a).2.2.2.2.2

theorem State.SetUp.afterWrite {s : State} (h : s.SetUp) (a : Addr) (v : Byte) :
    (s.ran (writeOps s.cfg a v)).SetUp := h.of_keeps rfl (afterWrite_keeps s a v).2.2.2.2.2

/-! ### A response changes none of this -/

theorem Keeps.respond {s t : State} {rs : List Role} (h : Keeps s t rs) (r : Reply) : Keeps s (t.respond r) rs := h

theorem KeepsFault.respond {s t : State} (h : KeepsFault s t) (r : Reply) : KeepsFault s (t.respond r) := h

theorem KeepsSink.respond {s t : State} (h : KeepsSink s t) (r : Reply) : KeepsSink s (t.respond r) := h

theorem CycleKeeps.respond {s t : State} (h : CycleKeeps s t) (r : Reply) : CycleKeeps s (t.respond r) := h

theorem AddressLeft.respond {t : State} {a : Addr} (h : AddressLeft t a) (r : Reply) : AddressLeft (t.respond r) a := h

theorem AfterRead.respond {s t : State} {a : Addr} (h : AfterRead s t a) (r : Reply) : AfterRead s (t.respond r) a := h

theorem AfterWrite.respond {t : State} {a : Addr} {v : Byte} (h : AfterWrite t a v) (r : Reply) :
    AfterWrite (t.respond r) a v := h

theorem State.SetUp.respond {s : State} (h : s.SetUp) (r : Reply) : (s.respond r).SetUp := h

theorem State.ControlsHigh.respond {s : State} (h : s.ControlsHigh) (r : Reply) : (s.respond r).ControlsHigh := h

/-! ### The commands -/

theorem exec_idlesetup {s : State} (hs : s.Undisturbed) (hv : validConfig s.cfg = true) :
    exec .idlesetup s = .next ((s.ran (idleSetupOps s.cfg)).respond (.ok .empty)) :=
  exec_finish (x := idleSetup) rfl hs (idleSetup_ready hs.2 (valid_required hv)) hs.2

theorem exec_rdcyc {s : State} {a : Addr} (hs : s.Undisturbed) (hv : validConfig s.cfg = true) (hsu : s.SetUp)
    (ha : a.toNat < 2 ^ s.cfg.addrBits.toNat) :
    exec (.rdcyc a) s = .next ((s.afterRead a).respond (.ok (.byte (s.readByte a)))) := by
  refine exec_done hs ?_ hs.2
  change readCycleCommand a s = _
  rw [readCycleCommand,
    act_bind_ok (readCycle_ready hs.2 (outOfRange_false ha) (valid_mode hv) (valid_data hv) hsu), act_pure]

theorem exec_wrcyc {s : State} {a : Addr} (v : Byte) (hs : s.Undisturbed) (hv : validConfig s.cfg = true)
    (hsu : s.SetUp) (ha : a.toNat < 2 ^ s.cfg.addrBits.toNat) :
    exec (.wrcyc a v) s = .next ((s.ran (writeOps s.cfg a v)).respond (.ok .empty)) :=
  exec_finish (x := writeCycle a v) rfl hs
    (writeCycle_ready v hs.2 (outOfRange_false ha) (valid_mode hv) (valid_data hv) hsu) hs.2

end Sys2Proof.Machine
end

