-- ==== Sys2Proof/Laws/Flash.lean ====
section
/-! SUPPORT. The attached chip behind the cycles: what an event does to the address path and to the chip. -/

namespace Sys2Proof.Machine

/-! ### What the chip's reactions leave alone -/

/-- The address path, the latched address and the wiring are left alone. -/
structure Env.SamePath (e f : Env) : Prop where
  xaddr : f.xaddr = e.xaddr
  sh : f.sh = e.sh
  q : f.q = e.q
  latched : f.latched = e.latched
  lastDriven : f.lastDriven = e.lastDriven
  wiring : f.wiring = e.wiring

theorem Env.SamePath.rfl' (e : Env) : e.SamePath e := ⟨rfl, rfl, rfl, rfl, rfl, rfl⟩

theorem Env.SamePath.trans {e f g : Env} (h : e.SamePath f) (k : f.SamePath g) : e.SamePath g :=
  ⟨k.xaddr.trans h.xaddr, k.sh.trans h.sh, k.q.trans h.q, k.latched.trans h.latched, k.lastDriven.trans h.lastDriven,
    k.wiring.trans h.wiring⟩

theorem Env.draw_samePath (e : Env) : e.SamePath e.draw.2 := by
  unfold Env.draw; split <;> exact ⟨rfl, rfl, rfl, rfl, rfl, rfl⟩

theorem Env.drawMany_samePath (n : Nat) (e : Env) : e.SamePath (e.drawMany n).2 := by
  induction n generalizing e with
  | zero => exact .rfl' e
  | succ n ih => exact e.draw_samePath.trans (ih _)

theorem Env.drawByte_samePath (e : Env) : e.SamePath e.drawByte.2 := e.drawMany_samePath 8

theorem Env.memRead_samePath (e : Env) (a : Addr) : e.SamePath (e.memRead a).2 := by
  unfold Env.memRead
  split
  · exact .rfl' e
  · split
    · exact .rfl' e
    · split
      · exact .rfl' e
      · split
        · exact .rfl' e
        · split
          · exact .rfl' e
          · exact e.drawByte_samePath
  · exact e.drawByte_samePath.trans ⟨rfl, rfl, rfl, rfl, rfl, rfl⟩
  · exact e.drawByte_samePath.trans ⟨rfl, rfl, rfl, rfl, rfl, rfl⟩
  · exact e.drawByte_samePath

theorem Env.chooseByte_samePath (p : Pins) (e : Env) : e.SamePath (e.chooseByte p) := by
  unfold Env.chooseByte
  split
  · exact ⟨rfl, rfl, rfl, rfl, rfl, rfl⟩
  next a _ =>
    split
    · exact .rfl' e
    · split
      · exact (e.memRead_samePath a).trans ⟨rfl, rfl, rfl, rfl, rfl, rfl⟩
      · exact ⟨rfl, rfl, rfl, rfl, rfl, rfl⟩

theorem Env.strayRead_samePath (p : Pins) (e : Env) : e.SamePath (e.strayRead p) := by
  rcases e.strayRead_cases p with h | ⟨-, -, -, h | h⟩ <;> rw [h]
  · exact .rfl' e
  · exact e.draw_samePath
  · exact e.draw_samePath.trans ⟨rfl, rfl, rfl, rfl, rfl, rfl⟩

/-- With OE# driven high there is no stray read (20_memory.md R76). -/
theorem Env.strayRead_high {p : Pins} (e : Env) (h : drives p .oe true = true) : e.strayRead p = e := by
  simp [Env.strayRead, mayRead, h]

/-- A chip that holds its byte reads nothing else. -/
theorem Env.strayRead_held {p : Pins} {e : Env} (h : e.held ≠ none) : e.strayRead p = e := by
  rcases e.strayRead_cases p with h' | ⟨-, h', -⟩
  · exact h'
  · exact absurd h' h

/-- The chip's reaction to an event changes no address path (20_memory.md R76). -/
theorem Env.react_samePath (p : Pins) (e : Env) : e.SamePath (e.react p) := by
  unfold Env.react
  split
  · exact ((e.chooseByte_samePath p).trans (Env.strayRead_samePath p _)).trans ⟨rfl, rfl, rfl, rfl, rfl, rfl⟩
  · exact .rfl' e

theorem Env.present_xaddr (e : Env) (p : Pins) (a : Option Addr) :
    (e.present p a).xaddr = if e.wired then a else none := (Env.react_samePath p _).xaddr

theorem Env.pinIn_samePath (p : Pins) (r : Role) (e : Env) : e.SamePath (e.pinIn p r).2 := by
  unfold Env.pinIn
  split
  · split
    · exact .rfl' e
    · exact e.draw_samePath
  · split
    · exact .rfl' e
    · exact e.draw_samePath
  · split
    · exact .rfl' e
    · exact e.draw_samePath
  · exact e.draw_samePath

theorem Env.afterLevels_samePath (p : Pins) (is : List (Fin 8)) (e : Env) : e.SamePath (Env.afterLevels p is e) := by
  induction is generalizing e with
  | nil => exact .rfl' e
  | cons i is ih => exact (e.pinIn_samePath p _).trans (ih _)

/-! ### The chip while OE# is high -/

/-- The chip's own state is left alone. -/
structure Env.SameChip (e f : Env) : Prop where
  fmode : f.fmode = e.fmode
  contention : f.contention = e.contention
  latched : f.latched = e.latched

theorem Env.SameChip.rfl' (e : Env) : e.SameChip e := ⟨rfl, rfl, rfl⟩

theorem Env.SameChip.trans {e f g : Env} (h : e.SameChip f) (k : f.SameChip g) : e.SameChip g :=
  ⟨k.fmode.trans h.fmode, k.contention.trans h.contention, k.latched.trans h.latched⟩

theorem presented_drives {p : Pins} {r : Role} {l : Level} (h : drives p r l = true) : presented p r = some l := by
  simpa [drives] using h

theorem contending_of_high {p : Pins} (h : drives p .oe true = true) : contending p = false := by
  have := presented_drives h
  simp [contending, drives, this]

theorem readAddress_of_high {p : Pins} (e : Env) (h : drives p .oe true = true) : readAddress p e = none := by
  have := presented_drives h
  simp [readAddress, drives, this]

/-- With OE# high the chip drives nothing (20_memory.md R76). -/
theorem Env.react_high {p : Pins} (e : Env) (h : drives p .oe true = true) : e.SameChip (e.react p) := by
  unfold Env.react Env.chooseByte
  simp only [readAddress_of_high e h, Env.strayRead_high _ h, contending_of_high h]
  split <;> exact ⟨rfl, by simp, rfl⟩

theorem Env.chainDrive_sameChip (c : Config) (p : Pins) (r : Role) (l : Level) (e : Env) :
    e.SameChip (e.chainDrive c p r l) := by
  unfold Env.chainDrive
  split
  · exact ⟨rfl, rfl, rfl⟩
  · exact ⟨rfl, rfl, rfl⟩
  · split <;> exact ⟨rfl, rfl, rfl⟩
  · split <;> exact ⟨rfl, rfl, rfl⟩
  · exact .rfl' e

theorem Env.pathDrive_sameChip (c : Config) (p : Pins) (r : Role) (l : Level) (e : Env) :
    e.SameChip (e.pathDrive c p r l) := by
  unfold Env.pathDrive
  split
  · refine (e.chainDrive_sameChip c p r l).trans ?_
    unfold Env.contractDrive
    split <;> exact ⟨rfl, rfl, rfl⟩
  · exact .rfl' e

theorem Env.pathSetDir_sameChip (c : Config) (p : Pins) (r : Role) (d : Direction) (e : Env) :
    e.SameChip (e.pathSetDir c p r d) := by
  unfold Env.pathSetDir
  split
  · have h1 : e.SameChip (e.chainSetDir c p r d) := by
      unfold Env.chainSetDir
      split
      · split
        · exact ⟨rfl, rfl, rfl⟩
        · split <;> exact ⟨rfl, rfl, rfl⟩
        · exact .rfl' e
      · exact .rfl' e
    refine h1.trans ?_
    unfold Env.contractSetDir
    split <;> exact ⟨rfl, rfl, rfl⟩
  · exact .rfl' e

/-- A `SetDir` of any line but WE# leaves the chip as it is. -/
theorem Env.lineSetDir_sameChip {r : Role} (p : Pins) (d : Direction) (e : Env) (h : r ≠ .we) :
    e.SameChip (e.lineSetDir p r d) := by
  unfold Env.lineSetDir
  split
  · split
    · exact ⟨rfl, rfl, rfl⟩
    · exact .rfl' e
  · exact absurd rfl h
  · exact .rfl' e

theorem Env.enterShift_sameChip (b : Bool) (e : Env) : e.SameChip (e.enterShift b) := by
  cases b <;> exact ⟨rfl, rfl, rfl⟩

/-- A drive of a line other than WE#, or of WE# high while it is high, is no write (20_memory.md R77). -/
theorem Env.lineDrive_sameChip {p : Pins} {r : Role} {l : Level} (e : Env) (hw : drives p .we true = true)
    (h : r = .we → l = true) : e.SameChip (e.lineDrive p r l) := by
  unfold Env.lineDrive
  split
  · exact ⟨rfl, rfl, rfl⟩
  · split
    · have hp : (pinAt p .we).out = some true := by
        have := presented_drives hw
        simp only [presented] at this
        split at this
        · exact this
        · cases this
      have hl := h rfl
      subst hl
      simp only [Env.writeEnableDrive, hp, Option.getD_some, ite_self]
      exact .rfl' e
    · exact .rfl' e
  · exact .rfl' e

/-- A step that leaves OE# and WE# where they are, or drives them high. -/
def PinOp.rests : PinOp → Bool
  | .setDir r _ => decide (r ≠ .oe) && decide (r ≠ .we)
  | .drive r l => l || (decide (r ≠ .oe) && decide (r ≠ .we))
  | .shift r l => l || (decide (r ≠ .oe) && decide (r ≠ .we))
  | .delay _ => true
  | .enter _ => true
  | .address _ => true

theorem drives_drivePins {p : Pins} {x r : Role} {l : Level} (h : drives p x true = true) (hr : r = x → l = true) :
    drives (drivePins p r l) x true = true := by
  have := presented_drives h
  simp only [presented] at this
  split at this
  next hd =>
    simp only [drives, presented, pinAt_drivePins_dir, hd, if_true, pinAt_drivePins_out, decide_eq_true_eq]
    split
    next e => rw [hr e.symm]
    next => exact this
  next => cases this

theorem drives_setDirPins {p : Pins} {x r : Role} {d : Direction} (h : drives p x true = true) (hr : r ≠ x) :
    drives (setDirPins p r d) x true = true := by
  have := presented_drives h
  simp only [presented] at this
  simp only [drives, presented, pinAt_setDirPins_dir, pinAt_setDirPins_out, Ne.symm hr, if_false, false_and]
  simpa using this

/-- Such a step keeps OE# and WE# high and the chip as it is (20_memory.md R76, R77). -/
theorem PinOp.onEnv_rests {c : Config} {p : Pins} {e : Env} {op : PinOp} (h : op.rests = true)
    (ho : drives p .oe true = true) (hw : drives p .we true = true) :
    drives (op.onPins p) .oe true = true ∧ drives (op.onPins p) .we true = true ∧ e.SameChip (op.onEnv c p e) := by
  have hdrive : ∀ r l b, (l || (decide (r ≠ Role.oe) && decide (r ≠ Role.we))) = true →
      drives (drivePins p r l) .oe true = true ∧ drives (drivePins p r l) .we true = true
        ∧ e.SameChip (e.onDrive c p r l b) := by
    intro r l b hr
    have h1 : r = .oe → l = true := fun e => by subst e; simpa using hr
    have h2 : r = .we → l = true := fun e => by subst e; simpa using hr
    have ho' := drives_drivePins (r := r) (l := l) ho h1
    refine ⟨ho', drives_drivePins hw h2, ?_⟩
    unfold Env.onDrive
    exact (((e.pathDrive_sameChip c p r l).trans (Env.enterShift_sameChip b _)).trans
      (Env.lineDrive_sameChip _ hw h2)).trans (Env.react_high _ ho')
  cases op with
  | setDir r d =>
    simp only [PinOp.rests, Bool.and_eq_true, decide_eq_true_eq] at h
    have ho' := drives_setDirPins (d := d) ho h.1
    refine ⟨ho', drives_setDirPins hw h.2, ?_⟩
    simp only [PinOp.onEnv, Env.onSetDir]
    exact ((e.pathSetDir_sameChip c p r d).trans (Env.lineSetDir_sameChip p d _ h.2)).trans (Env.react_high _ ho')
  | drive r l => exact hdrive r l false h
  | shift r l => exact hdrive r l true h
  | delay us => exact ⟨ho, hw, .rfl' e⟩
  | enter f => exact ⟨ho, hw, .rfl' e⟩
  | address a =>
    refine ⟨ho, hw, ?_⟩
    simp only [PinOp.onEnv, Env.present]
    exact Env.SameChip.trans (f := { e with xaddr := if e.wired then a else none }) ⟨rfl, rfl, rfl⟩
      (Env.react_high _ ho)

theorem envAfter_rests {c : Config} {ops : List PinOp} {p : Pins} {e : Env} (h : ∀ op ∈ ops, op.rests = true)
    (ho : drives p .oe true = true) (hw : drives p .we true = true) :
    drives (pinsAfter ops p) .oe true = true ∧ drives (pinsAfter ops p) .we true = true
      ∧ e.SameChip (envAfter c ops p e) := by
  induction ops generalizing p e with
  | nil => exact ⟨ho, hw, .rfl' e⟩
  | cons op ops ih =>
    obtain ⟨h1, h2, h3⟩ := PinOp.onEnv_rests (c := c) (e := e) (h op List.mem_cons_self) ho hw
    obtain ⟨k1, k2, k3⟩ := ih (e := op.onEnv c p e) (fun o ho => h o (List.mem_cons_of_mem _ ho)) h1 h2
    exact ⟨k1, k2, h3.trans k3⟩

/-! ### `XADDR` -/

/-- A step that touches no address-control line outside `XADDR`'s own steps. -/
def PinOp.offPath : PinOp → Bool
  | .setDir r _ => !isAddressLine r
  | .drive r _ => !isAddressLine r
  | .shift _ _ => false
  | .delay _ => true
  | .enter _ => true
  | .address _ => false

theorem Env.writeEnableDrive_xaddr (p : Pins) (l : Level) (e : Env) : (e.writeEnableDrive p l).xaddr = e.xaddr := by
  simp only [Env.writeEnableDrive]
  split
  · split <;> rfl
  · split <;> rfl
  · rfl
  · rfl

theorem Env.chainDrive_xaddr (c : Config) (p : Pins) (r : Role) (l : Level) (e : Env) :
    (e.chainDrive c p r l).xaddr = e.xaddr := by
  unfold Env.chainDrive
  split
  · rfl
  · rfl
  · split <;> rfl
  · split <;> rfl
  · rfl

theorem Env.chainSetDir_xaddr (c : Config) (p : Pins) (r : Role) (d : Direction) (e : Env) :
    (e.chainSetDir c p r d).xaddr = e.xaddr := by
  unfold Env.chainSetDir
  split
  · split
    · rfl
    · split <;> rfl
    · rfl
  · rfl

theorem Env.lineDrive_xaddr (p : Pins) (r : Role) (l : Level) (e : Env) : (e.lineDrive p r l).xaddr = e.xaddr := by
  unfold Env.lineDrive
  split
  · rfl
  · split
    · exact Env.writeEnableDrive_xaddr ..
    · rfl
  · rfl

theorem Env.lineSetDir_xaddr (p : Pins) (r : Role) (d : Direction) (e : Env) :
    (e.lineSetDir p r d).xaddr = e.xaddr := by
  unfold Env.lineSetDir
  split
  · split <;> rfl
  · split
    · unfold Env.writeEnableLoose; split <;> rfl
    · rfl
  · rfl

/-- Such a step keeps `XADDR` (20_memory.md R74). -/
theorem PinOp.onEnv_xaddr {c : Config} {p : Pins} {e : Env} {op : PinOp} (h : op.offPath = true) :
    (op.onEnv c p e).xaddr = e.xaddr := by
  cases op with
  | setDir r d =>
    simp only [PinOp.offPath, Bool.not_eq_true'] at h
    rw [PinOp.onEnv, Env.onSetDir, (Env.react_samePath _ _).xaddr, Env.lineSetDir_xaddr, Env.pathSetDir]
    split
    · rw [Env.contractSetDir, h]
      exact Env.chainSetDir_xaddr ..
    · rfl
  | drive r l =>
    simp only [PinOp.offPath, Bool.not_eq_true'] at h
    rw [PinOp.onEnv, Env.onDrive, (Env.react_samePath _ _).xaddr, Env.lineDrive_xaddr, Env.enterShift,
      if_neg Bool.false_ne_true, Env.pathDrive]
    split
    · rw [Env.contractDrive, h]
      exact Env.chainDrive_xaddr ..
    · rfl
  | shift r l => cases h
  | delay us => rfl
  | enter f => rfl
  | address a => cases h

theorem envAfter_xaddr {c : Config} {ops : List PinOp} {p : Pins} {e : Env} (h : ∀ op ∈ ops, op.offPath = true) :
    (envAfter c ops p e).xaddr = e.xaddr := by
  induction ops generalizing p e with
  | nil => rfl
  | cons op ops ih =>
    rw [envAfter, ih fun o ho => h o (List.mem_cons_of_mem _ ho), PinOp.onEnv_xaddr (h op List.mem_cons_self)]

theorem envAfter_present (c : Config) (ops : List PinOp) (a : Option Addr) (p : Pins) (e : Env) :
    (envAfter c (ops ++ [.address a]) p e).xaddr = if e.wired then a else none := by
  have hw : (envAfter c ops p e).wired = e.wired := by unfold Env.wired; rw [(envAfter_same c ops p e).wiring]
  rw [envAfter_append]
  simp only [envAfter, PinOp.onEnv, Env.present_xaddr, hw]

/-- At the end of a `SETADDR` the contract says the address (20_memory.md R74). -/
theorem envAfter_setaddr_xaddr (c : Config) (a : Addr) (p : Pins) (e : Env) :
    (envAfter c (setaddrOps c a) p e).xaddr = if e.wired then some a else none := by
  rw [setaddrOps]
  exact envAfter_present ..

/-! ### The read cycle and the chip -/

theorem Env.drawMany_chip (n : Nat) (e : Env) : (e.drawMany n).2.contention = e.contention
    ∧ (e.drawMany n).2.fmode = e.fmode ∧ (e.drawMany n).2.held = e.held := by
  have h1 : ∀ e : Env, e.draw.2.contention = e.contention
      ∧ e.draw.2.fmode = e.fmode ∧ e.draw.2.held = e.held := by
    intro e; unfold Env.draw; split <;> exact ⟨rfl, rfl, rfl⟩
  induction n generalizing e with
  | zero => exact ⟨rfl, rfl, rfl⟩
  | succ n ih =>
    obtain ⟨a, b, c⟩ := ih e.draw.2
    obtain ⟨x, y, z⟩ := h1 e
    exact ⟨a.trans x, b.trans y, c.trans z⟩

theorem Env.memRead_contention (e : Env) (a : Addr) : (e.memRead a).2.contention = e.contention := by
  have h := (e.drawMany_chip 8).1
  unfold Env.memRead
  split
  · rfl
  · split
    · rfl
    · split
      · rfl
      · split
        · rfl
        · split
          · rfl
          · exact h
  · exact h
  · exact h
  · exact h

/-- In its read mode the chip answers its contents and stays there (20_memory.md R68). -/
theorem Env.memRead_array {e : Env} (h : e.fmode = .array) (a : Addr) : e.memRead a = (e.flashByte a, e) := by
  unfold Env.memRead
  simp only [h]

theorem drives_of {p : Pins} {r : Role} {l : Level} (hd : (pinAt p r).dir = some .output)
    (ho : (pinAt p r).out = some l) :
    drives p r l = true := by simp [drives, presented, hd, ho]

theorem rests_of_role {op : PinOp} (h : ∀ r, op.role = some r → r ≠ .oe ∧ r ≠ .we) : op.rests = true := by
  cases op <;> simp_all [PinOp.rests, PinOp.role]

theorem busdirOps_rests (d : Direction) : ∀ op ∈ busdirOps d, op.rests = true := fun op hop =>
  rests_of_role fun r hr => by obtain ⟨i, hi⟩ := busdirOps_role hop; rw [hi] at hr; cases hr; simp

theorem busDriveOps_rests (v : Byte) : ∀ op ∈ busDriveOps v, op.rests = true := fun op hop =>
  rests_of_role fun r hr => by obtain ⟨i, hi⟩ := busDriveOps_role hop; rw [hi] at hr; cases hr; simp

theorem setaddrOps_rests (c : Config) (a : Addr) : ∀ op ∈ setaddrOps c a, op.rests = true := fun op hop =>
  rests_of_role fun r hr => by
    have := setaddrOps_role hop hr
    constructor <;> rintro rfl
    · exact oe_notin_modeLines c this
    · exact we_notin_modeLines c this

theorem busAll_congr {p q : Pins} (h : ∀ i, (pinAt q (.dl i)).dir = (pinAt p (.dl i)).dir) (d : Direction) :
    busAll q d = busAll p d := by simp only [busAll, h]

theorem busDir_congr {p q : Pins} (h : ∀ i, (pinAt q (.dl i)).dir = (pinAt p (.dl i)).dir) : busDir q = busDir p := by
  simp only [busDir, busAll_congr h]

/-- A bus that is an input never contends (20_memory.md R76, 70_reset_and_hazards.md R298). -/
theorem contending_of_input {p : Pins} (h : busDir p = .input) : contending p = false := by
  simp [contending, h, input_of_busDir h]

/-- OE# goes low with WE# high, the bus `In` and the address known: the chip chooses its byte (20_memory.md R76). -/
theorem Env.onDrive_oe_low {c : Config} {p : Pins} {e : Env} {a : Addr} (hw : e.wiring = .flash)
    (hx : e.xaddr = some a) (hwe : drives p .we true = true) (hoe : (pinAt p .oe).dir = some .output)
    (hh : e.held = none) (hb : busDir p = .input) :
    e.onDrive c p .oe false false = { (e.memRead a).2 with held := some (a, (e.memRead a).1) } := by
  have h1 : e.pathDrive c p .oe false = e := by
    simp [Env.pathDrive, Env.chainDrive, Env.contractDrive, isAddressLine]
  have hb' : busDir (drivePins p .oe false) = .input := (busDir_congr fun i => pinAt_drivePins_dir ..).trans hb
  have h3 : drives (drivePins p .oe false) .we true = true := drives_drivePins hwe (by simp)
  have hr : readAddress (drivePins p .oe false) e = some a := by
    have h2 : drives (drivePins p .oe false) .oe false = true :=
      drives_of (by simpa using hoe) (by simp [pinAt_drivePins_out])
    simp [readAddress, h2, hx]
  unfold Env.onDrive
  rw [h1, Env.enterShift, if_neg Bool.false_ne_true, Env.lineDrive]
  have h4 : Env.strayRead (drivePins p .oe false) { (e.memRead a).2 with held := some (a, (e.memRead a).1) } =
      { (e.memRead a).2 with held := some (a, (e.memRead a).1) } := Env.strayRead_held (by simp)
  simp only [Env.react, hw, if_true, Env.chooseByte, hr, hh, h3, Option.map_none, reduceCtorEq, if_false, h4,
    contending_of_input hb', Bool.or_false]
  all_goals simp

theorem envAfter_setaddr_held {c : Config} {a : Addr} {p : Pins} {e : Env} (hw : e.wiring = .flash)
    (ho : drives p .oe true = true) (hwe : drives p .we true = true) :
    (envAfter c (setaddrOps c a) p e).held = none := by
  have key : ∀ ops : List PinOp, (∀ op ∈ ops, op.rests = true) →
      (envAfter c (ops ++ [.address (some a)]) p e).held = none := by
    intro ops h
    have h1 := (envAfter_rests (c := c) (e := e) h ho hwe).1
    have h2 := (envAfter_same c ops p e).wiring.trans hw
    rw [envAfter_append]
    simp only [envAfter, PinOp.onEnv, Env.present, Env.react, h2, if_true, Env.chooseByte, readAddress_of_high _ h1, Env.strayRead_high _ h1]
  rw [setaddrOps]
  refine key _ fun op hop => setaddrOps_rests c a op ?_
  rw [setaddrOps]
  exact List.mem_append_left _ hop

theorem readLead_rests (c : Config) : ∀ op ∈ readLead c, op.rests = true := by
  intro op hop
  rcases List.mem_append.mp hop with hop | hop
  · exact busdirOps_rests _ op hop
  · simp only [List.mem_cons, List.not_mem_nil, or_false] at hop
    rcases hop with rfl | rfl | rfl | rfl <;> rfl

/-- Before a read cycle's samples the chip holds its byte (43_sequencer.md R186, 20_memory.md R68, R76). -/
theorem envAfter_readOpsBefore {s : State} (a : Addr) (hsu : s.SetUp) (hch : s.ControlsHigh)
    (hw : s.env.wiring = .flash) :
    ∃ e : Env, s.env.SameChip e ∧ s.env.Same e ∧ e.xaddr = some a ∧
      envAfter s.cfg (readOpsBefore s.cfg a) s.pins s.env =
        { (e.memRead a).2 with held := some (a, (e.memRead a).1) } := by
  have ho : drives s.pins .oe true = true := drives_of hsu.oe.2 hch.2
  have hwe : drives s.pins .we true = true := drives_of hsu.we.2 hch.1
  obtain ⟨l1, l2, l3⟩ := envAfter_rests (c := s.cfg) (e := s.env) (readLead_rests s.cfg) ho hwe
  obtain ⟨k1, k2, k3⟩ := envAfter_rests (c := s.cfg)
    (e := envAfter s.cfg (readLead s.cfg) s.pins s.env) (setaddrOps_rests s.cfg a) l1 l2
  have hs1 := envAfter_same s.cfg (readLead s.cfg) s.pins s.env
  have hs2 := envAfter_same s.cfg (setaddrOps s.cfg a)
    (pinsAfter (readLead s.cfg) s.pins) (envAfter s.cfg (readLead s.cfg) s.pins s.env)
  have hxa := envAfter_setaddr_xaddr s.cfg a
    (pinsAfter (readLead s.cfg) s.pins) (envAfter s.cfg (readLead s.cfg) s.pins s.env)
  rw [if_pos (by simp [Env.wired, hs1.wiring, hw])] at hxa
  have hheld := envAfter_setaddr_held (c := s.cfg) (a := a) (hs1.wiring.trans hw) l1 l2
  refine ⟨_, l3.trans k3, hs1.trans hs2, hxa, ?_⟩
  rw [readOpsBefore, envAfter_append, envAfter_append, readOpen]
  simp only [envAfter, PinOp.onEnv, PinOp.onPins, pinsAfter_append]
  have hd : ∀ r, (pinAt (pinsAfter (setaddrOps s.cfg a) (pinsAfter (readLead s.cfg) s.pins)) r).dir = (pinAt (pinsAfter (readLead s.cfg) s.pins) r).dir :=
    fun r => pinsAfter_setaddr_dir ..
  refine Env.onDrive_oe_low ((hs1.trans hs2).wiring.trans hw) hxa k2 ?_ hheld ?_
  · rw [hd, readLead_dir _ _ (by simp)]; exact hsu.oe.2
  · exact busDir_input fun i => by rw [hd, readLead_bus]

/-- While WE# is driven high the chip presents the byte it holds (20_memory.md R76). -/
theorem levels_held {p : Pins} {e : Env} {a : Addr} {v : Byte} (hw : e.wiring = .flash) (hh : e.held = some (a, v))
    (hc : e.contention = false) (hwe : drives p .we true = true) (is : List (Fin 8)) :
    Env.levels p is e = is.map (fun i => v.getLsbD i.val) ∧ Env.afterLevels p is e = e := by
  have hp : ∀ i, e.pinIn p (.dl i) = (v.getLsbD i.val, e) := by
    intro i; unfold Env.pinIn; simp only [hw, hh, hc, hwe]
  induction is with
  | nil => exact ⟨rfl, rfl⟩
  | cons i is ih => simp only [Env.levels, Env.afterLevels, hp, ih, List.map_cons, and_self]
/-! ### The write cycle and the chip -/

theorem Env.pathDrive_we (c : Config) (p : Pins) (l : Level) (e : Env) : e.pathDrive c p .we l = e := by
  simp only [Env.pathDrive, Env.chainDrive, Env.contractDrive, isAddressLine, Bool.false_and, Bool.false_eq_true,
    if_false, ite_self]

/-- A drive of WE# while OE# is high (20_memory.md R77): the reaction changes the chip no further. -/
theorem Env.onDrive_we {c : Config} {p : Pins} {e : Env} {l : Level} (hw : e.wiring = .flash)
    (ho : drives p .oe true = true) :
    (e.writeEnableDrive p l).SameChip (e.onDrive c p .we l false)
      ∧ (e.onDrive c p .we l false).xaddr = e.xaddr := by
  have ho' : drives (drivePins p .we l) .oe true = true := drives_drivePins ho (by simp)
  simp only [Env.onDrive, Env.pathDrive_we, Env.enterShift, Bool.false_eq_true, if_false, Env.lineDrive, hw, if_true]
  exact ⟨Env.react_high _ ho', (Env.react_samePath _ _).xaddr.trans (Env.writeEnableDrive_xaddr ..)⟩

/-- WE# falls with OE# high and the address known: the chip latches the address (20_memory.md R77). -/
theorem Env.writeEnable_fall {p : Pins} {e : Env} {a : Addr} (hwe : (pinAt p .we).out = some true)
    (ho : drives p .oe true = true) (hx : e.xaddr = some a) :
    e.writeEnableDrive p false = { e with latched := some a } := by
  simp [Env.writeEnableDrive, hwe, ho, hx]

/-- WE# rises with OE# high, the bus an output that carries `v`, the address latched: one `MemWrite` (20_memory.md R69,
R77). -/
theorem Env.writeEnable_rise {p : Pins} {e : Env} {a : Addr} {v : Byte} (hwe : (pinAt p .we).out = some false)
    (ho : drives p .oe true = true) (hb : busDir p = .output) (hv : drivenByte p = some v) (hl : e.latched = some a) :
    e.writeEnableDrive p true = { e with fmode := e.fmode.afterWrite a v, latched := none } := by
  simp [Env.writeEnableDrive, hwe, ho, hb, hv, hl]

/-- The byte on a bus whose lines are all driven (20_memory.md R77). -/
theorem drivenByte_eq {p : Pins} {v : Byte} (h : ∀ i, (pinAt p (.dl i)).out = some (v.getLsbD i.val)) :
    drivenByte p = some v := by
  have h1 : (dataLines.map fun i => (pinAt p (.dl i)).out) = dataLines.map fun i => some (v.getLsbD i.val) :=
    List.map_congr_left fun i _ => h i
  have h2 : (dataLines.map fun i => some (v.getLsbD i.val)).map (fun o : Option Level => o.getD false) =
      byteLevels v := by simp [byteLevels]
  simp only [drivenByte, h1, h2, composeByte_byteLevels]
  simp

/-- What a write cycle does to the chip (43_sequencer.md R190; 20_memory.md R69, R74, R77). -/
theorem envAfter_writeOps {s : State} (a : Addr) (v : Byte) (hsu : s.SetUp) (hch : s.ControlsHigh)
    (hw : s.env.wiring = .flash) :
    (envAfter s.cfg (writeOps s.cfg a v) s.pins s.env).fmode = s.env.fmode.afterWrite a v
      ∧ (envAfter s.cfg (writeOps s.cfg a v) s.pins s.env).contention = s.env.contention
      ∧ (envAfter s.cfg (writeOps s.cfg a v) s.pins s.env).xaddr = some a := by
  have ho : drives s.pins .oe true = true := drives_of hsu.oe.2 hch.2
  have hwe : drives s.pins .we true = true := drives_of hsu.we.2 hch.1
  have hrest : ∀ op ∈ writeLead s.cfg ++ setaddrOps s.cfg a ++ busDriveOps v, op.rests = true := by
    intro op hop
    simp only [writeLead, List.mem_append, List.mem_cons, List.not_mem_nil, or_false] at hop
    rcases hop with ((((rfl | rfl | rfl) | h) | rfl) | h) | h
    · rfl
    · rfl
    · rfl
    · exact busdirOps_rests _ op h
    · rfl
    · exact setaddrOps_rests _ _ op h
    · exact busDriveOps_rests v op h
  obtain ⟨l1, l2, l3⟩ := envAfter_rests (c := s.cfg) (e := s.env) hrest ho hwe
  have hsame := envAfter_same s.cfg (writeLead s.cfg ++ setaddrOps s.cfg a ++ busDriveOps v) s.pins s.env
  have hx : (envAfter s.cfg (writeLead s.cfg ++ setaddrOps s.cfg a ++ busDriveOps v) s.pins s.env).xaddr =
      some a := by
    have hoff : ∀ op ∈ busDriveOps v, op.offPath = true := by
      intro op hop
      obtain ⟨i, -, rfl⟩ := List.mem_map.mp hop
      rfl
    have hl := envAfter_same s.cfg (writeLead s.cfg) s.pins s.env
    rw [envAfter_append, envAfter_xaddr hoff, envAfter_append, envAfter_setaddr_xaddr]
    simp [Env.wired, hl.wiring, hw]
  have hbus : ∀ i, pinAt (pinsAfter (writeLead s.cfg ++ setaddrOps s.cfg a ++ busDriveOps v) s.pins) (.dl i) =
      { dir := some .output, out := some (v.getLsbD i.val) } := by
    intro i
    have hp : ∀ op ∈ writePulse s.cfg, op.role ≠ some (.dl i) := by simp [writePulse, PinOp.role]
    rw [← writeOps_bus s.cfg a v s.pins i, writeOps, pinsAfter_append _ (writePulse s.cfg), pinsAfter_other hp]
  rw [writeOps, envAfter_append]
  generalize envAfter s.cfg (writeLead s.cfg ++ setaddrOps s.cfg a ++ busDriveOps v) s.pins s.env = e at *
  generalize pinsAfter (writeLead s.cfg ++ setaddrOps s.cfg a ++ busDriveOps v) s.pins = p at *
  have hwf := hsame.wiring.trans hw
  have hwe1 : (pinAt p .we).dir = some .output ∧ (pinAt p .we).out = some true := by
    have := presented_drives l2
    simp only [presented] at this
    split at this
    next h => exact ⟨h, this⟩
    next => cases this
  obtain ⟨f1, f2⟩ := Env.onDrive_we (c := s.cfg) (p := p) (e := e) (l := false) hwf l1
  rw [Env.writeEnable_fall hwe1.2 l1 hx] at f1
  have l1' : drives (drivePins p .we false) .oe true = true := drives_drivePins l1 (by simp)
  have hwf' : (e.onDrive s.cfg p .we false false).wiring = .flash := (Env.onDrive_same ..).wiring.trans hwf
  obtain ⟨g1, g2⟩ := Env.onDrive_we (c := s.cfg) (p := drivePins p .we false)
    (e := e.onDrive s.cfg p .we false false) (l := true) hwf' l1'
  have hbus' : ∀ i, pinAt (drivePins p .we false) (.dl i) = pinAt p (.dl i) := fun i =>
    pinAt_putPin_of_ne (by simp)
  rw [Env.writeEnable_rise (v := v) (by simp [pinAt_drivePins_out]) l1'
    (busDir_output fun i => by rw [hbus', hbus]) (drivenByte_eq fun i => by rw [hbus', hbus]) f1.latched] at g1
  simp only [writePulse, envAfter, PinOp.onEnv, PinOp.onPins]
  exact ⟨g1.fmode.trans (by rw [f1.fmode]; exact congrArg (fun m => m.afterWrite a v) l3.fmode),
    g1.contention.trans (f1.contention.trans l3.contention), g2.trans (f2.trans hx)⟩

/-! ### What a read cycle answers -/

theorem Env.onDrive_oe_high {c : Config} {p : Pins} {e : Env} (hd : (pinAt p .oe).dir = some .output) :
    e.SameChip (e.onDrive c p .oe true false) ∧ (e.onDrive c p .oe true false).xaddr = e.xaddr := by
  have ho : drives (drivePins p .oe true) .oe true = true :=
    drives_of (by simpa using hd) (by simp [pinAt_drivePins_out])
  have h1 : e.pathDrive c p .oe true = e := by
    simp [Env.pathDrive, Env.chainDrive, Env.contractDrive, isAddressLine]
  have h2 : e.lineDrive p .oe true = e := rfl
  rw [Env.onDrive, h1, Env.enterShift, if_neg Bool.false_ne_true, h2]
  exact ⟨Env.react_high _ ho, (Env.react_samePath _ _).xaddr⟩

/-- WE# stays driven high up to the samples of a read cycle (43_sequencer.md R186). -/
theorem readOpsBefore_we {s : State} (a : Addr) (hsu : s.SetUp) (hch : s.ControlsHigh) :
    drives (s.ran (readOpsBefore s.cfg a)).pins .we true = true := by
  have h1 := (envAfter_rests (c := s.cfg) (e := s.env) (readLead_rests s.cfg) (drives_of hsu.oe.2 hch.2)
    (drives_of hsu.we.2 hch.1))
  have h2 := (envAfter_rests (c := s.cfg) (e := s.env) (setaddrOps_rests s.cfg a) h1.1 h1.2.1).2.1
  rw [State.ran_pins, readOpsBefore, pinsAfter_append, pinsAfter_append]
  unfold drives presented at h2 ⊢
  rw [pinsAfter_other (ops := readOpen s.cfg) (by simp [readOpen, PinOp.role])]
  exact h2

/-- A read cycle in a mode in which the chip answers `v` at the address and goes nowhere: it answers `v`, and the chip
stays as it was (20_memory.md R68, R76). -/
theorem afterRead_chip {s : State} {a : Addr} {v : Byte} (hsu : s.SetUp) (hch : s.ControlsHigh)
    (hw : s.env.wiring = .flash) (hc : s.env.contention = false)
    (hr : ∀ e : Env, e.fmode = s.env.fmode → s.env.Same e → e.memRead a = (v, e)) :
    s.readByte a = v ∧ (s.afterRead a).env.fmode = s.env.fmode ∧ (s.afterRead a).env.contention = false
      ∧ (s.afterRead a).env.xaddr = some a := by
  obtain ⟨e, h1, h2, h3, h4⟩ := envAfter_readOpsBefore a hsu hch hw
  rw [hr e h1.fmode h2] at h4
  have hl := levels_held (e := { e with held := some (a, v) }) (a := a) (v := v) (h2.wiring.trans hw) rfl
    (h1.contention.trans hc) (readOpsBefore_we a hsu hch) dataLines
  rw [← h4] at hl
  have hd : (pinAt (pinsAfter (readOpsBefore s.cfg a) s.pins) .oe).dir = some .output := by
    rw [readOpsBefore, pinsAfter_append, pinsAfter_dir (by simp [readOpen, PinOp.keepsDirections]), pinsAfter_append,
      pinsAfter_setaddr_dir, readLead_dir _ _ (by simp)]
    exact hsu.oe.2
  refine ⟨?_, ?_⟩
  · rw [State.readByte, State.ran_env, hl.1]
    exact composeByte_byteLevels v
  · have he : (s.ran (readOpsBefore s.cfg a)).sampledBus.env = { e with held := some (a, v) } := by
      rw [State.sampledBus, State.ran_env, hl.2, h4]
    obtain ⟨k1, k2⟩ := Env.onDrive_oe_high (c := s.cfg) (e := { e with held := some (a, v) }) hd
    rw [State.afterRead, State.ran_env, he, State.sampledBus_pins, State.sampledBus_cfg, State.ran_cfg, State.ran_pins,
      readClose]
    simp only [envAfter, PinOp.onEnv]
    exact ⟨k1.fmode.trans h1.fmode, k1.contention.trans (h1.contention.trans hc), k2.trans h3⟩

/-- A read cycle in the chip's read mode answers its contents (20_memory.md R68, R76). -/
theorem afterRead_array {s : State} (a : Addr) (hsu : s.SetUp) (hch : s.ControlsHigh) (hw : s.env.wiring = .flash)
    (hm : s.env.fmode = .array) (hc : s.env.contention = false) :
    s.readByte a = s.env.flashByte a ∧ (s.afterRead a).env.fmode = .array
      ∧ (s.afterRead a).env.contention = false ∧ (s.afterRead a).env.xaddr = some a := by
  rw [← hm]
  refine afterRead_chip hsu hch hw hc fun e he hs => ?_
  rw [Env.memRead_array (he.trans hm), Env.flashByte, hs.flash]
  rfl

end Sys2Proof.Machine
end

