-- ==== Sys2Proof/Laws/Composite.lean ====
section
/-! SUPPORT. Cycles one after the other: what a composite command has done after some of its cycles. -/

namespace Sys2Proof.Machine

theorem Keeps.trans {s t u : State} {rs : List Role} (h : Keeps s t rs) (k : Keeps t u rs) : Keeps s u rs := by
  obtain ⟨h1, h2, h3, h4, h5, h6, h7⟩ := h
  obtain ⟨k1, k2, k3, k4, k5, k6, k7⟩ := k
  exact ⟨k1.trans h1, k2.trans h2, k3.trans h3, k4.trans h4, fun a => (k5 a).trans (h5 a), k6.trans h6,
    fun r hr => ⟨(k7 r hr).1.trans (h7 r hr).1, (k7 r hr).2.trans (h7 r hr).2⟩⟩

theorem KeepsFault.trans {s t u : State} (h : KeepsFault s t) (k : KeepsFault t u) : KeepsFault s u :=
  ⟨k.1.trans h.1, k.2.1.trans h.2.1, k.2.2.trans h.2.2⟩

theorem KeepsSink.trans {s t u : State} (h : KeepsSink s t) (k : KeepsSink t u) : KeepsSink s u :=
  ⟨k.1.trans h.1, k.2.trans h.2⟩

/-- What cycles have done so far: these events, the pins of the cycles, nothing else but `D`, `ID` and `CUR`. -/
structure Went (s t : State) (es : List Event) : Prop where
  keeps : Keeps s t (dataRoles ++ [.we, .oe] ++ modeLines s.cfg)
  fault : KeepsFault s t
  sink : KeepsSink s t
  trace : t.trace = s.trace ++ es
  killIn : t.killIn = s.killIn
  responses : t.responses = s.responses

theorem Went.cfg {s t : State} {es : List Event} (h : Went s t es) : t.cfg = s.cfg := h.keeps.1

theorem Went.trans {s t u : State} {es fs : List Event} (h : Went s t es) (k : Went t u fs) : Went s u (es ++ fs) := by
  have hk := k.keeps
  rw [h.cfg] at hk
  exact ⟨h.keeps.trans hk, h.fault.trans k.fault, h.sink.trans k.sink, by rw [k.trace, h.trace, List.append_assoc],
    k.killIn.trans h.killIn, k.responses.trans h.responses⟩

/-- Steps on the roles of the cycles. -/
theorem went_ran (s : State) {ops : List PinOp}
    (h : ∀ op ∈ ops, ∀ r, op.role = some r → r ∈ dataRoles ++ [.we, .oe] ++ modeLines s.cfg) :
    Went s (s.ran ops) (eventsOf ops) := by
  refine ⟨?_, ⟨State.ran_fault _ _, State.ran_fcode _ _, State.ran_finfo _ _⟩,
    ⟨State.ran_sinkAnswers _ _, State.ran_sinkDraws _ _⟩, State.ran_trace _ _, State.ran_killIn _ _,
    State.ran_responses _ _⟩
  have e := envAfter_same s.cfg ops s.pins s.env
  refine ⟨State.ran_cfg _ _, State.ran_host _ _, ?_, ?_, fun x => ?_, ?_, fun r hr => ?_⟩
  · rw [State.ran_env, e.wiring]
  · rw [State.ran_env, e.weIdleHigh]
  · rw [State.ran_env, e.flash]
  · rw [State.ran_env, e.flashId]
  · exact s.ran_other fun op hop e => hr (h op hop r e)

theorem went_idleSetup (s : State) : Went s (s.ran (idleSetupOps s.cfg)) (idleEvents s.cfg) := by
  rw [← eventsOf_idleSetup]
  exact went_ran s fun _ hop _ hr => idleSetupOps_role hop hr

theorem went_busdir (s : State) (d : Direction) : Went s (s.ran (busdirOps d)) (busDirEvents d) := by
  rw [← eventsOf_busdir]
  exact went_ran s fun _ hop _ hr => List.mem_append_left _ (List.mem_append_left _ (busdirOps_role_mem hop hr))

theorem went_write (s : State) (a : Addr) (v : Byte) : Went s (s.ran (writeOps s.cfg a v)) (writeEvents s.cfg a v) := by
  rw [← eventsOf_write]
  exact went_ran s fun _ hop _ hr => writeOps_role hop hr

/-- The levels the environment answers the samples of a read cycle with. -/
def State.readLevels (s : State) (a : Addr) : List Level :=
  Env.levels (s.ran (readOpsBefore s.cfg a)).pins dataLines (s.ran (readOpsBefore s.cfg a)).env

theorem State.readLevels_length (s : State) (a : Addr) : (s.readLevels a).length = 8 := Env.levels_length ..

theorem State.readByte_eq (s : State) (a : Addr) : s.readByte a = composeByte (s.readLevels a) := rfl

theorem went_read (s : State) (a : Addr) : Went s (s.afterRead a) (readEvents s.cfg a (s.readLevels a)) := by
  obtain ⟨h1, -, -, h4, h5, -⟩ := afterRead_keeps s a
  exact ⟨h1, h4, h5, afterRead_trace s a, State.afterRead_killIn _ _, State.afterRead_responses _ _⟩

theorem went_setId (s : State) (ids : Vector Byte 4) : Went s { s with id := ids } [] :=
  ⟨⟨rfl, rfl, rfl, rfl, fun _ => rfl, rfl, fun _ _ => ⟨rfl, rfl⟩⟩, ⟨rfl, rfl, rfl⟩, ⟨rfl, rfl⟩, (List.append_nil _).symm,
    rfl, rfl⟩

theorem went_setCur (s : State) (a : Addr) : Went s { s with cur := a } [] :=
  ⟨⟨rfl, rfl, rfl, rfl, fun _ => rfl, rfl, fun _ _ => ⟨rfl, rfl⟩⟩, ⟨rfl, rfl, rfl⟩, ⟨rfl, rfl⟩, (List.append_nil _).symm,
    rfl, rfl⟩

/-- A configuration and pins ready for cycles, with no kill set: what each cycle needs and keeps. -/
structure State.Cycling (s : State) : Prop where
  valid : validConfig s.cfg = true
  killIn : s.killIn = none
  setUp : s.SetUp

theorem State.Cycling.idleSetup {s : State} (hv : validConfig s.cfg = true) (hk : s.killIn = none) :
    (s.ran (idleSetupOps s.cfg)).Cycling := by
  exact ⟨hv, hk, (ran_idleSetup_setUp (valid_required hv)).1⟩

theorem State.Cycling.write {s : State} (h : s.Cycling) (a : Addr) (v : Byte) :
    (s.ran (writeOps s.cfg a v)).Cycling :=
  ⟨h.valid, h.killIn, h.setUp.afterWrite a v⟩

theorem State.Cycling.read {s : State} (h : s.Cycling) (a : Addr) : (s.afterRead a).Cycling :=
  ⟨h.valid, h.killIn, h.setUp.afterRead a⟩

theorem State.Cycling.setId {s : State} (h : s.Cycling) (ids : Vector Byte 4) : { s with id := ids }.Cycling := by
  obtain ⟨h1, h2, h3⟩ := h
  exact ⟨h1, h2, h3⟩

theorem State.Cycling.setCur {s : State} (h : s.Cycling) (a : Addr) : { s with cur := a }.Cycling := by
  obtain ⟨h1, h2, h3⟩ := h
  exact ⟨h1, h2, h3⟩

theorem State.Cycling.writeCycle {s : State} (h : s.Cycling) {a : Addr} (v : Byte)
    (ha : a.toNat < 2 ^ s.cfg.addrBits.toNat) : Machine.writeCycle a v s = .ok () (s.ran (writeOps s.cfg a v)) :=
  writeCycle_ready v h.killIn (outOfRange_false ha) (valid_mode h.valid) (valid_data h.valid) h.setUp

theorem State.Cycling.readCycle {s : State} (h : s.Cycling) {a : Addr} (ha : a.toNat < 2 ^ s.cfg.addrBits.toNat) :
    Machine.readCycle a s = .ok (s.readByte a) (s.afterRead a) :=
  readCycle_ready h.killIn (outOfRange_false ha) (valid_mode h.valid) (valid_data h.valid) h.setUp

/-! ### The eight cycles of `IDQUERY` (44_composite.md R211) -/

/-- Write cycles in order reach a state, with these events. -/
theorem writeAll_ready {l : List (Addr × Byte)} {s : State} (h : s.Cycling)
    (ha : ∀ x ∈ l, x.1.toNat < 2 ^ s.cfg.addrBits.toNat) :
    ∃ t, writeAll l s = .ok () t ∧ t.Cycling ∧ Went s t (l.flatMap fun x => writeEvents s.cfg x.1 x.2)
      ∧ t.id = s.id ∧ t.cur = s.cur ∧ t.d = s.d := by
  induction l generalizing s with
  | nil => exact ⟨s, rfl, h, ⟨⟨rfl, rfl, rfl, rfl, fun _ => rfl, rfl, fun _ _ => ⟨rfl, rfl⟩⟩, ⟨rfl, rfl, rfl⟩, ⟨rfl, rfl⟩,
      (List.append_nil _).symm, rfl, rfl⟩, rfl, rfl, rfl⟩
  | cons x l ih =>
    obtain ⟨a, v⟩ := x
    obtain ⟨t, h1, h2, h3, h4, h5, h6⟩ := ih (h.write a v) fun y hy => ha y (List.mem_cons_of_mem _ hy)
    refine ⟨t, ?_, h2, ?_, h4, h5, h6⟩
    · rw [writeAll, act_bind_ok (h.writeCycle v (ha _ List.mem_cons_self)), h1]
    · rw [List.flatMap_cons]
      exact (went_write s a v).trans h3

/-- The state after one identity read (44_composite.md R213). -/
def State.readId (s : State) (k : Fin 4) (a : Addr) : State :=
  { s.afterRead a with id := s.id.set k.val (s.readByte a) }

theorem readIdentity_cons {s : State} (h : s.Cycling) (k : Fin 4) {a : Addr} (l : List (Fin 4 × Addr))
    (ha : a.toNat < 2 ^ s.cfg.addrBits.toNat) :
    readIdentity ((k, a) :: l) s = readIdentity l (s.readId k a) := by
  rw [readIdentity, act_bind_ok (h.readCycle ha), act_bind_ok (act_modify _ _)]
  rfl

theorem State.Cycling.readId {s : State} (h : s.Cycling) (k : Fin 4) (a : Addr) : (s.readId k a).Cycling :=
  (h.read a).setId _

theorem went_readId (s : State) (k : Fin 4) (a : Addr) :
    Went s (s.readId k a) (readEvents s.cfg a (s.readLevels a)) := by
  have := (went_read s a).trans (went_setId (s.afterRead a) (s.id.set k.val (s.readByte a)))
  rwa [List.append_nil] at this

/-- One identity read: the byte goes to its latch (44_composite.md R213). -/
theorem readIdentity_step {s : State} (h : s.Cycling) (k : Fin 4) {a : Addr} (l : List (Fin 4 × Addr))
    (ha : a.toNat < 2 ^ s.cfg.addrBits.toNat) :
    ∃ t ls, readIdentity ((k, a) :: l) s = readIdentity l t ∧ t.Cycling ∧ Went s t (readEvents s.cfg a ls)
      ∧ ls.length = 8 ∧ t.id = s.id.set k.val (composeByte ls) ∧ t.d = composeByte ls ∧ t.cur = s.cur := by
  refine ⟨s.readId k a, s.readLevels a, readIdentity_cons h k l ha, h.readId k a, went_readId s k a, s.readLevels_length a, ?_, ?_, ?_⟩
  · rw [State.readId, State.readByte_eq]
  · simp only [State.readId, State.afterRead_d, State.readByte_eq]
  · simp only [State.readId, State.afterRead_cur]

/-- The eight cycles of `IDQUERY` when nothing stops them (44_composite.md R211). -/
theorem autoselect_ready {s : State} (h : s.Cycling) (hn : 12 ≤ s.cfg.addrBits.toNat) :
  ∃ t l0 l1 l2 l3, autoselect s = .ok () t ∧ t.Cycling ∧ t.cur = s.cur ∧ t.d = composeByte l3 ∧
     l0.length = 8 ∧ l1.length = 8 ∧ l2.length = 8 ∧ l3.length = 8
      ∧ t.id = #v[composeByte l0, composeByte l1, composeByte l2, composeByte l3] ∧ AfterWrite t 0 0xF0 ∧
    Went s t (writeEvents s.cfg 0xAAA 0xAA ++ writeEvents s.cfg 0x555 0x55 ++ writeEvents s.cfg 0xAAA 0x90
          ++ readEvents s.cfg 0x00 l0 ++ readEvents s.cfg 0x02 l1 ++ readEvents s.cfg 0x1C l2
          ++ readEvents s.cfg 0x1E l3 ++ writeEvents s.cfg 0x00 0xF0) := by
  have h12 : 2 ^ 12 ≤ 2 ^ s.cfg.addrBits.toNat := Nat.pow_le_pow_right (by omega) hn
  obtain ⟨u, h1, h2, h3, h4, h5, h6⟩ := writeAll_ready (l := autoselectEntry) h (by
    intro x hx
    simp [autoselectEntry] at hx
    rcases hx with rfl | rfl | rfl <;> (refine Nat.lt_of_lt_of_le ?_ h12; decide))
  have hc : u.cfg = s.cfg := h3.cfg
  have rg : ∀ {c : Config} (a : Addr), c = s.cfg → a.toNat < 2 ^ 12 → a.toNat < 2 ^ c.addrBits.toNat := fun a hc ha => hc ▸ Nat.lt_of_lt_of_le ha h12
  obtain ⟨t0, l0, r0, c0, w0, n0, i0, d0, k0⟩ := readIdentity_step h2 0 (a := 0x00) [(1, 0x02), (2, 0x1C), (3, 0x1E)] (rg _ hc (by decide))
  have e0 := w0.cfg.trans hc
  obtain ⟨t1, l1, r1, c1, w1, n1, i1, d1, k1⟩ := readIdentity_step c0 1 (a := 0x02) [(2, 0x1C), (3, 0x1E)] (rg _ e0 (by decide))
  have e1 := w1.cfg.trans e0
  obtain ⟨t2, l2, r2, c2, w2, n2, i2, d2, k2⟩ := readIdentity_step c1 2 (a := 0x1C) [(3, 0x1E)] (rg _ e1 (by decide))
  have e2 := w2.cfg.trans e1
  obtain ⟨t3, l3, r3, c3, w3, n3, i3, d3, k3⟩ := readIdentity_step c2 3 (a := 0x1E) [] (rg _ e2 (by decide))
  have e3 := w3.cfg.trans e2
  have hrd : readIdentity identityReads u = .ok () t3 := by rw [identityReads, r0, r1, r2, r3]; rfl
  refine ⟨t3.ran (writeOps t3.cfg 0x00 0xF0), l0, l1, l2, l3, ?_, c3.write _ _, ?_, ?_, n0, n1, n2, n3, ?_, ?_, ?_⟩
  · rw [autoselect, act_bind_ok h1, act_bind_ok hrd]
    exact c3.writeCycle _ (rg _ e3 (by decide))
  · rw [State.ran_cur, k3, k2, k1, k0, h5]
  · rw [State.ran_d, d3]
  · rw [State.ran_id, i3, i2, i1, i0]
    apply Vector.ext
    intro i hi
    have : i = 0 ∨ i = 1 ∨ i = 2 ∨ i = 3 := by omega
    rcases this with rfl | rfl | rfl | rfl <;> simp
  · exact afterWrite_ends (s := t3) _ _ (valid_addrBits c3.valid).1
  · have := h3.trans (w0.trans (w1.trans (w2.trans (w3.trans (went_write t3 0x00 0xF0)))))
    rw [hc, e0, e1, e2, e3] at this
    rw [e3]
    simpa [autoselectEntry, List.append_assoc] using this

/-! ### A turn of `DUMP` (44_composite.md R215) -/

/-- The state after one read cycle and one byte offered to the sink. -/
def State.offered (s : State) : State :=
  { (s.afterRead s.cur).afterSink with
    trace := (s.afterRead s.cur).trace ++ [.sink (s.readByte s.cur) s.sinkAnswer] }

theorem State.afterSink_answers (s : State) : s.afterSink.sinkAnswers = s.sinkAnswers.tail := by
  unfold State.afterSink
  split
  next h => rw [h]; rfl
  next h => simp only [h, List.tail_nil]

/-- The state a turn reaches when it closes the sink (44_composite.md R216, R217). -/
def State.closed (s : State) : State := { s.offered with trace := s.offered.trace ++ [.close] }

/-- The state a turn reaches when the loop goes on (44_composite.md R215). -/
def State.advanced (s : State) : State := { s.offered with cur := s.cur + 1 }

theorem sinkWrite_offered {s : State} (h : s.killIn = none) :
    sinkWrite (s.readByte s.cur) (s.afterRead s.cur) = .ok s.sinkAnswer s.offered := by
  have hk : (s.afterRead s.cur).killIn = none := h
  have hans : (s.afterRead s.cur).sinkAnswer = s.sinkAnswer := by
    simp only [State.sinkAnswer, State.afterRead_sinkAnswers, State.afterRead_sinkDraws]
  simp only [sinkWrite, emit, hk, hans, Option.map_none]
  simp [State.offered, h]

@[simp] theorem State.offered_killIn (s : State) : s.offered.killIn = s.killIn := by simp [State.offered]
@[simp] theorem State.offered_cur (s : State) : s.offered.cur = s.cur := by simp [State.offered]

theorem sinkClose_offered {s : State} (h : s.killIn = none) : sinkClose s.offered = .ok () s.closed := by
  simp [sinkClose, emit, h, State.closed]

/-- A turn whose byte is rejected (44_composite.md R217). -/
theorem dumpTurn_rejected {s : State} (h : s.Cycling) (ha : s.cur.toNat < 2 ^ s.cfg.addrBits.toNat)
    (hs : s.sinkAnswer = false) : dumpTurn s = .error (.fault .sink s.cur) s.closed := by
  rw [dumpTurn, act_bind_ok (act_get s), act_bind_ok (h.readCycle ha), act_bind_ok (sinkWrite_offered h.killIn), hs,
    if_neg Bool.false_ne_true, act_bind_ok (sinkClose_offered h.killIn), act_raise]

/-- The last turn (44_composite.md R216). -/
theorem dumpTurn_last {s : State} (h : s.Cycling) (ha : s.cur.toNat < 2 ^ s.cfg.addrBits.toNat)
    (hs : s.sinkAnswer = true) (hc : s.cur = s.cfg.maxAddr) :
    dumpTurn s = .ok (.done (.count (BitVec.ofNat 32 (s.cfg.maxAddr.toNat + 1)))) s.closed := by
  rw [dumpTurn, act_bind_ok (act_get s), act_bind_ok (h.readCycle ha), act_bind_ok (sinkWrite_offered h.killIn), hs,
    if_pos rfl, if_pos hc, act_bind_ok (sinkClose_offered h.killIn), act_pure]

/-- A turn after which the loop goes on (44_composite.md R215). -/
theorem dumpTurn_more {s : State} (h : s.Cycling) (ha : s.cur.toNat < 2 ^ s.cfg.addrBits.toNat)
    (hs : s.sinkAnswer = true) (hc : s.cur ≠ s.cfg.maxAddr) : dumpTurn s = .ok (.more .dump) s.advanced := by
  rw [dumpTurn, act_bind_ok (act_get s), act_bind_ok (h.readCycle ha), act_bind_ok (sinkWrite_offered h.killIn), hs,
    if_pos rfl, if_neg hc, act_bind_ok (act_modify _ _), act_pure, State.offered_cur]
  rfl

/-- The state in which the first turn of `DUMP` begins (44_composite.md R215). -/
def State.dumpBegun (s : State) : State := { s.ran (idleSetupOps s.cfg) with cur := 0 }

@[simp] theorem State.dumpBegun_cur (s : State) : s.dumpBegun.cur = 0 := rfl
@[simp] theorem State.dumpBegun_id (s : State) : s.dumpBegun.id = s.id := by
  simp only [State.dumpBegun, State.ran_id]
@[simp] theorem State.dumpBegun_pins (s : State) : s.dumpBegun.pins = pinsAfter (idleSetupOps s.cfg) s.pins := by
  simp only [State.dumpBegun, State.ran_pins]
@[simp] theorem State.dumpBegun_env (s : State) :
    s.dumpBegun.env = envAfter s.cfg (idleSetupOps s.cfg) s.pins s.env := by
  simp only [State.dumpBegun, State.ran_env]

theorem dumpStart_eq {s : State} (hv : validConfig s.cfg = true) (hk : s.killIn = none) :
    dumpStart s = dumpTurn s.dumpBegun := by
  rw [dumpStart, act_bind_ok (idleSetup_ready hk (valid_required hv)), act_bind_ok (act_modify _ _), State.dumpBegun]

theorem went_dumpBegun (s : State) : Went s s.dumpBegun (idleEvents s.cfg) := by
  have := (went_idleSetup s).trans (went_setCur (s.ran (idleSetupOps s.cfg)) 0)
  rwa [List.append_nil] at this

theorem State.Cycling.dumpBegun {s : State} (hv : validConfig s.cfg = true) (hk : s.killIn = none) :
    s.dumpBegun.Cycling := (State.Cycling.idleSetup hv hk).setCur 0

end Sys2Proof.Machine
end

