-- ==== Sys2Proof/Laws/Contention.lean ====
section
/-! SUPPORT. Pseudocode that never contends for the bus (70_reset_and_hazards.md R298). -/

namespace Sys2Proof.Machine

/-! ### The environment -/

theorem Env.SameChip.of_react {e : Env} {p : Pins} : (e.react p).contention = true →
    e.contention = true ∨ contending p = true := by
  unfold Env.react
  split
  · intro h
    have hc : (e.chooseByte p).contention = e.contention := by
      unfold Env.chooseByte
      split
      · rfl
      · split
        · rfl
        · split
          · exact Env.memRead_contention ..
          · rfl
    have hs : ∀ f : Env, (f.strayRead p).contention = f.contention := by
      intro f
      have hd : f.draw.2.contention = f.contention := by unfold Env.draw; split <;> rfl
      rcases f.strayRead_cases p with h' | ⟨-, -, -, h' | h'⟩ <;> rw [h']
      · exact hd
      · exact hd
    simpa [hs, hc] using h
  · exact .inl

theorem Env.react_safe {e : Env} {p : Pins} (h : e.contention = false) (hp : contending p = false) :
    (e.react p).contention = false := by
  by_contra hc
  rcases Env.SameChip.of_react (by simpa using hc) with h' | h' <;> simp_all

theorem Env.onSetDir_safe {c : Config} {p : Pins} {r : Role} {d : Direction} {e : Env} (h : e.contention = false)
    (hp : contending (setDirPins p r d) = false) : (e.onSetDir c p r d).contention = false := by
  refine Env.react_safe ?_ hp
  have h1 := (e.pathSetDir_sameChip c p r d).contention.trans h
  unfold Env.lineSetDir
  split
  · split <;> exact h1
  · split
    · unfold Env.writeEnableLoose
      split <;> exact h1
    · exact h1
  · exact h1

theorem Env.lineDrive_contention (p : Pins) (r : Role) (l : Level) (e : Env) :
    (e.lineDrive p r l).contention = e.contention := by
  unfold Env.lineDrive
  split
  · rfl
  · split
    · simp only [Env.writeEnableDrive]
      split
      · split <;> rfl
      · split <;> rfl
      · rfl
      · rfl
    · rfl
  · rfl

theorem Env.onDrive_safe {c : Config} {p : Pins} {r : Role} {l : Level} {b : Bool} {e : Env} (h : e.contention = false)
    (hp : contending (drivePins p r l) = false) : (e.onDrive c p r l b).contention = false := by
  refine Env.react_safe ?_ hp
  rw [Env.lineDrive_contention, (Env.enterShift_sameChip b _).contention, (e.pathDrive_sameChip c p r l).contention, h]

theorem Env.pinIn_contention (p : Pins) (r : Role) (e : Env) : (e.pinIn p r).2.contention = e.contention := by
  have hd : e.draw.2.contention = e.contention := by unfold Env.draw; split <;> rfl
  unfold Env.pinIn
  split
  · split
    · rfl
    · exact hd
  · split
    · rfl
    · exact hd
  · split
    · rfl
    · exact hd
  · exact hd

/-! ### Pseudocode -/

/-- Bus safety with a fact about the pins. -/
def SafeWith (K : Pins → Prop) (s : State) : Prop := BusSafe s ∧ K s.pins

/-- Pseudocode that stays bus-safe: from `K` it ends with `K'`, and where it stops it is bus-safe. -/
def Calm {α : Type} (K K' : Pins → Prop) (x : Act α) : Prop :=
  ∀ s, SafeWith K s → (∀ a t, x s = .ok a t → SafeWith K' t) ∧ ∀ e t, x s = .error e t → BusSafe t

theorem calm_pure {α : Type} {K : Pins → Prop} (a : α) : Calm K K (pure a : Act α) := fun s h =>
  ⟨fun _ _ e => (by cases e; exact h), fun _ _ e => by cases e⟩

theorem calm_raise {α : Type} {K K' : Pins → Prop} (c : Cause) (i : BitVec 24) : Calm K K' (raise c i : Act α) :=
  fun s h => ⟨fun _ _ e => (by cases e), fun _ _ e => by cases e; exact h.1⟩

theorem calm_get {K : Pins → Prop} : Calm K K (get : Act State) := fun s h =>
  ⟨fun _ _ e => (by cases e; exact h), fun _ _ e => by cases e⟩

theorem calm_modify {K : Pins → Prop} {f : State → State} (hp : ∀ s, (f s).pins = s.pins)
    (he : ∀ s, (f s).env = s.env) : Calm K K (modify f : Act PUnit) := fun s h => by
  refine ⟨fun _ _ e => ?_, fun _ _ e => by cases e⟩
  cases e
  unfold SafeWith BusSafe at *
  rwa [hp, he]

theorem calm_bind {α β : Type} {K K' K'' : Pins → Prop} {x : Act α} {f : α → Act β} (hx : Calm K K' x)
    (hf : ∀ a, Calm K' K'' (f a)) : Calm K K'' (x >>= f) := by
  intro s h
  obtain ⟨h1, h2⟩ := hx s h
  cases hxs : x s with
  | ok a t => rw [act_bind_ok hxs]; exact hf a t (h1 a t hxs)
  | error e t =>
    rw [act_bind_error hxs]
    exact ⟨fun _ _ e => (by cases e), fun _ _ e => by cases e; exact h2 _ _ hxs⟩

theorem calm_weaken {α : Type} {K K' J J' : Pins → Prop} {x : Act α} (h : Calm K K' x) (hj : ∀ p, J p → K p)
    (hk : ∀ p, K' p → J' p) : Calm J J' x := fun s hs =>
  ⟨fun a t e => ⟨((h s ⟨hs.1, hj _ hs.2⟩).1 a t e).1, hk _ ((h s ⟨hs.1, hj _ hs.2⟩).1 a t e).2⟩,
    (h s ⟨hs.1, hj _ hs.2⟩).2⟩

/-- An event whose effect is bus-safe. -/
theorem calm_emit {K K' : Pins → Prop} (e : Event) {u : State → State} (h : ∀ s, SafeWith K s → SafeWith K' (u s)) :
    Calm K K' (emit e u) := by
  intro s hs
  rcases emit_cases e u s with hk | hk
  · rw [hk.2]
    exact ⟨fun _ _ e => (by cases e), fun _ _ e => by cases e; exact hs.1⟩
  · rw [hk.2]
    exact ⟨fun _ _ e => (by cases e; exact h s hs), fun _ _ e => by cases e⟩

/-- What a step may assume of the pins: a drive finds an output. -/
def PinOp.canAct (p : Pins) : PinOp → Prop
  | .drive r _ => (pinAt p r).dir = some .output
  | .shift r _ => (pinAt p r).dir = some .output
  | _ => True

/-- One step that keeps the bus safe. -/
theorem calm_runOp {K K' : Pins → Prop} {op : PinOp}
    (h : ∀ p, contending p = false → K p → op.canAct p → contending (op.onPins p) = false ∧ K' (op.onPins p)) :
    Calm K K' (runOp op) := by
  cases op with
  | setDir r d =>
    intro s hs
    simp only [runOp, setDir]
    split
    · exact calm_emit (K' := K') _ (fun u hu => by
        obtain ⟨h1, h2⟩ := h u.pins hu.1.2 hu.2 trivial
        exact ⟨⟨Env.onSetDir_safe hu.1.1 h1, h1⟩, h2⟩) s hs
    · exact calm_raise _ _ s hs
  | drive r l =>
    intro s hs
    simp only [runOp, drive]
    split
    · split
      next hd =>
        obtain ⟨h1, h2⟩ := h s.pins hs.1.2 hs.2 hd
        exact calm_emit (K := fun p => p = s.pins) (K' := K') _ (fun u hu => by
          have hp : u.pins = s.pins := hu.2
          refine ⟨⟨Env.onDrive_safe hu.1.1 ?_, ?_⟩, ?_⟩
          · rw [hp]; exact h1
          · rw [State.afterDrive_pins, hp]; exact h1
          · rw [State.afterDrive_pins, hp]; exact h2) s ⟨hs.1, rfl⟩
      · exact calm_raise _ _ s hs
    · exact calm_raise _ _ s hs
  | shift r l =>
    intro s hs
    simp only [runOp, drive]
    split
    · split
      next hd =>
        obtain ⟨h1, h2⟩ := h s.pins hs.1.2 hs.2 hd
        exact calm_emit (K := fun p => p = s.pins) (K' := K') _ (fun u hu => by
          have hp : u.pins = s.pins := hu.2
          refine ⟨⟨Env.onDrive_safe hu.1.1 ?_, ?_⟩, ?_⟩
          · rw [hp]; exact h1
          · rw [State.afterDrive_pins, hp]; exact h1
          · rw [State.afterDrive_pins, hp]; exact h2) s ⟨hs.1, rfl⟩
      · exact calm_raise _ _ s hs
    · exact calm_raise _ _ s hs
  | delay us => exact calm_emit _ fun u hu => ⟨hu.1, (h u.pins hu.1.2 hu.2 trivial).2⟩
  | enter f =>
    intro s hs
    refine ⟨fun _ _ e => ?_, fun _ _ e => by cases e⟩
    cases e
    exact ⟨hs.1, (h s.pins hs.1.2 hs.2 trivial).2⟩
  | address a =>
    intro s hs
    refine ⟨fun _ _ e => ?_, fun _ _ e => by cases e⟩
    cases e
    exact ⟨⟨Env.react_safe hs.1.1 hs.1.2, hs.1.2⟩, (h s.pins hs.1.2 hs.2 trivial).2⟩

/-- Steps each of which keeps the bus safe and the fact. -/
theorem calm_runOps {K : Pins → Prop} {ops : List PinOp}
    (h : ∀ op ∈ ops, ∀ p, contending p = false → K p → op.canAct p →
      contending (op.onPins p) = false ∧ K (op.onPins p)) : Calm K K (runOps ops) := by
  induction ops with
  | nil => exact calm_pure ()
  | cons op ops ih =>
    exact calm_bind (calm_runOp (h op List.mem_cons_self)) fun _ => ih fun o ho => h o (List.mem_cons_of_mem _ ho)

theorem calm_append {K K' K'' : Pins → Prop} {a b : List PinOp} (ha : Calm K K' (runOps a)) (hb : Calm K' K'' (runOps b)) :
    Calm K K'' (runOps (a ++ b)) := by
  rw [runOps_append]
  exact calm_bind ha fun _ => hb

/-! ### Facts about the pins -/

/-- OE# is driven high. -/
def OeHigh (p : Pins) : Prop := drives p .oe true = true

/-- Every data line is an input. -/
def BusIn (p : Pins) : Prop := ∀ i, (pinAt p (.dl i)).dir = some .input

theorem contending_of_busIn {p : Pins} (h : BusIn p) : contending p = false := contending_of_input (busDir_input h)

theorem contending_congr {p q : Pins} (ho : pinAt q .oe = pinAt p .oe)
    (hd : ∀ i, (pinAt q (.dl i)).dir = (pinAt p (.dl i)).dir) : contending q = contending p := by
  have h1 : ∀ l, drives q .oe l = drives p .oe l := fun l => by unfold drives presented; rw [ho]
  unfold contending
  rw [h1, h1, busDir_congr hd]
  simp only [hd]

/-- A fact that depends on OE# and the directions of the data lines. -/
def BusFact (K : Pins → Prop) : Prop :=
  ∀ p q, pinAt q .oe = pinAt p .oe → (∀ i, (pinAt q (.dl i)).dir = (pinAt p (.dl i)).dir) → K p → K q

theorem busFact_true : BusFact fun _ => True := fun _ _ _ _ _ => trivial

theorem busFact_oeHigh : BusFact OeHigh := fun _ _ ho _ h => by
  unfold OeHigh drives presented at *
  rwa [ho]

theorem busFact_busIn : BusFact BusIn := fun _ _ _ hd h i => (hd i).trans (h i)

/-- Steps that leave OE# and the directions of the data lines alone. -/
theorem calm_aside {K : Pins → Prop} (hK : BusFact K) {ops : List PinOp}
    (h : ∀ op ∈ ops, op.role ≠ some .oe ∧ (op.keepsDirections = true ∨ ∀ i, op.role ≠ some (.dl i))) :
    Calm K K (runOps ops) := by
  refine calm_runOps fun op hop p hc hk _ => ?_
  obtain ⟨h1, h2⟩ := h op hop
  have ho : pinAt (op.onPins p) .oe = pinAt p .oe := PinOp.onPins_other h1 p
  have hd : ∀ i, (pinAt (op.onPins p) (.dl i)).dir = (pinAt p (.dl i)).dir := fun i => by
    rcases h2 with h2 | h2
    · exact PinOp.onPins_dir h2 p _
    · rw [PinOp.onPins_other (h2 i) p]
  exact ⟨(contending_congr ho hd).trans hc, hK p _ ho hd hk⟩

theorem calm_setaddr {K : Pins → Prop} (hK : BusFact K) (c : Config) (a : Addr) : Calm K K (runOps (setaddrOps c a)) :=
  calm_aside hK fun op hop => ⟨fun e => oe_notin_modeLines c (setaddrOps_role hop e),
    .inl (setaddrOps_keepsDirections c a op hop)⟩

/-- `BUSDIR IN` is safe anywhere and leaves the bus an input (70_reset_and_hazards.md R298). -/
theorem calm_busdir_in : Calm (fun _ => True) BusIn (runOps (busdirOps .input)) := by
  have hsafe : ∀ i p, contending p = false → contending (setDirPins p (.dl i) .input) = false := by
    intro i p hc
    have ho : pinAt (setDirPins p (.dl i) .input) .oe = pinAt p .oe := pinAt_putPin_of_ne (by simp)
    have hd : ∀ j d, (pinAt (setDirPins p (.dl i) .input) (.dl j)).dir = some d →
        d = .input ∨ (pinAt p (.dl j)).dir = some d := by
      intro j d h
      rw [pinAt_setDirPins_dir] at h
      split at h
      · exact .inl (Option.some.inj h).symm
      · exact .inr h
    simp only [contending, Bool.or_eq_false_iff, Bool.and_eq_false_iff, decide_eq_false_iff_not, ne_eq,
      not_not, Bool.not_eq_false', List.any_eq_false, decide_eq_true_eq] at hc ⊢
    have hdr : ∀ l, drives (setDirPins p (.dl i) .input) .oe l = drives p .oe l := by
      intro l; unfold drives presented; rw [ho]
    rw [hdr, hdr]
    refine ⟨?_, ?_⟩
    · rcases hc.1 with h | h
      · exact .inl h
      · refine .inr (busDir_input fun j => ?_)
        rw [pinAt_setDirPins_dir]
        split
        · rfl
        · exact input_of_busDir h j
    · rcases hc.2 with h | h
      · exact .inl h
      · refine .inr fun j hj hjd => ?_
        rcases hd j _ hjd with h' | h'
        · cases h'
        · exact h j hj h'
  have key : ∀ is : List (Fin 8), ∀ done : List (Fin 8),
      Calm (fun p => ∀ i ∈ done, (pinAt p (.dl i)).dir = some .input)
        (fun p => ∀ i ∈ done ++ is, (pinAt p (.dl i)).dir = some .input)
        (runOps (is.map fun i => .setDir (.dl i) .input)) := by
    intro is
    induction is with
    | nil => intro done; rw [List.append_nil]; exact calm_pure ()
    | cons i is ih =>
      intro done
      have h1 : Calm (fun p => ∀ j ∈ done, (pinAt p (.dl j)).dir = some .input)
          (fun p => ∀ j ∈ done ++ [i], (pinAt p (.dl j)).dir = some .input)
          (runOp (.setDir (.dl i) .input)) := by
        refine calm_runOp fun p hc hk _ => ⟨hsafe i p hc, fun j hj => ?_⟩
        simp only [PinOp.onPins]
        rw [pinAt_setDirPins_dir]
        split
        · rfl
        next hne =>
          rcases List.mem_append.mp hj with hj | hj
          · exact hk j hj
          · simp only [List.mem_cons, List.not_mem_nil, or_false] at hj
            exact absurd (congrArg Role.dl hj) hne
      have h2 := ih (done ++ [i])
      rw [List.append_assoc, List.singleton_append] at h2
      exact calm_bind h1 fun _ => h2
  exact calm_weaken (key dataLines []) (fun _ _ _ h => by cases h) fun p h i => h i (dataLines_mem i)

/-- Driving OE# high is safe anywhere. -/
theorem calm_oe_high {K : Pins → Prop} : Calm K OeHigh (runOp (.drive .oe true)) :=
  calm_runOp fun p _ _ hd => by
    have h : drives (drivePins p .oe true) .oe true = true :=
      drives_of ((pinAt_drivePins_dir ..).trans hd) (by simp [pinAt_drivePins_out])
    exact ⟨contending_of_high h, h⟩

/-- Any drive of OE# is safe while the bus is an input. -/
theorem calm_oe_busIn (l : Level) : Calm BusIn BusIn (runOp (.drive .oe l)) :=
  calm_runOp fun p _ hk _ => by
    have h : BusIn (drivePins p .oe l) := fun i => (pinAt_drivePins_dir ..).trans (hk i)
    exact ⟨contending_of_busIn h, h⟩

theorem calm_busdir_out : Calm OeHigh OeHigh (runOps (busdirOps .output)) :=
  calm_runOps fun op hop p _ hk _ => by
    obtain ⟨i, hi⟩ := busdirOps_role hop
    have ho : pinAt (op.onPins p) .oe = pinAt p .oe := PinOp.onPins_other (by rw [hi]; simp) p
    have h : OeHigh (op.onPins p) := by
      unfold OeHigh drives presented at *
      rwa [ho]
    exact ⟨contending_of_high h, h⟩

/-! ### The commands -/

theorem calm_runWith {K K' : Pins → Prop} {f : Config → List PinOp} (h : ∀ c, Calm K K' (runOps (f c))) :
    Calm K K' (runWith f) := calm_bind calm_get fun s => h s.cfg

theorem calm_checkRange {K : Pins → Prop} (a : Addr) : Calm K K (checkRange a) := by
  intro s hs
  unfold checkRange
  split
  · exact calm_raise _ _ s hs
  · exact ⟨fun _ _ e => (by cases e; exact hs), fun _ _ e => by cases e⟩

theorem calm_setAddress {K : Pins → Prop} (hK : BusFact K) (a : Addr) : Calm K K (setAddress a) := by
  refine calm_bind (calm_checkRange a) fun _ => calm_bind calm_get fun s => ?_
  split
  · exact calm_raise _ _
  · exact calm_setaddr hK s.cfg a

theorem calm_requireBus {K : Pins → Prop} (d : Direction) : Calm K K (requireBus d) := by
  intro s hs
  unfold requireBus
  split
  · exact calm_raise _ _ s hs
  · exact ⟨fun _ _ e => (by cases e; exact hs), fun _ _ e => by cases e⟩

theorem calm_sample {K : Pins → Prop} (r : Role) : Calm K K (sample r) := by
  intro s hs
  unfold sample
  split
  · split
    · have h := calm_emit (K := fun p => K p ∧ p = s.pins) (K' := K)
        (u := fun t => { t with env := (s.env.pinIn s.pins r).2 }) (.smp r (s.env.pinIn s.pins r).1) (fun u hu => by
          obtain ⟨hu1, hu2, hu3⟩ := hu
          exact ⟨⟨(Env.pinIn_contention s.pins r s.env).trans hs.1.1, hu1.2⟩, hu2⟩) s ⟨hs.1, hs.2, rfl⟩
      dsimp only
      split
      next h1 => exact ⟨fun _ _ e => (by cases e; exact h.1 _ _ h1), fun _ _ e => by cases e⟩
      next h1 => exact ⟨fun _ _ e => (by cases e), fun _ _ e => by cases e; exact h.2 _ _ h1⟩
    · exact calm_raise _ _ s hs
  · exact calm_raise _ _ s hs

theorem calm_sampleLines {K : Pins → Prop} (is : List (Fin 8)) : Calm K K (sampleLines is) := by
  induction is with
  | nil => exact calm_pure _
  | cons i is ih => exact calm_bind (calm_sample _) fun _ => calm_bind ih fun _ => calm_pure _

theorem calm_busRead {K : Pins → Prop} : Calm K K busRead :=
  calm_bind (calm_requireBus _) fun _ => calm_bind (calm_sampleLines _) fun _ =>
    calm_bind (calm_modify (fun _ => rfl) fun _ => rfl) fun _ => calm_pure _

theorem calm_busWrite {K : Pins → Prop} (hK : BusFact K) (v : Byte) : Calm K K (busWrite v) :=
  calm_bind (calm_requireBus _) fun _ => calm_aside hK fun op hop => by
    obtain ⟨i, hi⟩ := busDriveOps_role hop
    exact ⟨by rw [hi]; simp, .inl (busDriveOps_keepsDirections v op hop)⟩

theorem calm_drive_we {K : Pins → Prop} (hK : BusFact K) (l : Level) : Calm K K (runOps [.drive .we l]) :=
  calm_aside hK fun op hop => by
    simp only [List.mem_cons, List.not_mem_nil, or_false] at hop
    subst hop
    exact ⟨by simp [PinOp.role], .inl rfl⟩

/-- A read cycle never contends, from any safe state (43_sequencer.md R186, 70_reset_and_hazards.md R298). -/
theorem calm_readCycle (a : Addr) : Calm (fun _ => True) (fun _ => True) (readCycle a) := by
  have hlead : ∀ c, Calm (fun _ => True) BusIn (runOps (readLead c)) := by
    intro c
    refine calm_append calm_busdir_in ?_
    refine calm_bind (calm_runOp fun p _ hk _ => ?_) fun _ => calm_bind (calm_oe_busIn true) fun _ =>
      calm_aside busFact_busIn ?_
    · have h : BusIn (drivePins p .we true) := fun i => (pinAt_drivePins_dir ..).trans (hk i)
      exact ⟨contending_of_busIn h, h⟩
    · simp [PinOp.role, PinOp.keepsDirections]
  have hopen : ∀ c, Calm BusIn BusIn (runOps (readOpen c)) := by
    intro c
    refine calm_append (a := [.delay (tSettle c), .enter .reading]) (b := [.drive .oe false, .delay (tSettle c)])
      (calm_aside busFact_busIn (by simp [PinOp.role, PinOp.keepsDirections])) ?_
    exact calm_bind (calm_oe_busIn false) fun _ =>
      calm_aside busFact_busIn (by simp [PinOp.role, PinOp.keepsDirections])
  have hclose : ∀ c, Calm BusIn BusIn (runOps (readClose c)) := by
    intro c
    exact calm_bind (calm_oe_busIn true) fun _ =>
      calm_aside busFact_busIn (by simp [PinOp.role, PinOp.keepsDirections])
  exact calm_bind (calm_checkRange a) fun _ => calm_bind (calm_runWith hlead) fun _ =>
    calm_bind (calm_setAddress busFact_busIn a) fun _ => calm_bind (calm_runWith hopen) fun _ =>
      calm_bind calm_busRead fun _ => calm_bind (calm_runWith hclose) fun _ =>
        calm_weaken (calm_pure _) (fun _ h => h) fun _ _ => trivial

/-- A write cycle never contends, from any safe state (43_sequencer.md R190, 70_reset_and_hazards.md R298). -/
theorem calm_writeCycle (a : Addr) (v : Byte) : Calm (fun _ => True) (fun _ => True) (writeCycle a v) := by
  have hlead : ∀ c, Calm (fun _ => True) OeHigh (runOps (writeLead c)) := by
    intro c
    refine calm_append (calm_append ?_ calm_busdir_out)
      (calm_aside busFact_oeHigh (by simp [PinOp.role, PinOp.keepsDirections]))
    refine calm_append (a := [.drive .we true]) (b := [.drive .oe true, .delay (tSettle c)])
      (calm_drive_we busFact_true true) ?_
    exact calm_bind calm_oe_high fun _ =>
      calm_aside busFact_oeHigh (by simp [PinOp.role, PinOp.keepsDirections])
  have hpulse : ∀ c, Calm OeHigh OeHigh (runOps (writePulse c)) := fun c =>
    calm_aside busFact_oeHigh (by simp [writePulse, PinOp.role, PinOp.keepsDirections])
  exact calm_bind (calm_checkRange a) fun _ => calm_bind (calm_runWith hlead) fun _ =>
    calm_bind (calm_setAddress busFact_oeHigh a) fun _ => calm_bind (calm_busWrite busFact_oeHigh v) fun _ =>
      calm_weaken (calm_runWith hpulse) (fun _ h => h) fun _ _ => trivial

/-- The idle setup never contends, from any safe state (43_sequencer.md R183, 70_reset_and_hazards.md R298). -/
theorem calm_idleSetup : Calm (fun _ => True) (fun _ => True) idleSetup := by
  refine calm_weaken (K' := BusIn) (calm_runWith fun c => ?_) (fun _ h => h) fun _ _ => trivial
  have hset : ∀ r l, r = Role.we ∨ r = Role.oe ∨ r ∈ modeLines c → Calm BusIn BusIn (runOps (setUp r l)) := by
    intro r l hr
    have hne : ∀ i, r ≠ .dl i := by
      rcases hr with rfl | rfl | h
      · simp
      · simp
      · exact ne_dl_of_modeLines h
    refine calm_runOps fun op hop p _ hk _ => ?_
    have h : BusIn (op.onPins p) := fun i => by
      rw [PinOp.onPins_other (by rw [setUp_role hop]; exact fun e => hne i (Option.some.inj e)) p]
      exact hk i
    exact ⟨contending_of_busIn h, h⟩
  have hlines : ∀ rs : List Role, (∀ r ∈ rs, r ∈ modeLines c) →
      Calm BusIn BusIn (runOps (rs.flatMap fun r => setUp r false)) := by
    intro rs
    induction rs with
    | nil => intro _; exact calm_pure ()
    | cons r rs ih =>
      intro h
      rw [List.flatMap_cons]
      exact calm_append (hset r _ (.inr (.inr (h r List.mem_cons_self)))) (ih fun x hx => h x (List.mem_cons_of_mem _ hx))
  exact calm_append (calm_append (calm_append (calm_append calm_busdir_in (hset _ _ (.inl rfl)))
    (hset _ _ (.inr (.inl rfl)))) (hlines _ fun _ h => h))
    (calm_aside busFact_busIn (by simp [PinOp.role, PinOp.keepsDirections]))

theorem calm_quiet {K : Pins → Prop} (e : Event) : Calm K K (emit e id) := calm_emit e fun _ h => h

theorem calm_writeAll (l : List (Addr × Byte)) : Calm (fun _ => True) (fun _ => True) (writeAll l) := by
  induction l with
  | nil => exact calm_pure ()
  | cons x l ih => exact calm_bind (calm_writeCycle x.1 x.2) fun _ => ih

theorem calm_readIdentity (l : List (Fin 4 × Addr)) : Calm (fun _ => True) (fun _ => True) (readIdentity l) := by
  induction l with
  | nil => exact calm_pure ()
  | cons x l ih =>
    exact calm_bind (calm_readCycle x.2) fun _ => calm_bind (calm_modify (fun _ => rfl) fun _ => rfl) fun _ => ih

theorem calm_closingBus {x : Act Unit} (h : Calm (fun _ => True) (fun _ => True) x) :
    Calm (fun _ => True) (fun _ => True) (closingBus x) := by
  intro s hs
  obtain ⟨h1, h2⟩ := h s hs
  have hb : ∀ t, BusSafe t → (∀ a u, runOps (busdirOps .input) t = .ok a u → BusSafe u)
      ∧ ∀ e u, runOps (busdirOps .input) t = .error e u → BusSafe u := fun t ht =>
    ⟨fun a u e => ((calm_busdir_in t ⟨ht, trivial⟩).1 a u e).1, (calm_busdir_in t ⟨ht, trivial⟩).2⟩
  unfold closingBus
  cases hx : x s with
  | ok a t =>
    have := hb t (h1 _ _ hx).1
    exact ⟨fun a u e => ⟨this.1 a u e, trivial⟩, this.2⟩
  | error e t =>
    have ht := h2 _ _ hx
    cases e with
    | killed => exact ⟨fun _ _ e => (by cases e), fun _ _ e => by cases e; exact ht⟩
    | fault c i =>
      have := hb t ht
      dsimp only
      cases hr : runOps (busdirOps .input) t with
      | ok a u => exact ⟨fun _ _ e => (by cases e), fun _ _ e => by cases e; exact this.1 _ _ hr⟩
      | error e u =>
        cases e with
        | killed => exact ⟨fun _ _ e => (by cases e), fun _ _ e => by cases e; exact this.2 _ _ hr⟩
        | fault c' i' => exact ⟨fun _ _ e => (by cases e), fun _ _ e => by cases e; exact this.2 _ _ hr⟩

/-- `IDQUERY` never contends (44_composite.md R212, 70_reset_and_hazards.md R298). -/
theorem calm_identityQuery : Calm (fun _ => True) (fun _ => True) identityQuery :=
  calm_bind calm_idleSetup fun _ => calm_bind (calm_closingBus (calm_bind (calm_writeAll _) fun _ =>
    calm_bind (calm_readIdentity _) fun _ => calm_writeCycle _ _)) fun _ =>
      calm_bind calm_get fun _ => calm_bind (calm_quiet _) fun _ => calm_pure _

theorem calm_sinkWrite {K : Pins → Prop} (v : Byte) : Calm K K (sinkWrite v) := by
  intro s hs
  have h := calm_emit (K := K) (K' := K) (u := State.afterSink) (.sink v s.sinkAnswer) (fun u hu => by
    unfold SafeWith BusSafe at *
    rwa [State.afterSink_env, State.afterSink_pins]) s hs
  unfold sinkWrite
  split
  next h1 => exact ⟨fun _ _ e => (by cases e; exact h.1 _ _ h1), fun _ _ e => by cases e⟩
  next h1 => exact ⟨fun _ _ e => (by cases e), fun _ _ e => by cases e; exact h.2 _ _ h1⟩

/-- A turn of `DUMP` never contends (44_composite.md R215, 70_reset_and_hazards.md R298). -/
theorem calm_dumpTurn : Calm (fun _ => True) (fun _ => True) dumpTurn := by
  refine calm_bind calm_get fun s => calm_bind (calm_readCycle _) fun v => calm_bind (calm_sinkWrite v) fun ok => ?_
  split
  · split
    · exact calm_bind (calm_quiet _) fun _ => calm_pure _
    · exact calm_bind (calm_modify (fun _ => rfl) fun _ => rfl) fun _ => calm_pure _
  · exact calm_bind (calm_quiet _) fun _ => calm_raise _ _

theorem calm_dumpStart : Calm (fun _ => True) (fun _ => True) dumpStart :=
  calm_bind calm_idleSetup fun _ => calm_bind (calm_modify (fun _ => rfl) fun _ => rfl) fun _ => calm_dumpTurn

/-- Calm pseudocode leaves a command bus-safe (60_exceptions.md R273, 70_reset_and_hazards.md R298). -/
theorem settle_safe {x : Act Progress} {K : Pins → Prop} (h : Calm (fun _ => True) K x) {s : State} (hs : BusSafe s) :
    BusSafe (settle (x s)) := by
  obtain ⟨h1, h2⟩ := h s ⟨hs, trivial⟩
  cases hx : x s with
  | ok p t =>
    have ht := (h1 _ _ hx).1
    cases p with
    | done p => simp only [settle]; split <;> exact ht
    | more j => exact ht
  | error e t =>
    have ht := h2 _ _ hx
    cases e with
    | killed => exact ht
    | fault c i => simp only [settle]; split <;> exact ht

end Sys2Proof.Machine
end

