-- ==== Sys2Proof/Laws/Chip.lean ====
section
/-! SUPPORT. The attached chip behind the idle setup and behind the composite commands. -/

namespace Sys2Proof.Machine

/-! ### The read mode is kept by everything but WE# (20_memory.md R68, R77) -/

theorem Env.chooseByte_array {e : Env} {p : Pins} (h : e.fmode = .array) : (e.chooseByte p).fmode = .array := by
  unfold Env.chooseByte
  split
  · exact h
  · split
    · exact h
    · split
      · rw [Env.memRead_array h]
        exact h
      · exact h

theorem Env.react_array {e : Env} {p : Pins} (h : e.fmode = .array) : (e.react p).fmode = .array := by
  unfold Env.react
  split
  · have hc := Env.chooseByte_array (p := p) h
    rcases (e.chooseByte p).strayRead_cases p with h' | ⟨h', -⟩
    · simp only [h', hc]
    · rw [hc] at h'; cases h'
  · exact h

/-- In the read mode, a step that is no step of WE# keeps it. -/
theorem PinOp.onEnv_array {c : Config} {p : Pins} {e : Env} {op : PinOp} (h : e.fmode = .array)
    (hr : op.role ≠ some .we) : (op.onEnv c p e).fmode = .array := by
  cases op with
  | setDir r d =>
    have hne : r ≠ .we := fun e => hr (congrArg some e)
    refine Env.react_array ?_
    rw [(Env.lineSetDir_sameChip p d _ hne).fmode, (e.pathSetDir_sameChip c p r d).fmode, h]
  | drive r l =>
    have hne : r ≠ .we := fun e => hr (congrArg some e)
    refine Env.react_array ?_
    have h1 := ((e.pathDrive_sameChip c p r l).trans (Env.enterShift_sameChip false _)).fmode.trans h
    unfold Env.lineDrive
    cases r <;> first | exact h1 | exact absurd rfl hne
  | shift r l =>
    have hne : r ≠ .we := fun e => hr (congrArg some e)
    refine Env.react_array ?_
    have h1 := ((e.pathDrive_sameChip c p r l).trans (Env.enterShift_sameChip true _)).fmode.trans h
    unfold Env.lineDrive
    cases r <;> first | exact h1 | exact absurd rfl hne
  | delay us => exact h
  | enter f => exact h
  | address a => exact Env.react_array h

theorem envAfter_array {c : Config} {ops : List PinOp} {p : Pins} {e : Env} (h : e.fmode = .array)
    (hr : ∀ op ∈ ops, op.role ≠ some .we) : (envAfter c ops p e).fmode = .array := by
  induction ops generalizing p e with
  | nil => exact h
  | cons op ops ih =>
    exact ih (PinOp.onEnv_array h (hr op List.mem_cons_self)) fun o ho => hr o (List.mem_cons_of_mem _ ho)

/-- Under `WE_IDLE_HIGH`, WE# made an output and driven high is no write, unless it was held low (20_memory.md R77). -/
theorem envAfter_setUp_we {c : Config} {p : Pins} {e : Env} (h : e.fmode = .array) (hi : e.weIdleHigh = true)
    (hw : drives p .we false = false) : (envAfter c (setUp .we true) p e).fmode = .array := by
  have h1 : (e.onSetDir c p .we .output).fmode = .array := by
    refine Env.react_array ?_
    have hs := e.pathSetDir_same c p .we .output
    have hf := (e.pathSetDir_sameChip c p .we .output).fmode.trans h
    simp only [Env.lineSetDir]
    split
    · rw [Env.writeEnableLoose, hs.weIdleHigh, hi, hw]
      exact hf
    · exact hf
  have h2 := (e.onSetDir_same c p .we .output).weIdleHigh.trans hi
  have ho : ((pinAt (setDirPins p .we .output) .we).out).getD true = true := by
    rw [pinAt_setDirPins_out]
    split
    · rfl
    next hn =>
      simp only [true_and, ne_eq, not_not] at hn
      simp only [drives, presented, hn, if_true, decide_eq_false_iff_not] at hw
      cases hx : (pinAt p .we).out with
      | none => rfl
      | some l => cases l <;> simp_all
  simp only [setUp, envAfter, PinOp.onEnv, PinOp.onPins]
  generalize e.onSetDir c p .we .output = f at h1 h2
  refine Env.react_array ?_
  have hp := Env.pathDrive_we c (setDirPins p .we .output) true f
  rw [hp, Env.enterShift, if_neg Bool.false_ne_true, Env.lineDrive]
  split
  · simp only [Env.writeEnableDrive, h2, if_true, ho]
    exact h1
  · exact h1

/-- The idle setup leaves a chip that is ready in its read mode (43_sequencer.md R183, 20_memory.md R77). -/
theorem idleSetup_chip {s : State} (hv : validConfig s.cfg = true) (hk : s.killIn = none) (h : ChipReady s) :
    (s.ran (idleSetupOps s.cfg)).env.fmode = .array ∧ (s.ran (idleSetupOps s.cfg)).env.contention = false := by
  obtain ⟨-, hi, hm, hw, hc, hp⟩ := h
  have hrun := idleSetup_ready hk (valid_required hv)
  refine ⟨?_, ((calm_idleSetup s ⟨⟨hc, hp⟩, trivial⟩).1 _ _ hrun).1.1⟩
  have hne : ∀ op ∈ setUp Role.oe true ++ ((modeLines s.cfg).flatMap fun r => setUp r false)
      ++ [.enter .idle, .address none], op.role ≠ some .we := by
    intro op hop e
    simp only [List.mem_append] at hop
    rcases hop with (hop | hop) | hop
    · rw [setUp_role hop] at e; cases e
    · obtain ⟨r, hr, hop⟩ := List.mem_flatMap.mp hop
      rw [setUp_role hop] at e
      cases e
      exact we_notin_modeLines _ hr
    · simp only [List.mem_cons, List.not_mem_nil, or_false] at hop
      rcases hop with rfl | rfl <;> cases e
  have e : idleSetupOps s.cfg = busdirOps .input ++ (setUp .we true ++ (setUp .oe true
      ++ ((modeLines s.cfg).flatMap fun r => setUp r false) ++ [.enter .idle, .address none])) := by
    simp only [idleSetupOps, List.append_assoc]
  have h1 : (envAfter s.cfg (busdirOps .input) s.pins s.env).fmode = .array :=
    envAfter_array hm fun op hop e => by
      obtain ⟨i, hi⟩ := busdirOps_role hop
      rw [hi] at e; cases e
  have h2 := (envAfter_same s.cfg (busdirOps .input) s.pins s.env).weIdleHigh.trans hi
  rw [State.ran_env, e, envAfter_append, envAfter_append]
  refine envAfter_array (envAfter_setUp_we h1 h2 ?_) hne
  rw [drives, presented, pinsAfter_busdir_other (by simp)]
  exact hw

/-- In its identity mode the chip answers its four identity bytes and stays there (20_memory.md R68). -/
theorem Env.memRead_identity {e : Env} (h : e.fmode = .autoselect) :
    e.memRead 0x00 = (e.flashId[0], e) ∧ e.memRead 0x02 = (e.flashId[1], e)
      ∧ e.memRead 0x1C = (e.flashId[2], e) ∧ e.memRead 0x1E = (e.flashId[3], e) := by
  unfold Env.memRead
  simp [h]

/-- The chip is behind pins that are ready for cycles, in this mode and without contention. -/
structure State.ChipAt (s : State) (m : FlashMode) : Prop where
  cycling : s.Cycling
  high : s.ControlsHigh
  wiring : s.env.wiring = .flash
  fmode : s.env.fmode = m
  calm : s.env.contention = false

theorem State.ChipAt.idleSetup {s : State} (hv : validConfig s.cfg = true) (hk : s.killIn = none) (h : ChipReady s) :
    (s.ran (idleSetupOps s.cfg)).ChipAt .array := by
  obtain ⟨h1, h2⟩ := idleSetup_chip hv hk h
  refine ⟨.idleSetup hv hk, (ran_idleSetup_setUp (valid_required hv)).2, ?_, h1, h2⟩
  rw [State.ran_env, (envAfter_same _ _ _ _).wiring]
  exact h.1

theorem State.ChipAt.write {s : State} {m : FlashMode} (h : s.ChipAt m) (a : Addr) (v : Byte) :
    (s.ran (writeOps s.cfg a v)).ChipAt (m.afterWrite a v) := by
  obtain ⟨h1, h2, -⟩ := envAfter_writeOps a v h.cycling.setUp h.high h.wiring
  refine ⟨h.cycling.write a v, (afterWrite_ends a v (valid_addrBits h.cycling.valid).1).2.1, ?_, ?_, ?_⟩
  · rw [State.ran_env, (envAfter_same _ _ _ _).wiring]
    exact h.wiring
  · rw [State.ran_env, h1, h.fmode]
  · rw [State.ran_env, h2, h.calm]

theorem State.ChipAt.read {s : State} {m : FlashMode} (h : s.ChipAt m) {a : Addr} {v : Byte}
    (hr : ∀ e : Env, e.fmode = m → s.env.Same e → e.memRead a = (v, e)) :
    (s.afterRead a).ChipAt m ∧ s.readByte a = v := by
  obtain ⟨h1, h2, h3, -⟩ := afterRead_chip h.cycling.setUp h.high h.wiring h.calm fun e he hs =>
    hr e (he.trans h.fmode) hs
  refine ⟨⟨h.cycling.read a, (afterRead_ends a (valid_addrBits h.cycling.valid).1).2.1, ?_, h2.trans h.fmode, h3⟩, h1⟩
  exact (afterRead_keeps s a).1.2.2.1.trans h.wiring

/-- In the read mode a cycle answers the chip's byte (20_memory.md R68). -/
theorem State.ChipAt.read_array {s : State} (h : s.ChipAt .array) (a : Addr) :
    (s.afterRead a).ChipAt .array ∧ s.readByte a = s.env.flashByte a :=
  h.read fun e he hs => by
    rw [Env.memRead_array he, Env.flashByte, hs.flash]
    rfl

end Sys2Proof.Machine
end

