-- ==== Sys2Proof/Laws/Decode.lean ====
section
/-! SUPPORT. Words as numbers: the fields of an assembled word, and a word assembled again from its fields. -/

namespace Sys2Proof

theorem assemble_toNat (op : BitVec 8) (a : Addr) (d : Byte) :
    (assemble op a d).toNat = op.toNat * 2 ^ 32 + a.toNat * 2 ^ 8 + d.toNat := by
  have ha := a.isLt
  have hd := d.isLt
  have h1 : (op ++ a).toNat = op.toNat * 2 ^ 24 + a.toNat := by
    rw [BitVec.toNat_append, ← Nat.shiftLeft_add_eq_or_of_lt ha, Nat.shiftLeft_eq]
  have h2 : (op ++ a ++ d).toNat = (op ++ a).toNat * 2 ^ 8 + d.toNat := by
    rw [BitVec.toNat_append, ← Nat.shiftLeft_add_eq_or_of_lt hd, Nat.shiftLeft_eq]
  change (op ++ a ++ d).toNat = _
  rw [h2, h1]
  ring

theorem CmdWord.op_toNat (w : CmdWord) : w.op.toNat = w.toNat / 2 ^ 32 := by
  have := w.isLt
  simp only [CmdWord.op, BitVec.extractLsb'_toNat, Nat.shiftRight_eq_div_pow]
  omega

theorem CmdWord.addr_toNat (w : CmdWord) : w.addr.toNat = w.toNat / 2 ^ 8 % 2 ^ 24 := by
  simp only [CmdWord.addr, BitVec.extractLsb'_toNat, Nat.shiftRight_eq_div_pow]

theorem CmdWord.data_toNat (w : CmdWord) : w.data.toNat = w.toNat % 2 ^ 8 := by
  simp [CmdWord.data, BitVec.extractLsb'_toNat]

@[simp] theorem assemble_op (op : BitVec 8) (a : Addr) (d : Byte) : (assemble op a d).op = op := by
  apply BitVec.eq_of_toNat_eq
  rw [CmdWord.op_toNat, assemble_toNat]
  have := a.isLt; have := d.isLt; omega

@[simp] theorem assemble_addr (op : BitVec 8) (a : Addr) (d : Byte) : (assemble op a d).addr = a := by
  apply BitVec.eq_of_toNat_eq
  rw [CmdWord.addr_toNat, assemble_toNat]
  have := a.isLt; have := d.isLt; omega

@[simp] theorem assemble_data (op : BitVec 8) (a : Addr) (d : Byte) : (assemble op a d).data = d := by
  apply BitVec.eq_of_toNat_eq
  rw [CmdWord.data_toNat, assemble_toNat]
  have := d.isLt; omega

/-- Every word is assembled from its three fields (30_encoding.md R90). -/
theorem assemble_fields (w : CmdWord) : assemble w.op w.addr w.data = w := by
  apply BitVec.eq_of_toNat_eq
  rw [assemble_toNat, CmdWord.op_toNat, CmdWord.addr_toNat, CmdWord.data_toNat]
  omega

/-- Field `role` is the low six bits of field `a` (30_encoding.md R91). -/
theorem CmdWord.role_eq (w : CmdWord) : w.role = w.addr.extractLsb' 0 6 := by
  apply BitVec.eq_of_toNat_eq
  simp only [CmdWord.role, BitVec.extractLsb'_toNat, CmdWord.addr_toNat, Nat.shiftRight_eq_div_pow]
  omega

/-- Field `lvl` is bit 0 of field `d` (30_encoding.md R91). -/
theorem CmdWord.getLsbD_zero (w : CmdWord) : w.getLsbD 0 = w.data.getLsbD 0 := by simp [CmdWord.data]

@[simp] theorem roleField_extract (r : RoleIndex) : (roleField r).extractLsb' 0 6 = r := by
  apply BitVec.eq_of_toNat_eq
  have := r.isLt
  simp only [roleField, BitVec.extractLsb'_toNat, BitVec.truncate_eq_setWidth, BitVec.toNat_setWidth]
  omega

@[simp] theorem roleField_high (r : RoleIndex) : (roleField r).extractLsb' 6 18 = 0 := by
  apply BitVec.eq_of_toNat_eq
  have := r.isLt
  simp only [roleField, BitVec.extractLsb'_toNat, BitVec.truncate_eq_setWidth, BitVec.toNat_setWidth,
    Nat.shiftRight_eq_div_pow, BitVec.ofNat_eq_ofNat, BitVec.toNat_ofNat]
  omega

/-- An address field with clear high bits is the field of its role (30_encoding.md R91). -/
theorem roleField_of_high {a : Addr} (h : a.extractLsb' 6 18 = 0) : roleField (a.extractLsb' 0 6) = a := by
  apply BitVec.eq_of_toNat_eq
  have h' := congrArg BitVec.toNat h
  have := a.isLt
  simp only [BitVec.extractLsb'_toNat, Nat.shiftRight_eq_div_pow, BitVec.ofNat_eq_ofNat, BitVec.toNat_ofNat] at h'
  simp only [roleField, BitVec.extractLsb'_toNat, BitVec.truncate_eq_setWidth, BitVec.toNat_setWidth,
    Nat.shiftRight_eq_div_pow]
  omega

/-- A data field with clear high bits is its bit 0 (30_encoding.md R91). -/
theorem levelField_of_high : ∀ d : Byte, d.extractLsb' 1 7 = 0 → levelField (d.getLsbD 0) = d := by decide

/-- The same as a direction (30_encoding.md R93). -/
theorem directionField_of_high :
    ∀ d : Byte, d.extractLsb' 1 7 = 0 → directionField (if d.getLsbD 0 then .output else .input) = d := by decide

/-! ### Masks -/

/-- A word meets a mask and pattern field by field. -/
theorem masked_iff (w m p : CmdWord) :
    w &&& m = p ↔ w.op &&& m.op = p.op ∧ w.addr &&& m.addr = p.addr ∧ w.data &&& m.data = p.data := by
  have h1 : (w &&& m).op = w.op &&& m.op := BitVec.extractLsb'_and ..
  have h2 : (w &&& m).addr = w.addr &&& m.addr := BitVec.extractLsb'_and ..
  have h3 : (w &&& m).data = w.data &&& m.data := BitVec.extractLsb'_and ..
  rw [← h1, ← h2, ← h3]
  refine ⟨fun h => by rw [h]; exact ⟨rfl, rfl, rfl⟩, fun ⟨ho, ha, hd⟩ => ?_⟩
  rw [← assemble_fields (w &&& m), ← assemble_fields p, ho, ha, hd]

theorem opMask (o : BitVec 8) : o &&& 0xFF = o := by revert o; decide

theorem addrMask (a : Addr) : a &&& 0xFFFFFF = a := by
  have : (0xFFFFFF : Addr) = BitVec.allOnes 24 := by decide
  rw [this, BitVec.and_allOnes]

/-- The must-be-zero bits of field `a` in formats R and RL (30_encoding.md R91). -/
theorem roleMask (a : Addr) : a &&& 0xFFFFC0 = 0 ↔ a.extractLsb' 6 18 = 0 := by
  have hm : (0xFFFFC0 : Addr) = BitVec.allOnes 18 ++ (0 : BitVec 6) := by decide
  constructor
  · intro h
    have h1 : (a &&& 0xFFFFC0).extractLsb' 6 18 = 0 := by rw [h]; decide
    rw [BitVec.extractLsb'_and] at h1
    have h2 : (0xFFFFC0 : Addr).extractLsb' 6 18 = BitVec.allOnes 18 := by decide
    rwa [h2, BitVec.and_allOnes] at h1
  · intro h
    ext i hi
    have hb : ∀ j, j < 18 → a.getLsbD (6 + j) = false := fun j hj => by
      have := congrArg (fun x : BitVec 18 => x.getLsbD j) h
      simpa [hj] using this
    by_cases h6 : i < 6
    · have : (0xFFFFC0 : Addr).getLsbD i = false := by
        have : ∀ i, i < 6 → (0xFFFFC0 : Addr).getLsbD i = false := by decide
        exact this i h6
      rw [← BitVec.getLsbD_eq_getElem, BitVec.getLsbD_and, this]; simp
    · have := hb (i - 6) (by omega)
      rw [show 6 + (i - 6) = i by omega] at this
      simp [← BitVec.getLsbD_eq_getElem, BitVec.getLsbD_and, this]

theorem dataMask (d : Byte) : d &&& 0xFF = d := by revert d; decide

/-- The must-be-zero bits of field `d` in formats L and RL (30_encoding.md R91). -/
theorem levelMask (d : Byte) : d &&& 0xFE = 0 ↔ d.extractLsb' 1 7 = 0 := by revert d; decide

/-- The must-be-zero bits of field `a`, as a mask (30_encoding.md R91). -/
def Format.addrZeros : Format → Addr
  | .n => 0xFFFFFF
  | .a => 0
  | .ad => 0
  | .d => 0xFFFFFF
  | .l => 0xFFFFFF
  | .r => 0xFFFFC0
  | .rl => 0xFFFFC0

/-- The must-be-zero bits of field `d`, as a mask (30_encoding.md R91). -/
def Format.dataZeros : Format → Byte
  | .n => 0xFF
  | .a => 0xFF
  | .ad => 0
  | .d => 0
  | .l => 0xFE
  | .r => 0xFF
  | .rl => 0xFE

theorem addrAndZero (a : Addr) : a &&& 0 = 0 := BitVec.and_zero

theorem dataAndZero (d : Byte) : d &&& 0 = 0 := BitVec.and_zero

theorem Format.zeroBits_iff (f : Format) (w : CmdWord) :
    f.zeroBitsClear w = true ↔ w.addr &&& f.addrZeros = 0 ∧ w.data &&& f.dataZeros = 0 := by
  cases f <;>
    simp only [Format.zeroBitsClear, Format.addrZeros, Format.dataZeros, Bool.and_eq_true, beq_iff_eq, addrMask,
      dataMask, roleMask, levelMask, addrAndZero, dataAndZero, true_and, and_true]

/-- A row whose mask and pattern are those of a format and an opcode is selected by the words of that opcode with the
format's must-be-zero bits clear (30_encoding.md R95, R99). -/
theorem Row.selects_iff {row : Row} {f : Format} {op : BitVec 8} (w : CmdWord)
    (hm : row.mask = assemble 0xFF f.addrZeros f.dataZeros) (hp : row.pattern = assemble op 0 0) :
    row.selects w = true ↔
      w.op = op ∧ f.zeroBitsClear w = true ∧ (row.role = true → RoleIndex.legal w.role = true) := by
  rw [Row.selects, Bool.and_eq_true, beq_iff_eq, masked_iff, hm, hp, Format.zeroBits_iff]
  simp only [assemble_op, assemble_addr, assemble_data, opMask, and_assoc]
  cases row.role <;> simp

/-- A word that a format decodes has its must-be-zero bits clear and decodes to the command asked about. -/
theorem Format.decode_ok {f : Format} {w : CmdWord} {i j : Instr} (h : f.decode w i = .ok j) :
    f.zeroBitsClear w = true ∧ i.wellFormed = true ∧ i = j := by
  unfold Format.decode at h
  split at h
  · split at h
    · cases h; exact ⟨by assumption, by assumption, rfl⟩
    · cases h
  · cases h

end Sys2Proof
end

