-- ==== Sys2Proof/Laws/Diagnostics.lean ====
section
/-! SUPPORT. The diagnostics' lines and addresses. -/

namespace Sys2Proof.Machine

/-- What a choice of lines names (45_diagnostics.md R231, R233). -/
theorem namesLine_iff {x : IoLines} {r : Role} :
    namesLine x r = true ↔ match r with
      | .dl _ => x.bus = true
      | .oe => x.oe = true
      | .we => x.we = true
      | _ => x.address = true := by
  cases r <;> rfl

/-- Which lines take part in a phase of IOTEST (45_diagnostics.md R233). -/
theorem mem_ioRoles {c : Config} {x : IoLines} {r : Role} :
    r ∈ ioRoles c x ↔ mapped c r = true ∧ match r with
      | .dl _ => x.bus = true
      | .oe => x.oe = true
      | .we => x.we = true
      | _ => x.address = true := by
  simp only [ioRoles, mappedRoles, List.mem_filter, Role.mem_all, true_and, namesLine_iff]

/-- Bit `k` of the operator's value is the level of the `k`-th line the configuration names (45_diagnostics.md R233). -/
theorem handshakeValue_bit (c : Config) (v : Byte) (k : Fin 4) :
    (handshakeValue c v).getLsbD k.val = v.getLsbD c.ioNibble[k].val := by
  have h : ∀ l0 l1 l2 l3 : Level, ∀ k : Fin 4,
      (BitVec.ofNat 4 (composeLevels [l0, l1, l2, l3])).getLsbD k.val = [l0, l1, l2, l3][k] := by decide
  rw [handshakeValue]
  generalize c.ioNibble = ns
  match ns with
  | ⟨⟨[n0, n1, n2, n3]⟩, _⟩ =>
    refine (h _ _ _ _ k).trans ?_
    match k with
    | 0 => rfl
    | 1 => rfl
    | 2 => rfl
    | 3 => rfl

theorem ioRoles_nodup (c : Config) (x : IoLines) : (ioRoles c x).Nodup :=
  ((by decide : Role.all.Nodup).filter _).filter _

/-- Steps that set no direction and act on lines made outputs are ready after them. -/
theorem outputOps_ready {c : Config} {lines : List Role} {ops : List PinOp} {p : Pins} (hn : lines.Nodup)
    (hm : ∀ r ∈ lines, mapped c r = true) (hd : ∀ op ∈ ops, op.keepsDirections = true)
    (hr : ∀ op ∈ ops, ∀ r, op.role = some r → r ∈ lines) : AllReady c (outputOps lines ++ ops) p := by
  rw [allReady_append]
  refine ⟨allReady_setDirs hm, allReady_of_static hd fun op hop => ready_of_role (hd op hop) fun r hop' => ?_⟩
  have hl := hr op hop r hop'
  refine ⟨hm r hl, ?_⟩
  rw [outputOps, pinsAfter_setDirs hn hl, pinAt_setDirPins_dir, if_pos rfl]

theorem eventsOf_outputOps (lines : List Role) :
    eventsOf (outputOps lines) = lines.map fun r => .dir r .output := eventsOf_map _ _ _ fun _ => rfl

theorem eventsOf_driveLines (c : Config) (lines : List Role) (p : BitVec 37) :
    eventsOf (driveLines c lines p) = lines.map fun r => .drv r (p.getLsbD c.outBit[r.slot].val) :=
  eventsOf_map _ _ _ fun _ => rfl

theorem eventsOf_driveLevels (lines : List Role) (levels : BitVec 37) :
    eventsOf (driveLevels lines levels) = lines.map fun r => .drv r (levels.getLsbD r.slot.val) :=
  eventsOf_map _ _ _ fun _ => rfl

theorem eventsOf_outEnd (c : Config) :
    eventsOf (outEndOps c) = (match c.outLast with
        | some levels => (outputLines c).map fun r => .drv r (levels.getLsbD r.slot.val)
        | none => [])
      ++ (releasedLines c).map fun r => .dir r .input := by
  rw [outEndOps, eventsOf_append, eventsOf_map _ _ (fun r => Event.dir r .input) fun _ => rfl]
  cases c.outLast with
  | none => rfl
  | some levels => rw [eventsOf_driveLevels]

theorem eventsOf_echo (c : Config) :
    eventsOf (echoOps c) =
      ((echoTouches c).flatMap fun x => [.dir x.1 .output, .drv x.1 x.2]) ++ busDirEvents .input := by
  rw [echoOps, eventsOf_append, eventsOf_busdir, eventsOf_flatMap]; rfl

theorem driveLines_keepsDirections {c : Config} {lines : List Role} {p : BitVec 37} :
    ∀ op ∈ driveLines c lines p, op.keepsDirections = true := by
  intro op hop
  obtain ⟨x, -, rfl⟩ := List.mem_map.mp hop
  rfl

theorem driveLines_role {c : Config} {lines : List Role} {p : BitVec 37} {op : PinOp} {r : Role}
    (h : op ∈ driveLines c lines p) (hr : op.role = some r) : r ∈ lines := by
  obtain ⟨x, hx, rfl⟩ := List.mem_map.mp h
  cases hr
  exact hx

theorem driveLevels_keepsDirections {lines : List Role} {levels : BitVec 37} :
    ∀ op ∈ driveLevels lines levels, op.keepsDirections = true := by
  intro op hop
  obtain ⟨x, -, rfl⟩ := List.mem_map.mp hop
  rfl

theorem driveLevels_role {lines : List Role} {levels : BitVec 37} {op : PinOp} {r : Role}
    (h : op ∈ driveLevels lines levels) (hr : op.role = some r) : r ∈ lines := by
  obtain ⟨x, hx, rfl⟩ := List.mem_map.mp h
  cases hr
  exact hx

theorem outputLines_nodup (c : Config) : (outputLines c).Nodup := by
  have h : ∀ n, (([.dl 0, .dl 1, .dl 2, .dl 3, .dl 4, .dl 5, .dl 6, .dl 7, .oe, .we, .asd, .asc] : List Role)
      ++ [Role.ass] ++ (directLines.take n).map Role.dal).Nodup := by
    intro n
    refine List.Sublist.nodup ?_ (by decide : Role.all.Nodup)
    exact (List.Sublist.refl _).append ((List.take_sublist n directLines).map Role.dal)
  refine List.Sublist.nodup ?_ (h (addrBits c))
  unfold outputLines
  refine ((List.Sublist.refl _).append ?_).append ?_
  · split <;> simp
  · split
    · exact List.Sublist.refl _
    · exact List.nil_sublist _

/-- The three phases of `ADDRTEST` check the addresses the rules write down (45_diagnostics.md R235, R236). -/
theorem testAddresses_eq (c : Config) : testAddresses c = checkedAddresses c := by
  have h1 : ∀ p : Byte, truncateAddr c (broadcast p) = BitVec.ofNat 24 (0x010101 * p.toNat % 2 ^ c.addrBits.toNat) := by
    intro p
    have : (broadcast p).toNat = 0x010101 * p.toNat := by
      revert p
      decide +kernel
    rw [truncateAddr, this]
    rfl
  have h2 : ∀ i : Nat, (1 : Addr) <<< i = BitVec.ofNat 24 (2 ^ i) := by
    intro i
    apply BitVec.eq_of_toNat_eq
    simp [BitVec.toNat_shiftLeft, Nat.shiftLeft_eq]
  simp only [testAddresses, checkedAddresses, h1, h2]
  rfl

theorem checkedAddresses_length (c : Config) : (checkedAddresses c).length = 40 + c.addrBits.toNat := by
  simp only [checkedAddresses, List.length_append, List.length_map, Vector.length_toList, List.length_range]
  omega

/-! ### The patterns of `OUTTEST` (45_diagnostics.md R231) -/

/-- The last of the 32 patterns stands last. -/
theorem outPatterns_last (ps : Vector (BitVec 37) 32) : ps.toList = ps.toList.take 31 ++ [ps[31]] := by
  conv => lhs; rw [← List.take_append_drop 31 ps.toList]
  congr 1
  apply List.ext_getElem
  · simp
  · intro i h _
    simp at h
    subst h
    simp

theorem OutKinds.pattern_counting {o : OutKinds} {k : Nat} (h : k < o.counts) :
    o.pattern k = o.first + BitVec.ofNat 37 k := if_pos h

theorem OutKinds.pattern_switching {o : OutKinds} {k : Nat} (h : o.counts ≤ k) (h' : k < o.counts + o.switches) :
    o.pattern k = if decide ((k - o.counts) % 2 = 0) = o.onFirst then 0x1FFFFFFFFF else 0 := by
  rw [OutKinds.pattern, if_neg (Nat.not_lt.mpr h), if_pos h']

theorem OutKinds.pattern_alternating {o : OutKinds} {k : Nat} (h : o.counts + o.switches ≤ k) :
    o.pattern k = if decide ((k - o.counts - o.switches) % 2 = 0) = o.oddFirst then 0x1555555555 else 0x0AAAAAAAAA := by
  rw [OutKinds.pattern, if_neg (Nat.not_lt.mpr ((Nat.le_add_right ..).trans h)), if_neg (Nat.not_lt.mpr h)]

@[simp] theorem OutKinds.patterns_toList (o : OutKinds) : o.patterns.toList = (List.range 32).map o.pattern := rfl

end Sys2Proof.Machine
end

