-- ==== Sys2Proof/Laws/Fsm.lean ====
section
/-! SUPPORT. The sequencer state: pseudocode that ends from `Idle` ends in `Idle` (43_sequencer.md R181, R182). -/

namespace Sys2Proof.Machine

theorem emit_fsm {e : Event} {f : State → State} {s t : State} (hf : ∀ s, (f s).fsm = s.fsm)
    (h : emit e f s = .ok () t) : t.fsm = s.fsm := by
  rcases emit_cases e f s with ⟨-, h'⟩ | ⟨-, h'⟩
  · rw [h'] at h; cases h
  · rw [h'] at h; cases h; exact hf s

theorem runOp_fsm {op : PinOp} {s t : State} (h : runOp op s = .ok () t) : t.fsm = op.onFsm s.fsm := by
  cases op with
  | setDir r d =>
    simp only [runOp, setDir] at h
    split at h
    · exact emit_fsm (f := fun t => t.afterSetDir r d) (fun _ => rfl) h
    · cases h
  | drive r l =>
    simp only [runOp, drive] at h
    split at h
    · split at h
      · exact emit_fsm (f := fun t => t.afterDrive r l false) (fun _ => rfl) h
      · cases h
    · cases h
  | shift r l =>
    simp only [runOp, drive] at h
    split at h
    · split at h
      · exact emit_fsm (f := fun t => t.afterDrive r l true) (fun _ => rfl) h
      · cases h
    · cases h
  | delay us => exact emit_fsm (fun _ => rfl) h
  | enter f => cases h; rfl
  | address a => cases h; rfl

theorem runOps_fsm {ops : List PinOp} {s t : State} (h : runOps ops s = .ok () t) : t.fsm = fsmAfter ops s.fsm := by
  induction ops generalizing s with
  | nil => cases h; rfl
  | cons op ops ih =>
    rw [runOps, act_bind] at h
    cases hop : runOp op s with
    | ok a u => rw [hop] at h; rw [ih h, runOp_fsm hop]; rfl
    | error e u => rw [hop] at h; cases h

/-- Pseudocode that ends from `Idle` ends in `Idle`. -/
def EndsIdle {α : Type} (x : Act α) : Prop := ∀ s a t, s.fsm = .idle → x s = .ok a t → t.fsm = .idle

/-- Pseudocode that ends in `Idle` wherever it starts. -/
def MakesIdle {α : Type} (x : Act α) : Prop := ∀ s a t, x s = .ok a t → t.fsm = .idle

theorem MakesIdle.endsIdle {α : Type} {x : Act α} (h : MakesIdle x) : EndsIdle x := fun s a t _ => h s a t

theorem endsIdle_bind {α β : Type} {x : Act α} {f : α → Act β} (hx : EndsIdle x) (hf : ∀ a, EndsIdle (f a)) :
    EndsIdle (x >>= f) := by
  intro s b t hs h
  rw [act_bind] at h
  cases hxs : x s with
  | ok a u => rw [hxs] at h; exact hf a u b t (hx s a u hs hxs) h
  | error e u => rw [hxs] at h; cases h

theorem makesIdle_bind {α β : Type} {x : Act α} {f : α → Act β} (hf : ∀ a, MakesIdle (f a)) : MakesIdle (x >>= f) := by
  intro s b t h
  rw [act_bind] at h
  cases hxs : x s with
  | ok a u => rw [hxs] at h; exact hf a u b t h
  | error e u => rw [hxs] at h; cases h

theorem makesIdle_bind_left {α β : Type} {x : Act α} {f : α → Act β} (hx : MakesIdle x) (hf : ∀ a, EndsIdle (f a)) :
    MakesIdle (x >>= f) := by
  intro s b t h
  rw [act_bind] at h
  cases hxs : x s with
  | ok a u => rw [hxs] at h; exact hf a u b t (hx s a u hxs) h
  | error e u => rw [hxs] at h; cases h

theorem endsIdle_pure {α : Type} (a : α) : EndsIdle (pure a : Act α) := fun _ _ _ hs h => by cases h; exact hs

theorem endsIdle_get : EndsIdle (get : Act State) := fun _ _ _ hs h => by cases h; exact hs

theorem endsIdle_raise {α : Type} (c : Cause) (i : BitVec 24) : EndsIdle (raise c i : Act α) :=
  fun _ _ _ _ h => by cases h

theorem endsIdle_modify {f : State → State} (hf : ∀ s, (f s).fsm = s.fsm) : EndsIdle (modify f : Act PUnit) :=
  fun s _ _ hs h => by cases h; exact (hf s).trans hs

theorem endsIdle_emit (e : Event) : EndsIdle (emit e id) := fun _ _ _ hs h => (emit_fsm (f := id) (fun _ => rfl) h).trans hs

theorem endsIdle_sinkWrite (v : Byte) : EndsIdle (sinkWrite v) := by
  intro s a t hs h
  unfold sinkWrite at h
  split at h
  next u hu => cases h; exact (emit_fsm (fun s => State.afterSink_fsm s) hu).trans hs
  · cases h

/-- Steps that never leave `Idle`. -/
def staysIdle (ops : List PinOp) : Bool := ops.all fun op => match op with
  | .enter f => decide (f = .idle)
  | _ => true

theorem fsmAfter_staysIdle {ops : List PinOp} (h : staysIdle ops = true) : fsmAfter ops .idle = .idle := by
  induction ops with
  | nil => rfl
  | cons op ops ih =>
    simp only [staysIdle, List.all_cons, Bool.and_eq_true] at h
    have h1 : op.onFsm .idle = .idle := by cases op <;> simp_all [PinOp.onFsm]
    rw [fsmAfter, List.foldl_cons, h1]
    exact ih h.2

theorem endsIdle_runOps {ops : List PinOp} (h : staysIdle ops = true) : EndsIdle (runOps ops) :=
  fun s a t hs ht => by rw [runOps_fsm ht, hs, fsmAfter_staysIdle h]

theorem endsIdle_runWith {f : Config → List PinOp} (h : ∀ c, staysIdle (f c) = true) : EndsIdle (runWith f) :=
  endsIdle_bind endsIdle_get fun s => endsIdle_runOps (h s.cfg)

/-- Steps whose last change of `FSM` is to `Idle` end in `Idle`. -/
theorem makesIdle_runOps {a b : List PinOp} (h : staysIdle b = true) : MakesIdle (runOps (a ++ .enter .idle :: b)) := by
  intro s x t ht
  rw [runOps_fsm ht, fsmAfter, List.foldl_append, List.foldl_cons]
  exact fsmAfter_staysIdle h

theorem makesIdle_runWith {f : Config → List PinOp} {g h : Config → List PinOp}
    (he : ∀ c, f c = g c ++ .enter .idle :: h c) (hh : ∀ c, staysIdle (h c) = true) : MakesIdle (runWith f) :=
  makesIdle_bind fun s => by rw [he]; exact makesIdle_runOps (hh s.cfg)

theorem makesIdle_idleSetup : MakesIdle idleSetup :=
  makesIdle_runWith (f := idleSetupOps) (h := fun _ => [.address none]) (fun _ => rfl) fun _ => rfl

theorem makesIdle_readCycle (a : Addr) : MakesIdle (readCycle a) :=
  makesIdle_bind fun _ => makesIdle_bind fun _ => makesIdle_bind fun _ => makesIdle_bind fun _ => makesIdle_bind fun _ =>
    makesIdle_bind_left
      (makesIdle_runWith (f := readClose) (g := fun c => [.drive .oe true, .delay (tSettle c)]) (h := fun _ => [])
        (fun _ => rfl) fun _ => rfl) fun _ => endsIdle_pure _

theorem makesIdle_writeCycle (a : Addr) (v : Byte) : MakesIdle (writeCycle a v) :=
  makesIdle_bind fun _ => makesIdle_bind fun _ => makesIdle_bind fun _ => makesIdle_bind fun _ =>
    makesIdle_runWith (f := writePulse)
      (g := fun c => [.delay (tSettle c), .enter .writing, .drive .we false, .delay (tSettle c), .drive .we true,
        .delay (tSettle c)]) (h := fun _ => []) (fun _ => rfl) fun _ => rfl

theorem staysIdle_append {a b : List PinOp} : staysIdle (a ++ b) = (staysIdle a && staysIdle b) := List.all_append

theorem staysIdle_of {ops : List PinOp} (h : ∀ op ∈ ops, ∀ f, op ≠ .enter f) : staysIdle ops = true := by
  rw [staysIdle, List.all_eq_true]
  intro op hop
  cases op with
  | enter f => exact absurd rfl (h _ hop f)
  | _ => rfl

theorem endsIdle_checkRange (a : Addr) : EndsIdle (checkRange a) := by
  intro s x t hs h
  unfold checkRange at h
  split at h <;> cases h
  exact hs

theorem endsIdle_requireBus (d : Direction) : EndsIdle (requireBus d) := by
  intro s x t hs h
  unfold requireBus at h
  split at h <;> cases h
  exact hs

theorem endsIdle_sample (r : Role) : EndsIdle (sample r) := by
  intro s x t hs h
  simp only [sample] at h
  split at h
  · split at h
    · split at h
      next u hu => cases h; exact (emit_fsm (f := fun t => { t with env := (s.env.pinIn s.pins r).2 }) (fun _ => rfl) hu).trans hs
      · cases h
    · cases h
  · cases h

theorem endsIdle_sampleLines (is : List (Fin 8)) : EndsIdle (sampleLines is) := by
  induction is with
  | nil => exact endsIdle_pure _
  | cons i is ih => exact endsIdle_bind (endsIdle_sample _) fun _ => endsIdle_bind ih fun _ => endsIdle_pure _

theorem endsIdle_busRead : EndsIdle busRead :=
  endsIdle_bind (endsIdle_requireBus _) fun _ => endsIdle_bind (endsIdle_sampleLines _) fun _ =>
    endsIdle_bind (endsIdle_modify fun _ => rfl) fun _ => endsIdle_pure _

theorem staysIdle_busdir (d : Direction) : staysIdle (busdirOps d) = true := by cases d <;> rfl

theorem staysIdle_busDrive (v : Byte) : staysIdle (busDriveOps v) = true := rfl

theorem endsIdle_busWrite (v : Byte) : EndsIdle (busWrite v) :=
  endsIdle_bind (endsIdle_requireBus _) fun _ => endsIdle_runOps (staysIdle_busDrive v)

theorem setaddrOps_stays (c : Config) (a : Addr) : staysIdle (setaddrOps c a) = true := by
  refine staysIdle_of fun op hop f e => ?_
  subst e
  unfold setaddrOps at hop
  split at hop
  · simp only [setaddrTwoWire, shiftBit, extraPulse, List.mem_append, List.mem_flatMap, List.mem_cons,
      List.not_mem_nil, or_false] at hop
    split at hop <;> simp at hop
  · simp [setaddrThreeWire, shiftByte, shiftBit, strobePulse] at hop
  · simp only [setaddrDirect, List.mem_append, List.mem_cons, List.not_mem_nil, or_false,
      List.mem_map, reduceCtorEq, and_false, exists_false] at hop
  · simp at hop

theorem endsIdle_setAddress (a : Addr) : EndsIdle (setAddress a) := by
  refine endsIdle_bind (endsIdle_checkRange a) fun _ => endsIdle_bind endsIdle_get fun s => ?_
  split
  · exact endsIdle_raise _ _
  · exact endsIdle_runOps (setaddrOps_stays _ _)

theorem endsIdle_writeAll (l : List (Addr × Byte)) : EndsIdle (writeAll l) := by
  induction l with
  | nil => exact endsIdle_pure _
  | cons x l ih => exact endsIdle_bind (makesIdle_writeCycle x.1 x.2).endsIdle fun _ => ih

theorem endsIdle_readIdentity (l : List (Fin 4 × Addr)) : EndsIdle (readIdentity l) := by
  induction l with
  | nil => exact endsIdle_pure _
  | cons x l ih =>
    exact endsIdle_bind (makesIdle_readCycle x.2).endsIdle fun v => endsIdle_bind (endsIdle_modify fun _ => rfl) fun _ => ih

theorem endsIdle_autoselect : EndsIdle autoselect :=
  endsIdle_bind (endsIdle_writeAll _) fun _ => endsIdle_bind (endsIdle_readIdentity _) fun _ =>
    (makesIdle_writeCycle _ _).endsIdle

theorem endsIdle_closingBus {x : Act Unit} (h : EndsIdle x) : EndsIdle (closingBus x) := by
  intro s a t hs ht
  unfold closingBus at ht
  split at ht
  next u hu => exact endsIdle_runOps (staysIdle_busdir _) _ _ _ (h s _ u hs hu) ht
  · cases ht
  · split at ht <;> cases ht

theorem endsIdle_identityQuery : EndsIdle identityQuery :=
  endsIdle_bind makesIdle_idleSetup.endsIdle fun _ => endsIdle_bind (endsIdle_closingBus endsIdle_autoselect) fun _ =>
    endsIdle_bind endsIdle_get fun _ => endsIdle_bind (endsIdle_emit _) fun _ => endsIdle_pure _

theorem endsIdle_dumpTurn : EndsIdle dumpTurn := by
  refine endsIdle_bind endsIdle_get fun s => endsIdle_bind (makesIdle_readCycle _).endsIdle fun v =>
    endsIdle_bind (endsIdle_sinkWrite v) fun ok => ?_
  split
  · split
    · exact endsIdle_bind (endsIdle_emit _) fun _ => endsIdle_pure _
    · exact endsIdle_bind (endsIdle_modify fun _ => rfl) fun _ => endsIdle_pure _
  · exact endsIdle_bind (endsIdle_emit _) fun _ => endsIdle_raise _ _

theorem endsIdle_dumpStart : EndsIdle dumpStart :=
  endsIdle_bind makesIdle_idleSetup.endsIdle fun _ => endsIdle_bind (endsIdle_modify fun _ => rfl) fun _ =>
    endsIdle_dumpTurn

theorem staysIdle_flatMap {α : Type} {l : List α} {f : α → List PinOp} (h : ∀ x, staysIdle (f x) = true) :
    staysIdle (l.flatMap f) = true := by
  induction l with
  | nil => rfl
  | cons x l ih => rw [List.flatMap_cons, staysIdle_append, h, ih]; rfl

theorem staysIdle_map {α : Type} {l : List α} {f : α → PinOp} (h : ∀ x g, f x ≠ .enter g) :
    staysIdle (l.map f) = true := by
  refine staysIdle_of fun op hop g => ?_
  obtain ⟨x, -, rfl⟩ := List.mem_map.mp hop
  exact h x g

theorem staysIdle_driveLines (c : Config) (l : List Role) (p : BitVec 37) : staysIdle (driveLines c l p) = true :=
  staysIdle_map fun _ _ h => by cases h

theorem staysIdle_driveLevels (l : List Role) (v : BitVec 37) : staysIdle (driveLevels l v) = true :=
  staysIdle_map fun _ _ h => by cases h

theorem staysIdle_outputOps (l : List Role) : staysIdle (outputOps l) = true := staysIdle_map fun _ _ h => by cases h

theorem staysIdle_outEnd (c : Config) : staysIdle (outEndOps c) = true := by
  rw [outEndOps, staysIdle_append, staysIdle_map (by intro _ _ h; cases h)]
  split
  · rw [staysIdle_driveLevels]; rfl
  · rfl

theorem staysIdle_echo (c : Config) : staysIdle (echoOps c) = true := by
  rw [echoOps, staysIdle_append, staysIdle_busdir, staysIdle_flatMap fun _ => rfl]; rfl

theorem staysIdle_outTest (c : Config) : staysIdle (outTestOps c) = true := by
  rw [outTestOps, staysIdle_append, staysIdle_append, staysIdle_outputOps, staysIdle_outEnd, staysIdle_flatMap]
  · rfl
  · intro p; rw [staysIdle_append, staysIdle_driveLines]; rfl

theorem staysIdle_ioOutput (c : Config) : staysIdle (ioOutputOps c) = true := by
  rw [ioOutputOps, staysIdle_append, staysIdle_outputOps, staysIdle_flatMap]
  · rfl
  · intro p; rw [staysIdle_append, ioPatternOps, staysIdle_driveLevels]; rfl

theorem staysIdle_blinkOnce (c : Config) (k : Fin 2) : staysIdle (blinkOnce c k) = true := by
  simp only [blinkOnce, staysIdle_append]
  rw [staysIdle_map (by intro _ _ h; cases h), staysIdle_map (by intro _ _ h; cases h)]
  rfl

theorem staysIdle_blink (c : Config) : staysIdle (blinkOps c) = true := by
  rw [blinkOps, staysIdle_append, staysIdle_append, staysIdle_outputOps, staysIdle_blinkOnce, staysIdle_blinkOnce]; rfl

theorem endsIdle_echoTurn : EndsIdle echoTurn :=
  endsIdle_bind endsIdle_busRead fun _ => endsIdle_bind (endsIdle_emit _) fun _ =>
    endsIdle_bind (endsIdle_runWith fun _ => rfl) fun _ => endsIdle_pure _

theorem endsIdle_blinkEnd : EndsIdle blinkEnd :=
  endsIdle_bind (endsIdle_runWith staysIdle_blink) fun _ => endsIdle_pure _

theorem staysIdle_poll (c : Config) : staysIdle (pollOps c) = true := by
  unfold pollOps; split <;> rfl

theorem endsIdle_ioTurn (l : List (BitVec 4)) (found : Nat) : EndsIdle (ioTurn l found) := by
  cases l with
  | nil => exact endsIdle_blinkEnd
  | cons e rest =>
    refine endsIdle_bind endsIdle_busRead fun v => endsIdle_bind endsIdle_get fun s => ?_
    split
    · split
      · exact endsIdle_bind (endsIdle_runWith staysIdle_poll) fun _ => endsIdle_pure _
      · split
        · exact endsIdle_blinkEnd
        · exact endsIdle_pure _
    · exact endsIdle_bind (endsIdle_runWith staysIdle_poll) fun _ => endsIdle_pure _

theorem endsIdle_oeTurn : EndsIdle oeTurn := endsIdle_bind (endsIdle_runWith fun _ => rfl) fun _ => endsIdle_pure _

theorem endsIdle_checkAddress (a : Addr) : EndsIdle (checkAddress a) := by
  refine endsIdle_bind (endsIdle_setAddress a) fun _ => endsIdle_bind (endsIdle_runWith fun _ => rfl) fun _ =>
    endsIdle_bind endsIdle_busRead fun v => ?_
  split
  · exact endsIdle_pure _
  · exact endsIdle_bind (endsIdle_emit _) fun _ => endsIdle_raise _ _

theorem endsIdle_checkAll (l : List Addr) : EndsIdle (checkAll l) := by
  induction l with
  | nil => exact endsIdle_pure _
  | cons a l ih => exact endsIdle_bind (endsIdle_checkAddress a) fun _ => ih

theorem endsIdle_addressTest : EndsIdle addressTest := by
  refine endsIdle_bind endsIdle_get fun s => ?_
  split
  · exact endsIdle_raise _ _
  · exact endsIdle_bind makesIdle_idleSetup.endsIdle fun _ => endsIdle_checkAll _

theorem endsIdle_finish {x : Act Unit} (h : EndsIdle x) : EndsIdle (finish x) :=
  endsIdle_bind h fun _ => endsIdle_pure _

theorem endsIdle_withRole {α : Type} (ix : RoleIndex) {f : Role → Act α} (h : ∀ r, EndsIdle (f r)) :
    EndsIdle (withRole ix f) := by
  unfold withRole
  split
  · exact h _
  · exact endsIdle_raise _ _

/-- Every command that ends from `Idle`, or stands at a boundary of its loop, is back in `Idle`. -/
theorem endsIdle_bodyOf (i : Instr) : EndsIdle (bodyOf i) := by
  cases i with
  | cfgdir role dir =>
    exact endsIdle_finish (endsIdle_withRole role fun r s a t hs h => (runOp_fsm (op := .setDir r dir) h).trans hs)
  | pinwr role level =>
    exact endsIdle_finish (endsIdle_withRole role fun r s a t hs h => (runOp_fsm (op := .drive r level) h).trans hs)
  | pinrd role => exact endsIdle_bind (endsIdle_withRole role endsIdle_sample) fun _ => endsIdle_pure _
  | setaddr addr => exact endsIdle_finish (endsIdle_setAddress addr)
  | busdir dir => exact endsIdle_finish (endsIdle_runOps (staysIdle_busdir dir))
  | buswr value => exact endsIdle_finish (endsIdle_busWrite value)
  | busrd => exact endsIdle_bind endsIdle_busRead fun _ => endsIdle_pure _
  | idlesetup => exact endsIdle_finish makesIdle_idleSetup.endsIdle
  | rdcyc addr => exact endsIdle_bind (makesIdle_readCycle addr).endsIdle fun _ => endsIdle_pure _
  | wrcyc addr data => exact endsIdle_finish (makesIdle_writeCycle addr data).endsIdle
  | allin => exact endsIdle_finish (endsIdle_runWith fun c => staysIdle_map fun _ _ h => by cases h)
  | idquery => exact endsIdle_identityQuery
  | dump => exact endsIdle_dumpStart
  | outtest => exact endsIdle_finish (endsIdle_runWith staysIdle_outTest)
  | inecho => exact endsIdle_bind (endsIdle_runWith staysIdle_echo) fun _ => endsIdle_echoTurn
  | iotest =>
    exact endsIdle_bind (endsIdle_runWith staysIdle_ioOutput) fun _ =>
      endsIdle_bind (endsIdle_runOps (staysIdle_busdir _)) fun _ => endsIdle_pure _
  | oetest => exact endsIdle_bind makesIdle_idleSetup.endsIdle fun _ => endsIdle_oeTurn
  | addrtest => exact endsIdle_finish endsIdle_addressTest

theorem endsIdle_jobTurn (j : Job) : EndsIdle (jobTurn j) := by
  cases j with
  | dump => exact endsIdle_dumpTurn
  | inEcho => exact endsIdle_echoTurn
  | oeTest => exact endsIdle_oeTurn
  | ioTest l found => exact endsIdle_ioTurn l found

end Sys2Proof.Machine
end

