-- ==== Sys2Proof/Laws/Kill.lean ====
section
/-! SUPPORT. The kill (60_exceptions.md R271): pseudocode run with a kill set does what it does without one, up to the
event where the kill falls. -/

namespace Sys2Proof.Machine

/-- A state with the host's kill set. -/
def State.due (s : State) (k : Option Nat) : State := { s with killIn := k }

@[simp] theorem State.due_trace (s : State) (k : Option Nat) : (s.due k).trace = s.trace := rfl
@[simp] theorem State.due_killIn (s : State) (k : Option Nat) : (s.due k).killIn = k := rfl
@[simp] theorem State.due_cfg (s : State) (k : Option Nat) : (s.due k).cfg = s.cfg := rfl
@[simp] theorem State.due_env (s : State) (k : Option Nat) : (s.due k).env = s.env := rfl
@[simp] theorem State.due_pins (s : State) (k : Option Nat) : (s.due k).pins = s.pins := rfl
@[simp] theorem State.due_dir (s : State) (k : Option Nat) (r : Role) : (s.due k).dir r = s.dir r := rfl
@[simp] theorem State.due_due (s : State) (j k : Option Nat) : (s.due j).due k = s.due k := rfl

theorem State.due_self {s : State} (h : s.killIn = none) : s.due none = s := by
  cases s; simp only [State.due] at *; rw [h]

/-- A result with the kill of its state set. -/
def dueResult {α : Type} (k : Option Nat) : EStateM.Result Stop State α → EStateM.Result Stop State α
  | .ok a t => .ok a (t.due k)
  | .error e t => .error e (t.due k)

/-- What pseudocode does from a state with a kill after `n` events, when without one it emits `es` and ends in `r`. -/
def CutAt {α : Type} (x : Act α) (s : State) (es : List Event) (r : EStateM.Result Stop State α) (n : Nat) : Prop :=
  (es.length ≤ n → x (s.due (some n)) = dueResult (some (n - es.length)) r)
    ∧ (n < es.length → ∃ u, x (s.due (some n)) = .error .killed u ∧ u.trace = s.trace ++ es.take n)

/-- A kill cuts the pseudocode's events and does nothing else. -/
def Cuts {α : Type} (x : Act α) : Prop :=
  ∀ s : State, s.killIn = none → ∃ es, (reached (x s)).trace = s.trace ++ es ∧ (reached (x s)).killIn = none
    ∧ ∀ n, CutAt x s es (x s) n

/-- Pseudocode that emits nothing and does not look at the kill. -/
theorem cuts_silent {α : Type} {x : Act α} (h : ∀ s k, x (s.due k) = dueResult k (x s))
    (ht : ∀ s, (reached (x s)).trace = s.trace) (hk : ∀ s, (reached (x s)).killIn = s.killIn) : Cuts x :=
  fun s hs => ⟨[], by simp [ht], by rw [hk, hs], fun n => ⟨fun _ => by simpa using h s (some n), fun hn => by simp at hn⟩⟩

theorem cuts_pure {α : Type} (a : α) : Cuts (pure a : Act α) := cuts_silent (fun _ _ => rfl) (fun _ => rfl) fun _ => rfl

theorem cuts_raise {α : Type} (c : Cause) (i : BitVec 24) : Cuts (raise c i : Act α) :=
  cuts_silent (fun _ _ => rfl) (fun _ => rfl) fun _ => rfl

theorem cuts_modify {f : State → State} (h : ∀ s k, f (s.due k) = (f s).due k) (ht : ∀ s, (f s).trace = s.trace)
    (hk : ∀ s, (f s).killIn = s.killIn) : Cuts (modify f : Act PUnit) :=
  cuts_silent (fun s k => by simp [dueResult, h]) (fun s => by simp [ht]) fun s => by simp [hk]

/-- One action after another. -/
theorem cuts_bind {α β : Type} {x : Act α} {f : α → Act β} (hx : Cuts x) (hf : ∀ a, Cuts (f a)) : Cuts (x >>= f) := by
  intro s hs
  obtain ⟨es, ht, hk, hc⟩ := hx s hs
  cases hxs : x s with
  | error e t =>
    rw [hxs] at ht hk hc
    refine ⟨es, by rw [act_bind_error hxs]; exact ht, by rw [act_bind_error hxs]; exact hk, fun n => ?_⟩
    rw [act_bind_error hxs]
    refine ⟨fun hn => ?_, fun hn => ?_⟩
    · exact act_bind_error ((hc n).1 hn)
    · obtain ⟨u, hu, htu⟩ := (hc n).2 hn
      exact ⟨u, act_bind_error hu, htu⟩
  | ok a t =>
    rw [hxs] at ht hk hc
    obtain ⟨fs, ht2, hk2, hc2⟩ := hf a t hk
    rw [reached_ok] at ht
    refine ⟨es ++ fs, by rw [act_bind_ok hxs, ht2, ht, List.append_assoc], by rw [act_bind_ok hxs]; exact hk2, fun n => ?_⟩
    rw [act_bind_ok hxs]
    by_cases hn : n < es.length
    · refine ⟨fun h => by simp at h; omega, fun _ => ?_⟩
      obtain ⟨u, hu, htu⟩ := (hc n).2 hn
      exact ⟨u, act_bind_error hu, by rw [htu, List.take_append_of_le_length hn.le]⟩
    · have hx' : x (s.due (some n)) = .ok a (t.due (some (n - es.length))) := (hc n).1 (by omega)
      have h2 := hc2 (n - es.length)
      refine ⟨fun h => ?_, fun h => ?_⟩
      · rw [act_bind_ok hx', h2.1 (by simp at h; omega)]
        simp [Nat.sub_add_eq]
      · obtain ⟨u, hu, htu⟩ := h2.2 (by simp at h; omega)
        refine ⟨u, by rw [act_bind_ok hx', hu], ?_⟩
        rw [htu, ht, List.take_append, List.take_of_length_le (by omega : es.length ≤ n), List.append_assoc]

/-- Reading the state, for pseudocode that does not look at the kill. -/
theorem cuts_get {β : Type} {f : State → Act β} (h : ∀ s k, f (s.due k) = f s) (hf : ∀ s, Cuts (f s)) :
    Cuts (get >>= f) := by
  intro s hs
  obtain ⟨es, ht, hk, hc⟩ := hf s s hs
  refine ⟨es, ht, hk, fun n => ?_⟩
  have hn : (get >>= f) (s.due (some n)) = f s (s.due (some n)) := by
    rw [act_bind_ok (act_get _), h]
  unfold CutAt
  rw [hn]
  exact hc n

/-- One event. -/
theorem cuts_emit {e : Event} {f : State → State} (h : ∀ s k, (f (s.due k)).due none = (f s).due none) :
    Cuts (emit e f) := by
  intro s hs
  have h0 : emit e f s = .ok () (s.logged e (f s)) := emit_ok (by simp [hs])
  refine ⟨[e], by rw [h0]; rfl, by rw [h0]; simp [State.logged, hs], fun n => ⟨fun hn => ?_, fun hn => ?_⟩⟩
  · have h1 : emit e f (s.due (some n)) = .ok () ((s.due (some n)).logged e (f (s.due (some n)))) :=
      emit_ok (by simp at hn ⊢; omega)
    rw [h1, h0]
    have h2 := h s (some n)
    simp only [dueResult, State.logged, State.due, Option.map_some, List.length_singleton, EStateM.Result.ok.injEq,
      true_and, State.mk.injEq] at h2 ⊢
    simp [h2]
  · have hz : n = 0 := by simpa using hn
    subst hz
    exact ⟨_, rfl, by simp⟩

/-- Pseudocode that is, from a state, the same as another. -/
theorem cuts_of_eq {α : Type} {x y : Act α} {s : State} (hs : s.killIn = none) (h : ∀ k, x (s.due k) = y (s.due k))
    (hy : ∃ es, (reached (y s)).trace = s.trace ++ es ∧ (reached (y s)).killIn = none ∧ ∀ n, CutAt y s es (y s) n) :
    ∃ es, (reached (x s)).trace = s.trace ++ es ∧ (reached (x s)).killIn = none ∧ ∀ n, CutAt x s es (x s) n := by
  obtain ⟨es, h1, h2, h3⟩ := hy
  have h0 := h none
  rw [State.due_self hs] at h0
  refine ⟨es, by rw [h0]; exact h1, by rw [h0]; exact h2, fun n => ?_⟩
  unfold CutAt
  rw [h, h0]
  exact h3 n

theorem cuts_setDir (r : Role) (d : Direction) : Cuts (setDir r d) := by
  intro s hs
  by_cases hm : mapped s.cfg r = true
  · exact cuts_of_eq (y := emit (.dir r d) fun t => t.afterSetDir r d) hs (fun k => by simp [setDir, hm])
      (cuts_emit (fun _ _ => rfl) s hs)
  · exact cuts_of_eq (y := raise .role (indexInfo (roleIndex r))) hs (fun k => by simp [setDir, hm]) (cuts_raise _ _ s hs)

theorem cuts_drive (r : Role) (l : Level) (b : Bool) : Cuts (drive r l b) := by
  intro s hs
  by_cases hm : mapped s.cfg r = true
  · by_cases hd : s.dir r = some .output
    · exact cuts_of_eq (y := emit (.drv r l) fun t => t.afterDrive r l b) hs (fun k => by simp [drive, hm, hd])
        (cuts_emit (fun _ _ => rfl) s hs)
    · exact cuts_of_eq (y := raise .dirWrite (indexInfo (roleIndex r))) hs (fun k => by simp [drive, hm, hd])
        (cuts_raise _ _ s hs)
  · exact cuts_of_eq (y := raise .role (indexInfo (roleIndex r))) hs (fun k => by simp [drive, hm]) (cuts_raise _ _ s hs)

theorem cuts_sample (r : Role) : Cuts (sample r) := by
  intro s hs
  by_cases hm : mapped s.cfg r = true
  · by_cases hd : s.dir r = some .input
    · refine cuts_of_eq
        (y := emit (.smp r (s.env.pinIn s.pins r).1) (fun t => { t with env := (s.env.pinIn s.pins r).2 }) >>= fun _ =>
          pure (s.env.pinIn s.pins r).1) hs (fun k => ?_) (cuts_bind (cuts_emit (fun _ _ => rfl)) (fun _ => cuts_pure _) s hs)
      rw [act_bind]
      simp only [sample, State.due_cfg, State.due_dir, State.due_env, State.due_pins, hm, hd, if_true]
      cases emit (Event.smp r (s.env.pinIn s.pins r).1) (fun t => { t with env := (s.env.pinIn s.pins r).2 }) (s.due k) <;> rfl
    · exact cuts_of_eq (y := raise .dirRead (indexInfo (roleIndex r))) hs (fun k => by simp [sample, hm, hd])
        (cuts_raise _ _ s hs)
  · exact cuts_of_eq (y := raise .role (indexInfo (roleIndex r))) hs (fun k => by simp [sample, hm])
      (cuts_raise _ _ s hs)

theorem cuts_print (x : Printed) : Cuts (printValue x) := cuts_emit fun _ _ => rfl

theorem cuts_sinkClose : Cuts sinkClose := cuts_emit fun _ _ => rfl

theorem cuts_sinkWrite (v : Byte) : Cuts (sinkWrite v) := by
  intro s hs
  refine cuts_of_eq (y := emit (.sink v s.sinkAnswer) State.afterSink >>= fun _ => pure s.sinkAnswer) hs (fun k => ?_)
    (cuts_bind (cuts_emit fun s k => ?_) (fun _ => cuts_pure _) s hs)
  · rw [act_bind]
    have : (s.due k).sinkAnswer = s.sinkAnswer := rfl
    unfold sinkWrite
    rw [this]
    cases emit (Event.sink v s.sinkAnswer) State.afterSink (s.due k) <;> rfl
  · unfold State.afterSink State.due
    cases s.sinkAnswers <;> rfl

theorem cuts_runOp (op : PinOp) : Cuts (runOp op) := by
  cases op with
  | setDir r d => exact cuts_setDir r d
  | drive r l => exact cuts_drive r l false
  | shift r l => exact cuts_drive r l true
  | delay us => exact cuts_emit fun _ _ => rfl
  | enter f => exact cuts_silent (fun _ _ => rfl) (fun _ => rfl) fun _ => rfl
  | address a => exact cuts_silent (fun _ _ => rfl) (fun _ => rfl) fun _ => rfl

theorem cuts_runOps (ops : List PinOp) : Cuts (runOps ops) := by
  induction ops with
  | nil => exact cuts_pure _
  | cons op ops ih => exact cuts_bind (cuts_runOp op) fun _ => ih

theorem cuts_runWith (f : Config → List PinOp) : Cuts (runWith f) :=
  cuts_get (fun _ _ => rfl) fun _ => cuts_runOps _

theorem cuts_finish {x : Act Unit} (h : Cuts x) : Cuts (finish x) := cuts_bind h fun _ => cuts_pure _

theorem cuts_withRole {α : Type} (ix : RoleIndex) {f : Role → Act α} (h : ∀ r, Cuts (f r)) : Cuts (withRole ix f) := by
  unfold withRole
  split
  · exact h _
  · exact cuts_raise _ _

theorem cuts_checkRange (a : Addr) : Cuts (checkRange a) := by
  refine cuts_silent (fun s k => ?_) (fun s => ?_) fun s => ?_
  · have : (s.due k).cfg = s.cfg := rfl
    unfold checkRange; rw [this]; split <;> rfl
  · unfold checkRange; split <;> rfl
  · unfold checkRange; split <;> rfl

theorem cuts_requireBus (d : Direction) : Cuts (requireBus d) := by
  refine cuts_silent (fun s k => ?_) (fun s => ?_) fun s => ?_
  · have : (s.due k).pins = s.pins := rfl
    unfold requireBus; rw [this]; split <;> rfl
  · unfold requireBus; split <;> rfl
  · unfold requireBus; split <;> rfl

theorem cuts_setAddress (a : Addr) : Cuts (setAddress a) := by
  refine cuts_bind (cuts_checkRange a) fun _ => cuts_get (fun _ _ => rfl) fun s => ?_
  split
  · exact cuts_raise _ _
  · exact cuts_runOps _

theorem cuts_busWrite (v : Byte) : Cuts (busWrite v) := cuts_bind (cuts_requireBus _) fun _ => cuts_runOps _

theorem cuts_sampleLines (is : List (Fin 8)) : Cuts (sampleLines is) := by
  induction is with
  | nil => exact cuts_pure _
  | cons i is ih => exact cuts_bind (cuts_sample _) fun _ => cuts_bind ih fun _ => cuts_pure _

theorem cuts_busRead : Cuts busRead :=
  cuts_bind (cuts_requireBus _) fun _ => cuts_bind (cuts_sampleLines _) fun _ =>
    cuts_bind (cuts_modify (fun _ _ => rfl) (fun _ => rfl) fun _ => rfl) fun _ => cuts_pure _

theorem cuts_readCycle (a : Addr) : Cuts (readCycle a) :=
  cuts_bind (cuts_checkRange a) fun _ => cuts_bind (cuts_runWith _) fun _ => cuts_bind (cuts_setAddress a) fun _ =>
    cuts_bind (cuts_runWith _) fun _ => cuts_bind cuts_busRead fun _ => cuts_bind (cuts_runWith _) fun _ => cuts_pure _

theorem cuts_writeCycle (a : Addr) (v : Byte) : Cuts (writeCycle a v) :=
  cuts_bind (cuts_checkRange a) fun _ => cuts_bind (cuts_runWith _) fun _ => cuts_bind (cuts_setAddress a) fun _ =>
    cuts_bind (cuts_busWrite v) fun _ => cuts_runWith _

theorem cuts_writeAll (l : List (Addr × Byte)) : Cuts (writeAll l) := by
  induction l with
  | nil => exact cuts_pure _
  | cons x l ih => exact cuts_bind (cuts_writeCycle x.1 x.2) fun _ => ih

theorem cuts_readIdentity (l : List (Fin 4 × Addr)) : Cuts (readIdentity l) := by
  induction l with
  | nil => exact cuts_pure _
  | cons x l ih =>
    exact cuts_bind (cuts_readCycle x.2) fun _ =>
      cuts_bind (cuts_modify (fun _ _ => rfl) (fun _ => rfl) fun _ => rfl) fun _ => ih

theorem cuts_autoselect : Cuts autoselect :=
  cuts_bind (cuts_writeAll _) fun _ => cuts_bind (cuts_readIdentity _) fun _ => cuts_writeCycle _ _

/-- A fault is raised again once the closing steps have run (44_composite.md R214); a kill in them ends there. -/
theorem cuts_closingBus {x : Act Unit} (hx : Cuts x) : Cuts (closingBus x) := by
  intro s hs
  obtain ⟨es, ht, hk, hc⟩ := hx s hs
  cases hxs : x s with
  | ok a t =>
    have he : ∀ k, x (s.due k) = x (s.due k) := fun _ => rfl
    obtain ⟨gs, g1, g2, g3⟩ := cuts_bind hx (fun _ => cuts_runOps (busdirOps .input)) s hs
    refine ⟨gs, ?_, ?_, fun n => ?_⟩
    · rw [act_bind_ok hxs] at g1; simpa only [closingBus, hxs] using g1
    · rw [act_bind_ok hxs] at g2; simpa only [closingBus, hxs] using g2
    · have h3 := g3 n
      rw [act_bind_ok hxs] at h3
      unfold CutAt at h3 ⊢
      have e0 : closingBus x s = runOps (busdirOps .input) t := by simp only [closingBus, hxs]
      have e1 : closingBus x (s.due (some n)) = (x >>= fun _ => runOps (busdirOps .input)) (s.due (some n)) := by
        rw [act_bind]
        rw [hxs] at hc
        rcases Nat.lt_or_ge n es.length with hn | hn
        · obtain ⟨u, hu, -⟩ := (hc n).2 hn
          simp only [closingBus, hu]
        · have h1 := (hc n).1 hn
          simp only [dueResult] at h1
          simp only [closingBus, h1]
      rw [e0, e1]
      exact h3
  | error e t =>
    rw [hxs] at ht hk hc
    simp only [reached_error] at ht hk
    cases e with
    | killed =>
      have e0 : closingBus x s = .error .killed t := by simp only [closingBus, hxs]
      rw [e0]
      refine ⟨es, ht, hk, fun n => ⟨fun hn => ?_, fun hn => ?_⟩⟩
      · have h1 := (hc n).1 hn
        simp only [dueResult] at h1
        simp only [closingBus, h1, dueResult]
      · obtain ⟨u, hu, htu⟩ := (hc n).2 hn
        exact ⟨u, by simp only [closingBus, hu], htu⟩
    | fault c i =>
      obtain ⟨fs, f1, f2, f3⟩ := cuts_runOps (busdirOps .input) t hk
      have e0 : reached (closingBus x s) = reached (runOps (busdirOps .input) t) := by
        simp only [closingBus, hxs]
        cases hr : runOps (busdirOps .input) t with
        | ok a u => rfl
        | error e u => cases e <;> rfl
      refine ⟨es ++ fs, by rw [e0, f1, ht, List.append_assoc], by rw [e0]; exact f2, fun n => ?_⟩
      rcases Nat.lt_or_ge n es.length with hn | hn
      · refine ⟨fun h => by simp at h; omega, fun _ => ?_⟩
        obtain ⟨u, hu, htu⟩ := (hc n).2 hn
        exact ⟨u, by simp only [closingBus, hu], by rw [htu, List.take_append_of_le_length hn.le]⟩
      · have h1 := (hc n).1 hn
        simp only [dueResult] at h1
        have h2 := f3 (n - es.length)
        refine ⟨fun h => ?_, fun h => ?_⟩
        · have h3 := h2.1 (by simp at h; omega)
          simp only [closingBus, h1, hxs, h3]
          cases hr : runOps (busdirOps .input) t with
          | ok a u => simp [dueResult, Nat.sub_add_eq]
          | error e u => cases e <;> simp [dueResult, Nat.sub_add_eq]
        · obtain ⟨u, hu, htu⟩ := h2.2 (by simp at h; omega)
          refine ⟨u, by simp only [closingBus, h1, hu], ?_⟩
          rw [htu, ht, List.take_append, List.take_of_length_le (by omega : es.length ≤ n), List.append_assoc]

theorem cuts_identityQuery : Cuts identityQuery :=
  cuts_bind (cuts_runWith _) fun _ => cuts_bind (cuts_closingBus cuts_autoselect) fun _ =>
    cuts_get (fun _ _ => rfl) fun _ => cuts_bind (cuts_print _) fun _ => cuts_pure _

theorem cuts_dumpTurn : Cuts dumpTurn := by
  refine cuts_get (fun _ _ => rfl) fun s => cuts_bind (cuts_readCycle _) fun v => cuts_bind (cuts_sinkWrite v) fun ok => ?_
  split
  · split
    · exact cuts_bind cuts_sinkClose fun _ => cuts_pure _
    · exact cuts_bind (cuts_modify (fun _ _ => rfl) (fun _ => rfl) fun _ => rfl) fun _ => cuts_pure _
  · exact cuts_bind cuts_sinkClose fun _ => cuts_raise _ _

theorem cuts_dumpStart : Cuts dumpStart :=
  cuts_bind (cuts_runWith _) fun _ => cuts_bind (cuts_modify (fun _ _ => rfl) (fun _ => rfl) fun _ => rfl) fun _ =>
    cuts_dumpTurn

theorem cuts_echoTurn : Cuts echoTurn :=
  cuts_bind cuts_busRead fun _ => cuts_bind (cuts_print _) fun _ => cuts_bind (cuts_runWith _) fun _ => cuts_pure _

theorem cuts_blinkEnd : Cuts blinkEnd := cuts_bind (cuts_runWith _) fun _ => cuts_pure _

theorem cuts_ioTurn (l : List (BitVec 4)) (found : Nat) : Cuts (ioTurn l found) := by
  cases l with
  | nil => exact cuts_blinkEnd
  | cons e rest =>
    refine cuts_bind cuts_busRead fun v => cuts_get (fun _ _ => rfl) fun s => ?_
    split
    · split
      · exact cuts_bind (cuts_runWith _) fun _ => cuts_pure _
      · split
        · exact cuts_blinkEnd
        · exact cuts_pure _
    · exact cuts_bind (cuts_runWith _) fun _ => cuts_pure _

theorem cuts_oeTurn : Cuts oeTurn := cuts_bind (cuts_runWith _) fun _ => cuts_pure _

theorem cuts_checkAddress (a : Addr) : Cuts (checkAddress a) := by
  refine cuts_bind (cuts_setAddress a) fun _ => cuts_bind (cuts_runWith _) fun _ => cuts_bind cuts_busRead fun v => ?_
  split
  · exact cuts_pure _
  · exact cuts_bind (cuts_print _) fun _ => cuts_raise _ _

theorem cuts_checkAll (l : List Addr) : Cuts (checkAll l) := by
  induction l with
  | nil => exact cuts_pure _
  | cons a l ih => exact cuts_bind (cuts_checkAddress a) fun _ => ih

theorem cuts_addressTest : Cuts addressTest := by
  refine cuts_get (fun _ _ => rfl) fun s => ?_
  split
  · exact cuts_raise _ _
  · exact cuts_bind (cuts_runWith _) fun _ => cuts_checkAll _

/-- A kill cuts any command's events and does nothing else. -/
theorem cuts_bodyOf (i : Instr) : Cuts (bodyOf i) := by
  cases i with
  | cfgdir role dir => exact cuts_finish (cuts_withRole role fun r => cuts_setDir r dir)
  | pinwr role level => exact cuts_finish (cuts_withRole role fun r => cuts_drive r level false)
  | pinrd role => exact cuts_bind (cuts_withRole role cuts_sample) fun _ => cuts_pure _
  | setaddr addr => exact cuts_finish (cuts_setAddress addr)
  | busdir dir => exact cuts_finish (cuts_runOps _)
  | buswr value => exact cuts_finish (cuts_busWrite value)
  | busrd => exact cuts_bind cuts_busRead fun _ => cuts_pure _
  | idlesetup => exact cuts_finish (cuts_runWith _)
  | rdcyc addr => exact cuts_bind (cuts_readCycle addr) fun _ => cuts_pure _
  | wrcyc addr data => exact cuts_finish (cuts_writeCycle addr data)
  | allin => exact cuts_finish (cuts_runWith _)
  | idquery => exact cuts_identityQuery
  | dump => exact cuts_dumpStart
  | outtest => exact cuts_finish (cuts_runWith _)
  | inecho => exact cuts_bind (cuts_runWith _) fun _ => cuts_echoTurn
  | iotest => exact cuts_bind (cuts_runWith _) fun _ => cuts_bind (cuts_runOps _) fun _ => cuts_pure _
  | oetest => exact cuts_bind (cuts_runWith _) fun _ => cuts_oeTurn
  | addrtest => exact cuts_finish cuts_addressTest

/-- A kill cuts a later turn's events too. -/
theorem cuts_jobTurn (j : Job) : Cuts (jobTurn j) := by
  cases j with
  | dump => exact cuts_dumpTurn
  | inEcho => exact cuts_echoTurn
  | oeTest => exact cuts_oeTurn
  | ioTest l found => exact cuts_ioTurn l found

end Sys2Proof.Machine
end

