-- ==== Sys2Proof/Laws/Step.lean ====
section
/-! SUPPORT. The one inversion of `step`: everything a step can be. -/

namespace Sys2Proof.Machine

/-- What a step that answers a next state did. -/
inductive StepDid (s : State) : State → Prop
  /-- the host killed the block -/
  | killed (rest : List HostMove) (hh : s.host = .kill :: rest) : StepDid s ({ s with host := rest } : State).kill
  /-- a running command went on by a turn -/
  | resumed (j : Job) (hp : s.phase = .running j) : StepDid s (resume j s)
  /-- the block waited -/
  | waited (hp : ∀ j, s.phase ≠ .running j) (hh : s.host = []) : StepDid s s
  /-- the host reset the block -/
  | wasReset (c : Config) (g : Bool) (rest : List HostMove) (hp : ∀ j, s.phase ≠ .running j)
      (hh : s.host = .reset c g :: rest) : StepDid s (({ s with host := rest } : State).resetWith c g)
  /-- the block ran a command -/
  | ran (w : CmdWord) (k : Option Nat) (rest : List HostMove) (i : Instr) (hs : s.Accepting)
      (hh : s.host = .command w k :: rest) (hd : decode w = .ok i) :
      StepDid s (settle (bodyOf i (s.handOver k rest)))
  /-- the block was handed an illegal word -/
  | illegal (w : CmdWord) (k : Option Nat) (rest : List HostMove) (hs : s.Accepting)
      (hh : s.host = .command w k :: rest) :
      StepDid s (settle ((raise .illegalCmd (w.extractLsb' 16 24) : Act Progress) (s.handOver k rest)))

theorem step_notRunning {s : State} (hp : ∀ j, s.phase ≠ .running j) :
    step s = match s.host with
      | [] => .next s
      | .command w killAfter :: rest => takeWord w (s.handOver killAfter rest)
      | .kill :: rest => .next ({ s with host := rest } : State).kill
      | .reset c gpioAvailable :: rest => .next (({ s with host := rest } : State).resetWith c gpioAvailable) := by
  rw [step, nextStep]
  rcases hs : s.phase with _ | j | _
  · rfl
  · exact absurd hs (hp j)
  · rfl

/-- A running command goes on by a turn, whatever the host has waiting but a kill (60_exceptions.md R278). -/
theorem step_running {s : State} {j : Job} (hp : s.phase = .running j) (hk : ∀ rest, s.host ≠ .kill :: rest) :
    step s = .next (resume j s) := by
  have h : whileRunning j s = resume j s := by
    unfold whileRunning
    split
    next rest hh => exact absurd hh (hk rest)
    · rfl
  simp only [step, nextStep, hp, h]

/-- The first of several steps. -/
theorem run_succ {M : Host.Core} {s t : M.State} (h : M.step s = .next t) (n : Nat) : M.run (n + 1) s = M.run n t := by
  rw [Host.Core.run, h]

/-- Everything a step can be. -/
theorem step_did {s t : State} (h : step s = .next t) : StepDid s t := by
  by_cases hr : ∃ j, s.phase = .running j
  · obtain ⟨j, hj⟩ := hr
    simp only [step, nextStep, hj, Host.Outcome.next.injEq] at h
    subst h
    unfold whileRunning
    split
    next rest hh => exact .killed rest hh
    · exact .resumed j hj
  · have hp : ∀ j, s.phase ≠ .running j := fun j hj => hr ⟨j, hj⟩
    rw [step_notRunning hp] at h
    split at h
    next hh => cases h; exact .waited hp hh
    next w k rest hh =>
      unfold takeWord at h
      split at h
      · cases h
      · split at h
        · cases h
        next hst hf =>
          have hacc : s.Accepting := by
            refine ⟨?_, by simpa using hf⟩
            rcases hs : s.phase with _ | j | _
            · rfl
            · exact absurd hs (hp j)
            · exact absurd hs hst
          split at h
          next i hi => rw [(accepting_of_exec h).2]; exact .ran w k rest i hacc hh hi
          next e he => rw [(accepting_of_runCommand h).2]; exact .illegal w k rest hacc hh
    next rest hh => cases h; exact .killed rest hh
    next c g rest hh => cases h; exact .wasReset c g rest hp hh

end Sys2Proof.Machine
end

