-- ==== Sys2Proof/Laws/Memory.lean ====
section
/-! SUPPORT. The chip's memory (20_memory.md R75): its canonical form, and that nothing a command or a turn does writes
it: the chip is sent no program or erase command (00_scope.md, out of scope). -/

namespace Sys2Proof.Machine

/-- The memory of the reset state is in canonical form. -/
theorem reset_memory_wf : Memory.wf State.reset.env.flash = true := rfl

/-- Settling a stretch of pseudocode leaves the environment as it was reached. -/
theorem settle_env (x : EStateM.Result Stop State Progress) : (settle x).env = (reached x).env := by
  rcases settle_cases x with h | ⟨p, h⟩ | ⟨j, h⟩ | ⟨c, i, h⟩ <;> rw [h] <;> rfl

/-- No command writes the chip's memory, so it keeps its canonical form. -/
theorem exec_flash {i : Instr} {s t : State} (h : exec i s = .next t) : t.env.flash = s.env.flash := by
  rw [(accepting_of_exec h).2, settle_env]
  exact (changes_bodyOf i s).frame.env.flash

/-- No turn of a running command writes the chip's memory. -/
theorem resume_flash (j : Job) (s : State) : (resume j s).env.flash = s.env.flash := by
  rw [resume, settle_env]
  exact (changes_jobTurn j s).frame.env.flash

/-- A reset of the block keeps the chip's memory. -/
theorem resetWith_flash (s : State) (c : Config) (g : Bool) : (s.resetWith c g).env.flash = s.env.flash :=
  (Env.onReset_same _ _).flash

end Sys2Proof.Machine
end

