-- ==== Sys2Proof/Laws/Missing.lean ====
section
/-! SUPPORT. Where `SETADDR` stops when a line it drives is no output (41_address_shifter.md R150). -/

namespace Sys2Proof.Machine

/-- The step of `SETADDR` at the first missing line, and the steps before it: they set no direction and act on outputs. -/
theorem setaddrOps_firstMissing {s : State} {a : Addr} {r : Role} {before : List Event} (hn : 1 ≤ addrBits s.cfg)
    (h : FirstMissing s a r before) :
    ∃ pre l post, setaddrOps s.cfg a = pre ++ .shift r l :: post ∧ eventsOf pre = before ∧ (before = [] → pre = [])
      ∧ r ∈ modeLines s.cfg ∧ (∀ op ∈ pre, ∀ f, op ≠ .enter f)
      ∧ ∀ op ∈ pre, op.keepsDirections = true ∧ ∀ x, op.role = some x → x ∈ modeLines s.cfg ∧ s.dir x = some .output := by
  obtain ⟨-, h⟩ := h
  have first : ∀ {g : Nat → List PinOp} {n : Nat} {tail : List PinOp}, 1 ≤ n →
      (List.range n).flatMap g ++ tail = g 0 ++ (((List.range (n - 1)).map Nat.succ).flatMap g ++ tail) := by
    intro g n tail hn
    obtain ⟨m, rfl⟩ : ∃ m, n = m + 1 := ⟨n - 1, by omega⟩
    rw [List.range_succ_eq_map, List.flatMap_cons, List.append_assoc]
    rfl
  split at h
  next hm =>
    have hl : modeLines s.cfg = [.asd, .asc] := by simp [modeLines, hm]
    obtain ⟨post, hops⟩ : ∃ post, setaddrOps s.cfg a =
        [.shift .asc false, .shift .asd (a.getLsbD 0)] ++ post := by
      simp only [setaddrOps, hm, setaddrTwoWire, List.append_assoc]
      rw [first hn]
      exact ⟨_, rfl⟩
    rcases h with ⟨rfl, rfl⟩ | ⟨rfl, hc, rfl⟩
    · exact ⟨[], false, _, hops, rfl, fun _ => rfl, by simp [hl], by simp, by simp⟩
    · exact ⟨[.shift .asc false], a.getLsbD 0, _, hops, rfl, by simp, by simp [hl], by simp, by
        simp [PinOp.keepsDirections, PinOp.role, hl, hc]⟩
  next hm =>
    have hl : modeLines s.cfg = [.asd, .asc, .ass] := by simp [modeLines, hm]
    have hb : 1 ≤ addrBytes s.cfg := by unfold addrBytes; omega
    obtain ⟨post, hops⟩ : ∃ post, setaddrOps s.cfg a =
        [.shift .asc false, .shift .asd (a.getLsbD (8 * 0 + 7))] ++ post := by
      simp only [setaddrOps, hm, setaddrThreeWire, List.append_assoc]
      rw [first hb]
      exact ⟨_, rfl⟩
    rcases h with ⟨rfl, rfl⟩ | ⟨rfl, hc, rfl⟩ | ⟨rfl, hc, hd, rfl⟩
    · exact ⟨[], false, _, hops, rfl, fun _ => rfl, by simp [hl], by simp, by simp⟩
    · exact ⟨[.shift .asc false], a.getLsbD (8 * 0 + 7), _, hops, rfl, by simp, by simp [hl], by simp, by
        simp [PinOp.keepsDirections, PinOp.role, hl, hc]⟩
    · refine ⟨(List.range (addrBytes s.cfg)).flatMap (shiftByte s.cfg a) ++ [.shift .asc false], true,
        [.delay (tHalf s.cfg), .shift .ass false, .delay (tHalf s.cfg), .address (some a)], ?_, ?_, by simp, by simp [hl],
        ?_, ?_⟩
      · simp [setaddrOps, hm, setaddrThreeWire, strobePulse]
      · simp only [eventsOf_append, eventsOf_flatMap, shiftByte, eventsOf_shiftBit, byteBits_eq, List.flatMap_assoc,
          List.flatMap_map]
        rfl
      · simp only [List.mem_append, List.mem_flatMap, shiftByte, shiftBit, List.mem_cons, List.not_mem_nil, or_false]
        rintro op (⟨j, -, i, -, hop⟩ | rfl) f
        · rcases hop with rfl | rfl | rfl | rfl | rfl <;> simp
        · simp
      · simp only [List.mem_append, List.mem_flatMap, shiftByte, shiftBit, List.mem_cons, List.not_mem_nil, or_false]
        rintro op (⟨j, -, i, -, hop⟩ | rfl)
        · rcases hop with rfl | rfl | rfl | rfl | rfl <;> simp [PinOp.keepsDirections, PinOp.role, hl, hc, hd]
        · simp [PinOp.keepsDirections, PinOp.role, hl, hc]
  next hm =>
    obtain ⟨k, hk, rfl, ho, rfl⟩ := h
    have hdrop : ∀ k : Fin 24, directLines.drop k.val = k :: directLines.drop (k.val + 1) := by decide
    have htake : directLines.take (addrBits s.cfg) = directLines.take k.val
        ++ k :: (directLines.drop (k.val + 1)).take (addrBits s.cfg - k.val - 1) := by
      have h1 : addrBits s.cfg = k.val + (addrBits s.cfg - k.val) := by
        have : k.val < addrBits s.cfg := hk
        omega
      conv_lhs => rw [h1]
      rw [List.take_add, hdrop, List.take_cons (by have : k.val < addrBits s.cfg := hk; omega)]
    have hmem : ∀ i : Fin 24, i.val < addrBits s.cfg → Role.dal i ∈ modeLines s.cfg := fun i hi => by
      simp only [modeLines, hm]; exact dal_mem_usedDirectLines.mpr hi
    refine ⟨(directLines.take k.val).map fun i => .shift (.dal i) (a.getLsbD i.val), a.getLsbD k.val,
      ((directLines.drop (k.val + 1)).take (addrBits s.cfg - k.val - 1)).map
        (fun i => .shift (.dal i) (a.getLsbD i.val)) ++ [.delay (tSettle s.cfg), .address (some a)], ?_, ?_,
      by simp, hmem k hk, ?_, ?_⟩
    · simp only [setaddrOps, hm, setaddrDirect]
      rw [htake, List.map_append, List.map_cons, List.append_assoc, List.append_assoc, List.cons_append]
      rfl
    · exact eventsOf_map _ _ _ fun _ => rfl
    · rintro op hop f
      obtain ⟨i, -, rfl⟩ := List.mem_map.mp hop
      simp
    · rintro op hop
      obtain ⟨i, hi, rfl⟩ := List.mem_map.mp hop
      refine ⟨rfl, fun x hx => ?_⟩
      cases hx
      have hi' : i.val < k.val := mem_take_directLines.mp hi
      exact ⟨hmem i (Nat.lt_trans hi' hk), ho i hi'⟩
  · exact h.elim

/-- `SETADDR` stops at the first missing line, from any state with the directions of `s` on the address lines. -/
theorem setAddress_firstMissing {s t : State} {a : Addr} {r : Role} {before : List Event}
    (hv : validConfig s.cfg = true) (ha : a.toNat < 2 ^ s.cfg.addrBits.toNat) (h : FirstMissing s a r before)
    (hc : t.cfg = s.cfg) (hk : t.killIn = none) (hd : ∀ x ∈ modeLines s.cfg, t.dir x = s.dir x) :
    ∃ pre, eventsOf pre = before ∧ (before = [] → pre = []) ∧ fsmAfter pre t.fsm = t.fsm
      ∧ setAddress a t = .error (.fault .dirWrite (indexInfo (roleIndex r))) (t.ran pre) := by
  obtain ⟨pre, l, post, hops, he, h0, hr, hf, hp⟩ := setaddrOps_firstMissing (valid_addrBits hv).1 h
  refine ⟨pre, he, h0, fsmAfter_of_no_enter hf _, ?_⟩
  have hready : AllReady t.cfg pre t.pins := allReady_of_static (fun op hop => (hp op hop).1) fun op hop =>
    ready_of_role (hp op hop).1 fun x hx => by
      obtain ⟨h1, h2⟩ := (hp op hop).2 x hx
      exact ⟨hc ▸ valid_lines hv x h1, (hd x h1).trans h2⟩
  have hdir : (t.ran pre).dir r ≠ some .output := by
    have : (t.ran pre).dir r = t.dir r := by
      unfold State.dir
      rw [State.ran_pins]
      exact pinsAfter_dir (fun op hop => (hp op hop).1) _ _
    rw [this, hd r hr]
    exact h.1
  have hmap : mapped (t.ran pre).cfg r = true := by rw [State.ran_cfg, hc]; exact valid_lines hv r hr
  rw [setAddress, act_bind_ok (checkRange_ok (by rw [hc]; exact outOfRange_false ha)), act_bind_ok (act_get t),
    if_neg (by rw [hc]; exact valid_mode hv)]
  exact runOps_stops (by rw [hc]; exact hops) hk hready (op := .shift r l) (drive_missing hmap hdir)

end Sys2Proof.Machine
end

