-- ==== Sys2Proof/Laws/PerInstr.lean ====
section
/-! SUPPORT. Per instruction: its encoding meets the mask and pattern of its row of the opcode table (30_encoding.md
R95). -/

namespace Sys2Proof.Laws.TableRow

/-- The command's word carries the pattern of the row that has its mnemonic, whatever its operands. -/
def Statement (i : Instr) : Prop :=
  ∃ row ∈ opcodeTable, row.mnemonic = i.mnemonic ∧ encode i &&& row.mask = row.pattern

theorem roleField_masked (r : RoleIndex) : roleField r &&& 0xFFFFC0 = 0 := (roleMask _).mpr (roleField_high r)

theorem levelField_masked (l : Level) : levelField l &&& 0xFE = 0 := by cases l <;> decide

theorem directionField_masked (d : Direction) : directionField d &&& 0xFE = 0 := by cases d <;> decide

/-- A word made of an opcode and two fields meets a row whose mask and pattern are made likewise. -/
theorem of_fields {i : Instr} {row : Row} (op : BitVec 8) (a ma : Addr) (d md : Byte) (hr : row ∈ opcodeTable)
    (hn : row.mnemonic = i.mnemonic) (he : encode i = assemble op a d) (hm : row.mask = assemble 0xFF ma md)
    (hp : row.pattern = assemble op 0 0) (ha : a &&& ma = 0) (hd : d &&& md = 0) : Statement i :=
  ⟨row, hr, hn, by
    rw [masked_iff, he, hm, hp]
    simp only [assemble_op, assemble_addr, assemble_data]
    exact ⟨opMask op, ha, hd⟩⟩

theorem cfgdir (role : RoleIndex) (dir : Direction) : Statement (.cfgdir role dir) :=
  of_fields (row := opcodeTable[0]) 0x10 (roleField role) (Format.addrZeros .rl) (directionField dir) (Format.dataZeros .rl)
    (List.getElem_mem _) rfl rfl rfl rfl (roleField_masked role) (directionField_masked dir)

theorem pinwr (role : RoleIndex) (level : Level) : Statement (.pinwr role level) :=
  of_fields (row := opcodeTable[1]) 0x11 (roleField role) (Format.addrZeros .rl) (levelField level) (Format.dataZeros .rl)
    (List.getElem_mem _) rfl rfl rfl rfl (roleField_masked role) (levelField_masked level)

theorem pinrd (role : RoleIndex) : Statement (.pinrd role) :=
  of_fields (row := opcodeTable[2]) 0x12 (roleField role) (Format.addrZeros .r) 0 (Format.dataZeros .r)
    (List.getElem_mem _) rfl rfl rfl rfl (roleField_masked role) BitVec.zero_and

theorem setaddr (addr : Addr) : Statement (.setaddr addr) :=
  of_fields (row := opcodeTable[3]) 0x20 addr (Format.addrZeros .a) 0 (Format.dataZeros .a)
    (List.getElem_mem _) rfl rfl rfl rfl (addrAndZero addr) BitVec.zero_and

theorem busdir (dir : Direction) : Statement (.busdir dir) :=
  of_fields (row := opcodeTable[4]) 0x30 0 (Format.addrZeros .l) (directionField dir) (Format.dataZeros .l)
    (List.getElem_mem _) rfl rfl rfl rfl BitVec.zero_and (directionField_masked dir)

theorem buswr (value : Byte) : Statement (.buswr value) :=
  of_fields (row := opcodeTable[5]) 0x31 0 (Format.addrZeros .d) value (Format.dataZeros .d)
    (List.getElem_mem _) rfl rfl rfl rfl BitVec.zero_and (dataAndZero value)

theorem busrd : Statement (.busrd) :=
  of_fields (row := opcodeTable[6]) 0x32 0 (Format.addrZeros .n) 0 (Format.dataZeros .n)
    (List.getElem_mem _) rfl rfl rfl rfl BitVec.zero_and BitVec.zero_and

theorem idlesetup : Statement (.idlesetup) :=
  of_fields (row := opcodeTable[7]) 0x40 0 (Format.addrZeros .n) 0 (Format.dataZeros .n)
    (List.getElem_mem _) rfl rfl rfl rfl BitVec.zero_and BitVec.zero_and

theorem rdcyc (addr : Addr) : Statement (.rdcyc addr) :=
  of_fields (row := opcodeTable[8]) 0x41 addr (Format.addrZeros .a) 0 (Format.dataZeros .a)
    (List.getElem_mem _) rfl rfl rfl rfl (addrAndZero addr) BitVec.zero_and

theorem wrcyc (addr : Addr) (data : Byte) : Statement (.wrcyc addr data) :=
  of_fields (row := opcodeTable[9]) 0x42 addr (Format.addrZeros .ad) data (Format.dataZeros .ad)
    (List.getElem_mem _) rfl rfl rfl rfl (addrAndZero addr) (dataAndZero data)

theorem allin : Statement (.allin) :=
  of_fields (row := opcodeTable[10]) 0x43 0 (Format.addrZeros .n) 0 (Format.dataZeros .n)
    (List.getElem_mem _) rfl rfl rfl rfl BitVec.zero_and BitVec.zero_and

theorem idquery : Statement (.idquery) :=
  of_fields (row := opcodeTable[11]) 0x50 0 (Format.addrZeros .n) 0 (Format.dataZeros .n)
    (List.getElem_mem _) rfl rfl rfl rfl BitVec.zero_and BitVec.zero_and

theorem dump : Statement (.dump) :=
  of_fields (row := opcodeTable[12]) 0x51 0 (Format.addrZeros .n) 0 (Format.dataZeros .n)
    (List.getElem_mem _) rfl rfl rfl rfl BitVec.zero_and BitVec.zero_and

theorem outtest : Statement (.outtest) :=
  of_fields (row := opcodeTable[13]) 0x60 0 (Format.addrZeros .n) 0 (Format.dataZeros .n)
    (List.getElem_mem _) rfl rfl rfl rfl BitVec.zero_and BitVec.zero_and

theorem inecho : Statement (.inecho) :=
  of_fields (row := opcodeTable[14]) 0x61 0 (Format.addrZeros .n) 0 (Format.dataZeros .n)
    (List.getElem_mem _) rfl rfl rfl rfl BitVec.zero_and BitVec.zero_and

theorem iotest : Statement (.iotest) :=
  of_fields (row := opcodeTable[15]) 0x62 0 (Format.addrZeros .n) 0 (Format.dataZeros .n)
    (List.getElem_mem _) rfl rfl rfl rfl BitVec.zero_and BitVec.zero_and

theorem oetest : Statement (.oetest) :=
  of_fields (row := opcodeTable[16]) 0x63 0 (Format.addrZeros .n) 0 (Format.dataZeros .n)
    (List.getElem_mem _) rfl rfl rfl rfl BitVec.zero_and BitVec.zero_and

theorem addrtest : Statement (.addrtest) :=
  of_fields (row := opcodeTable[17]) 0x64 0 (Format.addrZeros .n) 0 (Format.dataZeros .n)
    (List.getElem_mem _) rfl rfl rfl rfl BitVec.zero_and BitVec.zero_and

end Sys2Proof.Laws.TableRow
end

