-- ==== Sys2Proof/Laws/Stages.lean ====
section
/-! SUPPORT. The sequencer state that a kill inside a cycle leaves (60_exceptions.md R271; 43_sequencer.md R181, R182):
pseudocode cut into stages, each with the state it carries. -/

namespace Sys2Proof.Machine

/-- Pseudocode that without a kill emits `n` events and ends in `t`: with a kill after fewer it is cut, and `FSM` is then
`f` of their number; with a later one it ends the same. -/
structure Stage {α : Type} (x : Act α) (s : State) (n : Nat) (a : α) (t : State) (f : Nat → Fsm) : Prop where
  unkilled : x s = .ok a t
  pass : ∀ k, n ≤ k → x (s.due (some k)) = .ok a (t.due (some (k - n)))
  cut : ∀ k, k < n → ∃ u, x (s.due (some k)) = .error .killed u ∧ u.fsm = f k

theorem Stage.bind {α β : Type} {x : Act α} {y : α → Act β} {s t v : State} {n m : Nat} {a : α} {b : β} {f g : Nat → Fsm}
    (hx : Stage x s n a t f) (hy : Stage (y a) t m b v g) :
    Stage (x >>= y) s (n + m) b v fun k => if k < n then f k else g (k - n) where
  unkilled := (act_bind_ok hx.unkilled).trans hy.unkilled
  pass k hk := by
    rw [act_bind_ok (hx.pass k (by omega)), hy.pass (k - n) (by omega), Nat.sub_sub]
  cut k hk := by
    by_cases h : k < n
    · obtain ⟨u, hu, hf⟩ := hx.cut k h
      exact ⟨u, act_bind_error hu, by rw [if_pos h, hf]⟩
    · obtain ⟨u, hu, hf⟩ := hy.cut (k - n) (by omega)
      exact ⟨u, by rw [act_bind_ok (hx.pass k (by omega)), hu], by rw [if_neg h, hf]⟩

theorem Stage.congr {α : Type} {x : Act α} {s t : State} {n m : Nat} {a : α} {f g : Nat → Fsm} (h : Stage x s n a t f)
    (hn : n = m) (hf : ∀ k, k < m → f k = g k) : Stage x s m a t g := by
  subst hn
  exact ⟨h.unkilled, h.pass, fun k hk => (h.cut k hk).imp fun u hu => ⟨hu.1, hu.2.trans (hf k hk)⟩⟩

/-- Pseudocode that keeps `FSM` wherever it stops. -/
def KeepsFsm {α : Type} (x : Act α) : Prop := ∀ s, (reached (x s)).fsm = s.fsm

theorem keepsFsm_pure {α : Type} (a : α) : KeepsFsm (pure a : Act α) := fun _ => rfl

theorem keepsFsm_bind {α β : Type} {x : Act α} {y : α → Act β} (hx : KeepsFsm x) (hy : ∀ a, KeepsFsm (y a)) :
    KeepsFsm (x >>= y) := by
  intro s
  have h := hx s
  cases hs : x s with
  | ok a t => rw [act_bind_ok hs, hy a t]; rw [hs] at h; exact h
  | error e t => rw [act_bind_error hs]; rw [hs] at h; exact h

theorem keepsFsm_emit {e : Event} {f : State → State} (h : ∀ s, (f s).fsm = s.fsm) : KeepsFsm (emit e f) := by
  intro s
  rcases emit_cases e f s with ⟨-, hs⟩ | ⟨-, hs⟩
  · rw [hs]; rfl
  · rw [hs]; exact h s

theorem keepsFsm_setDir (r : Role) (d : Direction) : KeepsFsm (setDir r d) := by
  intro s
  unfold setDir
  split
  · exact keepsFsm_emit (f := fun t => t.afterSetDir r d) (fun _ => rfl) s
  · rfl

theorem keepsFsm_drive (r : Role) (l : Level) (b : Bool) : KeepsFsm (drive r l b) := by
  intro s
  unfold drive
  split
  · split
    · exact keepsFsm_emit (f := fun t => t.afterDrive r l b) (fun _ => rfl) s
    · rfl
  · rfl

theorem keepsFsm_runOps {ops : List PinOp} (h : ∀ op ∈ ops, ∀ f, op ≠ .enter f) : KeepsFsm (runOps ops) := by
  induction ops with
  | nil => exact keepsFsm_pure _
  | cons op ops ih =>
    refine keepsFsm_bind ?_ fun _ => ih fun o ho => h o (List.mem_cons_of_mem _ ho)
    cases op with
    | setDir r d => exact keepsFsm_setDir r d
    | drive r l => exact keepsFsm_drive r l false
    | shift r l => exact keepsFsm_drive r l true
    | delay us => exact keepsFsm_emit fun _ => rfl
    | enter f => exact absurd rfl (h _ List.mem_cons_self f)
    | address a => exact fun _ => rfl

theorem keepsFsm_checkRange (a : Addr) : KeepsFsm (checkRange a) := by
  intro s
  unfold checkRange
  split <;> rfl

theorem keepsFsm_requireBus (d : Direction) : KeepsFsm (requireBus d) := by
  intro s
  unfold requireBus
  split <;> rfl

theorem keepsFsm_setAddress (a : Addr) : KeepsFsm (setAddress a) := by
  refine keepsFsm_bind (keepsFsm_checkRange a) fun _ s => ?_
  rw [act_bind_ok (act_get s)]
  split
  · rfl
  · exact keepsFsm_runOps (setaddrOps_no_enter _ _) s

theorem keepsFsm_busWrite (v : Byte) : KeepsFsm (busWrite v) :=
  keepsFsm_bind (keepsFsm_requireBus _) fun _ => keepsFsm_runOps (busDriveOps_no_enter v)

theorem keepsFsm_sample (r : Role) : KeepsFsm (sample r) := by
  intro s
  simp only [sample]
  split
  · split
    · have h := keepsFsm_emit (e := .smp r (s.env.pinIn s.pins r).1) (f := fun t => { t with env := (s.env.pinIn s.pins r).2 })
        (fun _ => rfl) s
      split
      next hu => rw [hu] at h; exact h
      next hu => rw [hu] at h; exact h
    · rfl
  · rfl

theorem keepsFsm_sampleLines (is : List (Fin 8)) : KeepsFsm (sampleLines is) := by
  induction is with
  | nil => exact keepsFsm_pure _
  | cons i is ih => exact keepsFsm_bind (keepsFsm_sample _) fun _ => keepsFsm_bind ih fun _ => keepsFsm_pure _

theorem keepsFsm_busRead : KeepsFsm busRead :=
  keepsFsm_bind (keepsFsm_requireBus _) fun _ => keepsFsm_bind (keepsFsm_sampleLines _) fun _ =>
    keepsFsm_bind (fun _ => rfl) fun _ => keepsFsm_pure _

/-- Pseudocode that keeps `FSM` is one stage. -/
theorem stage_of_keeps {α : Type} {x : Act α} {s t : State} {a : α} {es : List Event} (hc : Cuts x) (hf : KeepsFsm x)
    (hk : s.killIn = none) (h : x s = .ok a t) (ht : t.trace = s.trace ++ es) :
    Stage x s es.length a t fun _ => s.fsm := by
  obtain ⟨fs, h1, -, h3⟩ := hc s hk
  rw [h, reached_ok] at h1
  obtain rfl : es = fs := List.append_cancel_left (ht.symm.trans h1)
  rw [h] at h3
  refine ⟨h, fun k hn => (h3 k).1 hn, fun k hn => ?_⟩
  obtain ⟨u, hu, -⟩ := (h3 k).2 hn
  refine ⟨u, hu, ?_⟩
  have := hf (s.due (some k))
  rw [hu] at this
  exact this

/-- Ready steps that enter no state are one stage. -/
theorem stage_ops {ops : List PinOp} {s : State} (hk : s.killIn = none) (h : ∀ op ∈ ops, ∀ f, op ≠ .enter f)
    (hr : AllReady s.cfg ops s.pins) : Stage (runOps ops) s (eventsOf ops).length () (s.ran ops) fun _ => s.fsm :=
  stage_of_keeps (cuts_runOps ops) (keepsFsm_runOps h) hk (runOps_ready hk hr) (State.ran_trace _ _)

/-- A change of `FSM` emits nothing. -/
theorem stage_enter {g : Fsm} {s : State} (f : Nat → Fsm) (hk : s.killIn = none) :
    Stage (runOps [.enter g]) s 0 () (s.ran [.enter g]) f :=
  ⟨runOps_ready hk (.cons trivial .nil),
    fun k _ => by
      rw [runOps, act_bind_ok (show runOp (.enter g) (s.due (some k)) = .ok () { s.due (some k) with fsm := g } from rfl)]
      simp [runOps, State.ran, State.due, pinsAfter, envAfter, fsmAfter, eventsOf, PinOp.event, PinOp.onPins,
        PinOp.onEnv, PinOp.onFsm],
    fun k h => absurd h (Nat.not_lt_zero k)⟩

/-- Steps in two stages. -/
theorem Stage.append {a b : List PinOp} {s t v : State} {n m : Nat} {f g : Nat → Fsm} (ha : Stage (runOps a) s n () t f)
    (hb : Stage (runOps b) t m () v g) :
    Stage (runOps (a ++ b)) s (n + m) () v fun k => if k < n then f k else g (k - n) := by
  rw [runOps_append]
  exact ha.bind hb

/-- Steps that depend on the configuration. -/
theorem Stage.with {f : Config → List PinOp} {s t : State} {n : Nat} {g : Nat → Fsm}
    (h : Stage (runOps (f s.cfg)) s n () t g) : Stage (runWith f) s n () t g :=
  ⟨by rw [runWith, act_bind_ok (act_get s)]; exact h.unkilled,
    fun k hk => by rw [runWith, act_bind_ok (act_get _)]; exact h.pass k hk,
    fun k hk => by rw [runWith, act_bind_ok (act_get _)]; exact h.cut k hk⟩

/-- Nothing done. -/
theorem stage_pure {α : Type} {a : α} {s : State} (f : Nat → Fsm) :
    Stage (pure a : Act α) s 0 a s f :=
  ⟨rfl, fun k _ => by simp, fun k h => absurd h (Nat.not_lt_zero k)⟩

/-- The range check of an address in range. -/
theorem stage_checkRange {a : Addr} {s : State} (hk : s.killIn = none) (hr : outOfRange s.cfg a = false) :
    Stage (checkRange a) s 0 () s fun _ => s.fsm :=
  stage_of_keeps (es := []) (cuts_checkRange a) (keepsFsm_checkRange a) hk (checkRange_ok hr) (List.append_nil _).symm

/-! ### The cycles -/

/-- Pins set up for cycles, the data lines with one direction, no kill, a configuration and an `FSM`: what the stages of
a cycle hand on. -/
structure State.Poised (c : Config) (d : Direction) (f : Fsm) (s : State) : Prop where
  cfg : s.cfg = c
  fsm : s.fsm = f
  killIn : s.killIn = none
  setUp : s.SetUp
  bus : ∀ i, s.dir (.dl i) = some d

section
variable {c : Config} {d : Direction} {f : Fsm} {s : State} (h : s.Poised c d f)
include h

theorem State.Poised.ran {ops : List PinOp} (ho : ∀ op ∈ ops, op.keepsDirections = true) :
    (s.ran ops).Poised c d (fsmAfter ops f) where
  cfg := by rw [State.ran_cfg, h.cfg]
  fsm := by rw [State.ran_fsm, h.fsm]
  killIn := by rw [State.ran_killIn, h.killIn]
  setUp := h.setUp.of_keeps (State.ran_cfg _ _) fun r _ => s.ran_dir ho r
  bus i := (s.ran_dir ho _).trans (h.bus i)

/-- Steps on WE# and OE# and delays. -/
theorem State.Poised.controls {ops : List PinOp} {n : Nat} (hn : (eventsOf ops).length = n)
    (ho : ∀ op ∈ ops, (∃ l, op = .drive .we l) ∨ (∃ l, op = .drive .oe l) ∨ ∃ us, op = .delay us) :
    ∃ t, Stage (runOps ops) s n () t (fun _ => f) ∧ t.Poised c d f := by
  have hd : ∀ op ∈ ops, op.keepsDirections = true := fun op hop => by
    rcases ho op hop with ⟨l, rfl⟩ | ⟨l, rfl⟩ | ⟨us, rfl⟩ <;> rfl
  have he : ∀ op ∈ ops, ∀ g, op ≠ .enter g := fun op hop g => by
    rcases ho op hop with ⟨l, rfl⟩ | ⟨l, rfl⟩ | ⟨us, rfl⟩ <;> simp
  have hr : AllReady s.cfg ops s.pins := allReady_of_static hd fun op hop => by
    rcases ho op hop with ⟨l, rfl⟩ | ⟨l, rfl⟩ | ⟨us, rfl⟩
    · exact h.setUp.we
    · exact h.setUp.oe
    · trivial
  have hs := stage_ops h.killIn he hr
  have hp := h.ran hd
  rw [h.fsm, hn] at hs
  rw [fsmAfter_of_no_enter he] at hp
  exact ⟨_, hs, hp⟩

/-- A change of `FSM` between two stages. -/
theorem State.Poised.enter (g : Fsm) :
    ∃ t, Stage (runOps [.enter g]) s 0 () t (fun _ => g) ∧ t.Poised c d g :=
  ⟨_, stage_enter _ h.killIn, h.ran (ops := [.enter g]) (by simp [PinOp.keepsDirections])⟩

/-- The address step (41_address_shifter.md R140). -/
theorem State.Poised.address (hv : validConfig c = true) {a : Addr} (hr : outOfRange c a = false) :
    ∃ t, Stage (setAddress a) s (addressEvents c a).length () t (fun _ => f) ∧ t.Poised c d f := by
  have hs := stage_of_keeps (cuts_setAddress a) (keepsFsm_setAddress a) h.killIn
    (setAddress_ready h.killIn (by rw [h.cfg]; exact hr) (by rw [h.cfg]; exact valid_mode hv) h.setUp.lines)
    (State.ran_trace _ _)
  have hp := h.ran (setaddrOps_keepsDirections s.cfg a)
  rw [eventsOf_setaddr, h.cfg, h.fsm] at hs
  rw [fsmAfter_of_no_enter (setaddrOps_no_enter _ _), h.cfg] at hp
  exact ⟨_, hs, hp⟩

end

/-- The bus turned round. -/
theorem stage_busdir {s : State} (hv : validConfig s.cfg = true) (hk : s.killIn = none) (hs : s.SetUp) (d : Direction) :
    ∃ t, Stage (runOps (busdirOps d)) s 8 () t (fun _ => s.fsm) ∧ t.Poised s.cfg d s.fsm := by
  have h := stage_ops (ops := busdirOps d) hk (busdirOps_no_enter d) (busdirOps_ready d (valid_data hv))
  rw [eventsOf_busdir] at h
  refine ⟨_, h, State.ran_cfg _ _, ?_, hk, hs.of_keeps (State.ran_cfg _ _) fun r hr => ?_, fun i => ?_⟩
  · rw [State.ran_fsm, fsmAfter_of_no_enter (busdirOps_no_enter d)]
  · unfold State.dir
    rw [State.ran_pins, pinsAfter_busdir_other]
    rintro i rfl
    exact hr (mem_dataRoles i)
  · unfold State.dir
    rw [State.ran_pins, pinsAfter_busdir_dir]

/-- The bus read (42_data_bus.md R164). -/
theorem State.Poised.read {c : Config} {f : Fsm} {s : State} (h : s.Poised c .input f) (hv : validConfig c = true) :
    ∃ v t, Stage busRead s 8 v t (fun _ => f) ∧ t.Poised c .input f := by
  have hs := stage_of_keeps cuts_busRead keepsFsm_busRead h.killIn
    (busRead_ready h.killIn (by rw [h.cfg]; exact valid_data hv) h.bus) (by rw [State.sampledBus])
  have hn : (busSampleEvents (Env.levels s.pins dataLines s.env)).length = 8 := by
    simp [busSampleEvents, dataLines]
  rw [hn, h.fsm] at hs
  refine ⟨_, _, hs, by rw [State.sampledBus_cfg, h.cfg], by simp only [State.sampledBus]; exact h.fsm,
    by simp only [State.sampledBus]; exact h.killIn,
    h.setUp.of_keeps (State.sampledBus_cfg s) fun r _ => State.dir_congr (State.sampledBus_pins s) r,
    fun i => (State.dir_congr (State.sampledBus_pins s) _).trans (h.bus i)⟩

/-- The bus write (42_data_bus.md R163). -/
theorem State.Poised.write {c : Config} {f : Fsm} {s : State} (h : s.Poised c .output f) (hv : validConfig c = true)
    (v : Byte) : ∃ t, Stage (busWrite v) s 8 () t (fun _ => f) ∧ t.Poised c .output f := by
  have hs := stage_of_keeps (cuts_busWrite v) (keepsFsm_busWrite v) h.killIn
    (busWrite_ready v h.killIn (by rw [h.cfg]; exact valid_data hv) h.bus) (State.ran_trace _ _)
  have hp := h.ran (busDriveOps_keepsDirections v)
  have hn : (eventsOf (busDriveOps v)).length = 8 := rfl
  rw [hn, h.fsm] at hs
  rw [fsmAfter_of_no_enter (busDriveOps_no_enter v)] at hp
  exact ⟨_, hs, hp⟩

/-- A read cycle's stages (43_sequencer.md R181, R182, R186). -/
theorem stage_readCycle {s : State} {a : Addr} (hv : validConfig s.cfg = true) (hk : s.killIn = none) (hs : s.SetUp)
    (hr : outOfRange s.cfg a = false) :
    ∃ v t, t.fsm = .idle ∧ Stage (readCycle a) s ((addressEvents s.cfg a).length + 24) v t fun k =>
      if k < 11 then s.fsm else if k < (addressEvents s.cfg a).length + 12 then .addressSettling else .reading := by
  obtain ⟨s1, b1, p1⟩ := stage_busdir hv hk hs .input
  obtain ⟨s2, b2, p2⟩ := p1.controls (n := 3) (ops := [.drive .we true, .drive .oe true, .delay (tSettle s.cfg)]) rfl (by simp)
  obtain ⟨s3, b3, p3⟩ := p2.enter .addressSettling
  obtain ⟨s4, b4, p4⟩ := p3.address hv hr
  obtain ⟨s5, b5, p5⟩ := p4.controls (n := 1) (ops := [.delay (tSettle s.cfg)]) rfl (by simp)
  obtain ⟨s6, b6, p6⟩ := p5.enter .reading
  obtain ⟨s7, b7, p7⟩ := p6.controls (n := 2) (ops := [.drive .oe false, .delay (tSettle s.cfg)]) rfl (by simp)
  obtain ⟨v, s8, b8, p8⟩ := p7.read hv
  obtain ⟨s9, b9, p9⟩ := p8.controls (n := 2) (ops := [.drive .oe true, .delay (tSettle s.cfg)]) rfl (by simp)
  obtain ⟨s10, b10, p10⟩ := p9.enter .idle
  have lead := Stage.with (f := readLead) (s := s) (b1.append (b2.append b3))
  have opened := Stage.with (f := readOpen) (s := s4) (by rw [p4.cfg]; exact b5.append (b6.append b7))
  have close := Stage.with (f := readClose) (s := s8) (by rw [p8.cfg]; exact b9.append b10)
  have all : Stage (readCycle a) s _ v s10 _ := (stage_checkRange hk hr).bind (lead.bind (b4.bind (opened.bind
    (b8.bind (y := fun v => runWith readClose >>= fun _ => pure v) (close.bind (stage_pure fun _ => .idle))))))
  refine ⟨v, s10, p10.fsm, all.congr (by omega) fun k hk => ?_⟩
  split_ifs <;> first | rfl | omega

/-- A write cycle's stages (43_sequencer.md R181, R182, R190). -/
theorem stage_writeCycle {s : State} {a : Addr} (v : Byte) (hv : validConfig s.cfg = true) (hk : s.killIn = none)
    (hs : s.SetUp) (hr : outOfRange s.cfg a = false) :
    ∃ t, t.fsm = .idle ∧ Stage (writeCycle a v) s ((addressEvents s.cfg a).length + 24) () t fun k =>
      if k < 11 then s.fsm else if k < (addressEvents s.cfg a).length + 20 then .addressSettling else .writing := by
  have b1 : Stage (runOps [.drive .we true, .drive .oe true, .delay (tSettle s.cfg)]) s 3 ()
      (s.ran [.drive .we true, .drive .oe true, .delay (tSettle s.cfg)]) (fun _ => s.fsm) :=
    stage_ops hk (by simp) (allReady_of_static (by simp [PinOp.keepsDirections]) fun op hop => by
      simp only [List.mem_cons, List.not_mem_nil, or_false] at hop
      rcases hop with rfl | rfl | rfl
      · exact hs.we
      · exact hs.oe
      · trivial)
  have q1 : (s.ran [.drive .we true, .drive .oe true, .delay (tSettle s.cfg)]).SetUp :=
    hs.of_keeps (State.ran_cfg _ _) fun r _ => s.ran_dir (by simp [PinOp.keepsDirections]) r
  have c1 := s.ran_cfg [.drive .we true, .drive .oe true, .delay (tSettle s.cfg)]
  have f1 : (s.ran [.drive .we true, .drive .oe true, .delay (tSettle s.cfg)]).fsm = s.fsm := by
    rw [State.ran_fsm]; rfl
  have k1 : (s.ran [.drive .we true, .drive .oe true, .delay (tSettle s.cfg)]).killIn = none := by
    rw [State.ran_killIn, hk]
  generalize s.ran [.drive .we true, .drive .oe true, .delay (tSettle s.cfg)] = s1 at b1 q1 c1 f1 k1
  obtain ⟨s2, b2, p2⟩ := stage_busdir (by rw [c1]; exact hv) k1 q1 .output
  rw [c1, f1] at p2
  rw [f1] at b2
  obtain ⟨s3, b3, p3⟩ := p2.enter .addressSettling
  obtain ⟨s4, b4, p4⟩ := p3.address hv hr
  obtain ⟨s5, b5, p5⟩ := p4.write hv v
  obtain ⟨s6, b6, p6⟩ := p5.controls (n := 1) (ops := [.delay (tSettle s.cfg)]) rfl (by simp)
  obtain ⟨s7, b7, p7⟩ := p6.enter .writing
  obtain ⟨s8, b8, p8⟩ := p7.controls (n := 4) (ops := [.drive .we false, .delay (tSettle s.cfg), .drive .we true,
    .delay (tSettle s.cfg)]) rfl (by simp)
  obtain ⟨s9, b9, p9⟩ := p8.enter .idle
  have lead := Stage.with (f := writeLead) (s := s) ((b1.append b2).append b3)
  have pulse := Stage.with (f := writePulse) (s := s5) (by
    rw [p5.cfg]; exact b6.append (b7.append (b8.append b9)))
  have all : Stage (writeCycle a v) s _ () s9 _ :=
    (stage_checkRange hk hr).bind (lead.bind (b4.bind (b5.bind pulse)))
  refine ⟨s9, p9.fsm, all.congr (by omega) fun k hk => ?_⟩
  split_ifs <;> first | rfl | omega

/-- A stage run as a command with a kill: the state it leaves (60_exceptions.md R271). -/
theorem Stage.killed {x : Act Progress} {s t : State} {n k : Nat} {p : Payload} {f : Nat → Fsm}
    (h : Stage x s n (.done p) t f) (hk : k ≤ n) :
    (settle (x (s.due (some k)))).phase = .stopped
      ∧ (settle (x (s.due (some k)))).fsm = if k < n then f k else t.fsm := by
  by_cases hn : k < n
  · obtain ⟨u, hu, hf⟩ := h.cut k hn
    rw [hu, if_pos hn]
    exact ⟨rfl, hf⟩
  · have : k - n = 0 := by omega
    rw [h.pass k (by omega), if_neg hn, this]
    exact ⟨rfl, rfl⟩

end Sys2Proof.Machine
end

