-- ==== Sys2Proof/Laws/Writers.lean ====
section
/-! SUPPORT. Which pseudocode writes which register, wherever it stops (10_state.md R24 to R27). -/

namespace Sys2Proof.Machine

/-- The registers that pseudocode may write. -/
structure Writes where
  d : Bool := false
  id : Bool := false
  cur : Bool := false
  fsm : Bool := false

/-- Every other register stays, and so does the fault record. -/
structure Spares (w : Writes) (s t : State) : Prop where
  d : w.d = false → t.d = s.d
  id : w.id = false → t.id = s.id
  cur : w.cur = false → t.cur = s.cur
  fsm : w.fsm = false → t.fsm = s.fsm
  fault : KeepsFault s t

theorem Spares.trans {w : Writes} {s t u : State} (h : Spares w s t) (k : Spares w t u) : Spares w s u :=
  ⟨fun e => (k.d e).trans (h.d e), fun e => (k.id e).trans (h.id e), fun e => (k.cur e).trans (h.cur e),
    fun e => (k.fsm e).trans (h.fsm e), k.fault.1.trans h.fault.1, k.fault.2.1.trans h.fault.2.1,
    k.fault.2.2.trans h.fault.2.2⟩

/-- The registers are those of `s`. -/
theorem Spares.same {w : Writes} {s t : State} (hd : t.d = s.d) (hi : t.id = s.id) (hc : t.cur = s.cur)
    (hf : t.fsm = s.fsm) (h1 : t.fault = s.fault) (h2 : t.fcode = s.fcode) (h3 : t.finfo = s.finfo) : Spares w s t :=
  ⟨fun _ => hd, fun _ => hi, fun _ => hc, fun _ => hf, h1, h2, h3⟩

theorem Spares.refl {w : Writes} {s : State} : Spares w s s := .same rfl rfl rfl rfl rfl rfl rfl

/-- Pseudocode that writes no other register, wherever it stops. -/
def Leaves {α : Type} (w : Writes) (x : Act α) : Prop := ∀ s, Spares w s (reached (x s))

variable {w : Writes}

theorem leaves_pure {α : Type} (a : α) : Leaves w (pure a : Act α) := fun _ => .refl

theorem leaves_get : Leaves w (get : Act State) := fun _ => .refl

theorem leaves_raise {α : Type} (c : Cause) (i : BitVec 24) : Leaves w (raise c i : Act α) := fun _ => .refl

theorem leaves_modify {f : State → State} (h : ∀ s, Spares w s (f s)) : Leaves w (modify f : Act PUnit) := h

theorem leaves_bind {α β : Type} {x : Act α} {f : α → Act β} (hx : Leaves w x) (hf : ∀ a, Leaves w (f a)) :
    Leaves w (x >>= f) := by
  intro s
  have h := hx s
  rw [act_bind]
  cases hxs : x s with
  | ok a t => rw [hxs] at h; exact h.trans (hf a t)
  | error e t => rw [hxs] at h; exact h

theorem leaves_emit {e : Event} {f : State → State} (h : ∀ s, Spares w s (f s)) : Leaves w (emit e f) := by
  intro s
  rcases emit_cases e f s with ⟨-, he⟩ | ⟨-, he⟩ <;> rw [he]
  · exact .refl
  · exact (h s).trans (.same rfl rfl rfl rfl rfl rfl rfl)

theorem leaves_setDir (r : Role) (d : Direction) : Leaves w (setDir r d) := by
  intro s
  unfold setDir
  split
  · exact leaves_emit (f := fun t => t.afterSetDir r d) (fun _ => .same rfl rfl rfl rfl rfl rfl rfl) s
  · exact .refl

theorem leaves_drive (r : Role) (l : Level) (b : Bool) : Leaves w (drive r l b) := by
  intro s
  unfold drive
  split
  · split
    · exact leaves_emit (f := fun t => t.afterDrive r l b) (fun _ => .same rfl rfl rfl rfl rfl rfl rfl) s
    · exact .refl
  · exact .refl

theorem leaves_sample (r : Role) : Leaves w (sample r) := by
  intro s
  unfold sample
  split
  · split
    · have h := leaves_emit (w := w) (e := .smp r (s.env.pinIn s.pins r).1) (f := fun t => { t with env := (s.env.pinIn s.pins r).2 })
        (fun _ => .same rfl rfl rfl rfl rfl rfl rfl) s
      dsimp only
      split <;> rename_i heq <;> rw [heq] at h <;> exact h
    · exact .refl
  · exact .refl

theorem leaves_quiet (e : Event) : Leaves w (emit e id) := leaves_emit fun _ => .refl

theorem leaves_sinkWrite (v : Byte) : Leaves w (sinkWrite v) := by
  intro s
  have h := leaves_emit (w := w) (e := .sink v s.sinkAnswer) (f := State.afterSink)
    (fun t => by unfold State.afterSink; split <;> exact .same rfl rfl rfl rfl rfl rfl rfl) s
  unfold sinkWrite
  split <;> rename_i heq <;> rw [heq] at h <;> exact h

/-- Steps that enter no state of the sequencer write no register; others may write `FSM`. -/
theorem leaves_runOps {ops : List PinOp} (h : w.fsm = true ∨ ∀ op ∈ ops, ∀ f, op ≠ .enter f) :
    Leaves w (runOps ops) := by
  induction ops with
  | nil => exact leaves_pure _
  | cons op ops ih =>
    refine leaves_bind ?_ fun _ => ih (h.imp_right fun h o ho => h o (List.mem_cons_of_mem _ ho))
    cases op with
    | setDir r d => exact leaves_setDir r d
    | drive r l => exact leaves_drive r l false
    | shift r l => exact leaves_drive r l true
    | delay us => exact leaves_quiet _
    | enter f =>
      rcases h with h | h
      · exact fun s => ⟨fun _ => rfl, fun _ => rfl, fun _ => rfl, fun e => Bool.noConfusion (h.symm.trans e), rfl, rfl, rfl⟩
      · exact absurd rfl (h _ List.mem_cons_self f)
    | address a => exact fun s => .same rfl rfl rfl rfl rfl rfl rfl

theorem leaves_runWith {f : Config → List PinOp} (h : w.fsm = true ∨ ∀ c, ∀ op ∈ f c, ∀ g, op ≠ .enter g) :
    Leaves w (runWith f) :=
  leaves_bind leaves_get fun s => leaves_runOps (h.imp_right fun h => h s.cfg)

theorem leaves_finish {x : Act Unit} (h : Leaves w x) : Leaves w (finish x) := leaves_bind h fun _ => leaves_pure _

theorem leaves_withRole {α : Type} (ix : RoleIndex) {f : Role → Act α} (h : ∀ r, Leaves w (f r)) :
    Leaves w (withRole ix f) := by
  unfold withRole
  split
  · exact h _
  · exact leaves_raise _ _

theorem leaves_checkRange (a : Addr) : Leaves w (checkRange a) := by
  intro s
  unfold checkRange
  split <;> exact .refl

theorem leaves_setAddress (a : Addr) : Leaves w (setAddress a) := by
  refine leaves_bind (leaves_checkRange a) fun _ => leaves_bind leaves_get fun s => ?_
  split
  · exact leaves_raise _ _
  · exact leaves_runOps (.inr (setaddrOps_no_enter _ _))

theorem leaves_requireBus (d : Direction) : Leaves w (requireBus d) := by
  intro s
  unfold requireBus
  split <;> exact .refl

theorem leaves_busdir (d : Direction) : Leaves w (runOps (busdirOps d)) := leaves_runOps (.inr (busdirOps_no_enter d))

theorem leaves_busWrite (v : Byte) : Leaves w (busWrite v) :=
  leaves_bind (leaves_requireBus _) fun _ => leaves_runOps (.inr (busDriveOps_no_enter v))

theorem leaves_sampleLines (is : List (Fin 8)) : Leaves w (sampleLines is) := by
  induction is with
  | nil => exact leaves_pure _
  | cons i is ih => exact leaves_bind (leaves_sample _) fun _ => leaves_bind ih fun _ => leaves_pure _

/-- A bus read writes `D` (10_state.md R24). -/
theorem leaves_busRead (h : w.d = true) : Leaves w busRead :=
  leaves_bind (leaves_requireBus _) fun _ => leaves_bind (leaves_sampleLines _) fun _ =>
    leaves_bind (leaves_modify fun _ => ⟨fun e => Bool.noConfusion (h.symm.trans e), fun _ => rfl, fun _ => rfl, fun _ => rfl, rfl, rfl, rfl⟩)
      fun _ => leaves_pure _

theorem leaves_idleSetup (h : w.fsm = true) : Leaves w idleSetup := leaves_runWith (.inl h)

/-- A read cycle writes `D` and `FSM` (10_state.md R24, R27). -/
theorem leaves_readCycle (hd : w.d = true) (hf : w.fsm = true) (a : Addr) : Leaves w (readCycle a) :=
  leaves_bind (leaves_checkRange a) fun _ => leaves_bind (leaves_runWith (.inl hf)) fun _ =>
    leaves_bind (leaves_setAddress a) fun _ => leaves_bind (leaves_runWith (.inl hf)) fun _ =>
      leaves_bind (leaves_busRead hd) fun _ => leaves_bind (leaves_runWith (.inl hf)) fun _ => leaves_pure _

/-- A write cycle writes `FSM` (10_state.md R27). -/
theorem leaves_writeCycle (hf : w.fsm = true) (a : Addr) (v : Byte) : Leaves w (writeCycle a v) :=
  leaves_bind (leaves_checkRange a) fun _ => leaves_bind (leaves_runWith (.inl hf)) fun _ =>
    leaves_bind (leaves_setAddress a) fun _ => leaves_bind (leaves_busWrite v) fun _ => leaves_runWith (.inl hf)

theorem leaves_writeAll (hf : w.fsm = true) (l : List (Addr × Byte)) : Leaves w (writeAll l) := by
  induction l with
  | nil => exact leaves_pure _
  | cons x l ih => exact leaves_bind (leaves_writeCycle hf x.1 x.2) fun _ => ih

theorem leaves_readIdentity (hd : w.d = true) (hi : w.id = true) (hf : w.fsm = true) (l : List (Fin 4 × Addr)) :
    Leaves w (readIdentity l) := by
  induction l with
  | nil => exact leaves_pure _
  | cons x l ih =>
    exact leaves_bind (leaves_readCycle hd hf x.2) fun v => leaves_bind
      (leaves_modify fun _ => ⟨fun _ => rfl, fun e => Bool.noConfusion (hi.symm.trans e), fun _ => rfl, fun _ => rfl, rfl, rfl, rfl⟩)
      fun _ => ih

theorem leaves_closingBus {x : Act Unit} (h : Leaves w x) : Leaves w (closingBus x) := by
  intro s
  have hx := h s
  unfold closingBus
  split
  next t ht => rw [ht] at hx; exact hx.trans (leaves_busdir _ t)
  next t ht => rw [ht] at hx; exact hx
  next c i t ht =>
    rw [ht] at hx
    have hc := leaves_busdir (w := w) .input t
    split
    all_goals (next u hu => rw [hu] at hc; exact hx.trans hc)

/-- `IDQUERY` writes `D`, `ID` and `FSM`. -/
theorem leaves_identityQuery (hd : w.d = true) (hi : w.id = true) (hf : w.fsm = true) : Leaves w identityQuery :=
  leaves_bind (leaves_idleSetup hf) fun _ => leaves_bind (leaves_closingBus (leaves_bind (leaves_writeAll hf _) fun _ =>
    leaves_bind (leaves_readIdentity hd hi hf _) fun _ => leaves_writeCycle hf _ _)) fun _ =>
      leaves_bind leaves_get fun _ => leaves_bind (leaves_quiet _) fun _ => leaves_pure _

/-- A turn of `DUMP` writes `D`, `CUR` and `FSM`. -/
theorem leaves_dumpTurn (hd : w.d = true) (hc : w.cur = true) (hf : w.fsm = true) : Leaves w dumpTurn := by
  refine leaves_bind leaves_get fun s => leaves_bind (leaves_readCycle hd hf _) fun v =>
    leaves_bind (leaves_sinkWrite v) fun ok => ?_
  split
  · split
    · exact leaves_bind (leaves_quiet _) fun _ => leaves_pure _
    · exact leaves_bind (leaves_modify fun _ => ⟨fun _ => rfl, fun _ => rfl, fun e => Bool.noConfusion (hc.symm.trans e),
        fun _ => rfl, rfl, rfl, rfl⟩) fun _ => leaves_pure _
  · exact leaves_bind (leaves_quiet _) fun _ => leaves_raise _ _

theorem leaves_dumpStart (hd : w.d = true) (hc : w.cur = true) (hf : w.fsm = true) : Leaves w dumpStart :=
  leaves_bind (leaves_idleSetup hf) fun _ => leaves_bind (leaves_modify fun _ => ⟨fun _ => rfl, fun _ => rfl,
    fun e => Bool.noConfusion (hc.symm.trans e), fun _ => rfl, rfl, rfl, rfl⟩) fun _ => leaves_dumpTurn hd hc hf

/-- Steps made by a map that gives no `enter` enter no state. -/
theorem no_enter_map {α : Type} {l : List α} {g : α → PinOp} (h : ∀ x f, g x ≠ .enter f) :
    ∀ op ∈ l.map g, ∀ f, op ≠ .enter f := by
  intro op hop f
  obtain ⟨x, -, rfl⟩ := List.mem_map.mp hop
  exact h x f

theorem no_enter_append {a b : List PinOp} (ha : ∀ op ∈ a, ∀ f, op ≠ .enter f) (hb : ∀ op ∈ b, ∀ f, op ≠ .enter f) :
    ∀ op ∈ a ++ b, ∀ f, op ≠ .enter f := fun op hop => (List.mem_append.mp hop).elim (ha op) (hb op)

theorem no_enter_flatMap {α : Type} {l : List α} {g : α → List PinOp} (h : ∀ x, ∀ op ∈ g x, ∀ f, op ≠ .enter f) :
    ∀ op ∈ l.flatMap g, ∀ f, op ≠ .enter f := by
  intro op hop
  obtain ⟨x, -, hx⟩ := List.mem_flatMap.mp hop
  exact h x op hx

theorem no_enter_delay (us : Nat) : ∀ op ∈ [PinOp.delay us], ∀ f, op ≠ .enter f := by simp

theorem outEndOps_no_enter (c : Config) : ∀ op ∈ outEndOps c, ∀ f, op ≠ .enter f := by
  refine no_enter_append ?_ (no_enter_map (by simp))
  split
  · exact no_enter_map (by simp)
  · simp

theorem outTestOps_no_enter (c : Config) : ∀ op ∈ outTestOps c, ∀ f, op ≠ .enter f :=
  no_enter_append (no_enter_append (no_enter_map (by simp)) (no_enter_flatMap fun _ =>
    no_enter_append (no_enter_map (by simp)) (no_enter_delay _))) (outEndOps_no_enter c)

theorem echoOps_no_enter (c : Config) : ∀ op ∈ echoOps c, ∀ f, op ≠ .enter f :=
  no_enter_append (no_enter_flatMap fun _ => by simp) (no_enter_map (by simp))

theorem ioOutputOps_no_enter (c : Config) : ∀ op ∈ ioOutputOps c, ∀ f, op ≠ .enter f :=
  no_enter_append (no_enter_map (by simp)) (no_enter_flatMap fun _ =>
    no_enter_append (no_enter_map (by simp)) (no_enter_delay _))

theorem blinkOnce_no_enter (c : Config) (k : Fin 2) : ∀ op ∈ blinkOnce c k, ∀ f, op ≠ .enter f :=
  no_enter_append (no_enter_append (no_enter_append (no_enter_map (by simp)) (no_enter_delay _))
    (no_enter_map (by simp))) (no_enter_delay _)

theorem leaves_echoTurn (hd : w.d = true) : Leaves w echoTurn :=
  leaves_bind (leaves_busRead hd) fun _ => leaves_bind (leaves_quiet _) fun _ =>
    leaves_bind (leaves_runWith (.inr fun _ => no_enter_delay _)) fun _ => leaves_pure _

theorem leaves_blinkEnd : Leaves w blinkEnd :=
  leaves_bind (leaves_runWith (.inr fun c => no_enter_append (no_enter_append (no_enter_map (by simp))
    (blinkOnce_no_enter c 0)) (blinkOnce_no_enter c 1))) fun _ => leaves_pure _

theorem pollOps_no_enter (c : Config) : ∀ op ∈ pollOps c, ∀ f, op ≠ .enter f := by
  unfold pollOps
  split <;> simp

theorem leaves_ioTurn (hd : w.d = true) (l : List (BitVec 4)) (found : Nat) : Leaves w (ioTurn l found) := by
  cases l with
  | nil => exact leaves_blinkEnd
  | cons e rest =>
    refine leaves_bind (leaves_busRead hd) fun v => leaves_bind leaves_get fun s => ?_
    split
    · split
      · exact leaves_bind (leaves_runWith (.inr pollOps_no_enter)) fun _ => leaves_pure _
      · split
        · exact leaves_blinkEnd
        · exact leaves_pure _
    · exact leaves_bind (leaves_runWith (.inr pollOps_no_enter)) fun _ => leaves_pure _

theorem leaves_oeTurn : Leaves w oeTurn :=
  leaves_bind (leaves_runWith (.inr fun c => by simp [oePeriod])) fun _ => leaves_pure _

theorem leaves_addressTest (hd : w.d = true) (hf : w.fsm = true) : Leaves w addressTest := by
  have check : ∀ a, Leaves w (checkAddress a) := by
    intro a
    refine leaves_bind (leaves_setAddress a) fun _ => leaves_bind (leaves_runWith (.inl hf)) fun _ =>
      leaves_bind (leaves_busRead hd) fun v => ?_
    split
    · exact leaves_pure _
    · exact leaves_bind (leaves_quiet _) fun _ => leaves_raise _ _
  refine leaves_bind leaves_get fun s => ?_
  split
  · exact leaves_raise _ _
  · refine leaves_bind (leaves_idleSetup hf) fun _ => ?_
    generalize testAddresses s.cfg = l
    induction l with
    | nil => exact leaves_pure _
    | cons a l ih => exact leaves_bind (check a) fun _ => ih

/-- What the step that accepts a command may write. -/
def writesOf : Instr → Writes
  | .busrd => { d := true }
  | .idlesetup => { fsm := true }
  | .rdcyc _ => { d := true, fsm := true }
  | .wrcyc _ _ => { fsm := true }
  | .idquery => { d := true, id := true, fsm := true }
  | .dump => { d := true, cur := true, fsm := true }
  | .inecho => { d := true }
  | .oetest => { fsm := true }
  | .addrtest => { d := true, fsm := true }
  | .cfgdir _ _ | .pinwr _ _ | .pinrd _ | .setaddr _ | .busdir _ | .buswr _ | .allin | .outtest | .iotest => {}

/-- What a later turn of a running command may write. -/
def writesOfJob : Job → Writes
  | .dump => { d := true, cur := true, fsm := true }
  | .inEcho => { d := true }
  | .oeTest => {}
  | .ioTest _ _ => { d := true }

theorem leaves_bodyOf (i : Instr) : Leaves (writesOf i) (bodyOf i) := by
  cases i with
  | cfgdir role dir => exact leaves_finish (leaves_withRole role fun r => leaves_setDir r dir)
  | pinwr role level => exact leaves_finish (leaves_withRole role fun r => leaves_drive r level false)
  | pinrd role => exact leaves_bind (leaves_withRole role leaves_sample) fun _ => leaves_pure _
  | setaddr addr => exact leaves_finish (leaves_setAddress addr)
  | busdir dir => exact leaves_finish (leaves_busdir dir)
  | buswr value => exact leaves_finish (leaves_busWrite value)
  | busrd => exact leaves_bind (leaves_busRead rfl) fun _ => leaves_pure _
  | idlesetup => exact leaves_finish (leaves_idleSetup rfl)
  | rdcyc addr => exact leaves_bind (leaves_readCycle rfl rfl addr) fun _ => leaves_pure _
  | wrcyc addr data => exact leaves_finish (leaves_writeCycle rfl addr data)
  | allin => exact leaves_finish (leaves_runWith (.inr fun _ => no_enter_map (by simp)))
  | idquery => exact leaves_identityQuery rfl rfl rfl
  | dump => exact leaves_dumpStart rfl rfl rfl
  | outtest => exact leaves_finish (leaves_runWith (.inr outTestOps_no_enter))
  | inecho => exact leaves_bind (leaves_runWith (.inr echoOps_no_enter)) fun _ => leaves_echoTurn rfl
  | iotest =>
    exact leaves_bind (leaves_runWith (.inr ioOutputOps_no_enter)) fun _ => leaves_bind (leaves_busdir _) fun _ =>
      leaves_pure _
  | oetest => exact leaves_bind (leaves_idleSetup rfl) fun _ => leaves_oeTurn
  | addrtest => exact leaves_finish (leaves_addressTest rfl rfl)

theorem leaves_jobTurn (j : Job) : Leaves (writesOfJob j) (jobTurn j) := by
  cases j with
  | dump => exact leaves_dumpTurn rfl rfl rfl
  | inEcho => exact leaves_echoTurn rfl
  | oeTest => exact leaves_oeTurn
  | ioTest l found => exact leaves_ioTurn rfl l found

/-- How a command is settled writes no register but the fault record, and that only at a fault. -/
theorem Leaves.settle {x : Act Progress} (h : Leaves w x) (s : State) :
    Spares w s (settle (x s))
      ∨ (settle (x s)).fault = true ∧ ∃ u, Spares w s u ∧ ∃ c i, settle (x s) = u.takeFault c i := by
  have hs := h s
  cases hx : x s with
  | ok a t =>
    rw [hx] at hs
    cases a with
    | done p =>
      by_cases hk : t.killIn = some 0
      · rw [show Machine.settle (.ok (.done p) t) = t.kill by simp [Machine.settle, hk]]
        exact .inl (hs.trans (.same rfl rfl rfl rfl rfl rfl rfl))
      · rw [show Machine.settle (.ok (.done p) t) = t.respond (.ok p) by simp [Machine.settle, hk]]
        exact .inl (hs.trans (.same rfl rfl rfl rfl rfl rfl rfl))
    | more j => exact .inl (hs.trans (.same rfl rfl rfl rfl rfl rfl rfl))
  | error e t =>
    rw [hx] at hs
    cases e with
    | fault c i =>
      by_cases hk : t.killIn = some 0
      · rw [show Machine.settle (.error (.fault c i) t) = t.kill by simp [Machine.settle, hk]]
        exact .inl (hs.trans (.same rfl rfl rfl rfl rfl rfl rfl))
      · rw [show Machine.settle (.error (.fault c i) t) = t.takeFault c i by simp [Machine.settle, hk]]
        exact .inr ⟨rfl, t, hs, c, i, rfl⟩
    | killed => exact .inl (hs.trans (.same rfl rfl rfl rfl rfl rfl rfl))

end Sys2Proof.Machine
end

