-- ==== Sys2Proof/Tests/Slice0.lean ====
section
/-! SUPPORT. Small tests: the vectors V1 to V12 of 95_test_vectors.md and values worked out from the rules, and for each
statement a witness of its hypotheses. No expected value was taken from the model. -/

namespace Sys2Proof.Machine

/-! ### Well-formedness: the one check, refused and met at its boundaries (30_encoding.md R94) -/

theorem test_wellFormed_refuses :
    (Instr.cfgdir 13 .output).wellFormed = false ∧ (Instr.pinwr 31 true).wellFormed = false
      ∧ (Instr.pinrd 56).wellFormed = false ∧ (Instr.pinrd 63).wellFormed = false := by decide

theorem test_wellFormed_admits :
    (Instr.cfgdir 12 .output).wellFormed = true ∧ (Instr.pinwr 32 true).wellFormed = true
      ∧ (Instr.pinrd 55).wellFormed = true ∧ (Instr.pinrd 0).wellFormed = true := by decide

/-! ### Decoding: V11, and one word of every constructor -/

theorem test_decode_gpio :
    decode 0x1000000801 = .ok (.cfgdir 8 .output) ∧ decode 0x1000000C01 = .ok (.cfgdir 12 .output)
      ∧ decode 0x1000002000 = .ok (.cfgdir 32 .input) ∧ decode 0x1100000901 = .ok (.pinwr 9 true)
      ∧ decode 0x1100003701 = .ok (.pinwr 55 true) ∧ decode 0x1200000300 = .ok (.pinrd 3) := by decide

theorem test_decode_bus :
    decode 0x20FFFFFF00 = .ok (.setaddr 0xFFFFFF) ∧ decode 0x3000000001 = .ok (.busdir .output)
      ∧ decode 0x3000000000 = .ok (.busdir .input) ∧ decode 0x31000000A5 = .ok (.buswr 0xA5)
      ∧ decode 0x3200000000 = .ok .busrd := by decide

theorem test_decode_sequencer :
    decode 0x4000000000 = .ok .idlesetup ∧ decode 0x4100001E00 = .ok (.rdcyc 0x1E)
      ∧ decode 0x42000AAAAA = .ok (.wrcyc 0xAAA 0xAA) ∧ decode 0x42FFFFFFFF = .ok (.wrcyc 0xFFFFFF 0xFF)
      ∧ decode 0x4200000000 = .ok (.wrcyc 0 0) ∧ decode 0x4300000000 = .ok .allin := by decide

theorem test_decode_composite : decode 0x5000000000 = .ok .idquery ∧ decode 0x5100000000 = .ok .dump := by decide

theorem test_decode_diagnostics :
    decode 0x6000000000 = .ok .outtest ∧ decode 0x6100000000 = .ok .inecho ∧ decode 0x6200000000 = .ok .iotest
      ∧ decode 0x6300000000 = .ok .oetest ∧ decode 0x6400000000 = .ok .addrtest := by decide

theorem test_decode_illegal :
    decode 0x1200000301 = .error .mustBeZero ∧ decode 0x1100000D00 = .error .noSuchRole
      ∧ decode 0x1100003800 = .error .noSuchRole ∧ decode 0x1100004900 = .error .mustBeZero
      ∧ decode 0x2000000001 = .error .mustBeZero ∧ decode 0x3000000002 = .error .mustBeZero
      ∧ decode 0x3100000100 = .error .mustBeZero ∧ decode 0x3200000001 = .error .mustBeZero
      ∧ decode 0x5100000100 = .error .mustBeZero ∧ decode 0x0000000000 = .error .unknownOpcode
      ∧ decode 0xFFFFFFFFFF = .error .unknownOpcode ∧ decode 0x4400000000 = .error .unknownOpcode
      ∧ decode 0x2100000000 = .error .unknownOpcode := by decide

/-- The host's probe numbers a row's bits as the 40-bit word. -/
theorem test_decodeTableWord :
    decodeTableWord 40 0x3200000000 = some .busrd ∧ decodeTableWord 40 0 = none := by decide

/-! ### States for the tests -/

/-- The reference configuration with four address bits (95_test_vectors.md, V1). -/
def testConfig : Config := { Config.reference with addrBits := 4, maxAddr := 15 }

/-- The same in mode `S3W`, `ASS` mapped. -/
def testThreeWire : Config :=
  { testConfig with mode := .s3w, pinMap := testConfig.pinMap.set 12 (some 12) }

/-- The same in mode `DIRECT`, `DAL(0)` to `DAL(3)` mapped. -/
def testDirect : Config :=
  { testConfig with
    mode := .direct
    pinMap := (((testConfig.pinMap.set 13 (some 13)).set 14 (some 14)).set 15 (some 15)).set 16 (some 16) }

/-- The same with neither the shifter's data line nor its clock mapped. -/
def testNoShifter : Config := { testDirect with pinMap := (testDirect.pinMap.set 10 none).set 11 none }

/-- The same with the data line mapped and the clock not. -/
def testNoClock : Config := { testDirect with pinMap := testDirect.pinMap.set 11 none }

/-- The state after reset with a configuration. -/
def fresh (c : Config) : State := { State.reset with cfg := c }

/-- The state after reset and these events on the pins. -/
def withPins (c : Config) (es : List Event) : State := { fresh c with pins := latchesAfter State.reset.pins es }

/-- The pins as `IDLESETUP` leaves them (V6). -/
def prepared (c : Config) : State := withPins c (idleEvents c)

/-- What a host has waiting while a command runs: the next run's reset and command (70_reset_and_hazards.md R292). -/
def nextRun : List HostMove := [.reset testConfig true, .command 0x5100000000 none]

/-- The pins with the bus one way. -/
def withBus (c : Config) (d : Direction) : State := withPins c (busDirEvents d)

/-- The reference flash in its read mode, `FLASH[5]` = 0x3C (V7). -/
def testFlash : Env :=
  { Env.reset with wiring := .flash, weIdleHigh := true, fmode := .array, flash := [(5, 0x3C)] }

/-- The state a command answers. -/
def nextOf (x : Host.Outcome State Fault Refusal) : State :=
  match x with
  | .next t => t
  | .fault _ => State.reset
  | .refused _ => State.reset

/-- The trace and the replies a command leaves. -/
def seen (i : Instr) (s : State) : List Event × List Reply :=
  ((nextOf (exec i s)).trace, (nextOf (exec i s)).responses.map Response.reply)

/-! ### One step of each command -/

/-- V9 row 1. -/
theorem test_cfgdir : seen (.cfgdir 8 .output) (fresh testConfig) = ([.dir .oe .output], [.ok .empty])
    ∧ (nextOf (exec (.cfgdir 8 .output) (fresh testConfig))).out .oe = none := by decide +kernel

/-- V9 row 11. -/
theorem test_cfgdir_unmapped : seen (.cfgdir 12 .output) (fresh testConfig) = ([], [.fault .role 12]) := by
  decide +kernel

/-- V9 row 2. -/
theorem test_pinwr : seen (.pinwr 9 true) (withPins testConfig [.dir .we .output])
    = ([.drv .we true], [.ok .empty]) := by decide +kernel

/-- V9 row 3, its `STATUS` (V12). -/
theorem test_pinwr_input :
    seen (.pinwr 9 true) (withPins testConfig [.dir .we .input]) = ([], [.fault .dirWrite 9])
      ∧ (nextOf (exec (.pinwr 9 true) (withPins testConfig [.dir .we .input]))).status = 0x494 := by decide +kernel

/-- V9 row 5. -/
theorem test_pinrd :
    seen (.pinrd 3) { withPins testConfig [.dir (.dl 3) .input] with env := { Env.reset with answers := [true] } }
      = ([.smp (.dl 3) true], [.ok (.level true)]) := by decide +kernel

/-- V9 row 6. -/
theorem test_pinrd_output :
    seen (.pinrd 8) (withPins testConfig [.dir .oe .output]) = ([], [.fault .dirRead 8]) := by decide +kernel

/-- One clock pulse of V1. -/
def testPulse (b : Level) : List Event :=
  [.drv .asc false, .drv .asd b, .dly 2, .drv .asc true, .dly 2]

/-- V1. -/
theorem test_setaddr_two_wire :
    seen (.setaddr 5) (prepared testConfig)
      = (testPulse true ++ testPulse false ++ testPulse true ++ testPulse false
          ++ [.drv .asc false, .dly 2, .drv .asc true, .dly 2, .drv .asc false], [.ok .empty]) := by decide +kernel

/-- V5. -/
theorem test_setaddr_direct :
    seen (.setaddr 9) (prepared testDirect)
      = ([.drv (.dal 0) true, .drv (.dal 1) false, .drv (.dal 2) false, .drv (.dal 3) true, .dly 100], [.ok .empty]) := by
  decide +kernel

/-- V3 with one byte: the levels 0,0,0,0,1,1,0,0 of 0x0C from bit 7 down, then the strobe (41_address_shifter.md R145). -/
theorem test_setaddr_three_wire :
    seen (.setaddr 0xC) (prepared testThreeWire)
      = (testPulse false ++ testPulse false ++ testPulse false ++ testPulse false ++ testPulse true ++ testPulse true
          ++ testPulse false ++ testPulse false
          ++ [.drv .asc false, .drv .ass true, .dly 2, .drv .ass false, .dly 2], [.ok .empty]) := by decide +kernel

/-- V2 (d). -/
theorem test_setaddr_out_of_range :
    seen (.setaddr 0x10) (prepared testConfig) = ([], [.fault .addrRange 0x10]) := by decide +kernel

/-- V9 row 16: turned in and out again, the bus levels are unknown. -/
theorem test_busdir :
    (nextOf (exec (.busdir .output) (withPins testConfig (busDirEvents .output ++ busDriveEvents 0xA5 ++ busDirEvents .input)))).out
      (.dl 0) = none := by decide +kernel

/-- V9 row 14. -/
theorem test_buswr :
    seen (.buswr 0xA5) (withBus testConfig .output)
      = ([.drv (.dl 0) true, .drv (.dl 1) false, .drv (.dl 2) true, .drv (.dl 3) false, .drv (.dl 4) false,
          .drv (.dl 5) true, .drv (.dl 6) false, .drv (.dl 7) true], [.ok .empty]) := by decide +kernel

/-- V9 row 7. -/
theorem test_buswr_mixed :
    seen (.buswr 0xFF) (withPins testConfig (busDirEvents .output ++ [.dir (.dl 5) .input]))
      = ([], [.fault .dirWrite 5]) := by decide +kernel

/-- V9 row 13. -/
theorem test_busrd :
    (seen .busrd { withBus testConfig .input with
      env := { Env.reset with answers := [false, true, true, false, true, false, true, false] } }).2
      = [.ok (.byte 0x56)] := by decide +kernel

/-- V9 row 10. -/
theorem test_busrd_mixed :
    seen .busrd (withPins testConfig (busDirEvents .input ++ [.dir (.dl 2) .output, .dir (.dl 6) .output]))
      = ([], [.fault .dirRead 2]) := by decide +kernel

/-- V6. -/
theorem test_idlesetup :
    seen .idlesetup (fresh testConfig)
      = ([.dir (.dl 0) .input, .dir (.dl 1) .input, .dir (.dl 2) .input, .dir (.dl 3) .input, .dir (.dl 4) .input,
          .dir (.dl 5) .input, .dir (.dl 6) .input, .dir (.dl 7) .input, .dir .we .output, .drv .we true,
          .dir .oe .output, .drv .oe true, .dir .asd .output, .drv .asd false, .dir .asc .output, .drv .asc false],
        [.ok .empty]) := by decide +kernel

/-- V6, mode `DIRECT`: 20 events. -/
theorem test_idlesetup_direct : (seen .idlesetup (fresh testDirect)).1.length = 20 := by decide +kernel

/-- V7: the byte, 49 events, 420 microseconds. -/
theorem test_rdcyc :
    (seen (.rdcyc 5) { prepared testConfig with env := testFlash }).2 = [.ok (.byte 0x3C)]
      ∧ (seen (.rdcyc 5) { prepared testConfig with env := testFlash }).1.length = 49
      ∧ minimumTime (seen (.rdcyc 5) { prepared testConfig with env := testFlash }).1 = 420 := by decide +kernel

/-- V7, corner case: without `IDLESETUP`. -/
theorem test_rdcyc_without_setup :
    (seen (.rdcyc 5) (fresh testConfig)).2 = [.fault .dirWrite 9]
      ∧ (seen (.rdcyc 5) (fresh testConfig)).1.length = 8 := by decide +kernel

/-- V8: 49 events, the bus left an output, the chip's mode unknown. -/
theorem test_wrcyc :
    (seen (.wrcyc 0xA 0x90) { prepared testConfig with env := testFlash }).1.length = 49
      ∧ busDir (nextOf (exec (.wrcyc 0xA 0x90) { prepared testConfig with env := testFlash })).pins = .output
      ∧ (nextOf (exec (.wrcyc 0xA 0x90) { prepared testConfig with env := testFlash })).env.fmode = .unknown := by
  decide +kernel

/-- V8, corner case: without `IDLESETUP`. -/
theorem test_wrcyc_without_setup : seen (.wrcyc 5 0) (fresh testConfig) = ([], [.fault .dirWrite 9]) := by
  decide +kernel

/-- V6, last paragraph. -/
theorem test_allin :
    (seen .allin (prepared testConfig)).1
      = [.dir (.dl 0) .input, .dir (.dl 1) .input, .dir (.dl 2) .input, .dir (.dl 3) .input, .dir (.dl 4) .input,
         .dir (.dl 5) .input, .dir (.dl 6) .input, .dir (.dl 7) .input, .dir .oe .input, .dir .we .input,
         .dir .asd .input, .dir .asc .input] := by decide +kernel

/-- 44_composite.md R212: fewer than twelve address bits. -/
theorem test_idquery_narrow : (seen .idquery (fresh testConfig)).2 = [.fault .addrRange 0xAAA] := by decide +kernel

/-- 44_composite.md R215: the first turn of a dump of a chip with one byte: `Ok(1)`. -/
theorem test_dump_one :
    (seen .dump { fresh { testConfig with maxAddr := 0 } with sinkAnswers := [true] }).2 = [.ok (.count 1)] := by
  decide +kernel

/-- 44_composite.md R217: a rejected byte. -/
theorem test_dump_rejected :
    (seen .dump { fresh testConfig with sinkAnswers := [false] }).2 = [.fault .sink 0] := by decide +kernel

/-- Patterns that count from 1: two, then two all-on/all-off, then 28 alternating. -/
def testKinds : OutKinds where
  first := 1
  counting := 0
  switching := 0
  onFirst := true
  oddFirst := false

/-- 45_diagnostics.md R231: counting, then all on and all off, then alternating bits; a long count leaves two of each. -/
theorem test_outKinds :
    testKinds.patterns.toList.take 6 = [1, 2, 0x1FFFFFFFFF, 0, 0x0AAAAAAAAA, 0x1555555555]
      ∧ { testKinds with counting := 26, switching := 26 }.patterns.toList.drop 27
        = [28, 0x1FFFFFFFFF, 0, 0x0AAAAAAAAA, 0x1555555555] := by
  decide +kernel

/-- 00_scope.md R6, 45_diagnostics.md R230: any list of 32 can be handed over, here one of a single kind; reset accepts it. -/
theorem test_outPatterns_any :
    validConfig { testConfig with outPatterns := Vector.replicate 32 1 } = true
      ∧ (seen .outtest { fresh testConfig with
          cfg := { testConfig with outPatterns := Vector.replicate 32 1 } }).1.length = 12 + 32 * 13 := by decide +kernel

/-- 45_diagnostics.md R231, cut by a kill after its first drive (60_exceptions.md R271): 12 lines made outputs in role
order, then `DL(0)` driven; no response. -/
theorem test_outtest :
    seen .outtest { fresh testConfig with cfg := { testConfig with outPatterns := testKinds.patterns }, killIn := some 13 }
      = ([.dir (.dl 0) .output, .dir (.dl 1) .output, .dir (.dl 2) .output, .dir (.dl 3) .output, .dir (.dl 4) .output,
          .dir (.dl 5) .output, .dir (.dl 6) .output, .dir (.dl 7) .output, .dir .oe .output, .dir .we .output,
          .dir .asd .output, .dir .asc .output, .drv (.dl 0) true], []) := by decide +kernel

/-- 45_diagnostics.md R231, its open parts otherwise: in mode `DIRECT` the four direct lines take part; the lines' bits are
all bit 0; a closing level is driven, high on OE# alone (role index 8), and the data lines become inputs. -/
theorem test_outtest_open_parts :
    (let t := nextOf (exec .outtest (fresh { testDirect with
        outPatterns := Vector.replicate 32 1, outBit := Vector.replicate 37 0, outDirect := true, outLast := some 0x100
        outRelease := { bus := true, oe := false, we := false, address := false } }));
      t.trace.length = 16 + 32 * 17 + 16 + 8 ∧ t.trace[31]? = some (.drv (.dal 3) true) ∧ t.out .oe = some true
        ∧ t.out (.dal 3) = some false ∧ t.dir (.dal 3) = some .output ∧ busDir t.pins = .input) := by decide +kernel

/-- 45_diagnostics.md R232, its open part otherwise: WE# and OE# are made outputs and driven high before the bus is set. -/
theorem test_inecho_touches :
    (seen .inecho (fresh { testConfig with echoWe := some true, echoOe := some true })).1.take 5
      = [.dir .we .output, .drv .we true, .dir .oe .output, .drv .oe true, .dir (.dl 0) .input] := by decide +kernel

/-- 45_diagnostics.md R232: eight directions, eight samples, a print and a delay, and no response. -/
theorem test_inecho :
    (seen .inecho (fresh testConfig)).1.length = 18 ∧ (seen .inecho (fresh testConfig)).2 = [] := by decide +kernel

/-- A configuration whose `IOTEST` has the bus, OE#, WE# and the shifter's two lines as outputs, one pattern (OE# high,
role index 8, all others low), and the operator's value on `DL(0)` to `DL(3)`; OE# alone blinks, on at level 0, longer the
second time. -/
def testIo (c : Config) : Config :=
  { c with
    ioOutputs := { bus := true, oe := true, we := true, address := true }
    ioPatterns := [{ levels := 0x100, hold := 3000 }]
    ioNibble := #v[0, 1, 2, 3]
    ioPoll := some 7
    ioMatches := 0
    ioBlink := { bus := false, oe := true, we := false, address := false }
    ioOnLevels := 0
    ioOn := #v[1000, 3000]
    ioOff := #v[2000, 4000] }

/-- 45_diagnostics.md R233: the output phase on the mapped lines (a direction and a drive each, one delay), then the bus an
input and the wait, no response yet. With the shifter unmapped (mode `DIRECT`, 10_state.md R35) it runs on the others, the
four direct lines among them. -/
theorem test_iotest :
    (seen .iotest (fresh (testIo testConfig))).1.length = 12 + 12 + 1 + 8
      ∧ (seen .iotest (fresh (testIo testNoShifter))).1.length = 14 + 14 + 1 + 8
      ∧ (let t := nextOf (exec .iotest (fresh (testIo testNoShifter)));
        t.phase = .running (.ioTest [0x0, 0x5, 0xA] 0) ∧ t.responses = [] ∧ t.out .oe = some true
          ∧ t.out .we = some false ∧ t.dir .asd = none ∧ t.dir (.dal 3) = some .output ∧ busDir t.pins = .input) := by decide +kernel

/-- 45_diagnostics.md R233, log 9: bits 0 to 3 of the operator's value on `DL(7)`, `DL(0)`, `DL(3)`, `DL(1)`; the byte
has `DL(7)` and `DL(1)` high. -/
theorem test_handshakeValue : handshakeValue { testIo testConfig with ioNibble := #v[7, 0, 3, 1] } 0x82 = 0x9 := by
  decide +kernel

/-- 45_diagnostics.md R233, 91_not_in_source.md N16: with one more poll asked for, a value found once is polled again after
the poll delay; a poll that misses it starts over. -/
theorem test_debouncing :
    (let s : State := { withBus { testIo testConfig with ioMatches := 1 } .input with
        env := { Env.reset with answers := List.replicate 8 false ++ List.replicate 8 true } };
      let t := resume (.ioTest [0x0, 0x5] 0) s;
      t.phase = .running (.ioTest [0x0, 0x5] 1) ∧ t.trace.getLast? = some (.dly 7)
        ∧ (resume (.ioTest [0x0, 0x5] 1) s).phase = .running (.ioTest [0x5] 0)
        ∧ (resume (.ioTest [0x0, 0x5] 1) t).phase = .running (.ioTest [0x0, 0x5] 0)) := by decide +kernel

/-- 45_diagnostics.md R234: the idle setup, then OE# low and high, 500 milliseconds each. -/
theorem test_oetest :
    (seen .oetest (fresh testConfig)).1.drop 16 = [.drv .oe false, .dly 500000, .drv .oe true, .dly 500000] := by
  decide +kernel

/-- The chip drives 0x3C of cell 5 (20_memory.md R76): OE# low, WE# high, the bus an input. -/
def testReading : State :=
  { withPins testConfig ([.dir .we .output, .drv .we true, .dir .oe .output, .drv .oe false] ++ busDirEvents .input) with
    env := { testFlash with xaddr := some 5, held := some (5, 0x3C), answers := [true] } }

/-- 20_memory.md R76 and R77: with OE# low a WE# that falls leaves the chip's mode unknown, but the byte chosen stays until
OE# or the address changes. While WE# is low a sample is arbitrary (here the environment's listed answer, 1, where bit 0 of
the byte is 0); with WE# high again the chip presents the same byte, and a rising OE# ends it. -/
theorem test_held_byte_outlasts_write_enable :
    (let low := nextOf (exec (.pinwr 9 false) testReading);
      let high := nextOf (exec (.pinwr 9 true) low);
      low.env.fmode = .unknown ∧ low.env.held = some (5, 0x3C) ∧ (low.env.pinIn low.pins (.dl 0)).1 = true
        ∧ high.env.held = some (5, 0x3C) ∧ (high.env.pinIn high.pins (.dl 0)).1 = false
        ∧ (high.env.pinIn high.pins (.dl 2)).1 = true
        ∧ (nextOf (exec (.pinwr 8 true) high)).env.held = none) := by decide +kernel

/-- 10_state.md R23, 70_reset_and_hazards.md R301: OE# is a fresh output in an unlock mode: with level 0 the chip is read,
which ends the mode (20_memory.md R68); with level 1 it is not. -/
theorem test_stray_read :
    (let after := fun l => nextOf (exec (.cfgdir 8 .output)
        { withPins testConfig [.dir .we .output, .drv .we true] with
          env := { testFlash with xaddr := some 5, fmode := .unlock1, answers := [l] } });
      (after false).env.fmode = .unknown ∧ (after true).env.fmode = .unlock1) := by decide +kernel

/-- Log 19: OE# falls at a known address while WE# is not driven: no byte is chosen, and an unlock mode stays where the
arbitrary levels say so; the byte is chosen when WE# is driven high. -/
theorem test_choice_waits_for_write_enable :
    (let s : State := { withPins testConfig [.dir .oe .output, .drv .oe true] with
        env := { testFlash with xaddr := some 5, fmode := .unlock1, answers := [true, true] } };
      let t := nextOf (exec (.pinwr 8 false) s);
      let u := nextOf (exec (.pinwr 9 true) (nextOf (exec (.cfgdir 9 .output) t)));
      t.env.held = none ∧ t.env.fmode = .unlock1 ∧ u.env.fmode = .unknown ∧ u.env.held.map Prod.fst = some 5) := by
  decide +kernel

/-- 20_memory.md R70 and R87: data lines that become outputs again drive an arbitrary level, so the loopback's last level is
unknown; lines that are outputs already keep it. -/
theorem test_loopback_fresh_output :
    (let known : Env := { Env.reset with wiring := .latchingLoopback, lastDriven := Vector.replicate 8 (some true) };
      (nextOf (exec (.busdir .output) { withBus testConfig .input with env := known })).env.lastDriven
          = Vector.replicate 8 none
        ∧ (nextOf (exec (.busdir .output) { withBus testConfig .output with env := known })).env.lastDriven
          = Vector.replicate 8 (some true)) := by decide +kernel

/-- 20_memory.md R72: with `N` = 4 a whole byte is shifted, but no address line 4 exists; line 3 carries its bit. -/
theorem test_address_lines_end :
    (let t := nextOf (exec (.setaddr 0xC)
        { prepared testThreeWire with env := { Env.reset with wiring := .addressLoopback } });
      addressLine testThreeWire t.pins t.env 3 = some true ∧ addressLine testThreeWire t.pins t.env 4 = none) := by
  decide +kernel

/-- 43_sequencer.md R181: where a kill finds the sequencer in the read cycle of V7: before its first address event, after
the bus and the two control lines are set (8 + 3 events); after the 25 address events; after OE# has risen and settled. -/
theorem test_kill_in_cycle :
    (let cut := fun n => nextOf (exec (.rdcyc 5) { prepared testConfig with killIn := some n });
      (cut 10).fsm = .idle ∧ (cut 11).fsm = .addressSettling ∧ (cut 36).fsm = .addressSettling
        ∧ (cut 37).fsm = .reading ∧ (cut 48).fsm = .reading ∧ (cut 49).fsm = .idle ∧ (cut 49).phase = .stopped) := by
  decide +kernel

/-- V10, last sentence. -/
theorem test_addrtest_direct : seen .addrtest (fresh testDirect) = ([], [.fault .mode 0x64]) := by decide +kernel

/-- V12 (a) and (b): `STATUS` after a reset that succeeds, and after one that does not. -/
theorem test_reset_status :
    (State.reset.resetWith testConfig true).status = 0 ∧ (State.reset.resetWith testConfig false).status = 0x44 := by
  decide +kernel

/-- V12 (c) and the boundaries of 10_state.md R35. -/
theorem test_configurations :
    validConfig testConfig = true ∧ validConfig testThreeWire = true ∧ validConfig testDirect = true
      ∧ validConfig Config.reference = true ∧ validConfig { testConfig with mode := .s3w } = false
      ∧ validConfig { testConfig with pinMap := testConfig.pinMap.set 9 (some 8) } = false
      ∧ validConfig { testConfig with addrBits := 25 } = false
      ∧ validConfig { testConfig with addrBits := 0, maxAddr := 0 } = false
      ∧ validConfig { testConfig with maxAddr := 16 } = false
      ∧ validConfig { testConfig with mode := .illegal } = false := by decide +kernel

/-! ### Witnesses: for each statement with hypotheses, a state and operands that meet them all -/

theorem fresh_undisturbed (c : Config) : (fresh c).Undisturbed := ⟨⟨rfl, rfl⟩, rfl⟩

/-- `DecodeEncodeRoundTrip`, at the boundaries of the role index and of the operands. -/
theorem test_witness_DecodeEncodeRoundTrip :
    (Instr.cfgdir 55 .output).wellFormed = true ∧ (Instr.pinrd 12).wellFormed = true
      ∧ (Instr.wrcyc 0xFFFFFF 0xFF).wellFormed = true := by decide

/-- `DecodedWordIsItsEncoding`. -/
theorem test_witness_DecodedWordIsItsEncoding : decode 0x42FFFFFFFF = .ok (.wrcyc 0xFFFFFF 0xFF) := by decide

/-- `DecodingFollowsTheTable`: its first clause and its second. -/
theorem test_witness_DecodingFollowsTheTable :
    decode 0x1100003701 = .ok (.pinwr 55 true)
      ∧ ∃ row ∈ opcodeTable, row.selects 0x1100003701 = true := by
  exact ⟨by decide, opcodeTable[1], List.getElem_mem _, by decide⟩

/-- The state after reset, handed a word. -/
def handed (s : State) (w : CmdWord) : State := { s with host := [.command w none] }

/-- `IllegalWordFaults`. -/
theorem test_witness_IllegalWordFaults :
    (handed State.reset 0x1200000301).Accepting ∧ (handed State.reset 0x1200000301).host = .command 0x1200000301 none :: []
      ∧ ∀ row ∈ opcodeTable, row.selects 0x1200000301 = false := by
  exact ⟨⟨rfl, rfl⟩, rfl, by decide⟩

/-- `StepRunsDecodedInstruction`. -/
theorem test_witness_StepRunsDecodedInstruction :
    (handed State.reset 0x4300000000).Accepting ∧ (handed State.reset 0x4300000000).host = .command 0x4300000000 none :: []
      ∧ decode 0x4300000000 = .ok .allin := ⟨⟨rfl, rfl⟩, rfl, by decide⟩

/-- `WordsNotTaken`: a faulted state, and a killed one. -/
theorem test_witness_WordsNotTaken :
    (let s := { handed State.reset 0x4300000000 with fault := true, fcode := 8 };
      s.phase = .idle ∧ s.fault = true ∧ s.host = .command 0x4300000000 none :: [])
    ∧ (let s := { handed State.reset 0x4300000000 with phase := .stopped };
      s.phase = .stopped ∧ s.host = .command 0x4300000000 none :: []) := ⟨⟨rfl, rfl, rfl⟩, rfl, rfl⟩

/-- `NothingMovesByItself`: its two clauses. -/
theorem test_witness_NothingMovesByItself :
    (∀ j, State.reset.phase ≠ .running j) ∧ State.reset.host = []
      ∧ ({ State.reset with host := [.kill] } : State).host = .kill :: [] := ⟨fun _ => by simp [State.reset], rfl, rfl⟩

/-- `KillCutsTheTrace`, its first clause: `CFGDIR OE, OUT` after reset, cut before its one event and after it. -/
theorem test_witness_KillCutsTheTrace :
    (fresh testConfig).Undisturbed
      ∧ exec (.cfgdir 8 .output) (fresh testConfig) = .next (nextOf (exec (.cfgdir 8 .output) (fresh testConfig)))
      ∧ Emitted (fresh testConfig) (nextOf (exec (.cfgdir 8 .output) (fresh testConfig))) [.dir .oe .output]
      ∧ 0 ≤ [Event.dir .oe .output].length ∧ 1 ≤ [Event.dir .oe .output].length
      ∧ ∀ j, (nextOf (exec (.cfgdir 8 .output) (fresh testConfig))).phase ≠ .running j := by
  refine ⟨fresh_undisturbed _, ?_, ?_, by decide, by decide, ?_⟩
  · rw [exec_accepting _ (fresh_undisturbed _).1]; rfl
  · unfold Emitted; decide +kernel
  · have h : (nextOf (exec (.cfgdir 8 .output) (fresh testConfig))).phase = .idle := by decide +kernel
    intro j; rw [h]; simp

/-- `KillCutsTheTrace`, its second clause: a later turn of `OETEST`, cut within it, and the last turn of `IOTEST`, where
a kill may also fall after the last event and before the response. -/
theorem test_witness_KillCutsALaterTurn :
    (let s : State := { prepared testConfig with phase := .running .oeTest };
      s.killIn = none ∧ Emitted s (resume .oeTest s) [.drv .oe false, .dly 500000, .drv .oe true, .dly 500000])
    ∧ (let s : State :=
        { withBus (testIo testConfig) .input with
          phase := .running (.ioTest [0x0] 0), env := { Env.reset with answers := List.replicate 8 false } };
      s.killIn = none ∧ (resume (.ioTest [0x0] 0) s).phase = .idle
        ∧ Emitted s (resume (.ioTest [0x0] 0) s)
          (busSampleEvents (List.replicate 8 false) ++ [.dir .oe .output, .drv .oe false, .dly 1000, .drv .oe true,
            .dly 2000, .drv .oe false, .dly 3000, .drv .oe true, .dly 4000])) := by
  refine ⟨⟨rfl, ?_⟩, rfl, by decide +kernel, ?_⟩ <;> unfold Emitted <;> decide +kernel

/-- `KillCutsTheTrace`, its third clause: after `IDLESETUP`; `test_kill_in_cycle` has the boundaries of the count. -/
theorem test_witness_KillCutsACycle :
    (prepared testConfig).Undisturbed ∧ validConfig (prepared testConfig).cfg = true ∧ (prepared testConfig).SetUp
      ∧ (5 : Addr).toNat < 2 ^ (prepared testConfig).cfg.addrBits.toNat
      ∧ 25 = (addressEvents (prepared testConfig).cfg 5).length ∧ 0 ≤ 25 + 24 ∧ 25 + 24 ≤ 25 + 24 := by
  refine ⟨⟨⟨rfl, rfl⟩, rfl⟩, by decide +kernel, ?_, by decide, by decide +kernel, by decide, by decide⟩
  unfold State.SetUp State.OutputsReady; decide +kernel

/-- 70_reset_and_hazards.md R291, R302 and 20_memory.md R77: the chip's mode over a reset: kept under `WE_IDLE_HIGH` with
WE# not driven low, unknown without the premise or with WE# driven low. -/
theorem test_mode_over_reset :
    (let after := fun (s : State) (e : Env) => (({ s with env := { e with fmode := .autoselect } }).resetWith testConfig true).env.fmode;
      after (prepared testConfig) testFlash = .autoselect
        ∧ after (prepared testConfig) { testFlash with weIdleHigh := false } = .unknown
        ∧ after (withPins testConfig [.dir .we .output, .drv .we false]) testFlash = .unknown
        ∧ after (prepared testConfig) Env.reset = .autoselect) := by decide +kernel

/-- `ResetLeavesTheListedValues`. -/
theorem test_witness_ResetLeavesTheListedValues :
    (let s : State := { State.reset with host := [.reset testConfig true] };
      (∀ j, s.phase ≠ .running j) ∧ s.host = .reset testConfig true :: []) ∧ validConfig testConfig = true :=
  ⟨⟨fun _ => by simp [State.reset], rfl⟩, by decide +kernel⟩

/-- `ResetCanFail`: a record that fails and one that does not; `test_configurations` has the boundaries. -/
theorem test_witness_ResetCanFail :
    (let s : State := { State.reset with host := [.reset { testConfig with addrBits := 25 } true] };
      (∀ j, s.phase ≠ .running j) ∧ s.host = .reset { testConfig with addrBits := 25 } true :: [])
    ∧ (State.reset.resetWith { testConfig with addrBits := 25 } true).fault = true
    ∧ (State.reset.resetWith { testConfig with addrBits := 4, maxAddr := 16 } true).fault = true
    ∧ (State.reset.resetWith testConfig true).fault = false :=
  ⟨⟨fun _ => by simp [State.reset], rfl⟩, by decide +kernel, by decide +kernel, by decide +kernel⟩

/-- `TakingAFault`. -/
theorem test_witness_TakingAFault :
    State.reset.Accepting ∧ (raise .mode 0x64 : Act Progress) State.reset = .error (.fault .mode 0x64) State.reset
      ∧ State.reset.killIn ≠ some 0 := ⟨⟨rfl, rfl⟩, rfl, by decide⟩

/-- `OneResponsePerCommand` and `RegistersHaveTheirWriters`: a command that is accepted, and an unfaulted state. -/
theorem test_witness_OneResponsePerCommand :
    State.reset.Accepting ∧ exec .allin State.reset = .next (settle (bodyOf .allin State.reset))
      ∧ State.reset.fault = false := ⟨⟨rfl, rfl⟩, exec_accepting _ ⟨rfl, rfl⟩, rfl⟩

/-- `EveryPinChangeIsAnEvent` and `OnlyAResetRebuilds`: a step that is no reset, and a turn of a running command while a
reset waits. -/
theorem test_witness_EveryPinChangeIsAnEvent :
    (step State.reset = .next State.reset ∧ ¬State.reset.AtReset)
      ∧ (let s : State := { prepared testConfig with phase := .running .oeTest, host := nextRun };
        step s = .next (resume .oeTest s) ∧ ¬s.AtReset) :=
  ⟨⟨rfl, fun h => by simpa [State.reset] using h.2⟩, rfl, fun h => h.1 .oeTest rfl⟩

/-- `OnlyAResetRebuilds`: a faulted state that runs no command, and steps that are a reset and a failing reset. -/
theorem test_witness_OnlyAResetRebuilds :
    (let s : State := { State.reset with fault := true, fcode := 8 };
      step s = .next s ∧ ¬s.AtReset ∧ s.fault = true ∧ ∀ j, s.phase ≠ .running j)
    ∧ ∀ gpio, (let s : State := { State.reset with host := [.reset testConfig gpio], env := testFlash };
      step s = .next (({ s with host := [] } : State).resetWith testConfig gpio)
        ∧ (({ s with host := [] } : State).resetWith testConfig gpio).fault = !gpio) :=
  ⟨⟨rfl, fun h => by simpa [State.reset] using h.2, rfl, fun _ => by simp [State.reset]⟩,
    fun gpio => ⟨rfl, by cases gpio <;> decide +kernel⟩⟩

/-- `CfgdirSetsADirection`, for a pin of the data bus and a control pin. -/
theorem test_witness_CfgdirSetsADirection :
    (fresh testConfig).Undisturbed ∧ mapped (fresh testConfig).cfg .oe = true
      ∧ mapped (fresh testConfig).cfg (.dl 0) = true := ⟨fresh_undisturbed _, by decide, by decide⟩

/-- `PinwrDrivesALevel`. -/
theorem test_witness_PinwrDrivesALevel :
    (prepared testConfig).Undisturbed ∧ mapped (prepared testConfig).cfg .we = true
      ∧ (prepared testConfig).dir .we = some .output := ⟨⟨⟨rfl, rfl⟩, rfl⟩, by decide, by decide +kernel⟩

/-- `PinrdSamplesALevel`. -/
theorem test_witness_PinrdSamplesALevel :
    (prepared testConfig).Undisturbed ∧ mapped (prepared testConfig).cfg (.dl 3) = true
      ∧ (prepared testConfig).dir (.dl 3) = some .input := ⟨⟨⟨rfl, rfl⟩, rfl⟩, by decide, by decide +kernel⟩

/-- `UnmappedRoleFaults`: the boundaries of the mapped roles of the reference configuration. -/
theorem test_witness_UnmappedRoleFaults :
    (fresh testConfig).Undisturbed ∧ mapped (fresh testConfig).cfg .ass = false
      ∧ mapped (fresh testConfig).cfg (.dal 23) = false := ⟨fresh_undisturbed _, by decide, by decide⟩

/-- `WrongDirectionFaults`: a pin never configured meets both clauses. -/
theorem test_witness_WrongDirectionFaults :
    (fresh testConfig).Undisturbed ∧ mapped (fresh testConfig).cfg .we = true
      ∧ (fresh testConfig).dir .we ≠ some .output ∧ (fresh testConfig).dir .we ≠ some .input :=
  ⟨fresh_undisturbed _, by decide, by decide +kernel, by decide +kernel⟩

/-- `SetaddrTwoWire`, and `TwoWireCounts` with the command's next state and its events: the last address in range. -/
theorem test_witness_SetaddrTwoWire :
    (prepared testConfig).Undisturbed ∧ validConfig testConfig = true ∧ (prepared testConfig).cfg.mode = .s2w
      ∧ (prepared testConfig).OutputsReady [.asd, .asc]
      ∧ (0xF : Addr).toNat < 2 ^ (prepared testConfig).cfg.addrBits.toNat := by
  refine ⟨⟨⟨rfl, rfl⟩, rfl⟩, by decide +kernel, rfl, ?_, by decide⟩
  unfold State.OutputsReady; decide +kernel

theorem test_witness_TwoWireCounts :
    exec (.setaddr 0xF) (prepared testConfig) = .next (settle (bodyOf (.setaddr 0xF) (prepared testConfig)))
      ∧ Emitted (prepared testConfig) (settle (bodyOf (.setaddr 0xF) (prepared testConfig)))
        (testPulse true ++ testPulse true ++ testPulse true ++ testPulse true
          ++ [.drv .asc false, .dly 2, .drv .asc true, .dly 2, .drv .asc false])
      ∧ (prepared testConfig).out .asc = some false := by
  refine ⟨exec_accepting _ ⟨rfl, rfl⟩, ?_, by decide +kernel⟩
  unfold Emitted; decide +kernel

/-- `SetaddrThreeWire`. -/
theorem test_witness_SetaddrThreeWire :
    (prepared testThreeWire).Undisturbed ∧ validConfig testThreeWire = true ∧ (prepared testThreeWire).cfg.mode = .s3w
      ∧ (prepared testThreeWire).OutputsReady [.asd, .asc, .ass]
      ∧ (0xF : Addr).toNat < 2 ^ (prepared testThreeWire).cfg.addrBits.toNat := by
  refine ⟨⟨⟨rfl, rfl⟩, rfl⟩, by decide +kernel, rfl, ?_, by decide⟩
  unfold State.OutputsReady; decide +kernel

/-- `SetaddrDirect`. -/
theorem test_witness_SetaddrDirect :
    (prepared testDirect).Undisturbed ∧ validConfig testDirect = true ∧ (prepared testDirect).cfg.mode = .direct
      ∧ (∀ i : Fin 24, i.val < (prepared testDirect).cfg.addrBits.toNat → (prepared testDirect).dir (.dal i) = some .output)
      ∧ (0xF : Addr).toNat < 2 ^ (prepared testDirect).cfg.addrBits.toNat :=
  ⟨⟨⟨rfl, rfl⟩, rfl⟩, by decide +kernel, rfl, by decide +kernel, by decide⟩

/-- `AddressOutOfRangeFaults`: the first address out of range, and a configuration with 24 bits. -/
theorem test_witness_AddressOutOfRangeFaults :
    (fresh testConfig).Undisturbed ∧ 2 ^ (fresh testConfig).cfg.addrBits.toNat ≤ (0x10 : Addr).toNat
      ∧ State.reset.Undisturbed ∧ State.reset.cfg.addrBits = 24 :=
  ⟨fresh_undisturbed _, by decide, ⟨⟨rfl, rfl⟩, rfl⟩, rfl⟩

/-- `SetaddrNeedsOutputs`: the clock not an output, and the data line not one (V9 rows 18 and 19). -/
theorem test_witness_SetaddrNeedsOutputs :
    (fresh testConfig).Undisturbed ∧ validConfig testConfig = true ∧ (fresh testConfig).cfg.mode = .s2w
      ∧ (0 : Addr).toNat < 2 ^ (fresh testConfig).cfg.addrBits.toNat ∧ (fresh testConfig).dir .asc ≠ some .output
      ∧ (withPins testConfig [.dir .asc .output, .dir .asd .input]).dir .asc = some .output
      ∧ (withPins testConfig [.dir .asc .output, .dir .asd .input]).dir .asd ≠ some .output :=
  ⟨fresh_undisturbed _, by decide +kernel, rfl, by decide, by decide +kernel, by decide +kernel, by decide +kernel⟩

/-- `SetaddrNeedsOutputs`, mode `S3W`: the strobe not an output; mode `DIRECT`: the first line, the third after two drives
(V5), and the last. -/
theorem test_witness_SetaddrNeedsOutputs_modes :
    (let s := withPins testThreeWire [.dir .asd .output, .dir .asc .output];
      s.Undisturbed ∧ validConfig s.cfg = true ∧ (9 : Addr).toNat < 2 ^ s.cfg.addrBits.toNat
        ∧ FirstMissing s 9 .ass (testPulse false ++ testPulse false ++ testPulse false ++ testPulse false
          ++ testPulse true ++ testPulse false ++ testPulse false ++ testPulse true ++ [.drv .asc false]))
    ∧ FirstMissing (fresh testDirect) 9 (.dal 0) []
    ∧ (let s := withPins testDirect [.dir (.dal 0) .output, .dir (.dal 1) .output];
      s.Undisturbed ∧ validConfig s.cfg = true ∧ (9 : Addr).toNat < 2 ^ s.cfg.addrBits.toNat
        ∧ FirstMissing s 9 (.dal 2) [.drv (.dal 0) true, .drv (.dal 1) false])
    ∧ FirstMissing (withPins testDirect [.dir (.dal 0) .output, .dir (.dal 1) .output, .dir (.dal 2) .output]) 9 (.dal 3)
      [.drv (.dal 0) true, .drv (.dal 1) false, .drv (.dal 2) false] :=
  ⟨⟨⟨⟨rfl, rfl⟩, rfl⟩, by decide +kernel, by decide, by decide +kernel,
      .inr (.inr ⟨rfl, by decide +kernel, by decide +kernel, by decide +kernel⟩)⟩,
    ⟨by decide +kernel, 0, by decide, rfl, by decide +kernel, rfl⟩,
    ⟨⟨⟨rfl, rfl⟩, rfl⟩, by decide +kernel, by decide, by decide +kernel, 2, by decide, rfl, by decide +kernel,
      by decide +kernel⟩,
    by decide +kernel, 3, by decide, rfl, by decide +kernel, by decide +kernel⟩

/-- `AddressLinesCarryTheAddress`, in the three modes and in both wirings. -/
theorem test_witness_AddressLinesCarryTheAddress :
    (∀ c ∈ [testConfig, testThreeWire, testDirect], validConfig c = true
      ∧ (∀ r ∈ modeLines c, mapped c r = true ∧ (prepared c).dir r = some .output)
      ∧ (c.mode = .s3w → (prepared c).out .ass = some false)
      ∧ (0xF : Addr).toNat < 2 ^ c.addrBits.toNat)
    ∧ ({ prepared testConfig with env := testFlash } : State).env.wiring = .flash
    ∧ ({ prepared testConfig with env := { Env.reset with wiring := .addressLoopback } } : State).env.wiring
      = .addressLoopback := ⟨by decide +kernel, rfl, rfl⟩

/-- `BusdirSetsTheBus`. -/
theorem test_witness_BusdirSetsTheBus :
    (fresh testConfig).Undisturbed ∧ ∀ i, mapped (fresh testConfig).cfg (.dl i) = true :=
  ⟨fresh_undisturbed _, by decide⟩

/-- `BuswrDrivesAByte`. -/
theorem test_witness_BuswrDrivesAByte :
    (withBus testConfig .output).Undisturbed ∧ (∀ i, mapped (withBus testConfig .output).cfg (.dl i) = true)
      ∧ ∀ i, (withBus testConfig .output).dir (.dl i) = some .output :=
  ⟨⟨⟨rfl, rfl⟩, rfl⟩, by decide, by decide +kernel⟩

/-- `BusrdComposesAByte`. -/
theorem test_witness_BusrdComposesAByte :
    (withBus testConfig .input).Undisturbed ∧ (∀ i, mapped (withBus testConfig .input).cfg (.dl i) = true)
      ∧ ∀ i, (withBus testConfig .input).dir (.dl i) = some .input :=
  ⟨⟨⟨rfl, rfl⟩, rfl⟩, by decide, by decide +kernel⟩

/-- `BusPrecondition`: the lowest offender at the two ends of the bus (V9 rows 8 and 9 and the last line). -/
theorem test_witness_BusPrecondition :
    (withBus testConfig .input).Undisturbed ∧ (withBus testConfig .input).dir (.dl 0) ≠ some .output
      ∧ (withPins testConfig (busDirEvents .output ++ [.dir (.dl 7) .input])).dir (.dl 7) ≠ some .output
      ∧ (∀ j : Fin 8, j < 7 →
        (withPins testConfig (busDirEvents .output ++ [.dir (.dl 7) .input])).dir (.dl j) = some .output)
      ∧ (withBus testConfig .output).dir (.dl 0) ≠ some .input
      ∧ (withPins testConfig (busDirEvents .input ++ [.dir (.dl 7) .output])).dir (.dl 7) ≠ some .input
      ∧ (∀ j : Fin 8, j < 7 →
        (withPins testConfig (busDirEvents .input ++ [.dir (.dl 7) .output])).dir (.dl j) = some .input) :=
  ⟨⟨⟨rfl, rfl⟩, rfl⟩, by decide +kernel, by decide +kernel, by decide +kernel, by decide +kernel, by decide +kernel,
    by decide +kernel⟩

/-- `BusRoundTrip`. -/
theorem test_witness_BusRoundTrip :
    (let s : State := { fresh testConfig with env := { Env.reset with wiring := .latchingLoopback } };
      s.Undisturbed ∧ (∀ i, mapped s.cfg (.dl i) = true) ∧ s.env.wiring = .latchingLoopback) :=
  ⟨⟨⟨rfl, rfl⟩, rfl⟩, by decide, rfl⟩

/-- `IdlesetupPreparesThePins`, `IdlesetupTwiceIsOnce`: the state after reset, in every mode. -/
theorem test_witness_IdlesetupPreparesThePins :
    ∀ c ∈ [testConfig, testThreeWire, testDirect, Config.reference], (fresh c).Undisturbed ∧ validConfig c = true :=
  fun c hc => ⟨fresh_undisturbed c, by revert c; decide +kernel⟩

theorem test_witness_IdlesetupTwiceIsOnce : State.reset.Undisturbed ∧ validConfig State.reset.cfg = true :=
  ⟨⟨⟨rfl, rfl⟩, rfl⟩, by decide +kernel⟩

/-- `RdcycReadsOneByte`, `WrcycSendsOneByte`: the pins as `IDLESETUP` leaves them, the last address. -/
theorem test_witness_RdcycReadsOneByte :
    (prepared testConfig).Undisturbed ∧ validConfig (prepared testConfig).cfg = true ∧ (prepared testConfig).SetUp
      ∧ (0xF : Addr).toNat < 2 ^ (prepared testConfig).cfg.addrBits.toNat := by
  refine ⟨⟨⟨rfl, rfl⟩, rfl⟩, by decide +kernel, ?_, by decide⟩
  unfold State.SetUp State.OutputsReady; decide +kernel

theorem test_witness_WrcycSendsOneByte :
    (prepared testDirect).Undisturbed ∧ validConfig (prepared testDirect).cfg = true ∧ (prepared testDirect).SetUp
      ∧ (0xF : Addr).toNat < 2 ^ (prepared testDirect).cfg.addrBits.toNat := by
  refine ⟨⟨⟨rfl, rfl⟩, rfl⟩, by decide +kernel, ?_, by decide⟩
  unfold State.SetUp State.OutputsReady; decide +kernel

/-- `CycleWithoutSetupFaults`, with WE# missing. -/
theorem test_witness_CycleWithoutSetupFaults :
    (fresh testConfig).Undisturbed ∧ validConfig (fresh testConfig).cfg = true
      ∧ (5 : Addr).toNat < 2 ^ (fresh testConfig).cfg.addrBits.toNat ∧ (fresh testConfig).dir .we ≠ some .output :=
  ⟨fresh_undisturbed _, by decide +kernel, by decide, by decide +kernel⟩

/-- `CycleWithoutSetupFaults`, with OE# missing, and with WE# and OE# outputs and the clock, or the data line, missing. -/
theorem test_witness_CycleWithoutSetupFaults_lines :
    (let s := withPins testConfig [.dir .we .output];
      s.Undisturbed ∧ s.dir .we = some .output ∧ s.dir .oe ≠ some .output)
    ∧ (let s := withPins testConfig [.dir .we .output, .dir .oe .output];
      s.Undisturbed ∧ s.dir .we = some .output ∧ s.dir .oe = some .output ∧ FirstMissing s 5 .asc [])
    ∧ (let s := withPins testConfig [.dir .we .output, .dir .oe .output, .dir .asc .output];
      s.dir .we = some .output ∧ s.dir .oe = some .output ∧ FirstMissing s 5 .asd [.drv .asc false]) :=
  ⟨⟨⟨⟨rfl, rfl⟩, rfl⟩, by decide +kernel, by decide +kernel⟩,
    ⟨⟨⟨rfl, rfl⟩, rfl⟩, by decide +kernel, by decide +kernel, by decide +kernel, .inl ⟨rfl, rfl⟩⟩,
    by decide +kernel, by decide +kernel, by decide +kernel, .inr ⟨rfl, by decide +kernel, rfl⟩⟩

/-- `AllinReleasesThePins`. -/
theorem test_witness_AllinReleasesThePins : State.reset.Undisturbed := ⟨⟨rfl, rfl⟩, rfl⟩

/-- `CycleCountsAndTimes`: the reference configuration after `IDLESETUP`. -/
theorem test_witness_CycleCountsAndTimes :
    (let s := prepared Config.reference;
      s.Undisturbed ∧ validConfig s.cfg = true ∧ s.cfg.mode = .s2w ∧ s.cfg.addrBits = 24 ∧ s.cfg.xpData = .hold
        ∧ s.cfg.tHalf = 2 ∧ s.cfg.tSettle = 100 ∧ s.SetUp) := by
  refine ⟨⟨⟨rfl, rfl⟩, rfl⟩, by decide +kernel, rfl, rfl, rfl, rfl, rfl, ?_⟩
  unfold State.SetUp State.OutputsReady; decide +kernel

/-- `ReadCycleReadsTheFlash`, `WriteCycleReachesTheFlash`: the reference flash after `IDLESETUP`. -/
theorem test_witness_ReadCycleReadsTheFlash :
    (let s : State := { prepared testConfig with env := testFlash };
      s.Undisturbed ∧ validConfig s.cfg = true ∧ s.SetUp ∧ s.ControlsHigh ∧ (5 : Addr).toNat < 2 ^ s.cfg.addrBits.toNat
        ∧ s.env.wiring = .flash ∧ s.env.fmode = .array ∧ s.env.contention = false) := by
  refine ⟨⟨⟨rfl, rfl⟩, rfl⟩, by decide +kernel, ?_, ?_, by decide, rfl, rfl, rfl⟩
  · unfold State.SetUp State.OutputsReady; decide +kernel
  · unfold State.ControlsHigh; decide +kernel

theorem test_witness_WriteCycleReachesTheFlash :
    (let s : State := { prepared testConfig with env := { testFlash with fmode := .unlock1 } };
      s.Undisturbed ∧ validConfig s.cfg = true ∧ s.SetUp ∧ s.ControlsHigh ∧ (5 : Addr).toNat < 2 ^ s.cfg.addrBits.toNat
        ∧ s.env.wiring = .flash ∧ s.env.contention = false) := by
  refine ⟨⟨⟨rfl, rfl⟩, rfl⟩, by decide +kernel, ?_, ?_, by decide, rfl, rfl⟩
  · unfold State.SetUp State.OutputsReady; decide +kernel
  · unfold State.ControlsHigh; decide +kernel

/-- `IdqueryRunsEightCycles`: the boundary, twelve address bits. -/
theorem test_witness_IdqueryRunsEightCycles :
    (let s := fresh { testConfig with addrBits := 12 };
      s.Undisturbed ∧ validConfig s.cfg = true ∧ 12 ≤ s.cfg.addrBits.toNat) :=
  ⟨fresh_undisturbed _, by decide +kernel, by decide⟩

/-- `IdqueryNeedsTwelveBits`: the boundary, eleven. -/
theorem test_witness_IdqueryNeedsTwelveBits :
    (let s := fresh { testConfig with addrBits := 11 };
      s.Undisturbed ∧ validConfig s.cfg = true ∧ s.cfg.addrBits.toNat < 12) :=
  ⟨fresh_undisturbed _, by decide +kernel, by decide⟩

/-- `IdqueryLeavesTheBusInput`. -/
theorem test_witness_IdqueryLeavesTheBusInput :
    (fresh testConfig).Undisturbed ∧ (∀ i, mapped (fresh testConfig).cfg (.dl i) = true)
      ∧ exec .idquery (fresh testConfig) = .next (settle (bodyOf .idquery (fresh testConfig))) :=
  ⟨fresh_undisturbed _, by decide, exec_accepting _ (fresh_undisturbed _).1⟩

/-- `IdqueryReturnsTheIdentity`. -/
theorem test_witness_IdqueryReturnsTheIdentity :
    (let s : State := { State.reset with env := testFlash };
      s.Undisturbed ∧ validConfig s.cfg = true ∧ 12 ≤ s.cfg.addrBits.toNat ∧ ChipReady s) := by
  refine ⟨⟨⟨rfl, rfl⟩, rfl⟩, by decide +kernel, by decide, ?_⟩
  unfold ChipReady; decide +kernel

/-- `DumpGoesByteByByte`: its first clause with each answer of the sink and with one cell, and a running dump. -/
theorem test_witness_DumpGoesByteByByte :
    (fresh testConfig).Undisturbed ∧ validConfig (fresh testConfig).cfg = true
      ∧ validConfig { testConfig with maxAddr := 0 } = true
      ∧ (let s : State := { prepared testConfig with phase := .running .dump, cur := 15, host := nextRun };
        s.phase = .running .dump ∧ s.killIn = none ∧ s.NoKillWaiting ∧ validConfig s.cfg = true ∧ s.SetUp
          ∧ s.cur.toNat ≤ s.cfg.maxAddr.toNat) := by
  refine ⟨fresh_undisturbed _, by decide +kernel, by decide +kernel, rfl, rfl, fun _ => by simp [nextRun], by decide +kernel, ?_, by decide⟩
  unfold State.SetUp State.OutputsReady; decide +kernel

/-- `DumpCopiesTheFlash`: sixteen cells. -/
theorem test_witness_DumpCopiesTheFlash :
    (let s : State := { fresh testConfig with env := testFlash, sinkAnswers := List.replicate 16 true, host := nextRun };
      s.Undisturbed ∧ validConfig s.cfg = true ∧ s.NoKillWaiting ∧ ChipReady s
        ∧ s.sinkAnswers = List.replicate (s.cfg.maxAddr.toNat + 1) true ++ []) := by
  refine ⟨⟨⟨rfl, rfl⟩, rfl⟩, by decide +kernel, fun _ => by simp [nextRun], ?_, rfl⟩
  unfold ChipReady; decide +kernel

/-- `DumpStopsAtARejectedByte`: the first byte and the last. -/
theorem test_witness_DumpStopsAtARejectedByte :
    (let s : State := { fresh testConfig with sinkAnswers := [false], host := nextRun };
      s.Undisturbed ∧ validConfig s.cfg = true ∧ s.NoKillWaiting ∧ 0 ≤ s.cfg.maxAddr.toNat
        ∧ s.sinkAnswers = List.replicate 0 true ++ false :: [])
    ∧ (let s : State := { fresh testConfig with sinkAnswers := List.replicate 15 true ++ [false], host := nextRun };
      s.Undisturbed ∧ validConfig s.cfg = true ∧ s.NoKillWaiting ∧ 15 ≤ s.cfg.maxAddr.toNat
        ∧ s.sinkAnswers = List.replicate 15 true ++ false :: []) :=
  ⟨⟨fresh_undisturbed testConfig, by decide +kernel, fun _ => by simp [nextRun], by decide, rfl⟩,
    fresh_undisturbed testConfig, by decide +kernel, fun _ => by simp [nextRun], by decide, rfl⟩

/-- `OuttestDrivesThePatterns`: its clauses over a state, the first without `ASS`, with it, and with the direct lines. -/
theorem test_witness_OuttestDrivesThePatterns :
    (fresh testConfig).Undisturbed
      ∧ (∀ r ∈ [Role.dl 0, .dl 1, .dl 2, .dl 3, .dl 4, .dl 5, .dl 6, .dl 7, .oe, .we, .asd, .asc],
        mapped (fresh testConfig).cfg r = true) ∧ mapped (fresh testConfig).cfg .ass = false
      ∧ (∀ r ∈ [Role.dl 0, .dl 1, .dl 2, .dl 3, .dl 4, .dl 5, .dl 6, .dl 7, .oe, .we, .asd, .asc, .ass],
        mapped (fresh testThreeWire).cfg r = true)
      ∧ (∀ r ∈ outputLines { testDirect with outDirect := true }, mapped testDirect r = true)
      ∧ Role.dal 3 ∈ outputLines { testDirect with outDirect := true }
      ∧ (fresh testNoShifter).Undisturbed ∧ validConfig (fresh testNoShifter).cfg = true
      ∧ mapped (fresh testNoShifter).cfg .asd = false
      ∧ (fresh testNoClock).Undisturbed ∧ validConfig (fresh testNoClock).cfg = true
      ∧ mapped (fresh testNoClock).cfg .asd = true ∧ mapped (fresh testNoClock).cfg .asc = false :=
  ⟨fresh_undisturbed _, by decide, by decide, by decide, by decide, by decide, fresh_undisturbed _, by decide +kernel, by decide, fresh_undisturbed _,
    by decide +kernel, by decide, by decide⟩

/-- `IotestHandshake`: its first clause, also in mode `DIRECT` with the shifter's lines unmapped. -/
theorem test_witness_IotestStarts :
    ∀ c ∈ [testConfig, testDirect, testNoShifter], (fresh c).Undisturbed ∧ ∀ i, mapped (fresh c).cfg (.dl i) = true :=
  fun c hc => ⟨fresh_undisturbed c, by revert c; decide⟩

/-- `IotestHandshake`: its fourth clause, at the first awaited value and at the last; `test_debouncing` has its outcomes. -/
theorem test_witness_IotestHandshake :
    ∀ l ∈ [[0x0, 0x5, 0xA], [(0xA : BitVec 4)]], ∃ e await,
      (let s : State := { withBus testConfig .input with phase := .running (.ioTest l 0), host := nextRun };
      s.phase = .running (.ioTest (e :: await) 0) ∧ s.killIn = none ∧ s.NoKillWaiting
        ∧ (∀ i, mapped s.cfg (.dl i) = true) ∧ ∀ i, s.dir (.dl i) = some .input) := by
  intro l hl
  simp only [List.mem_cons, List.not_mem_nil, or_false] at hl
  rcases hl with rfl | rfl
  · exact ⟨_, _, rfl, rfl, fun _ => by simp [nextRun], by decide, by decide +kernel⟩
  · exact ⟨_, _, rfl, rfl, fun _ => by simp [nextRun], by decide, by decide +kernel⟩

/-- `InechoNeverResponds`, `OetestTogglesForEver`. -/
theorem test_witness_InechoNeverResponds :
    ∀ c ∈ [testConfig, { testConfig with echoWe := some true, echoOe := some false }],
      (let s : State := { fresh c with host := nextRun };
      s.Undisturbed ∧ s.NoKillWaiting ∧ (∀ i, mapped s.cfg (.dl i) = true)
        ∧ ∀ x ∈ echoTouches s.cfg, mapped s.cfg x.1 = true) :=
  fun c hc => ⟨⟨⟨rfl, rfl⟩, rfl⟩, fun _ => by simp [nextRun], by revert c; decide, by revert c; decide⟩

theorem test_witness_OetestTogglesForEver :
    (let s : State := { State.reset with host := nextRun };
      s.Undisturbed ∧ validConfig s.cfg = true ∧ s.NoKillWaiting) :=
  ⟨⟨⟨rfl, rfl⟩, rfl⟩, by decide +kernel, fun _ => by simp [nextRun]⟩

/-- `AddrtestPassesInTheLoopback`, in the two shifter modes. -/
theorem test_witness_AddrtestPassesInTheLoopback :
    ∀ c ∈ [testConfig, testThreeWire], (let s : State := { fresh c with env := { Env.reset with wiring := .addressLoopback } };
      s.Undisturbed ∧ validConfig s.cfg = true ∧ s.cfg.mode ≠ .direct ∧ s.env.wiring = .addressLoopback) :=
  fun c hc => ⟨⟨⟨rfl, rfl⟩, rfl⟩, by revert c; decide +kernel, by revert c; decide, rfl⟩

/-- `AddrtestStopsAtTheFirstMismatch`: mode `DIRECT` and another. -/
theorem test_witness_AddrtestStopsAtTheFirstMismatch :
    (fresh testDirect).Undisturbed ∧ validConfig (fresh testDirect).cfg = true ∧ (fresh testDirect).cfg.mode = .direct
      ∧ (fresh testConfig).Undisturbed ∧ validConfig (fresh testConfig).cfg = true
      ∧ (fresh testConfig).cfg.mode ≠ .direct :=
  ⟨fresh_undisturbed testDirect, by decide +kernel, rfl, fresh_undisturbed testConfig, by decide +kernel, by decide⟩

/-- `StepKeepsTheInvariant` and the premise of `StatusLayout`: the invariant and a step. -/
theorem test_witness_StepKeepsTheInvariant :
    Inv (fresh testConfig) ∧ step (fresh testConfig) = .next (fresh testConfig) ∧ (fresh testConfig).fault = false := by
  refine ⟨⟨fun _ => by decide +kernel, fun _ => ⟨rfl, rfl⟩, by decide, fun h => (by cases h), fun _ _ => rfl,
    fun j h => (by cases h), fun r _ => ?_, rfl⟩, rfl, rfl⟩
  simp [State.dir, State.out, fresh, State.reset, pinAt, Pin.reset]

/-- `CyclesNeverContend`: a state without contention behind the flash; a read cycle answers a next state there. -/
theorem test_witness_CyclesNeverContend :
    (let s : State := { prepared testConfig with env := testFlash };
      BusSafe s ∧ exec (.rdcyc 5) s = .next (settle (bodyOf (.rdcyc 5) s))
        ∧ (nextOf (exec (.rdcyc 5) s)).dir .oe = some .output
        ∧ BusSafe { s with phase := .running .dump }) := by
  refine ⟨?_, exec_accepting _ ⟨rfl, rfl⟩, by decide +kernel, ?_⟩ <;> unfold BusSafe <;> decide +kernel

/-- `RegistersHaveTheirWriters`, its second clause: a poll of `IOTEST` writes `D`, a turn of `OETEST` does not. -/
theorem test_turns_write_data :
    (let s : State := { withBus (testIo testConfig) .input with
        env := { Env.reset with answers := [false, false, false, false, true, false, true, false] } };
      (resume (.ioTest [0x0, 0x5, 0xA] 0) s).d = 0x50)
    ∧ (resume .oeTest { prepared testConfig with d := 0x3C }).d = 0x3C := by decide +kernel

/-- `RegistersHaveTheirWriters`. -/
theorem test_witness_RegistersHaveTheirWriters :
    exec .busrd (withBus testConfig .input) = .next (settle (bodyOf .busrd (withBus testConfig .input))) :=
  exec_accepting _ ⟨rfl, rfl⟩

end Sys2Proof.Machine
end

section
/-! The trace and the latches across a whole step (00_scope.md R11, R16; 20_memory.md R80). -/

namespace Sys2Proof.Machine

/-- Settling a stretch of pseudocode emits nothing. -/
theorem settle_trace (x : EStateM.Result Stop State Progress) : (settle x).trace = (reached x).trace := by
  rcases settle_cases x with h | ⟨p, h⟩ | ⟨j, h⟩ | ⟨c, i, h⟩ <;> rw [h] <;> rfl

/-- Settling a stretch of pseudocode leaves the latches as they were reached. -/
theorem settle_pins (x : EStateM.Result Stop State Progress) : (settle x).pins = (reached x).pins := by
  rcases settle_cases x with h | ⟨p, h⟩ | ⟨j, h⟩ | ⟨c, i, h⟩ <;> rw [h] <;> rfl

/-- Pseudocode that only makes a command's changes is settled with its events in the trace and the latches they set. -/
theorem Changes.settle_latches {s : State} {x : EStateM.Result Stop State Progress} (h : Changes s (reached x)) :
    ∃ es, Emitted s (settle x) es ∧ (settle x).pins = latchesAfter s.pins es := by
  obtain ⟨es, ht, hp⟩ := h.latches
  exact ⟨es, (settle_trace x).trans ht, (settle_pins x).trans hp⟩

/-- Settles O14: every step but a reset is a chain of a command's changes, settled, or changes neither trace nor
latches. -/
theorem everyPinChangeIsAnEvent : Obligations.EveryPinChangeIsAnEvent := by
  intro s t hstep hreset
  cases step_did hstep with
  | killed rest hh => exact ⟨[], (List.append_nil _).symm, rfl⟩
  | waited hp hh => exact ⟨[], (List.append_nil _).symm, rfl⟩
  | resumed j hp => exact (changes_jobTurn j s).settle_latches
  | wasReset c g rest hp hh => exact absurd ⟨hp, c, g, rest, hh⟩ hreset
  | ran w k rest i hs hh hd => exact (changes_bodyOf i (s.handOver k rest)).settle_latches
  | illegal w k rest hs hh =>
    exact Changes.settle_latches (s := s.handOver k rest)
      (x := (raise .illegalCmd (w.extractLsb' 16 24) : Act Progress) (s.handOver k rest)) .refl

end Sys2Proof.Machine
end

section
/-! What settling a stretch of pseudocode leaves, and the invariant across a whole step (10_state.md R26, R27, R34;
60_exceptions.md R273). -/

namespace Sys2Proof.Machine

/-! ### Settling -/

/-- The ways a stretch of pseudocode is settled, each with how the pseudocode left off. -/
theorem settle_did (x : EStateM.Result Stop State Progress) :
    ((x = .error .killed (reached x) ∨ (reached x).killIn = some 0) ∧ settle x = (reached x).kill)
      ∨ (∃ p, x = .ok (.done p) (reached x) ∧ settle x = (reached x).respond (.ok p))
      ∨ (∃ j, x = .ok (.more j) (reached x) ∧ settle x = { reached x with phase := .running j })
      ∨ ∃ c i, settle x = (reached x).takeFault c i := by
  match x with
  | .ok (.done p) u =>
    by_cases h : u.killIn = some 0
    · exact .inl ⟨.inr h, by simp [settle, h]⟩
    · exact .inr (.inl ⟨p, rfl, by simp [settle, h]⟩)
  | .ok (.more j) u => exact .inr (.inr (.inl ⟨j, rfl, rfl⟩))
  | .error (.fault c i) u =>
    by_cases h : u.killIn = some 0
    · exact .inl ⟨.inr h, by simp [settle, h]⟩
    · exact .inr (.inr (.inr ⟨c, i, by simp [settle, h]⟩))
  | .error .killed u => exact .inl ⟨.inl rfl, rfl⟩

/-! ### The invariant while a command runs -/

/-- What the invariant says of a state inside a command, where `FSM` may be anything: no fault so far. -/
structure Underway (s : State) : Prop where
  unfaulted : s.fault = false
  valid : validConfig s.cfg = true
  clear : s.fcode = 0 ∧ s.finfo = 0
  cursor : s.cur.toNat ≤ s.cfg.maxAddr.toNat
  untouched : ∀ r, mapped s.cfg r = false → s.dir r = none ∧ s.out r = none
  memory : Memory.wf s.env.flash = true

theorem Inv.underway {s : State} (h : Inv s) (hf : s.fault = false) : Underway s :=
  ⟨hf, h.valid hf, h.clear hf, h.cursor, h.untouched, h.memory⟩

theorem Underway.handOver {s : State} (h : Underway s) (k : Option Nat) (rest : List HostMove) :
    Underway (s.handOver k rest) :=
  ⟨h.unfaulted, h.valid, h.clear, h.cursor, h.untouched, h.memory⟩

/-- A command's changes keep it: they touch mapped roles only, and the cursor only below its bound. -/
theorem Underway.changes {s t : State} (h : Underway s) (hc : Changes s t) : Underway t where
  unfaulted := hc.frame.fault.trans h.unfaulted
  valid := hc.frame.cfg ▸ h.valid
  clear := ⟨hc.frame.fcode.trans h.clear.1, hc.frame.finfo.trans h.clear.2⟩
  cursor := hc.cursor h.cursor
  untouched r hr := by
    rw [hc.frame.cfg] at hr
    obtain ⟨hd, ho⟩ := hc.frame.untouched r hr
    obtain ⟨hd', ho'⟩ := h.untouched r hr
    exact ⟨hd.trans hd', ho.trans ho'⟩
  memory := hc.frame.env.flash ▸ h.memory

/-- An unfaulted end of a stretch: the block waits or goes on in `Idle`, or it is stopped. -/
theorem Underway.inv {s : State} (h : Underway s) (hi : s.phase ≠ .stopped → s.fsm = .idle) : Inv s where
  valid _ := h.valid
  clear _ := h.clear
  cursor := h.cursor
  code hf := absurd hf (by simp [h.unfaulted])
  resting _ := hi
  running _ _ := h.unfaulted
  untouched := h.untouched
  memory := h.memory

theorem Underway.kill {s : State} (h : Underway s) : Inv s.kill :=
  Underway.inv ⟨h.unfaulted, h.valid, h.clear, h.cursor, h.untouched, h.memory⟩ fun hp => absurd rfl hp

theorem Underway.respond {s : State} (h : Underway s) (hi : s.fsm = .idle) (r : Reply) : Inv (s.respond r) :=
  Underway.inv ⟨h.unfaulted, h.valid, h.clear, h.cursor, h.untouched, h.memory⟩ fun _ => hi

theorem Underway.goesOn {s : State} (h : Underway s) (hi : s.fsm = .idle) (j : Job) :
    Inv { s with phase := .running j } :=
  Underway.inv ⟨h.unfaulted, h.valid, h.clear, h.cursor, h.untouched, h.memory⟩ fun _ => hi

/-- The nine codes (60_exceptions.md R261). -/
theorem causeCode_bounds (c : Cause) : 1 ≤ (causeCode c).toNat ∧ (causeCode c).toNat ≤ 9 := by
  cases c <;> decide

theorem Underway.takeFault {s : State} (h : Underway s) (c : Cause) (i : BitVec 24) : Inv (s.takeFault c i) where
  valid hf := nomatch hf
  clear hf := nomatch hf
  cursor := h.cursor
  code _ := causeCode_bounds c
  resting hf := nomatch hf
  running _ hp := nomatch hp
  untouched := h.untouched
  memory := h.memory

/-- Pseudocode that makes a command's changes, and is in `Idle` where it does not stop, is settled in the invariant. -/
theorem Underway.settle {s : State} (h : Underway s) {x : EStateM.Result Stop State Progress}
    (hc : Changes s (reached x)) (hi : ∀ p t, x = .ok p t → t.fsm = .idle) : Inv (settle x) := by
  have hu := h.changes hc
  rcases settle_did x with ⟨-, hs⟩ | ⟨p, hx, hs⟩ | ⟨j, hx, hs⟩ | ⟨c, i, hs⟩ <;> rw [hs]
  · exact hu.kill
  · exact hu.respond (hi _ _ hx) _
  · exact hu.goesOn (hi _ _ hx) j
  · exact hu.takeFault c i

/-- A kill between events stops the block, faulted or not, and touches nothing else (60_exceptions.md R271). -/
theorem Inv.killed {s : State} (h : Inv s) (rest : List HostMove) : Inv ({ s with host := rest } : State).kill where
  valid := h.valid
  clear := h.clear
  cursor := h.cursor
  code := h.code
  resting _ hp := absurd rfl hp
  running _ hp := nomatch hp
  untouched := h.untouched
  memory := h.memory

/-! ### The invariant at reset -/

theorem resetWith_fault (s : State) (c : Config) (g : Bool) : (s.resetWith c g).fault = !(g && validConfig c) := rfl

theorem resetWith_fcode (s : State) (c : Config) (g : Bool) :
    (s.resetWith c g).fcode = if (s.resetWith c g).fault then causeCode .init else 0 := by
  cases h : g && validConfig c <;> simp [State.resetWith, h]

/-- A reset leaves every pin unconfigured (10_state.md R38). -/
theorem resetWith_untouched (s : State) (c : Config) (g : Bool) (r : Role) :
    (s.resetWith c g).dir r = none ∧ (s.resetWith c g).out r = none := by
  simp [State.dir, State.out, State.resetWith, pinAt, Pin.reset]

/-- A reset, failing or not, meets the invariant whatever stood before it, if the chip's memory has its form
(70_reset_and_hazards.md R293); the cursor's clause is the model's `CUR` = 0 (log 5). -/
theorem inv_resetWith {s : State} (hm : Memory.wf s.env.flash = true) (c : Config) (g : Bool) :
    Inv (s.resetWith c g) where
  valid hf := by
    have hready : g = true ∧ validConfig c = true := by simpa [resetWith_fault] using hf
    exact hready.2
  clear hf := ⟨by simp [resetWith_fcode, hf], rfl⟩
  cursor := Nat.zero_le _
  code hf := by
    rw [resetWith_fcode, if_pos hf]
    exact causeCode_bounds .init
  resting _ _ := rfl
  running _ hp := nomatch hp
  untouched r _ := resetWith_untouched s c g r
  memory := (resetWith_flash s c g).symm ▸ hm

/-- The reference configuration is one that reset accepts (00_scope.md R6). -/
theorem validConfig_reference : validConfig Config.reference = true := by decide

/-- The reset state is what a successful reset with the reference configuration makes of itself. -/
theorem reset_resetWith : State.reset.resetWith Config.reference true = State.reset := by
  simp [State.resetWith, validConfig_reference, State.reset, Env.onReset, Env.reset]

/-- Settles O55: the reset state is the outcome of a successful reset. -/
theorem resetMeetsTheInvariant : Obligations.ResetMeetsTheInvariant := by
  have h : Inv (State.reset.resetWith Config.reference true) := inv_resetWith reset_memory_wf _ _
  rwa [reset_resetWith] at h

/-- Settles O56: a command or a turn starts unfaulted in `Idle` and is a chain of changes, settled; the other steps are a
kill, a wait or a reset. -/
theorem stepKeepsTheInvariant : Obligations.StepKeepsTheInvariant := by
  intro s t h hstep
  cases step_did hstep with
  | killed rest hh => exact h.killed rest
  | resumed j hp =>
    have hf := h.running j hp
    have hidle := h.resting hf (by simp [hp])
    exact (h.underway hf).settle (changes_jobTurn j s) fun p t ht => endsIdle_jobTurn j s p t hidle ht
  | waited hp hh => exact h
  | wasReset c g rest hp hh => exact inv_resetWith (s := { s with host := rest }) h.memory c g
  | ran w k rest i hs hh hd =>
    obtain ⟨hp, hf⟩ := hs
    have hidle := h.resting hf (by simp [hp])
    exact ((h.underway hf).handOver k rest).settle (changes_bodyOf i _) fun p t ht =>
      endsIdle_bodyOf i (s.handOver k rest) p t hidle ht
  | illegal w k rest hs hh =>
    exact ((h.underway hs.2).handOver k rest).settle (x := raise .illegalCmd (w.extractLsb' 16 24) (s.handOver k rest))
      .refl fun _ _ ht => nomatch ht

end Sys2Proof.Machine
end

section
/-! What a reset leaves, what no other step changes, and the step that takes a word (10_state.md R29, R33, R36, R38;
70_reset_and_hazards.md R291). -/

namespace Sys2Proof.Machine

/-! ### The environment at a reset -/

/-- The chip's mode over a reset (20_memory.md R77; log 26). -/
theorem Env.onReset_fmode (p : Pins) (e : Env) :
    (e.onReset p).fmode = if e.wiring ≠ .flash ∨ (e.weIdleHigh = true
      ∧ ¬((pinAt p .we).dir = some .output ∧ (pinAt p .we).out = some false)) then e.fmode else .unknown := by
  have hd : drives p .we false = true ↔ (pinAt p .we).dir = some .output ∧ (pinAt p .we).out = some false := by
    simp [drives, presented]
  by_cases hw : e.wiring = .flash
  · cases hi : e.weIdleHigh <;> cases hl : drives p .we false <;>
      simp [Env.onReset, Env.writeEnableLoose, Env.spoil, hw, hi, hl, ← hd]
  · simp [Env.onReset, hw]

/-- What the pins carry and what the environment has yet to answer stand over a reset (70_reset_and_hazards.md R302;
log 26). -/
theorem Env.onReset_keeps (p : Pins) (e : Env) :
    (e.onReset p).sh = e.sh ∧ (e.onReset p).q = e.q ∧ (e.onReset p).lastDriven = e.lastDriven
      ∧ (e.onReset p).contention = e.contention ∧ (e.onReset p).answers = e.answers ∧ (e.onReset p).draws = e.draws := by
  unfold Env.onReset Env.writeEnableLoose
  split
  · split <;> exact ⟨rfl, rfl, rfl, rfl, rfl, rfl⟩
  · exact ⟨rfl, rfl, rfl, rfl, rfl, rfl⟩

/-- A successful reset's `STATUS` reads 0 (10_state.md R34). -/
theorem resetWith_status {s : State} {c : Config} {g : Bool} (h : (s.resetWith c g).fault = false) :
    (s.resetWith c g).status = 0 := by
  have hc : (s.resetWith c g).fcode = 0 := by simp [resetWith_fcode, h]
  exact (State.status_congr (s := State.reset) (t := s.resetWith c g) rfl h hc rfl).trans (by decide)

/-- Settles O10: the step is `resetWith`, and the environment's part of it is `Env.onReset`. -/
theorem resetLeavesTheListedValues : Obligations.ResetLeavesTheListedValues := by
  intro s c rest hp hh hv
  have hf : (({ s with host := rest } : State).resetWith c true).fault = false := by simp [resetWith_fault, hv]
  have same := s.env.onReset_same s.pins
  obtain ⟨hsh, hq, hdriven, hcont, hans, hdraws⟩ := s.env.onReset_keeps s.pins
  refine ⟨({ s with host := rest } : State).resetWith c true, by rw [step_notRunning hp, hh], resetWith_untouched _ c true,
    rfl, hf, by simp [resetWith_fcode, hf], rfl, rfl, rfl, rfl, rfl, resetWith_status hf, rfl, same.flash, same.flashId,
    hsh, hq, s.env.onReset_fmode s.pins, rfl, same.wiring, same.weIdleHigh, hdriven, hcont, hans, hdraws⟩

/-! ### Steps that are no reset -/

/-- The configuration is not a command's to change (10_state.md R33). -/
theorem settle_cfg (x : EStateM.Result Stop State Progress) : (settle x).cfg = (reached x).cfg := by
  rcases settle_cases x with h | ⟨p, h⟩ | ⟨j, h⟩ | ⟨c, i, h⟩ <;> rw [h] <;> rfl

/-- Settling a stretch of pseudocode adds a response at most. -/
theorem settle_responses (x : EStateM.Result Stop State Progress) :
    ∃ rs, (settle x).responses = (reached x).responses ++ rs := by
  rcases settle_cases x with h | ⟨p, h⟩ | ⟨j, h⟩ | ⟨c, i, h⟩ <;> rw [h]
  · exact ⟨[], (List.append_nil _).symm⟩
  · exact ⟨[_], rfl⟩
  · exact ⟨[], (List.append_nil _).symm⟩
  · exact ⟨[_], rfl⟩

theorem Env.Same.flashByte {e f : Env} (h : e.Same f) (a : Addr) : f.flashByte a = e.flashByte a := by
  rw [Env.flashByte, Env.flashByte, h.flash]

/-- What a step that is no reset keeps, whatever else it does: the configuration, the recorded responses, the chip and
the wiring. -/
structure Stands (s t : State) : Prop where
  cfg : t.cfg = s.cfg
  responses : ∃ rs, t.responses = s.responses ++ rs
  env : s.env.Same t.env

/-- Nothing answered, nothing moved. -/
theorem Stands.still {s t : State} (hc : t.cfg = s.cfg) (hr : t.responses = s.responses) (he : t.env = s.env) :
    Stands s t :=
  ⟨hc, ⟨[], hr.trans (List.append_nil _).symm⟩, he ▸ .rfl' _⟩

theorem Changes.stands {s : State} {x : EStateM.Result Stop State Progress} (h : Changes s (reached x)) :
    Stands s (settle x) where
  cfg := (settle_cfg x).trans h.frame.cfg
  responses := (settle_responses x).imp fun rs hr => by rw [hr, h.frame.responses]
  env := (settle_env x).symm ▸ h.frame.env

/-- A step is a reset, which keeps the chip and the wiring, or it lets the block stand. -/
theorem step_stands {s t : State} (h : step s = .next t) : (¬s.AtReset → Stands s t) ∧ s.env.Same t.env := by
  suffices hs : s.AtReset ∧ s.env.Same t.env ∨ Stands s t from
    hs.elim (fun hr => ⟨absurd hr.1, hr.2⟩) fun hk => ⟨fun _ => hk, hk.env⟩
  cases step_did h with
  | killed rest hh => exact .inr (.still rfl rfl rfl)
  | resumed j hp => exact .inr (changes_jobTurn j s).stands
  | waited hp hh => exact .inr (.still rfl rfl rfl)
  | wasReset c g rest hp hh => exact .inl ⟨⟨hp, c, g, rest, hh⟩, s.env.onReset_same s.pins⟩
  | ran w k rest i hs hh hd =>
    obtain ⟨hc, hr, he⟩ := (changes_bodyOf i (s.handOver k rest)).stands
    exact .inr ⟨hc, hr, he⟩
  | illegal w k rest hs hh =>
    obtain ⟨hc, hr, he⟩ := Changes.stands (s := s.handOver k rest)
      (x := raise .illegalCmd (w.extractLsb' 16 24) (s.handOver k rest)) .refl
    exact .inr ⟨hc, hr, he⟩

/-- A faulted block that runs nothing takes no command, so only a reset clears its record (60_exceptions.md R273 (e)). -/
theorem step_keeps_fault {s t : State} (h : step s = .next t) (hr : ¬s.AtReset) (hf : s.fault = true)
    (hp : ∀ j, s.phase ≠ .running j) : KeepsFault s t := by
  cases step_did h with
  | killed rest hh => exact ⟨rfl, rfl, rfl⟩
  | resumed j hj => exact absurd hj (hp j)
  | waited _ hh => exact ⟨rfl, rfl, rfl⟩
  | wasReset c g rest _ hh => exact absurd ⟨hp, c, g, rest, hh⟩ hr
  | ran w k rest i hs hh hd => exact absurd hs.2 (by simp [hf])
  | illegal w k rest hs hh => exact absurd hs.2 (by simp [hf])

/-- Settles O58: a step that is no reset lets the block stand; a reset keeps what is not the block's. -/
theorem onlyAResetRebuilds : Obligations.OnlyAResetRebuilds := by
  intro s t hstep
  obtain ⟨hstands, henv⟩ := step_stands hstep
  exact ⟨fun hr => ⟨(hstands hr).cfg, (hstands hr).responses, step_keeps_fault hstep hr⟩,
    henv.wiring, henv.weIdleHigh, henv.flashId, henv.flashByte⟩

/-! ### A word that decodes -/

/-- An accepting block runs the command a word decodes to (30_encoding.md R99). -/
theorem takeWord_decoded {s : State} {w : CmdWord} {i : Instr} (hs : s.Accepting) (hd : decode w = .ok i) :
    takeWord w s = exec i s := by
  obtain ⟨hp, hf⟩ := hs
  simp [takeWord, hp, hf, hd]

/-- Settles O6: an accepting block whose next move is a word that decodes takes that word. -/
theorem stepRunsDecodedInstruction : Obligations.StepRunsDecodedInstruction := by
  intro s w k rest i hs hh hd
  rw [step_notRunning fun j => by simp [hs.1], hh]
  exact takeWord_decoded (s := s.handOver k rest) hs hd

end Sys2Proof.Machine
end

section
/-! `STATUS` and `PINSTATE` (10_state.md R34). -/

namespace Sys2Proof.Machine

variable (s : State)

theorem status_fsm : s.status.extractLsb' 0 2 = fsmCode s.fsm := BitVec.extractLsb'_append_eq_right

theorem status_fault : s.status.getLsbD 2 = s.fault := by
  rw [State.status, BitVec.getLsbD_append, BitVec.getLsbD_append]
  simp

theorem status_fcode : s.status.extractLsb' 3 4 = s.fcode :=
  calc s.status.extractLsb' 3 4
    _ = ((0 : BitVec 1) ++ s.finfo ++ s.fcode ++ BitVec.ofBool s.fault).extractLsb' 1 4 :=
      BitVec.extractLsb'_append_eq_of_le (by decide)
    _ = ((0 : BitVec 1) ++ s.finfo ++ s.fcode).extractLsb' 0 4 := BitVec.extractLsb'_append_eq_of_le (by decide)
    _ = s.fcode := BitVec.extractLsb'_append_eq_right

theorem status_finfo : s.status.extractLsb' 7 24 = s.finfo :=
  calc s.status.extractLsb' 7 24
    _ = ((0 : BitVec 1) ++ s.finfo ++ s.fcode ++ BitVec.ofBool s.fault).extractLsb' 5 24 :=
      BitVec.extractLsb'_append_eq_of_le (by decide)
    _ = ((0 : BitVec 1) ++ s.finfo ++ s.fcode).extractLsb' 4 24 := BitVec.extractLsb'_append_eq_of_le (by decide)
    _ = ((0 : BitVec 1) ++ s.finfo).extractLsb' 0 24 := BitVec.extractLsb'_append_eq_of_le (by decide)
    _ = s.finfo := BitVec.extractLsb'_append_eq_right

theorem status_top : s.status.getLsbD 31 = false := by
  rw [State.status]
  iterate 4 rw [BitVec.getLsbD_append]
  simp

theorem pinState_dir (r : Role) : (s.pinState r).extractLsb' 0 2 = dirCode (s.dir r) :=
  BitVec.extractLsb'_append_eq_right

theorem pinState_out (r : Role) : (s.pinState r).getLsbD 2 = (s.out r).getD false := by
  rw [State.pinState, BitVec.getLsbD_append]
  simp

/-- Settles O54: each field is read back from the concatenation, and the invariant gives the zero codes. -/
theorem statusLayout : Obligations.StatusLayout := by
  refine ⟨fun s => ⟨(status_fsm s).trans ?_, status_fault s, status_fcode s, status_finfo s, status_top s,
    fun h hf => ?_, fun r => ⟨(pinState_dir s r).trans ?_, (pinState_out s r).trans ?_⟩⟩, by decide⟩
  · cases s.fsm <;> rfl
  · rw [status_fcode, status_finfo]
    exact h.clear hf
  · cases s.dir r with
    | none => rfl
    | some d => cases d <;> rfl
  · cases s.out r <;> rfl

end Sys2Proof.Machine
end

section
/-! Which registers a command and a turn write (10_state.md R24 to R27), and the one response they give (R37). -/

namespace Sys2Proof.Machine

/-! ### Registers -/

/-- Pseudocode settled: a fault writes the fault record besides what the pseudocode itself may write. -/
theorem Leaves.settle_registers {w : Writes} {x : Act Progress} (h : Leaves w x) (s : State) :
    (w.d = false → (Machine.settle (x s)).d = s.d) ∧ (w.id = false → (Machine.settle (x s)).id = s.id)
      ∧ (w.cur = false → (Machine.settle (x s)).cur = s.cur) ∧ (w.fsm = false → (Machine.settle (x s)).fsm = s.fsm)
      ∧ (KeepsFault s (Machine.settle (x s)) ∨ (Machine.settle (x s)).fault = true) := by
  rcases h.settle s with hs | ⟨hf, u, hu, c, i, he⟩
  · exact ⟨hs.d, hs.id, hs.cur, hs.fsm, .inl hs.fault⟩
  · rw [he]
    exact ⟨hu.d, hu.id, hu.cur, hu.fsm, .inr rfl⟩

theorem writesOf_d {i : Instr} (h : (writesOf i).d = true) :
    i = .busrd ∨ (∃ a, i = .rdcyc a) ∨ i = .idquery ∨ i = .dump ∨ i = .inecho ∨ i = .addrtest := by
  cases i <;> simp_all [writesOf]

theorem writesOf_id {i : Instr} (h : (writesOf i).id = true) : i = .idquery := by
  cases i <;> simp_all [writesOf]

theorem writesOf_cur {i : Instr} (h : (writesOf i).cur = true) : i = .dump := by
  cases i <;> simp_all [writesOf]

theorem writesOf_fsm {i : Instr} (h : (writesOf i).fsm = true) :
    i = .idlesetup ∨ (∃ a, i = .rdcyc a) ∨ (∃ a v, i = .wrcyc a v) ∨ i = .idquery ∨ i = .dump ∨ i = .oetest
      ∨ i = .addrtest := by
  cases i <;> simp_all [writesOf]

theorem writesOfJob_d {j : Job} (h : (writesOfJob j).d = true) :
    j = .dump ∨ j = .inEcho ∨ ∃ await found, j = .ioTest await found := by
  cases j <;> simp_all [writesOfJob]

theorem writesOfJob_id (j : Job) : (writesOfJob j).id = false := by cases j <;> rfl

theorem writesOfJob_cur {j : Job} (h : (writesOfJob j).cur = true) : j = .dump := by
  cases j <;> simp_all [writesOfJob]

theorem writesOfJob_fsm {j : Job} (h : (writesOfJob j).fsm = true) : j = .dump := by
  cases j <;> simp_all [writesOfJob]

/-- A register is kept, or is one that may be written. -/
theorem kept_or_written {b : Bool} {p q : Prop} (kept : b = false → p) (written : b = true → q) : p ∨ q := by
  cases b
  · exact .inl (kept rfl)
  · exact .inr (written rfl)

/-- Settles O59: `writesOf` and `writesOfJob` say who writes what, and settling adds the fault record at a fault only. -/
theorem registersHaveTheirWriters : Obligations.RegistersHaveTheirWriters := by
  refine ⟨fun i s t h => ?_, fun j s t h => ?_⟩
  · obtain ⟨hd, hid, hcur, hfsm, hfault⟩ := (leaves_bodyOf i).settle_registers s
    rw [(accepting_of_exec h).2]
    exact ⟨kept_or_written hd writesOf_d, kept_or_written hid writesOf_id, kept_or_written hcur writesOf_cur,
      kept_or_written hfsm writesOf_fsm, hfault⟩
  · obtain ⟨hd, hid, hcur, hfsm, hfault⟩ := (leaves_jobTurn j).settle_registers s
    rw [h]
    exact ⟨kept_or_written hd writesOfJob_d, hid (writesOfJob_id j), kept_or_written hcur writesOfJob_cur,
      kept_or_written hfsm writesOfJob_fsm, hfault⟩

/-! ### Payloads -/

/-- Pseudocode that, where it ends, ends with such a payload; the payload may depend on the configuration. -/
def Answers (P : Config → Payload → Prop) (x : Act Progress) : Prop :=
  ∀ s p t, x s = .ok (.done p) t → P s.cfg p

theorem answers_done {P : Config → Payload → Prop} {p : Payload} (h : ∀ c, P c p) :
    Answers P (pure (.done p) : Act Progress) := fun s _ _ ht => by cases ht; exact h s.cfg

theorem answers_more {P : Config → Payload → Prop} (j : Job) : Answers P (pure (.more j) : Act Progress) :=
  fun _ _ _ ht => by cases ht

theorem answers_raise {P : Config → Payload → Prop} (c : Cause) (i : BitVec 24) :
    Answers P (raise c i : Act Progress) := fun _ _ _ ht => by cases ht

/-- Where the first part keeps the configuration, the second gives the payload. -/
theorem answers_bind_of_cfg {α : Type} {P : Config → Payload → Prop} {x : Act α} {f : α → Act Progress}
    (hx : ∀ s, (reached (x s)).cfg = s.cfg) (hf : ∀ a, Answers P (f a)) : Answers P (x >>= f) := by
  intro s p t ht
  rw [act_bind] at ht
  have hc := hx s
  cases hxs : x s with
  | ok a u =>
    rw [hxs] at ht hc
    exact hc ▸ hf a u p t ht
  | error e u => rw [hxs] at ht; cases ht

theorem answers_bind {α : Type} {P : Config → Payload → Prop} {x : Act α} {f : α → Act Progress} (hx : Within x)
    (hf : ∀ a, Answers P (f a)) : Answers P (x >>= f) :=
  answers_bind_of_cfg (fun s => (hx.steps s).cfg) hf

theorem answers_finish {x : Act Unit} (hx : Within x) : Answers (fun _ p => p = .empty) (finish x) :=
  answers_bind hx fun _ => answers_done fun _ => rfl

/-- The count of bytes a dump answers (44_composite.md R217). -/
def dumpCount (c : Config) (p : Payload) : Prop := p = .count (BitVec.ofNat 32 (c.maxAddr.toNat + 1))

theorem answers_dumpTurn : Answers dumpCount dumpTurn := by
  intro s p t ht
  rw [dumpTurn, act_bind_ok (act_get s)] at ht
  refine answers_bind (P := fun _ => dumpCount s.cfg) (within_readCycle s.cur) (fun v => ?_) s p t ht
  refine answers_bind (within_sinkWrite v) fun accepted => ?_
  split
  · split
    · exact answers_bind (within_quiet _) fun _ => answers_done fun _ => rfl
    · exact answers_bind_of_cfg (fun _ => rfl) fun _ => answers_more _
  · exact answers_bind (within_quiet _) fun _ => answers_raise _ _

theorem answers_dumpStart : Answers dumpCount dumpStart :=
  answers_bind (within_runWith _) fun _ => answers_bind_of_cfg (fun _ => rfl) fun _ => answers_dumpTurn

theorem answers_echoTurn : Answers (fun _ _ => False) echoTurn :=
  answers_bind within_busRead fun _ => answers_bind (within_quiet _) fun _ =>
    answers_bind (within_runWith _) fun _ => answers_more _

theorem answers_oeTurn : Answers (fun _ _ => False) oeTurn :=
  answers_bind (within_runWith _) fun _ => answers_more _

theorem answers_ioTurn (l : List (BitVec 4)) (found : Nat) : Answers (fun _ p => p = .empty) (ioTurn l found) := by
  have blink : Answers (fun _ p => p = .empty) blinkEnd :=
    answers_bind (within_runWith _) fun _ => answers_done fun _ => rfl
  cases l with
  | nil => exact blink
  | cons e rest =>
    refine answers_bind within_busRead fun v => answers_bind within_get fun s => ?_
    split
    · split
      · exact answers_bind (within_runWith _) fun _ => answers_more _
      · split
        · exact blink
        · exact answers_more _
    · exact answers_bind (within_runWith _) fun _ => answers_more _

/-- A command that ends answers the payload of its kind (10_state.md R37). -/
theorem answers_bodyOf (i : Instr) : Answers (fun c => PayloadOf c i) (bodyOf i) := by
  cases i with
  | cfgdir role dir => exact answers_finish (within_withRole role fun r => within_setDir r dir)
  | pinwr role level => exact answers_finish (within_withRole role fun r => within_drive r level false)
  | pinrd role => exact answers_bind (within_withRole role within_sample) fun l => answers_done fun _ => ⟨l, rfl⟩
  | setaddr addr => exact answers_finish (within_setAddress addr)
  | busdir dir => exact answers_finish (within_runOps _)
  | buswr value => exact answers_finish (within_busWrite value)
  | busrd => exact answers_bind within_busRead fun v => answers_done fun _ => ⟨v, rfl⟩
  | idlesetup => exact answers_finish (within_runWith _)
  | rdcyc addr => exact answers_bind (within_readCycle addr) fun v => answers_done fun _ => ⟨v, rfl⟩
  | wrcyc addr data => exact answers_finish (within_writeCycle addr data)
  | allin => exact answers_finish (within_runWith _)
  | idquery =>
    exact answers_bind (within_runWith _) fun _ => answers_bind (within_closingBus within_autoselect) fun _ =>
      answers_bind within_get fun s => answers_bind (within_quiet _) fun _ => answers_done fun _ => ⟨s.id, rfl⟩
  | dump => exact answers_dumpStart
  | outtest => exact answers_finish (within_runWith _)
  | inecho => exact answers_bind (within_runWith _) fun _ => answers_echoTurn
  | iotest =>
    exact answers_bind (within_runWith _) fun _ => answers_bind (within_runOps _) fun _ => answers_more _
  | oetest => exact answers_bind (within_runWith _) fun _ => answers_oeTurn
  | addrtest => exact answers_finish within_addressTest

/-- The payloads a running command's last turn may answer. -/
def PayloadOfJob (c : Config) : Job → Payload → Prop
  | .dump, p => dumpCount c p
  | .inEcho, _ => False
  | .oeTest, _ => False
  | .ioTest _ _, p => p = .empty

theorem answers_jobTurn (j : Job) : Answers (fun c => PayloadOfJob c j) (jobTurn j) := by
  cases j with
  | dump => exact answers_dumpTurn
  | inEcho => exact answers_echoTurn
  | oeTest => exact answers_oeTurn
  | ioTest l found => exact answers_ioTurn l found

/-! ### One response -/

/-- How a stretch of pseudocode that starts unfaulted is settled: killed, still running, answered or faulted, with one
response in the last two cases and none in the first two (10_state.md R37). -/
theorem settle_one_response {P : Config → Payload → Prop} {x : Act Progress} {s : State} (hx : Does x s)
    (ha : Answers P x) (hf : s.fault = false) :
    ((settle (x s)).phase = .stopped ∧ (settle (x s)).responses = s.responses ∧ s.killIn ≠ none)
      ∨ (∃ j, (settle (x s)).phase = .running j ∧ (settle (x s)).responses = s.responses ∧ (settle (x s)).fault = false)
      ∨ (∃ p, Answered s (settle (x s)) (.ok p) ∧ P s.cfg p ∧ (settle (x s)).fault = false)
      ∨ ∃ c info, Answered s (settle (x s)) (.fault c info) ∧ Faulted (settle (x s)) c info := by
  have frame := hx.changes.frame
  have unfaulted := frame.fault.trans hf
  rcases settle_did (x s) with ⟨hk, hs⟩ | ⟨p, hp, hs⟩ | ⟨j, -, hs⟩ | ⟨c, i, hs⟩ <;> rw [hs]
  · have due : (reached (x s)).killIn = some 0 := hk.elim (hx.killed _) id
    exact .inl ⟨rfl, frame.responses, fun hn => by simp [hx.changes.killIn_none hn] at due⟩
  · exact .inr (.inr (.inl ⟨p, answered_respond frame.responses, ha s p _ hp, unfaulted⟩))
  · exact .inr (.inl ⟨j, rfl, frame.responses, unfaulted⟩)
  · exact .inr (.inr (.inr ⟨c, i, answered_takeFault frame.responses, rfl, rfl, rfl⟩))

/-- Settles O13: a command and a turn are settled pseudocode, whose payload is that of its kind. -/
theorem oneResponsePerCommand : Obligations.OneResponsePerCommand := by
  refine ⟨fun i s t hs h => ?_, fun j s hf => ?_⟩
  · rw [(accepting_of_exec h).2]
    exact settle_one_response (does_bodyOf i s) (answers_bodyOf i) hs.2
  · rcases settle_one_response (does_jobTurn j s) (answers_jobTurn j) hf with h | h | ⟨p, h, hp, hu⟩ | h
    · exact .inl h
    · exact .inr (.inl h)
    · refine .inr (.inr (.inl ⟨p, h, hu, ?_⟩))
      cases j <;> exact hp
    · exact .inr (.inr (.inr h))

end Sys2Proof.Machine
end

section
/-! The encoder and the decoder, and both against the opcode table (30_encoding.md R91 to R99). -/

namespace Sys2Proof

/-! ### What R95 says of a command -/

/-- Field `op` of a command (30_encoding.md R95). -/
def Instr.opcode : Instr → BitVec 8
  | .cfgdir _ _ => 0x10
  | .pinwr _ _ => 0x11
  | .pinrd _ => 0x12
  | .setaddr _ => 0x20
  | .busdir _ => 0x30
  | .buswr _ => 0x31
  | .busrd => 0x32
  | .idlesetup => 0x40
  | .rdcyc _ => 0x41
  | .wrcyc _ _ => 0x42
  | .allin => 0x43
  | .idquery => 0x50
  | .dump => 0x51
  | .outtest => 0x60
  | .inecho => 0x61
  | .iotest => 0x62
  | .oetest => 0x63
  | .addrtest => 0x64

/-- The format of a command (30_encoding.md R91). -/
def Instr.format : Instr → Format
  | .cfgdir _ _ | .pinwr _ _ => .rl
  | .pinrd _ => .r
  | .setaddr _ | .rdcyc _ => .a
  | .busdir _ => .l
  | .buswr _ => .d
  | .wrcyc _ _ => .ad
  | _ => .n

/-- Formats R and RL carry a role index, which R99 step (3) checks. -/
def Format.hasRole : Format → Bool
  | .r | .rl => true
  | _ => false

/-- The same command with its operands taken from a word (30_encoding.md R92 to R94). -/
def Instr.withOperands (w : CmdWord) : Instr → Instr
  | .cfgdir _ _ => .cfgdir w.role w.direction
  | .pinwr _ _ => .pinwr w.role w.level
  | .pinrd _ => .pinrd w.role
  | .setaddr _ => .setaddr w.addr
  | .busdir _ => .busdir w.direction
  | .buswr _ => .buswr w.data
  | .rdcyc _ => .rdcyc w.addr
  | .wrcyc _ _ => .wrcyc w.addr w.data
  | i => i

/-- The row of the opcode table that a command's opcode, format and mnemonic make (30_encoding.md R95). -/
def Instr.row (i : Instr) : Row where
  mnemonic := i.mnemonic
  pattern := assemble i.opcode 0 0
  mask := assemble 0xFF i.format.addrZeros i.format.dataZeros
  role := i.format.hasRole

@[simp] theorem Instr.withOperands_mnemonic (w : CmdWord) (i : Instr) : (i.withOperands w).mnemonic = i.mnemonic := by
  cases i <;> rfl

@[simp] theorem Instr.withOperands_opcode (w : CmdWord) (i : Instr) : (i.withOperands w).opcode = i.opcode := by
  cases i <;> rfl

/-- Once its operands come from a word, the role index is all that can make a command ill-formed. -/
theorem Instr.withOperands_wellFormed (w : CmdWord) (i : Instr) :
    (i.withOperands w).wellFormed = true ↔ (i.format.hasRole = true → RoleIndex.legal w.role = true) := by
  cases i <;> simp [Instr.withOperands, Instr.wellFormed, Instr.format, Format.hasRole]

/-! ### The decoder -/

/-- The opcode alone picks the format and the command that a word is decoded by (30_encoding.md R99). -/
theorem decode_of_op {w : CmdWord} {i : Instr} (h : w.op = i.opcode) :
    decode w = i.format.decode w (i.withOperands w) := by
  rw [decode, h]
  cases i <;> rfl

/-- A word that decodes has the opcode of the command, whose operands are the word's. -/
theorem op_of_decode {w : CmdWord} {i : Instr} (h : decode w = .ok i) : w.op = i.opcode ∧ i.withOperands w = i := by
  unfold decode at h
  split at h
  case h_19 => cases h
  all_goals
    next hop =>
      obtain ⟨-, -, rfl⟩ := Format.decode_ok h
      exact ⟨BitVec.eq_of_toNat_eq hop, rfl⟩

/-- Steps (2) and (3) of 30_encoding.md R99. -/
theorem Format.decode_eq_ok_iff {f : Format} {w : CmdWord} {i : Instr} :
    f.decode w i = .ok i ↔ f.zeroBitsClear w = true ∧ i.wellFormed = true :=
  ⟨fun h => (Format.decode_ok h).imp_right And.left, fun ⟨hz, hw⟩ => by simp [Format.decode, hz, hw]⟩

/-- Decoding, the three checks of 30_encoding.md R99 in one equivalence. -/
theorem decode_eq_ok_iff {w : CmdWord} {i : Instr} :
    decode w = .ok i ↔
      w.op = i.opcode ∧ i.format.zeroBitsClear w = true ∧ i.wellFormed = true ∧ i.withOperands w = i := by
  constructor
  · intro h
    obtain ⟨hop, hi⟩ := op_of_decode h
    rw [decode_of_op hop, hi, Format.decode_eq_ok_iff] at h
    obtain ⟨hz, hw⟩ := h
    exact ⟨hop, hz, hw, hi⟩
  · rintro ⟨hop, hz, hw, hi⟩
    rw [decode_of_op hop, hi, Format.decode_eq_ok_iff]
    exact ⟨hz, hw⟩

/-! ### The encoder -/

@[simp] theorem encode_op (i : Instr) : (encode i).op = i.opcode := by
  cases i <;> exact assemble_op ..

@[simp] theorem assemble_role (op : BitVec 8) (r : RoleIndex) (d : Byte) : (assemble op (roleField r) d).role = r := by
  rw [CmdWord.role_eq, assemble_addr, roleField_extract]

@[simp] theorem assemble_level (op : BitVec 8) (a : Addr) (l : Level) : (assemble op a (levelField l)).level = l := by
  rw [CmdWord.level, CmdWord.getLsbD_zero, assemble_data]
  cases l <;> rfl

@[simp] theorem assemble_direction (op : BitVec 8) (a : Addr) (d : Direction) :
    (assemble op a (directionField d)).direction = d := by
  rw [CmdWord.direction, CmdWord.getLsbD_zero, assemble_data]
  cases d <;> rfl

@[simp] theorem levelField_high (l : Level) : (levelField l).extractLsb' 1 7 = 0 := by cases l <;> rfl

@[simp] theorem directionField_high (d : Direction) : (directionField d).extractLsb' 1 7 = 0 := by cases d <;> rfl

/-- The operands of a command are read back from its word. -/
theorem withOperands_encode (i : Instr) : i.withOperands (encode i) = i := by
  cases i <;> simp [Instr.withOperands, encode]

/-- The encoder leaves the format's must-be-zero bits clear (30_encoding.md R91). -/
theorem zeroBitsClear_encode (i : Instr) : i.format.zeroBitsClear (encode i) = true := by
  cases i <;> simp [Instr.format, Format.zeroBitsClear, encode]

/-- Settles O2: an encoding passes the checks of R99, and its operands are read back from it. -/
theorem decodeEncodeRoundTrip : Obligations.DecodeEncodeRoundTrip := fun i hw =>
  decode_eq_ok_iff.mpr ⟨encode_op i, zeroBitsClear_encode i, hw, withOperands_encode i⟩

theorem roleField_role {w : CmdWord} (h : w.addr.extractLsb' 6 18 = 0) : roleField w.role = w.addr := by
  rw [CmdWord.role_eq, roleField_of_high h]

theorem levelField_level {w : CmdWord} (h : w.data.extractLsb' 1 7 = 0) : levelField w.level = w.data := by
  rw [CmdWord.level, CmdWord.getLsbD_zero, levelField_of_high _ h]

theorem directionField_direction {w : CmdWord} (h : w.data.extractLsb' 1 7 = 0) :
    directionField w.direction = w.data := by
  rw [CmdWord.direction, CmdWord.getLsbD_zero, directionField_of_high _ h]

/-- Operands read from a word whose must-be-zero bits are clear are encoded as the word's own two fields. -/
theorem encode_withOperands {w : CmdWord} {i : Instr} (hz : i.format.zeroBitsClear w = true) :
    encode (i.withOperands w) = assemble i.opcode w.addr w.data := by
  cases i <;>
    simp_all [Instr.format, Format.zeroBitsClear, Instr.withOperands, encode, Instr.opcode, roleField_role,
      levelField_level, directionField_direction]

/-- Settles O3: the command of a decoded word has the word's opcode and operands, and the other bits are zero. -/
theorem decodedWordIsItsEncoding : Obligations.DecodedWordIsItsEncoding := by
  intro w i h
  obtain ⟨hop, hz, hw, hi⟩ := decode_eq_ok_iff.mp h
  refine ⟨hw, ?_⟩
  calc encode i
    _ = encode (i.withOperands w) := by rw [hi]
    _ = assemble i.opcode w.addr w.data := encode_withOperands hz
    _ = assemble w.op w.addr w.data := by rw [hop]
    _ = w := assemble_fields w

/-- Settles O1: the decoder computes on each of the ten words. -/
theorem sampleWordsDecode : Obligations.SampleWordsDecode := by
  unfold Obligations.SampleWordsDecode
  decide

/-! ### The opcode table -/

/-- One command of each mnemonic, in the order of the table. -/
def Instr.kinds : List Instr :=
  [.cfgdir 0 .input, .pinwr 0 false, .pinrd 0, .setaddr 0, .busdir .input, .buswr 0, .busrd, .idlesetup, .rdcyc 0,
    .wrcyc 0 0, .allin, .idquery, .dump, .outtest, .inecho, .iotest, .oetest, .addrtest]

/-- The table is the rows that the commands make (30_encoding.md R95). -/
theorem opcodeTable_eq : opcodeTable = Instr.kinds.map Instr.row := by decide

theorem Instr.row_mem (i : Instr) : i.row ∈ opcodeTable := by
  rw [opcodeTable_eq]
  cases i <;> simp [Instr.kinds, Instr.row, Instr.mnemonic, Instr.opcode, Instr.format]

theorem exists_row_eq {row : Row} (h : row ∈ opcodeTable) : ∃ i : Instr, i.row = row := by
  rw [opcodeTable_eq, List.mem_map] at h
  obtain ⟨i, -, hi⟩ := h
  exact ⟨i, hi⟩

/-- A word selects a command's row exactly when it decodes to that command with the word's operands (30_encoding.md R95,
R99). -/
theorem selects_row_iff {w : CmdWord} {i : Instr} : i.row.selects w = true ↔ decode w = .ok (i.withOperands w) := by
  rw [Row.selects_iff (row := i.row) w rfl rfl]
  constructor
  · rintro ⟨hop, hz, hr⟩
    rw [decode_of_op hop, Format.decode_eq_ok_iff]
    exact ⟨hz, (Instr.withOperands_wellFormed w i).mpr hr⟩
  · intro h
    have hop : w.op = i.opcode := (op_of_decode h).1.trans (i.withOperands_opcode w)
    rw [decode_of_op hop, Format.decode_eq_ok_iff] at h
    exact ⟨hop, h.1, (Instr.withOperands_wellFormed w i).mp h.2⟩

/-- A decoded word selects the row of its command. -/
theorem row_selects_of_decode {w : CmdWord} {i : Instr} (h : decode w = .ok i) : i.row.selects w = true := by
  rw [selects_row_iff, (op_of_decode h).2, h]

/-- A word that selects a row decodes to a command with the row's mnemonic. -/
theorem decode_of_selects {w : CmdWord} {row : Row} (hr : row ∈ opcodeTable) (hs : row.selects w = true) :
    ∃ i, decode w = .ok i ∧ i.mnemonic = row.mnemonic := by
  obtain ⟨i, rfl⟩ := exists_row_eq hr
  exact ⟨i.withOperands w, selects_row_iff.mp hs, i.withOperands_mnemonic w⟩

/-- No mnemonic stands twice in the table (30_encoding.md R95). -/
theorem opcodeTable_mnemonics_differ : opcodeTable.Pairwise fun a b => a.mnemonic ≠ b.mnemonic := by decide

/-- Settles O4: a row is selected exactly when its command is decoded, and the rows' mnemonics differ. -/
theorem decodingFollowsTheTable : Obligations.DecodingFollowsTheTable := by
  refine ⟨fun w i h => ⟨i.row, i.row_mem, rfl, row_selects_of_decode h⟩, fun w row => decode_of_selects, ?_⟩
  refine opcodeTable_mnemonics_differ.imp_of_mem fun {a b} ha hb hne w ⟨hsa, hsb⟩ => hne ?_
  obtain ⟨i, hi, hia⟩ := decode_of_selects ha hsa
  obtain ⟨j, hj, hjb⟩ := decode_of_selects hb hsb
  cases hi.symm.trans hj
  exact hia.symm.trans hjb

/-- A word that selects no row does not decode (30_encoding.md R96, R99). -/
theorem decode_error_of_selects_none {w : CmdWord} (h : ∀ row ∈ opcodeTable, row.selects w = false) :
    ∃ e, decode w = .error e := by
  cases hd : decode w with
  | error e => exact ⟨e, rfl⟩
  | ok i => exact absurd (row_selects_of_decode hd) (by simp [h i.row i.row_mem])

end Sys2Proof
end

section
/-! What an illegal word does (30_encoding.md R96). -/

namespace Sys2Proof.Machine

/-- An accepting block handed a word that does not decode, with no kill due, takes `F_ILLEGAL_CMD`. -/
theorem takeWord_illegal {s : State} {w : CmdWord} {e : DecodeError} (hs : s.Undisturbed) (hd : decode w = .error e) :
    takeWord w s = .next (s.takeFault .illegalCmd (w.extractLsb' 16 24)) := by
  obtain ⟨⟨hp, hf⟩, hk⟩ := hs
  simp [takeWord, hp, hf, hd, illegalWord, runCommand, raise, settle, hk]

/-- Settles O5: a word that selects no row does not decode, and the fault is taken before any event. -/
theorem illegalWordFaults : Obligations.IllegalWordFaults := by
  refine ⟨fun s w rest hs hh hsel => ?_, by decide⟩
  obtain ⟨e, hd⟩ := decode_error_of_selects_none hsel
  refine ⟨(s.handOver none rest).takeFault .illegalCmd (w.extractLsb' 16 24), ?_, faultedAtOnce_takeFault ..⟩
  rw [step_notRunning fun j => by simp [hs.1], hh]
  exact takeWord_illegal (s := s.handOver none rest) ⟨hs, rfl⟩ hd

end Sys2Proof.Machine
end

section
/-! The GPIO commands: what the three primitives do to the state, and where they fault (40_gpio.md R121 to R129). -/

namespace Sys2Proof.Machine

/-! ### The commands' pseudocode for the index of a role -/

@[simp] theorem withRole_roleIndex {α : Type} (r : Role) (f : Role → Act α) : withRole (roleIndex r) f = f r := by
  simp [withRole]

theorem bodyOf_cfgdir (r : Role) (d : Direction) : bodyOf (.cfgdir (roleIndex r) d) = finish (runOp (.setDir r d)) := by
  simp [bodyOf, runOp]

theorem bodyOf_pinwr (r : Role) (l : Level) : bodyOf (.pinwr (roleIndex r) l) = finish (runOp (.drive r l)) := by
  simp [bodyOf, runOp]

theorem bodyOf_pinrd (r : Role) :
    bodyOf (.pinrd (roleIndex r)) = (sample r >>= fun l => pure (.done (.level l))) := by
  simp [bodyOf, pinRead]

/-! ### Commands that end -/

/-- A command that is one step, ready when it starts. -/
theorem exec_runOp {s : State} {i : Instr} {op : PinOp} (hb : bodyOf i = finish (runOp op)) (hs : s.Undisturbed)
    (h : op.Ready s.cfg s.pins) : exec i s = .next ((s.ran [op]).respond (.ok .empty)) :=
  exec_finish hb hs (runOp_ready hs.2 h) hs.2

/-- Steps that enter no state of the sequencer leave the registers alone. -/
theorem keepsRegisters_ran (s : State) {ops : List PinOp} (h : ∀ op ∈ ops, ∀ f, op ≠ .enter f) :
    KeepsRegisters s (s.ran ops) :=
  ⟨rfl, rfl, rfl, fsmAfter_of_no_enter h s.fsm, rfl, rfl, rfl⟩

theorem keepsSink_ran (s : State) (ops : List PinOp) : KeepsSink s (s.ran ops) := ⟨rfl, rfl⟩

theorem KeepsRegisters.respond {s t : State} (h : KeepsRegisters s t) (r : Reply) : KeepsRegisters s (t.respond r) := h

theorem dir_ran_setDir (s : State) (r : Role) (d : Direction) : (s.ran [.setDir r d]).dir r = some d :=
  (State.dir_afterSetDir s r r d).trans (if_pos rfl)

/-- A fresh output's level is unknown (40_gpio.md R125). -/
theorem out_ran_setDir (s : State) (r : Role) (d : Direction) :
    (s.ran [.setDir r d]).out r = if d = .output ∧ s.dir r ≠ some .output then none else s.out r :=
  (State.out_afterSetDir s r r d).trans (by simp)

theorem dir_ran_drive (s : State) (r : Role) (l : Level) : (s.ran [.drive r l]).dir r = s.dir r :=
  State.dir_afterDrive s r r l false

theorem out_ran_drive (s : State) (r : Role) (l : Level) : (s.ran [.drive r l]).out r = some l :=
  (State.out_afterDrive s r r l false).trans (if_pos rfl)

/-- Settles O15: the command is one `SetDir`, which a mapped role makes ready. -/
theorem cfgdirSetsADirection : Obligations.CfgdirSetsADirection := by
  intro s r d hs hm
  exact ⟨_, exec_runOp (bodyOf_cfgdir r d) hs hm, answered_respond rfl, rfl, dir_ran_setDir s r d, out_ran_setDir s r d,
    keeps_ran (by simp [PinOp.role]), (keepsRegisters_ran s (by simp)).respond _, (keepsSink_ran s _).respond _⟩

/-- Settles O16: the command is one `Drive`, which a mapped output makes ready. -/
theorem pinwrDrivesALevel : Obligations.PinwrDrivesALevel := by
  intro s r l hs hm hd
  exact ⟨_, exec_runOp (bodyOf_pinwr r l) hs ⟨hm, hd⟩, answered_respond rfl, rfl, (dir_ran_drive s r l).trans hd,
    out_ran_drive s r l, keeps_ran (by simp [PinOp.role]), (keepsRegisters_ran s (by simp)).respond _,
    (keepsSink_ran s _).respond _⟩

/-- The state after a sample of a line (00_scope.md R11, 20_memory.md R70). -/
def State.sampled (s : State) (r : Role) : State :=
  { s with
    env := (s.env.pinIn s.pins r).2
    trace := s.trace ++ [.smp r (s.env.pinIn s.pins r).1] }

theorem sample_ready {s : State} {r : Role} (hk : s.killIn = none) (hm : mapped s.cfg r = true)
    (hd : s.dir r = some .input) : sample r s = .ok (s.env.pinIn s.pins r).1 (s.sampled r) := by
  rw [sample_ok (by simp [hk]) hm hd]
  simp [State.sampled, State.logged, hk]

/-- A sample changes no latch, and of the environment nothing that `Keeps` names. -/
theorem keeps_sampled (s : State) (r : Role) : Keeps s (s.sampled r) [] := by
  have e := s.env.pinIn_same s.pins r
  exact ⟨rfl, rfl, e.wiring, e.weIdleHigh, fun a => congrArg (Memory.lookup · a) e.flash, e.flashId,
    fun _ _ => ⟨rfl, rfl⟩⟩

theorem exec_pinrd {s : State} {r : Role} (hs : s.Undisturbed) (hm : mapped s.cfg r = true)
    (hd : s.dir r = some .input) :
    exec (.pinrd (roleIndex r)) s = .next ((s.sampled r).respond (.ok (.level (s.env.pinIn s.pins r).1))) := by
  refine exec_done hs ?_ hs.2
  rw [bodyOf_pinrd, act_bind_ok (sample_ready hs.2 hm hd), act_pure]

/-- Settles O17: the command is one `Sample`, which a mapped input makes ready. -/
theorem pinrdSamplesALevel : Obligations.PinrdSamplesALevel := by
  intro s r hs hm hd
  exact ⟨_, exec_pinrd hs hm hd, answered_respond rfl, rfl, (keeps_sampled s r).respond _,
    ⟨rfl, rfl, rfl, rfl, rfl, rfl, rfl⟩, rfl, rfl⟩

/-! ### Commands that fault -/

/-- A drive of a role that is not mapped (40_gpio.md R121). -/
theorem drive_unmapped {r : Role} {l : Level} {b : Bool} {s : State} (hm : mapped s.cfg r = false) :
    drive r l b s = .error (.fault .role (indexInfo (roleIndex r))) s := by
  simp [drive, hm]

/-- A sample of a role that is not mapped (40_gpio.md R121). -/
theorem sample_unmapped {r : Role} {s : State} (hm : mapped s.cfg r = false) :
    sample r s = .error (.fault .role (indexInfo (roleIndex r))) s := by
  simp [sample, hm]

/-- A sample of a mapped line that is no input (40_gpio.md R123). -/
theorem sample_missing {r : Role} {s : State} (hm : mapped s.cfg r = true) (hd : s.dir r ≠ some .input) :
    sample r s = .error (.fault .dirRead (indexInfo (roleIndex r))) s := by
  simp [sample, hm, hd]

/-- A command whose pseudocode begins with an action that faults where it starts has faulted at once (60_exceptions.md
R273). -/
theorem exec_faultsAtOnce {α : Type} {s : State} {i : Instr} {c : Cause} {info : BitVec 24} {x : Act α}
    {f : α → Act Progress} (hb : bodyOf i = x >>= f) (hs : s.Undisturbed) (h : x s = .error (.fault c info) s) :
    ∃ t, exec i s = .next t ∧ FaultedAtOnce s t c info :=
  ⟨_, exec_fault hs (by rw [hb, act_bind_error h]) hs.2, faultedAtOnce_takeFault s c info⟩

/-- Settles O18: each primitive asks first whether its role is mapped. -/
theorem unmappedRoleFaults : Obligations.UnmappedRoleFaults := by
  intro s r hs hm
  exact ⟨fun d => exec_faultsAtOnce (bodyOf_cfgdir r d) hs (setDir_unmapped hm),
    fun l => exec_faultsAtOnce (bodyOf_pinwr r l) hs (drive_unmapped hm),
    exec_faultsAtOnce (bodyOf_pinrd r) hs (sample_unmapped hm)⟩

/-- Settles O19: a drive asks for an output and a sample for an input, before the event. -/
theorem wrongDirectionFaults : Obligations.WrongDirectionFaults := by
  intro s r hs hm
  exact ⟨fun hd l => exec_faultsAtOnce (bodyOf_pinwr r l) hs (drive_missing hm hd),
    fun hd => exec_faultsAtOnce (bodyOf_pinrd r) hs (sample_missing hm hd)⟩

end Sys2Proof.Machine
end

section
/-! `SETADDR`: the state it reaches, the address it refuses, and where it stops (41_address_shifter.md R140 to R147,
R150). -/

namespace Sys2Proof.Machine

/-! ### Commands that end -/

/-- `SETADDR` with the mode's lines ready: its steps, then the answer. -/
theorem exec_setaddr {s : State} {a : Addr} (hs : s.Undisturbed) (hv : validConfig s.cfg = true)
    (ho : s.OutputsReady (modeLines s.cfg)) (ha : a.toNat < 2 ^ s.cfg.addrBits.toNat) :
    exec (.setaddr a) s = .next ((s.ran (setaddrOps s.cfg a)).respond (.ok .empty)) :=
  exec_finish (x := setAddress a) rfl hs (setAddress_ready hs.2 (outOfRange_false ha) (valid_mode hv) ho) hs.2

/-- `SETADDR` leaves the address on its lines. -/
theorem addressLeft_setaddr (s : State) (a : Addr) (hn : 1 ≤ addrBits s.cfg) :
    AddressLeft (s.ran (setaddrOps s.cfg a)) a :=
  addressLeft_of_last (t := s.ran (setaddrOps s.cfg a))
    (fun r l hl => by
      rw [State.ran_cfg] at hl
      rw [State.ran_out s (setaddrOps_keepsDirections s.cfg a), hl]
      rfl)
    hn

/-- What `SETADDR` does in every mode: its events, the address on its lines, and its frame. -/
theorem setaddr_spec {s : State} {a : Addr} (hs : s.Undisturbed) (hv : validConfig s.cfg = true)
    (ho : s.OutputsReady (modeLines s.cfg)) (ha : a.toNat < 2 ^ s.cfg.addrBits.toNat) :
    ∃ t, exec (.setaddr a) s = .next t ∧ Answered s t (.ok .empty) ∧ Emitted s t (addressEvents s.cfg a)
      ∧ AddressLeft t a ∧ Keeps s t (modeLines s.cfg) ∧ KeepsDirections s t ∧ KeepsRegisters s t ∧ KeepsSink s t :=
  ⟨_, exec_setaddr hs hv ho ha, answered_respond rfl,
    congrArg (s.trace ++ ·) (eventsOf_setaddr s.cfg a),
    (addressLeft_setaddr s a (valid_addrBits hv).1).respond _,
    keeps_ran fun _ hop _ hr => setaddrOps_role hop hr,
    s.ran_dir (setaddrOps_keepsDirections s.cfg a),
    (keepsRegisters_ran s (setaddrOps_no_enter s.cfg a)).respond _, (keepsSink_ran s _).respond _⟩

theorem modeLines_twoWire {c : Config} (hm : c.mode = .s2w) : modeLines c = [.asd, .asc] := by simp [modeLines, hm]

theorem modeLines_threeWire {c : Config} (hm : c.mode = .s3w) : modeLines c = [.asd, .asc, .ass] := by
  simp [modeLines, hm]

theorem addressEvents_twoWire {c : Config} (hm : c.mode = .s2w) (a : Addr) : addressEvents c a = twoWireEvents c a := by
  simp [addressEvents, hm]

theorem addressEvents_threeWire {c : Config} (hm : c.mode = .s3w) (a : Addr) :
    addressEvents c a = threeWireEvents c a := by simp [addressEvents, hm]

theorem addressEvents_direct {c : Config} (hm : c.mode = .direct) (a : Addr) : addressEvents c a = directEvents c a := by
  simp [addressEvents, hm]

/-- In mode `DIRECT` the lines are ready when they are outputs: a valid configuration maps them. -/
theorem outputsReady_direct {s : State} (hv : validConfig s.cfg = true) (hm : s.cfg.mode = .direct)
    (hd : ∀ i : Fin 24, i.val < s.cfg.addrBits.toNat → s.dir (.dal i) = some .output) :
    s.OutputsReady (modeLines s.cfg) := by
  intro r hr
  refine ⟨valid_lines hv r hr, ?_⟩
  simp only [modeLines, hm] at hr
  obtain ⟨i, rfl, hi⟩ := mem_usedDirectLines.mp hr
  exact hd i hi

/-- Settles O20: the steps of mode `S2W` are ready, set no direction and act on the two lines only. -/
theorem setaddrTwoWire_spec : Obligations.SetaddrTwoWire := by
  intro s a hs hv hm ho ha
  rw [← modeLines_twoWire hm] at ho ⊢
  rw [← addressEvents_twoWire hm]
  exact setaddr_spec hs hv ho ha

/-- Settles O21: the same of mode `S3W` and its three lines. -/
theorem setaddrThreeWire_spec : Obligations.SetaddrThreeWire := by
  intro s a hs hv hm ho ha
  rw [← modeLines_threeWire hm] at ho ⊢
  rw [← addressEvents_threeWire hm]
  exact setaddr_spec hs hv ho ha

/-- Settles O22: the same of mode `DIRECT` and its `N` lines. -/
theorem setaddrDirect_spec : Obligations.SetaddrDirect := by
  intro s a hs hv hm hd ha
  rw [← addressEvents_direct hm]
  exact setaddr_spec hs hv (outputsReady_direct hv hm hd) ha

/-! ### Commands that fault -/

/-- A command whose pseudocode faults in the state it found has faulted at once (60_exceptions.md R273). -/
theorem exec_faultedAtOnce {s : State} {i : Instr} {c : Cause} {info : BitVec 24} (hs : s.Undisturbed)
    (h : bodyOf i s = .error (.fault c info) s) : ∃ t, exec i s = .next t ∧ FaultedAtOnce s t c info :=
  ⟨_, exec_fault hs h hs.2, faultedAtOnce_takeFault s c info⟩

/-- Settles O23: the three commands ask for the range first; 24 bits name every address. -/
theorem addressOutOfRangeFaults : Obligations.AddressOutOfRangeFaults := by
  intro s a hs
  refine ⟨fun ha => ?_, fun hn => hn ▸ a.isLt⟩
  have hr : checkRange a s = .error (.fault .addrRange a) s := checkRange_fault (decide_eq_true ha)
  exact ⟨exec_faultedAtOnce hs (act_bind_error (act_bind_error hr)),
    exec_faultedAtOnce hs (act_bind_error (act_bind_error hr)),
    fun v => exec_faultedAtOnce hs (act_bind_error (act_bind_error hr))⟩

/-- The index a fault carries is that of 30_encoding.md R94. -/
theorem indexInfo_roleIndex (r : Role) : indexInfo (roleIndex r) = match r with
    | .dl i => BitVec.ofNat 24 i.val
    | .oe => 8
    | .we => 9
    | .asd => 10
    | .asc => 11
    | .ass => 12
    | .dal i => BitVec.ofNat 24 (32 + i.val) := by
  cases r with
  | dl i => revert i; decide
  | dal i => revert i; decide
  | oe => rfl
  | we => rfl
  | asd => rfl
  | asc => rfl
  | ass => rfl

/-- `SETADDR` faults at the first line it drives that is no output, and what it emitted stands. -/
theorem exec_setaddr_firstMissing {s : State} {a : Addr} {r : Role} {before : List Event} (hs : s.Undisturbed)
    (hv : validConfig s.cfg = true) (ha : a.toNat < 2 ^ s.cfg.addrBits.toNat) (h : FirstMissing s a r before) :
    ∃ t, exec (.setaddr a) s = .next t ∧ FaultedAfter s t .dirWrite (indexInfo (roleIndex r)) before
      ∧ t.fsm = s.fsm := by
  obtain ⟨pre, rfl, -, hf, hx⟩ := setAddress_firstMissing hv ha h rfl hs.2 fun _ _ => rfl
  exact ⟨_, exec_fault hs (act_bind_error hx) hs.2, faultedAfter_ran .., hf⟩

/-- With nothing emitted, it has faulted at once. -/
theorem exec_setaddr_missingAtOnce {s : State} {a : Addr} {r : Role} (hs : s.Undisturbed)
    (hv : validConfig s.cfg = true) (ha : a.toNat < 2 ^ s.cfg.addrBits.toNat) (h : FirstMissing s a r []) :
    ∃ t, exec (.setaddr a) s = .next t ∧ FaultedAtOnce s t .dirWrite (indexInfo (roleIndex r)) := by
  obtain ⟨pre, -, hpre, -, hx⟩ := setAddress_firstMissing hv ha h rfl hs.2 fun _ _ => rfl
  rw [hpre rfl, State.ran_nil] at hx
  exact exec_faultedAtOnce hs (act_bind_error hx)

/-- Both shifters drive the clock first (41_address_shifter.md R142, R145). -/
theorem firstMissing_clock {s : State} (a : Addr) (hv : validConfig s.cfg = true) (hm : s.cfg.mode ≠ .direct)
    (hc : s.dir .asc ≠ some .output) : FirstMissing s a .asc [] := by
  refine ⟨hc, ?_⟩
  split
  · exact .inl ⟨rfl, rfl⟩
  · exact .inl ⟨rfl, rfl⟩
  · exact absurd ‹_› hm
  · exact valid_mode hv ‹_›

/-- Then the data line. -/
theorem firstMissing_data {s : State} (a : Addr) (hv : validConfig s.cfg = true) (hm : s.cfg.mode ≠ .direct)
    (hc : s.dir .asc = some .output) (hd : s.dir .asd ≠ some .output) : FirstMissing s a .asd [.drv .asc false] := by
  refine ⟨hd, ?_⟩
  split
  · exact .inr ⟨rfl, hc, rfl⟩
  · exact .inr (.inl ⟨rfl, hc, rfl⟩)
  · exact absurd ‹_› hm
  · exact valid_mode hv ‹_›

/-- Settles O24: the steps before the first missing line are ready, and its own drive faults. -/
theorem setaddrNeedsOutputs : Obligations.SetaddrNeedsOutputs :=
  ⟨indexInfo_roleIndex, fun _ a hs hv ha =>
    ⟨fun hm hc => exec_setaddr_missingAtOnce hs hv ha (firstMissing_clock a hv hm hc),
      fun hm hc hd => exec_setaddr_firstMissing hs hv ha (firstMissing_data a hv hm hc hd),
      fun _ _ h => exec_setaddr_firstMissing hs hv ha h⟩⟩

end Sys2Proof.Machine
end

section
/-! The counts of `SETADDR` in mode `S2W` (41_address_shifter.md R149): of one pulse, of all pulses, of the whole. -/

namespace Sys2Proof.Machine

/-! ### Counts of a trace, part by part -/

theorem drivesOf_append (r : Role) (es fs : List Event) : drivesOf r (es ++ fs) = drivesOf r es ++ drivesOf r fs :=
  List.filter_append ..

theorem delaysOf_append (es fs : List Event) : delaysOf (es ++ fs) = delaysOf es ++ delaysOf fs :=
  List.filterMap_append ..

/-- The least duration of a trace is the sum of its delays (70_reset_and_hazards.md R310). -/
theorem minimumTime_eq_sum (es : List Event) : minimumTime es = (delaysOf es).sum := by
  induction es with
  | nil => rfl
  | cons e es ih =>
    rw [← List.singleton_append, delaysOf_append, List.sum_append, ← ih]
    cases e <;> simp [minimumTime, delaysOf]

@[simp] theorem serialBits_length (n : Nat) (a : Addr) : (serialBits n a).length = n := by simp [serialBits_eq]

/-! ### All the pulses -/

section
variable (c : Config) (bs : List Level)

theorem length_pulses : (bs.flatMap (pulseEvents c)).length = 5 * bs.length := by
  induction bs with
  | nil => rfl
  | cons b bs ih =>
    have hb : (pulseEvents c b).length = 5 := rfl
    rw [List.flatMap_cons, List.length_append, ih, hb, List.length_cons]
    omega

theorem drivesOf_asc_pulses : (drivesOf .asc (bs.flatMap (pulseEvents c))).length = 2 * bs.length := by
  induction bs with
  | nil => rfl
  | cons b bs ih =>
    have hb : (drivesOf .asc (pulseEvents c b)).length = 2 := rfl
    rw [List.flatMap_cons, drivesOf_append, List.length_append, ih, hb, List.length_cons]
    omega

theorem drivesOf_asd_pulses : (drivesOf .asd (bs.flatMap (pulseEvents c))).length = bs.length := by
  induction bs with
  | nil => rfl
  | cons b bs ih =>
    have hb : (drivesOf .asd (pulseEvents c b)).length = 1 := rfl
    rw [List.flatMap_cons, drivesOf_append, List.length_append, ih, hb, List.length_cons]
    omega

theorem delaysOf_pulses : delaysOf (bs.flatMap (pulseEvents c)) = List.replicate (2 * bs.length) c.tHalf.toNat := by
  induction bs with
  | nil => rfl
  | cons b bs ih => rw [List.flatMap_cons, delaysOf_append, ih]; rfl

/-- Each pulse has one rising clock edge, wherever the clock stood before it. -/
theorem risingEdges_pulses (before : Option Level) (es : List Event) :
    ∃ after, risingEdges .asc before (bs.flatMap (pulseEvents c) ++ es) = bs.length + risingEdges .asc after es := by
  induction bs generalizing before with
  | nil => exact ⟨before, (Nat.zero_add _).symm⟩
  | cons b bs ih =>
    obtain ⟨after, h⟩ := ih (some true)
    refine ⟨after, ?_⟩
    rw [List.flatMap_cons, List.append_assoc, List.length_cons, Nat.add_right_comm, ← h, Nat.add_comm]
    simp [pulseEvents, risingEdges]

end

/-! ### The whole of `SETADDR_S2W` -/

section
variable (c : Config) (a : Addr)

theorem twoWireEvents_asc : (drivesOf .asc (twoWireEvents c a)).length = 2 * c.addrBits.toNat + 3 := by
  have hx : (drivesOf .asc (extraPulseEvents c ++ [.drv .asc false])).length = 3 := by
    unfold extraPulseEvents; cases c.xpData <;> rfl
  rw [twoWireEvents, List.append_assoc, drivesOf_append, List.length_append, drivesOf_asc_pulses, serialBits_length, hx]

theorem twoWireEvents_asd :
    (drivesOf .asd (twoWireEvents c a)).length = c.addrBits.toNat + if c.xpData = .low then 1 else 0 := by
  have hx : (drivesOf .asd (extraPulseEvents c ++ [.drv .asc false])).length = if c.xpData = .low then 1 else 0 := by
    unfold extraPulseEvents; cases c.xpData <;> rfl
  rw [twoWireEvents, List.append_assoc, drivesOf_append, List.length_append, drivesOf_asd_pulses, serialBits_length, hx]

theorem twoWireEvents_delays :
    delaysOf (twoWireEvents c a) = List.replicate (2 * c.addrBits.toNat + 2) c.tHalf.toNat := by
  have hx : delaysOf (extraPulseEvents c ++ [.drv .asc false]) = List.replicate 2 c.tHalf.toNat := by
    unfold extraPulseEvents; cases c.xpData <;> rfl
  rw [twoWireEvents, List.append_assoc, delaysOf_append, delaysOf_pulses, serialBits_length, hx, List.replicate_add]

theorem twoWireEvents_length :
    (twoWireEvents c a).length = 5 * c.addrBits.toNat + if c.xpData = .low then 6 else 5 := by
  have hx : (extraPulseEvents c ++ [Event.drv .asc false]).length = if c.xpData = .low then 6 else 5 := by
    unfold extraPulseEvents; cases c.xpData <;> rfl
  rw [twoWireEvents, List.append_assoc, List.length_append, length_pulses, serialBits_length, hx]

theorem twoWireEvents_rising (before : Option Level) :
    risingEdges .asc before (twoWireEvents c a) = c.addrBits.toNat + 1 := by
  have hx (l : Option Level) : risingEdges .asc l (extraPulseEvents c ++ [Event.drv .asc false]) = 1 := by
    unfold extraPulseEvents; cases c.xpData <;> simp [pulseEvents, risingEdges]
  obtain ⟨after, h⟩ := risingEdges_pulses c (serialBits c.addrBits.toNat a) before
    (extraPulseEvents c ++ [.drv .asc false])
  rw [twoWireEvents, List.append_assoc, h, serialBits_length, hx]

theorem twoWireEvents_time :
    minimumTime (twoWireEvents c a) = 2 * (c.addrBits.toNat + 1) * c.tHalf.toNat := by
  rw [minimumTime_eq_sum, twoWireEvents_delays, List.sum_replicate_nat, Nat.mul_add]

theorem pulseEvents_time (b : Level) : minimumTime (pulseEvents c b) = 2 * c.tHalf.toNat := by
  rw [minimumTime_eq_sum, ← List.sum_replicate_nat]; rfl

end

/-- Settles O25: the command's events are those of R142 to R144, whose parts are counted above. -/
theorem twoWireCounts : Obligations.TwoWireCounts := by
  intro s t a es hs hv hm ho ha hx he
  obtain ⟨u, hu, -, hev, -⟩ := setaddrTwoWire_spec s a hs hv hm ho ha
  obtain rfl : t = u := by injection hx.symm.trans hu
  obtain rfl : es = twoWireEvents s.cfg a := List.append_cancel_left (he.symm.trans hev)
  refine ⟨twoWireEvents_asc .., twoWireEvents_asd .., twoWireEvents_delays .., twoWireEvents_length ..,
    fun _ => twoWireEvents_rising .., twoWireEvents_time .., pulseEvents_time _, fun hn ht hp => ?_⟩
  rw [twoWireEvents_length, twoWireEvents_time, hn, ht, hp]
  exact ⟨rfl, rfl⟩

end Sys2Proof.Machine
end

section
/-! The address path during a `SETADDR` (20_memory.md R71 to R74): what a pulse does to the chain's two stages, what is
in them at the end, and what the address lines carry (41_address_shifter.md R148). -/

namespace Sys2Proof.Machine

/-! ### One drive -/

/-- The chain's two stages are left alone. -/
def Env.SameChain (e f : Env) : Prop := f.sh = e.sh ∧ f.q = e.q

theorem Env.SamePath.sameChain {e f : Env} (h : e.SamePath f) : e.SameChain f := ⟨h.sh, h.q⟩

theorem Env.SameChain.trans {e f g : Env} (h : e.SameChain f) (k : f.SameChain g) : e.SameChain g :=
  ⟨k.1.trans h.1, k.2.trans h.2⟩

theorem Env.contractDrive_sameChain (p : Pins) (r : Role) (l : Level) (e : Env) :
    e.SameChain (e.contractDrive p r l) := by
  unfold Env.contractDrive; split <;> exact ⟨rfl, rfl⟩

theorem Env.enterShift_sameChain (b : Bool) (e : Env) : e.SameChain (e.enterShift b) := by
  cases b <;> exact ⟨rfl, rfl⟩

theorem Env.writeEnableDrive_sameChain (p : Pins) (l : Level) (e : Env) : e.SameChain (e.writeEnableDrive p l) := by
  simp only [Env.writeEnableDrive]
  split
  · split <;> exact ⟨rfl, rfl⟩
  · split <;> exact ⟨rfl, rfl⟩
  · exact ⟨rfl, rfl⟩
  · exact ⟨rfl, rfl⟩

theorem Env.lineDrive_sameChain (p : Pins) (r : Role) (l : Level) (e : Env) : e.SameChain (e.lineDrive p r l) := by
  unfold Env.lineDrive
  split
  · exact ⟨rfl, rfl⟩
  · split
    · exact Env.writeEnableDrive_sameChain ..
    · exact ⟨rfl, rfl⟩
  · exact ⟨rfl, rfl⟩

/-- In a wired environment a `Drive` does to the chain what `chainDrive` says, and nothing else does anything to it. -/
theorem Env.onDrive_chain {e : Env} (hw : e.wired = true) (c : Config) (p : Pins) (r : Role) (l : Level) (b : Bool) :
    (e.chainDrive c p r l).SameChain (e.onDrive c p r l b) := by
  rw [Env.onDrive, Env.pathDrive, if_pos hw]
  exact (((Env.contractDrive_sameChain ..).trans (Env.enterShift_sameChain ..)).trans
    (Env.lineDrive_sameChain ..)).trans (Env.react_samePath ..).sameChain

/-- At the end of a `SETADDR` the chain stands. -/
theorem Env.present_sameChain (p : Pins) (a : Option Addr) (e : Env) : e.SameChain (e.present p a) :=
  (Env.react_samePath p { e with xaddr := if e.wired then a else none }).sameChain

theorem Env.Same.wired {e f : Env} (h : e.Same f) : f.wired = e.wired := by unfold Env.wired; rw [h.wiring]

theorem PinOp.onEnv_wired {e : Env} (hw : e.wired = true) (c : Config) (p : Pins) (op : PinOp) :
    (op.onEnv c p e).wired = true := (op.onEnv_same c p e).wired.trans hw

/-- A line that falls, or stays low, moves nothing in the chain (20_memory.md R71, R72). -/
theorem Env.chainDrive_low {p : Pins} {r : Role} {l : Level} (hl : (pinAt p r).out = some l) (c : Config) (e : Env) :
    e.chainDrive c p r false = e := by
  cases r <;> cases l <;> simp [Env.chainDrive, hl]

/-- A rising clock edge (20_memory.md R71, R72). -/
theorem Env.chainDrive_clock {p : Pins} (h : (pinAt p .asc).out = some false) (c : Config) (e : Env) :
    e.chainDrive c p .asc true = e.shiftChain c p := by simp [Env.chainDrive, h]

/-- A rising strobe edge latches the shift stage (20_memory.md R72). -/
theorem Env.chainDrive_strobe {c : Config} {p : Pins} (hm : c.mode = .s3w) (h : (pinAt p .ass).out = some false)
    (e : Env) : e.chainDrive c p .ass true = { e with q := e.sh } := by simp [Env.chainDrive, h, hm]

theorem out_onPins_shift (p : Pins) (r : Role) (l : Level) : (pinAt ((PinOp.shift r l).onPins p) r).out = some l :=
  (pinAt_drivePins_out ..).trans (if_pos rfl)

/-- A drive to low of a line whose level is known leaves the chain alone. -/
theorem onEnv_low_sameChain {p : Pins} {e : Env} {r : Role} {l : Level} (hw : e.wired = true)
    (ho : (pinAt p r).out = some l) (c : Config) : e.SameChain ((PinOp.shift r false).onEnv c p e) := by
  have h := Env.onDrive_chain hw c p r false true
  rwa [Env.chainDrive_low ho] at h

theorem envAfter_cons (c : Config) (op : PinOp) (ops : List PinOp) (p : Pins) (e : Env) :
    envAfter c (op :: ops) p e = envAfter c ops (op.onPins p) (op.onEnv c p e) := rfl

theorem envAfter_delay (c : Config) (us : Nat) (ops : List PinOp) (p : Pins) (e : Env) :
    envAfter c (.delay us :: ops) p e = envAfter c ops p e := rfl

theorem envAfter_address (c : Config) (a : Option Addr) (p : Pins) (e : Env) :
    e.SameChain (envAfter c [.address a] p e) := Env.present_sameChain p a e

/-! ### Bits in the chain -/

/-- The chain is wired, its data line an output, and the bits `bs`, newest first, stand at the head of the shift stage,
as far as it reaches; once a bit is in, the clock's level is known. -/
structure InChain (c : Config) (p : Pins) (e : Env) (bs : List Level) : Prop where
  wired : e.wired = true
  data : (pinAt p .asd).dir = some .output
  clock : bs ≠ [] → (pinAt p .asc).out ≠ none
  stage : ∀ k b, k < chainLength c → bs[k]? = some b → e.sh[k]? = some (some b)

section
variable {c : Config} {p : Pins} {e : Env} {bs : List Level}

/-- A drive keeps the wiring and the directions; what it does to the shift stage is for `chainDrive` to say. -/
theorem InChain.shift {r : Role} {l : Level} {bs' : List Level} (h : InChain c p e bs)
    (hc : bs' ≠ [] → (pinAt (drivePins p r l) .asc).out ≠ none)
    (hs : ∀ k b, k < chainLength c → bs'[k]? = some b → (e.chainDrive c p r l).sh[k]? = some (some b)) :
    InChain c ((PinOp.shift r l).onPins p) ((PinOp.shift r l).onEnv c p e) bs' where
  wired := PinOp.onEnv_wired h.wired ..
  data := (pinAt_drivePins_dir ..).trans h.data
  clock := hc
  stage k b hk hb := by
    rw [PinOp.onEnv, (Env.onDrive_chain h.wired c p r l true).1]
    exact hs k b hk hb

/-- The clock goes low: a clock of unknown level loses what the stage held, but only before the first bit. -/
theorem InChain.low (h : InChain c p e bs) :
    InChain c ((PinOp.shift .asc false).onPins p) ((PinOp.shift .asc false).onEnv c p e) bs := by
  refine h.shift (fun _ => by simp [pinAt_drivePins_out]) fun k b hk hb => ?_
  cases ho : (pinAt p .asc).out with
  | some l => rw [Env.chainDrive_low ho]; exact h.stage k b hk hb
  | none =>
    obtain rfl : bs = [] := by by_contra hne; exact h.clock hne ho
    cases hb

/-- The data line moves nothing. -/
theorem InChain.bit (h : InChain c p e bs) (b : Level) :
    InChain c ((PinOp.shift .asd b).onPins p) ((PinOp.shift .asd b).onEnv c p e) bs :=
  h.shift (fun hne => by simpa [pinAt_drivePins_out] using h.clock hne) h.stage

/-- The clock rises: the level of the data line is the newest bit. -/
theorem InChain.high {b : Level} (h : InChain c p e bs) (hlow : (pinAt p .asc).out = some false)
    (hb : (pinAt p .asd).out = some b) :
    InChain c ((PinOp.shift .asc true).onPins p) ((PinOp.shift .asc true).onEnv c p e) (b :: bs) := by
  refine h.shift (fun _ => by simp [pinAt_drivePins_out]) fun k l hk hl => ?_
  have hp : presented p .asd = some b := by simp [presented, h.data, hb]
  rw [Env.chainDrive_clock hlow, Env.shiftChain, hp, List.getElem?_take_of_lt hk]
  cases k with
  | zero => exact congrArg (Option.map some) hl
  | succ k => exact h.stage k l (Nat.lt_of_succ_lt hk) hl

/-- One pulse puts its bit in (41_address_shifter.md R142, R145). -/
theorem InChain.pulse (h : InChain c p e bs) (b : Level) :
    InChain c (pinsAfter (shiftBit c b) p) (envAfter c (shiftBit c b) p e) (b :: bs) :=
  (h.low.bit b).high ((pinAt_drivePins_out ..).trans (out_onPins_shift p .asc false)) (out_onPins_shift _ .asd b)

/-- All the pulses put all their bits in, the last one newest. -/
theorem InChain.pulses (h : InChain c p e bs) (xs : List Level) :
    InChain c (pinsAfter (xs.flatMap (shiftBit c)) p) (envAfter c (xs.flatMap (shiftBit c)) p e) (xs.reverse ++ bs) := by
  induction xs generalizing p e bs with
  | nil => exact h
  | cons x xs ih =>
    rw [List.flatMap_cons, pinsAfter_append, envAfter_append, List.reverse_cons, List.append_assoc]
    exact ih (h.pulse x)

theorem InChain.first (hw : e.wired = true) (hd : (pinAt p .asd).dir = some .output) : InChain c p e [] :=
  ⟨hw, hd, fun h => absurd rfl h, fun _ _ _ h => by cases h⟩

/-! ### The output stage at the end -/

/-- The clock rises after the last bit: with two wires the output stage takes what the shift stage held, and the end of
`SETADDR_S2W` leaves it there (20_memory.md R71). -/
theorem InChain.twoWireEnd (h : InChain c p e bs) (hm : c.mode = .s2w) (hlow : (pinAt p .asc).out = some false)
    (a : Option Addr) :
    (envAfter c [.delay (tHalf c), .shift .asc true, .delay (tHalf c), .shift .asc false, .address a] p e).q = e.sh := by
  have hw := PinOp.onEnv_wired h.wired c p (.shift .asc true)
  have hrise : ((PinOp.shift .asc true).onEnv c p e).q = e.sh := by
    rw [PinOp.onEnv, (Env.onDrive_chain h.wired c p .asc true true).2, Env.chainDrive_clock hlow, Env.shiftChain]
    exact if_pos hm
  rw [envAfter_delay, envAfter_cons, envAfter_delay, envAfter_cons, (envAfter_address ..).2,
    (onEnv_low_sameChain hw (out_onPins_shift p .asc true) c).2, hrise]

/-- The extra pulse and the end of `SETADDR_S2W` bring the bits to the output stage. -/
theorem InChain.extra (h : InChain c p e bs) (hm : c.mode = .s2w) (a : Option Addr) {k : Nat} {b : Level}
    (hk : k < chainLength c) (hb : bs[k]? = some b) :
    (envAfter c (extraPulse c ++ [.shift .asc false] ++ [.address a]) p e).q[k]? = some (some b) := by
  have hlow := out_onPins_shift p .asc false
  cases hx : c.xpData with
  | hold =>
    simp only [extraPulse, hx]
    exact (congrArg (·[k]?) (h.low.twoWireEnd hm hlow a)).trans (h.low.stage k b hk hb)
  | low =>
    simp only [extraPulse, hx]
    exact (congrArg (·[k]?) ((h.low.bit false).twoWireEnd hm ((pinAt_drivePins_out ..).trans hlow) a)).trans
      ((h.low.bit false).stage k b hk hb)

/-- The strobe pulse and the end of `SETADDR_S3W` bring the bits to the output stage (20_memory.md R72). -/
theorem InChain.strobe (h : InChain c p e bs) (hm : c.mode = .s3w) (hs : (pinAt p .ass).out = some false)
    (a : Option Addr) {k : Nat} {b : Level} (hk : k < chainLength c) (hb : bs[k]? = some b) :
    (envAfter c (strobePulse c ++ [.address a]) p e).q[k]? = some (some b) := by
  have hs1 : (pinAt ((PinOp.shift .asc false).onPins p) .ass).out = some false := (pinAt_drivePins_out ..).trans hs
  have hw := PinOp.onEnv_wired h.low.wired c ((PinOp.shift .asc false).onPins p) (.shift .ass true)
  simp only [strobePulse, List.cons_append, List.nil_append]
  rw [envAfter_cons, envAfter_cons, envAfter_delay, envAfter_cons, envAfter_delay,
    (envAfter_address ..).2, (onEnv_low_sameChain hw (out_onPins_shift _ .ass true) c).2, PinOp.onEnv,
    (Env.onDrive_chain h.low.wired c _ .ass true true).2, Env.chainDrive_strobe hm hs1]
  exact h.low.stage k b hk hb

end

/-! ### Where each address bit stands -/

theorem setaddrOps_twoWire {c : Config} (hm : c.mode = .s2w) (a : Addr) : setaddrOps c a =
    (serialBits (addrBits c) a).flatMap (shiftBit c) ++ (extraPulse c ++ [.shift .asc false] ++ [.address (some a)]) := by
  simp only [setaddrOps, hm, setaddrTwoWire, serialBits_eq, List.flatMap_map, List.append_assoc]

theorem setaddrOps_threeWire {c : Config} (hm : c.mode = .s3w) (a : Addr) : setaddrOps c a =
    ((List.range (addrBytes c)).flatMap (byteBits a)).flatMap (shiftBit c)
      ++ (strobePulse c ++ [.address (some a)]) := by
  simp only [setaddrOps, hm, setaddrThreeWire, byteBits_eq, List.flatMap_assoc, List.flatMap_map, List.append_assoc]
  rfl

/-- Of `n` bits sent bit 0 first, the newest is bit `n - 1` (20_memory.md R71). -/
theorem serialBits_newest {n i : Nat} (hi : i < n) (a : Addr) :
    (serialBits n a).reverse[n - 1 - i]? = some (a.getLsbD i) := by
  rw [List.getElem?_reverse (by rw [serialBits_length]; omega), serialBits_length, serialBits_eq,
    show n - 1 - (n - 1 - i) = i by omega]
  simp [hi]

/-- Of `n` bytes sent byte 0 first and bit 7 of each first, the newest bit is bit 0 of byte `n - 1`
(20_memory.md R72). -/
theorem byteBits_newest {n i : Nat} (hi : i < 8 * n) (a : Addr) :
    ((List.range n).flatMap (byteBits a)).reverse[8 * (n - 1 - i / 8) + i % 8]? = some (a.getLsbD i) := by
  induction n with
  | zero => omega
  | succ n ih =>
    rw [List.range_succ, List.flatMap_append, List.reverse_append, List.flatMap_singleton]
    have hb (k : Fin 8) : (byteBits a n).reverse[k.val]? = some (a.getLsbD (8 * n + k.val)) := by
      rw [byteBits_eq]; fin_cases k <;> rfl
    have hl : (byteBits a n).reverse.length = 8 := rfl
    by_cases h : i < 8 * n
    · rw [List.getElem?_append_right (by rw [hl]; omega), hl, ← ih h]
      congr 1
      omega
    · rw [show 8 * (n + 1 - 1 - i / 8) + i % 8 = i % 8 by omega, List.getElem?_append_left (by rw [hl]; omega),
        hb ⟨i % 8, by omega⟩, show 8 * n + i % 8 = i by omega]

/-! ### What the address lines carry -/

section
variable {c : Config} {p : Pins} {e : Env} {a : Addr} {i : Fin 24}

theorem addressLine_twoWire (hm : c.mode = .s2w) (hw : e.wired = true) (hd : (pinAt p .asd).dir = some .output)
    (hi : i.val < addrBits c) :
    addressLine c (pinsAfter (setaddrOps c a) p) (envAfter c (setaddrOps c a) p e) i = some (a.getLsbD i.val) := by
  have hn : addrBits c - 1 - i.val < chainLength c := by simp only [chainLength, hm]; omega
  have h := ((InChain.first hw hd).pulses (serialBits (addrBits c) a)).extra hm (some a) hn
    (by rw [List.append_nil]; exact serialBits_newest hi a)
  simp only [addressLine, if_pos hi, hm]
  rw [setaddrOps_twoWire hm, envAfter_append, h]
  rfl

theorem addressLine_threeWire (hm : c.mode = .s3w) (hw : e.wired = true) (hd : (pinAt p .asd).dir = some .output)
    (hs : (pinAt p .ass).out = some false) (hi : i.val < addrBits c) :
    addressLine c (pinsAfter (setaddrOps c a) p) (envAfter c (setaddrOps c a) p e) i = some (a.getLsbD i.val) := by
  have h8 : i.val < 8 * addrBytes c := by unfold addrBytes; omega
  have hn : 8 * (addrBytes c - 1 - i.val / 8) + i.val % 8 < chainLength c := by simp only [chainLength, hm]; omega
  have hp : pinAt (pinsAfter (((List.range (addrBytes c)).flatMap (byteBits a)).flatMap (shiftBit c)) p) .ass
      = pinAt p .ass := by
    refine pinsAfter_other (fun op hop => ?_) p
    obtain ⟨b, -, hb⟩ := List.mem_flatMap.mp hop
    simp only [shiftBit, List.mem_cons, List.not_mem_nil, or_false] at hb
    rcases hb with rfl | rfl | rfl | rfl | rfl <;> simp [PinOp.role]
  have h := ((InChain.first hw hd).pulses ((List.range (addrBytes c)).flatMap (byteBits a))).strobe hm
    (by rw [hp]; exact hs) (some a) hn (by rw [List.append_nil]; exact byteBits_newest h8 a)
  simp only [addressLine, if_pos hi, hm]
  rw [setaddrOps_threeWire hm, envAfter_append, h]
  rfl

theorem addressLine_direct (hm : c.mode = .direct) (hd : (pinAt p (.dal i)).dir = some .output)
    (hi : i.val < addrBits c) :
    addressLine c (pinsAfter (setaddrOps c a) p) e i = some (a.getLsbD i.val) := by
  have hk := setaddrOps_keepsDirections c a
  simp only [addressLine, if_pos hi, hm, presented, pinsAfter_dir hk, pinsAfter_out hk, hd, if_true,
    lastLevel_direct hm a hi]
  rfl

end

/-- Settles O26: bit by bit in each mode, and `XADDR` by the contract's own step. -/
theorem addressLinesCarryTheAddress : Obligations.AddressLinesCarryTheAddress := by
  intro s a hs hv ho hw hass ha
  have hw : s.env.wired = true := by simpa [Env.wired] using hw
  refine ⟨_, exec_setaddr hs hv ho ha, (envAfter_setaddr_xaddr ..).trans (if_pos hw), fun i => ?_⟩
  change addressLine s.cfg (pinsAfter (setaddrOps s.cfg a) s.pins)
    (envAfter s.cfg (setaddrOps s.cfg a) s.pins s.env) i = _
  by_cases hi : i.val < s.cfg.addrBits.toNat
  · rw [if_pos hi]
    cases hm : s.cfg.mode with
    | s2w => exact addressLine_twoWire hm hw (ho .asd (by simp [modeLines, hm])).2 hi
    | s3w => exact addressLine_threeWire hm hw (ho .asd (by simp [modeLines, hm])).2 (hass hm) hi
    | direct =>
      exact addressLine_direct hm (ho (.dal i) (by simp only [modeLines, hm]; exact dal_mem_usedDirectLines.mpr hi)).2 hi
    | illegal => exact absurd hm (valid_mode hv)
  · rw [if_neg hi]
    exact if_neg hi

end Sys2Proof.Machine
end

section
/-! The data bus commands: the state each reaches, the line it refuses, and the round trip through the latching loopback
(42_data_bus.md R161 to R166). -/

namespace Sys2Proof.Machine

/-! ### The state after a bus read -/

/-- What a bus read leaves: the samples in the trace, the byte of their levels in `D`, and the rest of the block as it
was (42_data_bus.md R164). -/
structure AfterBusRead (s t : State) : Prop where
  responses : t.responses = s.responses
  killIn : t.killIn = s.killIn
  events : Emitted s t (busSampleEvents (Env.levels s.pins dataLines s.env))
  byte : t.d = composeByte (Env.levels s.pins dataLines s.env)
  keeps : Keeps s t []
  id : t.id = s.id
  cur : t.cur = s.cur
  fsm : t.fsm = s.fsm
  fault : KeepsFault s t
  sink : KeepsSink s t

/-- Eight samples change no latch, and of the environment nothing that `Keeps` names. -/
theorem keeps_sampledBus (s : State) : Keeps s s.sampledBus [] := by
  have henv : s.sampledBus.env = Env.afterLevels s.pins dataLines s.env := by rw [State.sampledBus]
  have e : s.env.Same s.sampledBus.env := by rw [henv]; exact Env.afterLevels_same ..
  exact ⟨s.sampledBus_cfg, by rw [State.sampledBus], e.wiring, e.weIdleHigh, fun a => by rw [e.flash], e.flashId,
    fun r _ => ⟨State.dir_congr s.sampledBus_pins r, State.out_congr s.sampledBus_pins r⟩⟩

theorem afterBusRead_sampledBus (s : State) : AfterBusRead s s.sampledBus where
  responses := by rw [State.sampledBus]
  killIn := by rw [State.sampledBus]
  events := by rw [Emitted, State.sampledBus]
  byte := by rw [State.sampledBus]
  keeps := keeps_sampledBus s
  id := by rw [State.sampledBus]
  cur := by rw [State.sampledBus]
  fsm := by rw [State.sampledBus]
  fault := ⟨by rw [State.sampledBus], by rw [State.sampledBus], by rw [State.sampledBus]⟩
  sink := ⟨by rw [State.sampledBus], by rw [State.sampledBus]⟩

/-! ### Commands that end -/

theorem exec_busdir {s : State} (hs : s.Undisturbed) (hm : ∀ i, mapped s.cfg (.dl i) = true) (d : Direction) :
    exec (.busdir d) s = .next ((s.ran (busdirOps d)).respond (.ok .empty)) :=
  exec_finish (x := runOps (busdirOps d)) rfl hs (runOps_ready hs.2 (busdirOps_ready d hm)) hs.2

theorem exec_buswr {s : State} (hs : s.Undisturbed) (hm : ∀ i, mapped s.cfg (.dl i) = true)
    (hd : ∀ i, s.dir (.dl i) = some .output) (v : Byte) :
    exec (.buswr v) s = .next ((s.ran (busDriveOps v)).respond (.ok .empty)) :=
  exec_finish (x := busWrite v) rfl hs (busWrite_ready v hs.2 hm hd) hs.2

theorem exec_busrd {s : State} (hs : s.Undisturbed) (hm : ∀ i, mapped s.cfg (.dl i) = true)
    (hd : ∀ i, s.dir (.dl i) = some .input) :
    ∃ t, AfterBusRead s t ∧ exec .busrd s =
      .next (t.respond (.ok (.byte (composeByte (Env.levels s.pins dataLines s.env))))) := by
  have h := afterBusRead_sampledBus s
  refine ⟨s.sampledBus, h, exec_done hs ?_ (h.killIn.trans hs.2)⟩
  rw [bodyOf, busReadCommand, act_bind_ok (busRead_ready hs.2 hm hd), act_pure]

/-! ### What they leave -/

theorem dir_ran_busdir (s : State) (d : Direction) (i : Fin 8) : (s.ran (busdirOps d)).dir (.dl i) = some d :=
  pinsAfter_busdir_dir d s.pins i

/-- `BusDir()` after `BUSDIR` is its operand (10_state.md R31). -/
theorem busDir_ran_busdir (s : State) (d : Direction) :
    busDir (s.ran (busdirOps d)).pins = match d with | .input => .input | .output => .output := by
  cases d with
  | input => exact busDir_input (dir_ran_busdir s .input)
  | output => exact busDir_output (dir_ran_busdir s .output)

theorem dir_ran_busDrive (s : State) (v : Byte) (r : Role) : (s.ran (busDriveOps v)).dir r = s.dir r :=
  s.ran_dir (busDriveOps_keepsDirections v) r

theorem out_ran_busDrive (s : State) (v : Byte) (i : Fin 8) :
    (s.ran (busDriveOps v)).out (.dl i) = some (v.getLsbD i.val) := by
  rw [s.ran_out (busDriveOps_keepsDirections v), lastLevel_busDrive, Option.some_or]

/-- Settles O27: the command is eight `SetDir`s, which mapped lines make ready. -/
theorem busdirSetsTheBus : Obligations.BusdirSetsTheBus := by
  intro s d hs hm
  exact ⟨_, exec_busdir hs hm d, answered_respond rfl, congrArg (s.trace ++ ·) (eventsOf_busdir d),
    busDir_ran_busdir s d, fun i => ⟨dir_ran_busdir s d i, ran_busdir_out s d i⟩,
    keeps_ran fun _ hop _ hr => busdirOps_role_mem hop hr,
    (keepsRegisters_ran s (busdirOps_no_enter d)).respond _, (keepsSink_ran s _).respond _⟩

/-- Settles O28: the command is eight `Drive`s, which mapped outputs make ready. -/
theorem buswrDrivesAByte : Obligations.BuswrDrivesAByte := by
  intro s v hs hm hd
  exact ⟨_, exec_buswr hs hm hd v, answered_respond rfl, congrArg (s.trace ++ ·) (eventsOf_busDrive v),
    out_ran_busDrive s v, keeps_ran fun _ hop _ hr => busDriveOps_role_mem hop hr, dir_ran_busDrive s v,
    (keepsRegisters_ran s (busDriveOps_no_enter v)).respond _, (keepsSink_ran s _).respond _⟩

/-- Settles O29: the command is eight `Sample`s, which mapped inputs make ready, and the byte they compose has their
levels for bits. -/
theorem busrdComposesAByte : Obligations.BusrdComposesAByte := by
  intro s hs hm hd
  obtain ⟨t, h, hx⟩ := exec_busrd hs hm hd
  exact ⟨_, _, hx, answered_respond h.responses, h.events, composeByte_getLsbD (Env.levels_length ..), h.byte,
    h.keeps.respond _, h.id, h.cur, h.fsm, h.fault.respond _, h.sink.respond _⟩

/-! ### Commands that fault -/

/-- The lowest line with the wrong direction stops the check, with its index (42_data_bus.md R165). -/
theorem requireBus_fault {s : State} {d : Direction} {i : Fin 8} (h : s.dir (.dl i) ≠ some d)
    (hj : ∀ j : Fin 8, j < i → s.dir (.dl j) = some d) :
    requireBus d s = .error (.fault (busCause d) (BitVec.ofNat 24 i.val)) s := by
  simp [requireBus, firstOffender_eq h hj, raise, indexInfo_roleIndex]

/-- Settles O30: both commands ask for the direction of the whole bus first. -/
theorem busPrecondition : Obligations.BusPrecondition := by
  intro s i hs
  exact ⟨fun h hj v => exec_faultedAtOnce hs (act_bind_error (act_bind_error (requireBus_fault h hj))),
    fun h hj => exec_faultedAtOnce hs (act_bind_error (act_bind_error (requireBus_fault h hj)))⟩

/-! ### The round trip -/

/-- Behind the latching loopback a byte driven on the bus is still there to sample once the lines are inputs
(20_memory.md R87). -/
theorem loopback_levels_roundTrip {e : Env} (hw : e.wiring = .latchingLoopback) (c : Config) (p q r : Pins) (v : Byte) :
    Env.levels r dataLines (envAfter c (busdirOps .input) q (envAfter c (busDriveOps v) p e)) = byteLevels v := by
  obtain ⟨hw', hdriven⟩ := loopback_drives v c dataLines p hw
  have hin : envAfter c (busdirOps .input) q (envAfter c (busDriveOps v) p e) = envAfter c (busDriveOps v) p e :=
    loopback_inputs c dataLines q hw'
  rw [hin]
  exact loopback_levels v r dataLines hw' fun i => (hdriven i).trans (if_pos (dataLines_mem i))

/-- What the next command finds after one that was only steps: the block ready, and the latches and the environment as
the steps leave them. -/
structure AfterSteps (ops : List PinOp) (s t : State) : Prop where
  undisturbed : t.Undisturbed
  cfg : t.cfg = s.cfg
  pins : t.pins = pinsAfter ops s.pins
  env : t.env = envAfter s.cfg ops s.pins s.env

theorem afterSteps_of_exec {s : State} {i : Instr} {ops : List PinOp} {r : Reply} (hs : s.Undisturbed)
    (h : exec i s = .next ((s.ran ops).respond r)) : ∃ t, exec i s = .next t ∧ AfterSteps ops s t :=
  ⟨_, h, ⟨⟨⟨rfl, hs.1.2⟩, rfl⟩, rfl, rfl, rfl⟩⟩

theorem AfterSteps.mapped_data {s t : State} {ops : List PinOp} (h : AfterSteps ops s t)
    (hm : ∀ i, mapped s.cfg (.dl i) = true) (i : Fin 8) : mapped t.cfg (.dl i) = true := by
  rw [h.cfg]; exact hm i

theorem AfterSteps.busdir_dir {s t : State} {d : Direction} (h : AfterSteps (busdirOps d) s t) (i : Fin 8) :
    t.dir (.dl i) = some d := by
  rw [State.dir, h.pins]; exact pinsAfter_busdir_dir d s.pins i

/-- Settles O31: each command leaves the bus ready for the next one, and the last samples what the second drove. -/
theorem busRoundTrip : Obligations.BusRoundTrip := by
  intro s v hs hm hw
  obtain ⟨t1, hx1, h1⟩ := afterSteps_of_exec hs (exec_busdir hs hm .output)
  have hm1 := h1.mapped_data hm
  obtain ⟨t2, hx2, h2⟩ := afterSteps_of_exec h1.undisturbed (exec_buswr h1.undisturbed hm1 h1.busdir_dir v)
  have hm2 := h2.mapped_data hm1
  obtain ⟨t3, hx3, h3⟩ := afterSteps_of_exec h2.undisturbed (exec_busdir h2.undisturbed hm2 .input)
  obtain ⟨t4, h4, hx4⟩ := exec_busrd h3.undisturbed (h3.mapped_data hm2) h3.busdir_dir
  have hw1 : t1.env.wiring = .latchingLoopback := by rw [h1.env, (envAfter_same ..).wiring, hw]
  have hlevels : Env.levels t3.pins dataLines t3.env = byteLevels v := by
    rw [h3.env, h2.env, h2.cfg]
    exact loopback_levels_roundTrip hw1 ..
  rw [hlevels, composeByte_byteLevels] at hx4
  exact ⟨t1, t2, t3, _, hx1, hx2, hx3, hx4, answered_respond h4.responses⟩

end Sys2Proof.Machine
end

section
/-! `IDLESETUP` and `ALLIN`: the pins, the sequencer and the address contract after them (43_sequencer.md R183,
R194). -/

namespace Sys2Proof.Machine

/-! ### The latches after a response -/

@[simp] theorem State.respond_dir (s : State) (x : Reply) (r : Role) : (s.respond x).dir r = s.dir r := rfl

@[simp] theorem State.respond_out (s : State) (x : Reply) (r : Role) : (s.respond x).out r = s.out r := rfl

/-! ### The state after `IDLESETUP` -/

theorem fsmAfter_idleSetup (c : Config) (f : Fsm) : fsmAfter (idleSetupOps c) f = .idle := by
  rw [idleSetupOps, fsmAfter, List.foldl_append]
  rfl

/-- `IDLESETUP` leaves the address unknown, also where it touches no address line (41_address_shifter.md R148). -/
theorem envAfter_idleSetup_xaddr (c : Config) (p : Pins) (e : Env) :
    (envAfter c (idleSetupOps c) p e).xaddr = none := by
  rw [idleSetupOps, ← List.singleton_append, ← List.append_assoc, envAfter_present, ite_self]

theorem ran_idleSetup_bus (s : State) (i : Fin 8) :
    (s.ran (idleSetupOps s.cfg)).dir (.dl i) = some .input
      ∧ (s.ran (idleSetupOps s.cfg)).out (.dl i) = s.out (.dl i) := by
  simp [State.dir, State.out, pinsAfter_idleSetup, pinAt_setDirPins_dir, pinAt_setDirPins_out]

theorem ran_idleSetup_controls (s : State) {r : Role} (hr : r ∈ [Role.we, .oe]) :
    (s.ran (idleSetupOps s.cfg)).dir r = some .output ∧ (s.ran (idleSetupOps s.cfg)).out r = some true := by
  unfold State.dir State.out
  rw [State.ran_pins, pinsAfter_idleSetup]
  simp only [List.mem_cons, List.not_mem_nil, or_false] at hr
  rcases hr with rfl | rfl <;> exact ⟨rfl, rfl⟩

/-- The latches of the mode's address-control lines after `IDLESETUP` (43_sequencer.md R183). -/
theorem pinsAfter_idleSetup_line {c : Config} {r : Role} (hr : r ∈ modeLines c) (p : Pins) :
    pinAt (pinsAfter (idleSetupOps c) p) r = { dir := some .output, out := some false } := by
  have ha := modeLines_isAddressLine hr
  rw [pinsAfter_idleSetup]
  cases r with
  | dl i => cases ha
  | we => cases ha
  | oe => cases ha
  | asd => exact if_pos hr
  | asc => exact if_pos hr
  | ass => exact if_pos hr
  | dal i => exact if_pos hr

theorem ran_idleSetup_lines (s : State) {r : Role} (hr : r ∈ modeLines s.cfg) :
    (s.ran (idleSetupOps s.cfg)).dir r = some .output ∧ (s.ran (idleSetupOps s.cfg)).out r = some false := by
  unfold State.dir State.out
  rw [State.ran_pins, pinsAfter_idleSetup_line hr]
  exact ⟨rfl, rfl⟩

/-- Settles O32: the steps are ready once the required roles are mapped, and their last two enter `Idle` and forget the
address. -/
theorem idlesetupPreparesThePins : Obligations.IdlesetupPreparesThePins := by
  intro s hs hv
  exact ⟨_, exec_idlesetup hs hv, answered_respond rfl, congrArg (s.trace ++ ·) (eventsOf_idleSetup s.cfg),
    by simpa using ran_idleSetup_bus s, fun _ hr => by simpa using ran_idleSetup_controls s hr,
    fun _ hr => by simpa using ran_idleSetup_lines s hr,
    fsmAfter_idleSetup s.cfg s.fsm, envAfter_idleSetup_xaddr s.cfg s.pins s.env,
    (ran_idleSetup_setUp (valid_required hv)).1.respond _, keeps_ran fun _ hop _ hr => idleSetupOps_role hop hr, rfl,
    rfl, rfl, ⟨rfl, rfl, rfl⟩, (keepsSink_ran s _).respond _⟩

/-- `IDLESETUP` is idempotent on the latches (43_sequencer.md R183). -/
theorem pinsAfter_idleSetup_twice (c : Config) (p : Pins) (r : Role) :
    pinAt (pinsAfter (idleSetupOps c) (pinsAfter (idleSetupOps c) p)) r = pinAt (pinsAfter (idleSetupOps c) p) r := by
  cases r with
  | dl i => simp [pinsAfter_idleSetup, setDirPins, freshOutput]
  | we => simp only [pinsAfter_idleSetup]
  | oe => simp only [pinsAfter_idleSetup]
  | asd | asc | ass | dal i => simp only [pinsAfter_idleSetup]; split <;> rfl

/-- Settles O33: the second setup finds the first one's configuration and latches. -/
theorem idlesetupTwiceIsOnce : Obligations.IdlesetupTwiceIsOnce := by
  intro s hs hv
  obtain ⟨t, hx, h⟩ := afterSteps_of_exec hs (exec_idlesetup hs hv)
  obtain ⟨u, hy, k⟩ := afterSteps_of_exec h.undisturbed (exec_idlesetup h.undisturbed (h.cfg ▸ hv))
  have hp (r : Role) : pinAt u.pins r = pinAt t.pins r := by
    rw [k.pins, h.pins, h.cfg, pinsAfter_idleSetup_twice]
  exact ⟨t, u, hx, hy, fun r => ⟨congrArg Pin.dir (hp r), congrArg Pin.out (hp r)⟩⟩

/-! ### `ALLIN` -/

theorem mem_mappedRoles {c : Config} {r : Role} : r ∈ mappedRoles c ↔ mapped c r = true := by
  simp [mappedRoles, Role.mem_all]

theorem mappedRoles_nodup (c : Config) : (mappedRoles c).Nodup := List.Nodup.filter _ (by decide)

theorem allInputOps_role {c : Config} {op : PinOp} {r : Role} (h : op ∈ allInputOps c) (hr : op.role = some r) :
    r ∈ mappedRoles c := by
  obtain ⟨x, hx, rfl⟩ := List.mem_map.mp h
  exact Option.some.inj hr ▸ hx

theorem allInputOps_no_enter (c : Config) : ∀ op ∈ allInputOps c, ∀ f, op ≠ .enter f := by
  intro op hop f
  obtain ⟨x, -, rfl⟩ := List.mem_map.mp hop
  exact nofun

theorem exec_allin {s : State} (hs : s.Undisturbed) :
    exec .allin s = .next ((s.ran (allInputOps s.cfg)).respond (.ok .empty)) :=
  exec_finish (x := runWith allInputOps) rfl hs
    (runWith_ready hs.2 (allReady_setDirs fun _ hr => mem_mappedRoles.mp hr)) hs.2

/-- A mapped role after `ALLIN`: as one `SetDir` to `In` leaves it (43_sequencer.md R194). -/
theorem ran_allInput_mapped (s : State) {r : Role} (hr : mapped s.cfg r = true) :
    (s.ran (allInputOps s.cfg)).dir r = some .input ∧ (s.ran (allInputOps s.cfg)).out r = s.out r := by
  unfold State.dir State.out
  rw [State.ran_pins, allInputOps, pinsAfter_setDirs (mappedRoles_nodup s.cfg) (mem_mappedRoles.mpr hr),
    pinAt_setDirPins_dir, pinAt_setDirPins_out]
  exact ⟨if_pos rfl, if_neg (by simp)⟩

theorem ran_allInput_out (s : State) (r : Role) : (s.ran (allInputOps s.cfg)).out r = s.out r := by
  by_cases hr : mapped s.cfg r = true
  · exact (ran_allInput_mapped s hr).2
  · exact (s.ran_other fun op hop h => hr (mem_mappedRoles.mp (allInputOps_role hop h))).2

/-- Settles O37: the command is one `SetDir` for each mapped role, and no role is listed twice. -/
theorem allinReleasesThePins : Obligations.AllinReleasesThePins := by
  intro s hs
  exact ⟨_, exec_allin hs, answered_respond rfl, congrArg (s.trace ++ ·) (eventsOf_map _ _ _ fun _ => rfl),
    fun _ hr => (ran_allInput_mapped s hr).1, ran_allInput_out s, keeps_ran fun _ hop _ hr => allInputOps_role hop hr,
    (keepsRegisters_ran s (allInputOps_no_enter s.cfg)).respond _, (keepsSink_ran s _).respond _⟩

end Sys2Proof.Machine
end

section
/-! The cycles that end: one byte read, one byte written, and the attached chip behind them (43_sequencer.md R186, R190;
20_memory.md R68, R69, R74, R77). -/

namespace Sys2Proof.Machine

/-- Settles O34: set-up pins make every step of the read cycle ready. -/
theorem rdcycReadsOneByte : Obligations.RdcycReadsOneByte := by
  intro s a hs hv hsu ha
  exact ⟨_, s.readLevels a, exec_rdcyc hs hv hsu ha, s.readLevels_length a, answered_respond rfl, afterRead_trace s a,
    s.readByte_eq a, (afterRead_ends a (valid_addrBits hv).1).respond _, (afterRead_keeps s a).respond _⟩

/-- Settles O35: set-up pins make every step of the write cycle ready. -/
theorem wrcycSendsOneByte : Obligations.WrcycSendsOneByte := by
  intro s a v hs hv hsu ha
  exact ⟨_, exec_wrcyc v hs hv hsu ha, answered_respond rfl, congrArg (s.trace ++ ·) (eventsOf_write s.cfg a v), rfl,
    (afterWrite_ends a v (valid_addrBits hv).1).respond _, (afterWrite_keeps s a v).respond _⟩

/-- Settles O39: OE# falls at the address just set, and in its read mode the chip holds that byte for the samples. -/
theorem readCycleReadsTheFlash : Obligations.ReadCycleReadsTheFlash := by
  intro s a hs hv hsu hch ha hw hm hc
  obtain ⟨hbyte, hmode, hcalm, haddr⟩ := afterRead_array a hsu hch hw hm hc
  have hx := exec_rdcyc hs hv hsu ha
  rw [hbyte] at hx
  exact ⟨_, hx, answered_respond rfl, hbyte, hmode, hcalm, haddr⟩

/-- Settles O40: the WE# pulse is one `MemWrite` of the byte at the address, and R69's table is
`FlashMode.afterWrite`. -/
theorem writeCycleReachesTheFlash : Obligations.WriteCycleReachesTheFlash := by
  intro s a v hs hv hsu hch ha hw hc
  obtain ⟨hmode, hcalm, haddr⟩ := envAfter_writeOps a v hsu hch hw
  exact ⟨_, exec_wrcyc v hs hv hsu ha, answered_respond rfl, hmode, hcalm.trans hc, haddr, (envAfter_same ..).flash⟩

end Sys2Proof.Machine
end

section
/-! A cycle before the idle setup: the line it drives that is no output, and the events until then (43_sequencer.md
R186, R190, R195; 60_exceptions.md R273, R279). -/

namespace Sys2Proof.Machine

/-! ### Commands that fault after some steps -/

/-- A command whose pseudocode faults after steps that ran: their events stand. -/
theorem exec_faultedAfter {s : State} {i : Instr} {ops : List PinOp} {c : Cause} {info : BitVec 24}
    (hs : s.Undisturbed) (h : bodyOf i s = .error (.fault c info) (s.ran ops)) :
    ∃ t, exec i s = .next t ∧ FaultedAfter s t c info (eventsOf ops) ∧ t.fsm = fsmAfter ops s.fsm :=
  ⟨_, exec_fault hs h hs.2, faultedAfter_ran .., rfl⟩

/-- A read cycle in range stops where its lead or its address step does. -/
theorem bodyOf_rdcyc_stops {s t : State} {a : Addr} {e : Stop} (ha : a.toNat < 2 ^ s.cfg.addrBits.toNat)
    (h : (runWith readLead >>= fun _ => setAddress a) s = .error e t) : bodyOf (.rdcyc a) s = .error e t := by
  refine act_bind_error (x := readCycle a) ?_
  rw [readCycle, act_bind_ok (checkRange_ok (outOfRange_false ha)), ← bind_assoc, act_bind_error h]

/-- A write cycle in range stops where its lead or its address step does. -/
theorem bodyOf_wrcyc_stops {s t : State} {a : Addr} (v : Byte) {e : Stop} (ha : a.toNat < 2 ^ s.cfg.addrBits.toNat)
    (h : (runWith writeLead >>= fun _ => setAddress a) s = .error e t) : bodyOf (.wrcyc a v) s = .error e t := by
  refine act_bind_error (x := writeCycle a v) ?_
  rw [writeCycle, act_bind_ok (checkRange_ok (outOfRange_false ha)), ← bind_assoc, act_bind_error h]

/-! ### The leads of the cycles -/

/-- Steps that drive outputs other than the data lines are ready also after a `BUSDIR`. -/
theorem busdir_append_ready {c : Config} {p : Pins} {ops : List PinOp} (d : Direction)
    (hm : ∀ i, mapped c (.dl i) = true) (hk : ∀ op ∈ ops, op.keepsDirections = true)
    (h : ∀ op ∈ ops, ∀ r, op.role = some r →
      (∀ i, r ≠ .dl i) ∧ mapped c r = true ∧ (pinAt p r).dir = some .output) :
    AllReady c (busdirOps d ++ ops) p := by
  rw [allReady_append]
  refine ⟨busdirOps_ready d hm, allReady_of_static hk fun op hop => ready_of_role (hk op hop) fun r hr => ?_⟩
  obtain ⟨hne, hmap, hdir⟩ := h op hop r hr
  exact ⟨hmap, by rw [pinsAfter_busdir_other hne]; exact hdir⟩

/-- Steps that depend on the configuration stop at a drive of a mapped line that is no output. -/
theorem runWith_missing {f : Config → List PinOp} {s : State} {pre post : List PinOp} {r : Role} {l : Level}
    (ho : f s.cfg = pre ++ .drive r l :: post) (hk : s.killIn = none) (h : AllReady s.cfg pre s.pins)
    (hm : mapped s.cfg r = true) (hd : (s.ran pre).dir r ≠ some .output) :
    runWith f s = .error (.fault .dirWrite (indexInfo (roleIndex r))) (s.ran pre) := by
  rw [runWith, act_bind_ok (act_get s)]
  exact runOps_stops ho hk h (op := .drive r l) (drive_missing hm hd)

section
variable {s : State} (hk : s.killIn = none) (hv : validConfig s.cfg = true)
include hk hv

theorem readLead_missing_we (hw : s.dir .we ≠ some .output) :
    runWith readLead s = .error (.fault .dirWrite 9) (s.ran (busdirOps .input)) :=
  runWith_missing (r := .we) rfl hk (busdirOps_ready .input (valid_data hv)) (valid_we hv) (by
    rwa [State.dir, State.ran_pins, pinsAfter_busdir_other (by simp)])

theorem writeLead_missing_we (hw : s.dir .we ≠ some .output) :
    runWith writeLead s = .error (.fault .dirWrite 9) s := by
  have h := runWith_missing (f := writeLead) (pre := []) rfl hk .nil (valid_we hv) (by rwa [State.ran_nil])
  rwa [State.ran_nil] at h

variable (hw : s.dir .we = some .output)
include hw

theorem readLead_missing_oe (ho : s.dir .oe ≠ some .output) :
    runWith readLead s = .error (.fault .dirWrite 8) (s.ran (busdirOps .input ++ [.drive .we true])) := by
  refine runWith_missing (r := .oe) (by rw [readLead, List.append_assoc]; rfl) hk
    (busdir_append_ready .input (valid_data hv) (by simp [PinOp.keepsDirections]) ?_) (valid_oe hv) ?_
  · simpa [PinOp.role] using ⟨valid_we hv, hw⟩
  · rwa [State.ran_append, State.ran_dir _ (by simp [PinOp.keepsDirections]), State.dir, State.ran_pins,
      pinsAfter_busdir_other (by simp)]

theorem writeLead_missing_oe (ho : s.dir .oe ≠ some .output) :
    runWith writeLead s = .error (.fault .dirWrite 8) (s.ran [.drive .we true]) :=
  runWith_missing (f := writeLead) (r := .oe) (pre := [.drive .we true]) rfl hk (.cons ⟨valid_we hv, hw⟩ .nil)
    (valid_oe hv) (by rwa [State.ran_dir _ (by simp [PinOp.keepsDirections])])

variable (ho : s.dir .oe = some .output)
include ho

theorem runWith_readLead : runWith readLead s = .ok () (s.ran (readLead s.cfg)) :=
  runWith_ready hk (busdir_append_ready .input (valid_data hv) (by simp [PinOp.keepsDirections]) (by
    simpa [PinOp.role] using ⟨⟨valid_we hv, hw⟩, valid_oe hv, ho⟩))

theorem runWith_writeLead : runWith writeLead s = .ok () (s.ran (writeLead s.cfg)) := by
  refine runWith_ready hk ?_
  rw [writeLead, List.append_assoc, allReady_append]
  refine ⟨allReady_of_static (by simp [PinOp.keepsDirections]) ?_,
    busdir_append_ready .output (valid_data hv) (by simp [PinOp.keepsDirections]) (by simp [PinOp.role])⟩
  simpa [PinOp.Ready] using ⟨⟨valid_we hv, hw⟩, valid_oe hv, ho⟩

end

/-! ### The address step -/

/-- A command whose pseudocode begins with steps that leave the address-control lines' directions alone, and a `SETADDR`
after them, stops at the first missing line. -/
theorem exec_missingLine {s : State} {i : Instr} {a : Addr} {r : Role} {before : List Event}
    {f : Config → List PinOp} (hs : s.Undisturbed) (hv : validConfig s.cfg = true)
    (ha : a.toNat < 2 ^ s.cfg.addrBits.toNat) (h : FirstMissing s a r before)
    (hstop : ∀ {e t}, (runWith f >>= fun _ => setAddress a) s = .error e t → bodyOf i s = .error e t)
    (hlead : runWith f s = .ok () (s.ran (f s.cfg)))
    (hd : ∀ x ∈ modeLines s.cfg, (s.ran (f s.cfg)).dir x = s.dir x) :
    ∃ t, exec i s = .next t
      ∧ FaultedAfter s t .dirWrite (indexInfo (roleIndex r)) (eventsOf (f s.cfg) ++ before)
      ∧ t.fsm = fsmAfter (f s.cfg) s.fsm := by
  obtain ⟨pre, hev, -, hf, hx⟩ := setAddress_firstMissing (t := s.ran (f s.cfg)) hv ha h rfl hs.2 hd
  rw [← State.ran_append] at hx
  obtain ⟨t, hexec, hfault, hfsm⟩ := exec_faultedAfter hs (hstop ((act_bind_ok hlead).trans hx))
  rw [eventsOf_append, hev] at hfault
  rw [fsmAfter, List.foldl_append] at hfsm
  exact ⟨t, hexec, hfault, hfsm.trans hf⟩

/-- Settles O36: the lead stops at WE# or at OE#, and otherwise the address step at its first missing line. -/
theorem cycleWithoutSetupFaults : Obligations.CycleWithoutSetupFaults := by
  intro s a hs hv ha
  refine ⟨fun hw => ⟨?_, fun v => ?_⟩, fun hw ho => ⟨?_, fun v => ?_⟩, fun r before hw ho h => ⟨?_, fun v => ?_⟩⟩
  · exact exec_faultedAfter hs (bodyOf_rdcyc_stops ha (act_bind_error (readLead_missing_we hs.2 hv hw)))
  · exact exec_faultedAtOnce hs (bodyOf_wrcyc_stops v ha (act_bind_error (writeLead_missing_we hs.2 hv hw)))
  · exact exec_faultedAfter hs (bodyOf_rdcyc_stops ha (act_bind_error (readLead_missing_oe hs.2 hv hw ho)))
  · exact exec_faultedAfter hs (bodyOf_wrcyc_stops v ha (act_bind_error (writeLead_missing_oe hs.2 hv hw ho)))
  · exact exec_missingLine hs hv ha h (bodyOf_rdcyc_stops ha) (runWith_readLead hs.2 hv hw ho) fun _ hx =>
      readLead_dir s.cfg s.pins (ne_dl_of_modeLines hx)
  · exact exec_missingLine hs hv ha h (bodyOf_wrcyc_stops v ha) (runWith_writeLead hs.2 hv hw ho) fun _ hx =>
      writeLead_dir s.cfg s.pins (ne_dl_of_modeLines hx)

end Sys2Proof.Machine
end

section
/-! An identity query that ends: its printed identity and its events (44_composite.md R212 to R214). -/

namespace Sys2Proof.Machine

/-- The state `IDQUERY` answers in: after its eight cycles the bus is turned back and the identity printed
(44_composite.md R212, R214). -/
def State.queried (s : State) : State :=
  (s.ran (busdirOps .input)).logged (.print (.identity s.id)) (s.ran (busdirOps .input))

theorem went_queried {s : State} (hk : s.killIn = none) :
    Went s s.queried (busDirEvents .input ++ [.print (.identity s.id)]) := by
  have h := went_busdir s .input
  refine ⟨h.keeps, h.fault, h.sink, ?_, ?_, h.responses⟩
  · rw [← List.append_assoc, ← h.trace]
    rfl
  · simp [State.queried, State.logged, hk]

/-- The body of `IDQUERY`, once its eight cycles end. -/
theorem identityQuery_ok {s u : State} (hv : validConfig s.cfg = true) (hk : s.killIn = none)
    (h : autoselect (s.ran (idleSetupOps s.cfg)) = .ok () u) (hu : u.Cycling) :
    identityQuery s = .ok (.done (.identity u.id)) u.queried := by
  have hbus : runOps (busdirOps .input) u = .ok () (u.ran (busdirOps .input)) :=
    runOps_ready hu.killIn (busdirOps_ready .input (valid_data hu.valid))
  have hclose : closingBus autoselect (s.ran (idleSetupOps s.cfg)) = .ok () (u.ran (busdirOps .input)) := by
    rw [closingBus, h]
    exact hbus
  have hprint : printValue (.identity u.id) (u.ran (busdirOps .input)) = .ok () u.queried :=
    emit_ok (by simp [hu.killIn])
  rw [identityQuery, act_bind_ok (idleSetup_ready hk (valid_required hv)), act_bind_ok hclose,
    act_bind_ok (act_get _)]
  exact act_bind_ok hprint

/-- The events of the eight cycles of `IDQUERY` with these levels at its reads (44_composite.md R211). -/
def identityEvents (c : Config) (l0 l1 l2 l3 : List Level) : List Event :=
  writeEvents c 0xAAA 0xAA ++ writeEvents c 0x555 0x55 ++ writeEvents c 0xAAA 0x90 ++ readEvents c 0x00 l0
    ++ readEvents c 0x02 l1 ++ readEvents c 0x1C l2 ++ readEvents c 0x1E l3 ++ writeEvents c 0x00 0xF0

/-- `IDQUERY` with at least twelve address bits runs to its end, with these events. -/
theorem exec_idquery_emitted {s : State} (hs : s.Undisturbed) (hv : validConfig s.cfg = true)
    (hn : 12 ≤ s.cfg.addrBits.toNat) :
    ∃ t l0 l1 l2 l3, exec .idquery s = .next t
      ∧ l0.length = 8 ∧ l1.length = 8 ∧ l2.length = 8 ∧ l3.length = 8
      ∧ Emitted s t (idleEvents s.cfg ++ identityEvents s.cfg l0 l1 l2 l3
          ++ (busDirEvents .input ++ [.print (.identity t.id)])) := by
  obtain ⟨u, l0, l1, l2, l3, hauto, hu, -, -, n0, n1, n2, n3, -, -, hwent⟩ :=
    autoselect_ready (State.Cycling.idleSetup hv hs.2) hn
  have hall := ((went_idleSetup s).trans hwent).trans (went_queried hu.killIn)
  exact ⟨u.queried.respond (.ok (.identity u.id)), l0, l1, l2, l3,
    exec_done hs (identityQuery_ok hv hs.2 hauto hu) (hall.killIn.trans hs.2), n0, n1, n2, n3, hall.trace⟩

end Sys2Proof.Machine
end

section
/-! How many events a cycle and an identity query have, and how long they take at least (43_sequencer.md R186, R190;
44_composite.md R212; 70_reset_and_hazards.md R310, R311). -/

namespace Sys2Proof.Machine

/-! ### Durations, part by part -/

@[simp] theorem minimumTime_append (es fs : List Event) : minimumTime (es ++ fs) = minimumTime es + minimumTime fs := by
  simp only [minimumTime_eq_sum, delaysOf_append, List.sum_append]

@[simp] theorem minimumTime_nil : minimumTime [] = 0 := rfl

@[simp] theorem minimumTime_dly (us : Nat) (es : List Event) :
    minimumTime (.dly us :: es) = us + minimumTime es := rfl

@[simp] theorem minimumTime_drv (r : Role) (l : Level) (es : List Event) :
    minimumTime (.drv r l :: es) = minimumTime es := Nat.zero_add _

@[simp] theorem minimumTime_smp (r : Role) (l : Level) (es : List Event) :
    minimumTime (.smp r l :: es) = minimumTime es := Nat.zero_add _

@[simp] theorem minimumTime_print (x : Printed) (es : List Event) :
    minimumTime (.print x :: es) = minimumTime es := Nat.zero_add _

@[simp] theorem length_busDirEvents (d : Direction) : (busDirEvents d).length = 8 := rfl

@[simp] theorem minimumTime_busDirEvents (d : Direction) : minimumTime (busDirEvents d) = 0 := rfl

@[simp] theorem length_busDriveEvents (v : Byte) : (busDriveEvents v).length = 8 := rfl

@[simp] theorem minimumTime_busDriveEvents (v : Byte) : minimumTime (busDriveEvents v) = 0 := rfl

theorem length_busSampleEvents {ls : List Level} (h : ls.length = 8) : (busSampleEvents ls).length = 8 := by
  rw [busSampleEvents, List.length_zipWith, h]
  rfl

theorem minimumTime_samples (is : List (Fin 8)) (ls : List Level) :
    minimumTime (List.zipWith (fun i l => .smp (.dl i) l) is ls) = 0 := by
  induction is generalizing ls with
  | nil => rfl
  | cons i is ih =>
    cases ls with
    | nil => rfl
    | cons l ls => exact (minimumTime_smp ..).trans (ih ls)

@[simp] theorem minimumTime_busSampleEvents (ls : List Level) : minimumTime (busSampleEvents ls) = 0 :=
  minimumTime_samples dataLines ls

/-! ### A cycle, around its address step -/

section
variable (c : Config) (a : Addr)

theorem length_readEvents {ls : List Level} (h : ls.length = 8) :
    (readEvents c a ls).length = (addressEvents c a).length + 24 := by
  simp only [readEvents, List.length_append, length_busDirEvents, length_busSampleEvents h, List.length_cons,
    List.length_nil]
  omega

theorem minimumTime_readEvents (ls : List Level) :
    minimumTime (readEvents c a ls) = minimumTime (addressEvents c a) + 4 * c.tSettle.toNat := by
  simp only [readEvents, minimumTime_append, minimumTime_busDirEvents, minimumTime_busSampleEvents, minimumTime_drv,
    minimumTime_dly, minimumTime_nil]
  omega

theorem length_writeEvents (v : Byte) : (writeEvents c a v).length = (addressEvents c a).length + 24 := by
  simp only [writeEvents, List.length_append, length_busDirEvents, length_busDriveEvents, List.length_cons,
    List.length_nil]
  omega

theorem minimumTime_writeEvents (v : Byte) :
    minimumTime (writeEvents c a v) = minimumTime (addressEvents c a) + 4 * c.tSettle.toNat := by
  simp only [writeEvents, minimumTime_append, minimumTime_busDirEvents, minimumTime_busDriveEvents, minimumTime_drv,
    minimumTime_dly, minimumTime_nil]
  omega

end

/-! ### The reference configuration (70_reset_and_hazards.md R311) -/

/-- What the counts of R311 suppose of the configuration. -/
structure Counted (c : Config) : Prop where
  mode : c.mode = .s2w
  addrBits : c.addrBits = 24
  xpData : c.xpData = .hold
  tHalf : c.tHalf = 2
  tSettle : c.tSettle = 100

namespace Counted

variable {c : Config} (h : Counted c)
include h

theorem inRange (a : Addr) : a.toNat < 2 ^ c.addrBits.toNat := by
  rw [h.addrBits]
  exact a.isLt

theorem address (a : Addr) : (addressEvents c a).length = 125 ∧ minimumTime (addressEvents c a) = 100 := by
  rw [addressEvents_twoWire h.mode, twoWireEvents_length, twoWireEvents_time, h.addrBits, h.xpData, h.tHalf]
  exact ⟨rfl, rfl⟩

theorem read (a : Addr) {ls : List Level} (hl : ls.length = 8) :
    (readEvents c a ls).length = 149 ∧ minimumTime (readEvents c a ls) = 500 := by
  obtain ⟨hn, ht⟩ := h.address a
  rw [length_readEvents c a hl, minimumTime_readEvents, hn, ht, h.tSettle]
  exact ⟨rfl, rfl⟩

theorem write (a : Addr) (v : Byte) :
    (writeEvents c a v).length = 149 ∧ minimumTime (writeEvents c a v) = 500 := by
  obtain ⟨hn, ht⟩ := h.address a
  rw [length_writeEvents, minimumTime_writeEvents, hn, ht, h.tSettle]
  exact ⟨rfl, rfl⟩

theorem idle : (idleEvents c).length = 16 ∧ minimumTime (idleEvents c) = 0 := by
  rw [idleEvents, h.mode]
  exact ⟨rfl, rfl⟩

theorem identity {l0 l1 l2 l3 : List Level} (n0 : l0.length = 8) (n1 : l1.length = 8) (n2 : l2.length = 8)
    (n3 : l3.length = 8) :
    (identityEvents c l0 l1 l2 l3).length = 1192 ∧ minimumTime (identityEvents c l0 l1 l2 l3) = 4000 := by
  simp only [identityEvents, List.length_append, minimumTime_append, h.write, h.read _ n0, h.read _ n1, h.read _ n2,
    h.read _ n3, and_self]

end Counted

/-- Settles O38: the events are those of R186, R190 and R212, counted above. -/
theorem cycleCountsAndTimes : Obligations.CycleCountsAndTimes := by
  intro s hs hv hm hn hx hh ht
  have hc : Counted s.cfg := ⟨hm, hn, hx, hh, ht⟩
  refine ⟨fun hsu a => ?_, fun hsu a v => ?_, ?_⟩
  · obtain ⟨t, ls, hexec, hl, -, hev, -⟩ := rdcycReadsOneByte s a hs hv hsu (hc.inRange a)
    exact ⟨t, _, hexec, hev, hc.read a hl⟩
  · obtain ⟨t, hexec, -, hev, -⟩ := wrcycSendsOneByte s a v hs hv hsu (hc.inRange a)
    exact ⟨t, _, hexec, hev, hc.write a v⟩
  · obtain ⟨t, l0, l1, l2, l3, hexec, n0, n1, n2, n3, hev⟩ := exec_idquery_emitted hs hv (by rw [hn]; decide)
    refine ⟨t, _, hexec, hev, ?_⟩
    simp only [List.length_append, minimumTime_append, hc.idle, hc.identity n0 n1 n2 n3, length_busDirEvents,
      minimumTime_busDirEvents, minimumTime_print, minimumTime_nil, List.length_cons, List.length_nil, and_self]

end Sys2Proof.Machine
end

section
/-! `IDQUERY`: its whole run, its fault in a narrow configuration, the bus it leaves, and the chip behind it
(44_composite.md R211 to R214; 20_memory.md R68, R69, R77). -/

namespace Sys2Proof.Machine

/-! ### The state `IDQUERY` answers in -/

theorem State.queried_fsm (s : State) : s.queried.fsm = s.fsm :=
  fsmAfter_of_no_enter (busdirOps_no_enter .input) s.fsm

/-- Turning the bus back and printing change no latch of another line (44_composite.md R214). -/
theorem State.queried_other (s : State) {r : Role} (hr : r ∉ dataRoles) :
    s.queried.dir r = s.dir r ∧ s.queried.out r = s.out r :=
  s.ran_other fun _ hop h => hr (busdirOps_role_mem hop h)

theorem addressLine_notin_dataRoles {r : Role} (hr : isAddressLine r = true) : r ∉ dataRoles := by
  intro h
  obtain ⟨i, -, rfl⟩ := List.mem_map.mp h
  cases hr

/-- Where `SETADDR` left the address lines, as long as they keep their levels. -/
theorem AddressLeft.congr {t u : State} {a : Addr} (h : AddressLeft t a) (hc : u.cfg = t.cfg)
    (ho : ∀ r, isAddressLine r = true → u.out r = t.out r) : AddressLeft u a := by
  unfold AddressLeft at h ⊢
  rw [hc]
  cases hm : t.cfg.mode with
  | s2w => simpa only [hm, ho .asc rfl, ho .asd rfl] using h
  | s3w => simpa only [hm, ho .asc rfl, ho .asd rfl, ho .ass rfl] using h
  | direct => simpa only [hm, ho (.dal _) rfl] using h
  | illegal => trivial

theorem AddressLeft.queried {s : State} {a : Addr} (h : AddressLeft s a) : AddressLeft s.queried a :=
  h.congr rfl fun _ hr => (s.queried_other (addressLine_notin_dataRoles hr)).2

theorem State.SetUp.queried {s : State} (h : s.SetUp) : s.queried.SetUp :=
  h.of_keeps rfl fun _ hr => (s.queried_other hr).1

theorem State.ControlsHigh.queried {s : State} (h : s.ControlsHigh) : s.queried.ControlsHigh :=
  ⟨(s.queried_other (by decide)).2.trans h.1, (s.queried_other (by decide)).2.trans h.2⟩

/-- `IDQUERY` answers once its eight cycles end (44_composite.md R212). -/
theorem exec_idquery {s u : State} (hs : s.Undisturbed) (hv : validConfig s.cfg = true)
    (h : autoselect (s.ran (idleSetupOps s.cfg)) = .ok () u) (hu : u.Cycling) :
    exec .idquery s = .next (u.queried.respond (.ok (.identity u.id)))
      ∧ Answered s (u.queried.respond (.ok (.identity u.id))) (.ok (.identity u.id)) := by
  have hbody : bodyOf .idquery s = .ok (.done (.identity u.id)) u.queried := identityQuery_ok hv hs.2 h hu
  have hresponses := (changes_bodyOf .idquery s).frame.responses
  rw [hbody] at hresponses
  exact ⟨exec_done hs hbody ((went_queried hu.killIn).killIn.trans hu.killIn), answered_respond hresponses⟩

/-- Settles O41: the idle setup makes the eight cycles ready, and turning the bus back and printing keep what they
left. -/
theorem idqueryRunsEightCycles : Obligations.IdqueryRunsEightCycles := by
  intro s hs hv hn
  obtain ⟨u, l0, l1, l2, l3, hauto, hu, hcur, hd, n0, n1, n2, n3, hid, ⟨-, hhigh, haddr, hfsm⟩, hwent⟩ :=
    autoselect_ready (State.Cycling.idleSetup hv hs.2) hn
  have hall := ((went_idleSetup s).trans hwent).trans (went_queried hu.killIn)
  obtain ⟨hexec, hanswer⟩ := exec_idquery hs hv hauto hu
  refine ⟨_, l0, l1, l2, l3, hexec, n0, n1, n2, n3, hid, hanswer, ?_, hd, hcur,
    u.queried_fsm.trans hfsm, busDir_ran_busdir u .input, hu.setUp.queried.respond _, hhigh.queried.respond _,
    haddr.queried.respond _, hall.keeps.respond _, hall.fault.respond _, hall.sink.respond _⟩
  have hev := hall.trace
  simp only [Emitted, ← List.append_assoc] at hev ⊢
  exact hev

/-! ### A narrow configuration (44_composite.md R212) -/

/-- The first entry write does not fit fewer than twelve address bits. -/
theorem autoselect_narrow {s : State} (hn : s.cfg.addrBits.toNat < 12) :
    autoselect s = .error (.fault .addrRange 0xAAA) s := by
  have hpow : 2 ^ s.cfg.addrBits.toNat ≤ 2 ^ 11 := Nat.pow_le_pow_right (by omega) (by omega)
  have hrange : outOfRange s.cfg 0xAAA = true := decide_eq_true (hpow.trans (by decide))
  exact act_bind_error (act_bind_error (act_bind_error (checkRange_fault hrange)))

/-- `finally` turns the bus back, and the fault is raised again (44_composite.md R214). -/
theorem closingBus_fault {body : Act Unit} {s t : State} {c : Cause} {info : BitVec 24}
    (h : body s = .error (.fault c info) t) (hk : t.killIn = none) (hm : ∀ i, mapped t.cfg (.dl i) = true) :
    closingBus body s = .error (.fault c info) (t.ran (busdirOps .input)) := by
  simp only [closingBus, h, runOps_ready hk (busdirOps_ready .input hm)]

/-- Settles O42: the range check of the first write stops the eight cycles. -/
theorem idqueryNeedsTwelveBits : Obligations.IdqueryNeedsTwelveBits := by
  intro s hs hv hn
  have hclose := closingBus_fault (autoselect_narrow (s := s.ran (idleSetupOps s.cfg)) hn) hs.2 (valid_data hv)
  have hbody : bodyOf .idquery s =
      .error (.fault .addrRange 0xAAA) (s.ran (idleSetupOps s.cfg ++ busdirOps .input)) := by
    rw [State.ran_append]
    exact (act_bind_ok (idleSetup_ready hs.2 (valid_required hv))).trans (act_bind_error hclose)
  obtain ⟨t, hexec, hfault, hfsm⟩ := exec_faultedAfter hs hbody
  rw [eventsOf_append, eventsOf_idleSetup, eventsOf_busdir] at hfault
  refine ⟨t, hexec, hfault, hfsm.trans ?_⟩
  rw [fsmAfter, List.foldl_append]
  exact (fsmAfter_of_no_enter (busdirOps_no_enter .input) _).trans (fsmAfter_idleSetup ..)

/-! ### The bus it leaves, whatever its outcome (44_composite.md R214) -/

/-- What holds where the first part leaves off, and is kept by what follows it, holds at the end. -/
theorem reached_bind {α β : Type} {P : State → Prop} {x : Act α} {f : α → Act β} {s : State}
    (hx : P (reached (x s))) (hf : ∀ a t, x s = .ok a t → P t → P (reached (f a t))) :
    P (reached ((x >>= f) s)) := by
  rw [act_bind]
  cases h : x s with
  | ok a t =>
    rw [h] at hx
    exact hf a t h hx
  | error e t => rwa [h] at hx

/-- `BusDir()` is `In` (10_state.md R31). -/
def State.BusIn (s : State) : Prop := busDir s.pins = .input

/-- Printing drives no line. -/
theorem printValue_bus {s : State} (x : Printed) (h : s.BusIn) : (reached (printValue x s)).BusIn := by
  rw [printValue]
  rcases emit_cases (.print x) id s with ⟨-, hp⟩ | ⟨-, hp⟩
  · rwa [hp]
  · rwa [hp]

/-- One step that no kill cuts runs, or stops before it changes anything. -/
theorem runOp_reached {s : State} (hk : s.killIn = none) (op : PinOp) :
    runOp op s = .ok () (s.ran [op]) ∨ ∃ e, runOp op s = .error e s := by
  by_cases h : op.Ready s.cfg s.pins
  · exact .inl (runOp_ready hk h)
  have hdrive (r : Role) (l : Level) (b : Bool) (h : ¬(mapped s.cfg r = true ∧ s.dir r = some .output)) :
      ∃ e, drive r l b s = .error e s := by
    by_cases hm : mapped s.cfg r = true
    · exact ⟨_, drive_missing hm fun hd => h ⟨hm, hd⟩⟩
    · exact ⟨_, drive_unmapped (by simpa using hm)⟩
  cases op with
  | setDir r d => exact .inr ⟨_, setDir_unmapped (by simpa [PinOp.Ready] using h)⟩
  | drive r l => exact .inr (hdrive r l false h)
  | shift r l => exact .inr (hdrive r l true h)
  | delay us => exact absurd trivial h
  | enter f => exact absurd trivial h
  | address a => exact absurd trivial h

/-- Steps that act on other roles keep a role's latches, also where they stop. -/
theorem runOps_other {ops : List PinOp} {s : State} {r : Role} (hk : s.killIn = none)
    (h : ∀ op ∈ ops, op.role ≠ some r) : pinAt (reached (runOps ops s)).pins r = pinAt s.pins r := by
  induction ops generalizing s with
  | nil => rfl
  | cons op ops ih =>
    rcases runOp_reached hk op with hop | ⟨e, hop⟩
    · rw [runOps, act_bind_ok hop, ih (s := s.ran [op]) hk fun o ho => h o (List.mem_cons_of_mem _ ho)]
      exact PinOp.onPins_other (h op List.mem_cons_self) s.pins
    · rw [runOps, act_bind_error hop, reached_error]

/-- The steps of `IDLESETUP` after it has turned the bus act on no data line (43_sequencer.md R183). -/
theorem idleSetupOps_eq (c : Config) : ∃ ops, idleSetupOps c = busdirOps .input ++ ops
    ∧ ∀ op ∈ ops, ∀ i, op.role ≠ some (.dl i) := by
  refine ⟨setUp .we true ++ setUp .oe true ++ ((modeLines c).flatMap fun r => setUp r false)
    ++ [.enter .idle, .address none], by simp [idleSetupOps], fun op hop i hi => ?_⟩
  simp only [List.mem_append, List.mem_flatMap, List.mem_cons, List.not_mem_nil, or_false] at hop
  rcases hop with ((h | h) | ⟨r, hr, h⟩) | rfl | rfl
  · cases (setUp_role h).symm.trans hi
  · cases (setUp_role h).symm.trans hi
  · exact ne_dl_of_modeLines hr i (Option.some.inj ((setUp_role h).symm.trans hi))
  · cases hi
  · cases hi

section
variable {s : State} (hk : s.killIn = none) (hm : ∀ i, mapped s.cfg (.dl i) = true)
include hk hm

/-- `IDLESETUP` turns the bus first, so also where it stops the bus is an input. -/
theorem idleSetup_bus : (reached (idleSetup s)).BusIn := by
  obtain ⟨ops, heq, hother⟩ := idleSetupOps_eq s.cfg
  refine busDir_input fun i => ?_
  have hrun : idleSetup s = runOps ops (s.ran (busdirOps .input)) := by
    rw [idleSetup, runWith, act_bind_ok (act_get s), heq, runOps_append]
    exact act_bind_ok (runOps_ready hk (busdirOps_ready .input hm))
  have hkept := runOps_other (s := s.ran (busdirOps .input)) hk fun op hop => hother op hop i
  rw [hrun]
  exact (congrArg Pin.dir hkept).trans (dir_ran_busdir s .input i)

/-- Under `try … finally BUSDIR(In)` the bus is an input at the end and at a fault alike. -/
theorem closingBus_bus {body : Act Unit} (hbody : Within body) : (reached (closingBus body s)).BusIn := by
  have hclose (t : State) (h : Changes s t) : runOps (busdirOps .input) t = .ok () (t.ran (busdirOps .input)) :=
    runOps_ready (h.killIn_none hk) (busdirOps_ready .input (h.frame.cfg ▸ hm))
  have hdoes := hbody.does s
  have hchanges := hdoes.changes
  rcases hx : body s with ⟨_, t⟩ | ⟨_ | _, t⟩
  case ok =>
    rw [hx] at hchanges
    simp only [closingBus, hx, hclose t hchanges]
    exact busDir_ran_busdir t .input
  case error.fault =>
    rw [hx] at hchanges
    simp only [closingBus, hx, hclose t hchanges]
    exact busDir_ran_busdir t .input
  case error.killed => exact absurd hx (hdoes.not_killed hk t)

end

/-- Settles O43: a fault of the idle setup finds the bus turned already, and later ones pass the closing `BUSDIR(In)`;
the print that may follow it drives no line. -/
theorem idqueryLeavesTheBusInput : Obligations.IdqueryLeavesTheBusInput := by
  intro s t hs hm hexec
  rw [(accepting_of_exec hexec).2, settle_pins]
  change (reached (identityQuery s)).BusIn
  have hidle := (within_runWith idleSetupOps).does s
  refine reached_bind (idleSetup_bus hs.2 hm) fun _ u hu _ => ?_
  have hu : reached (runWith idleSetupOps s) = u := congrArg reached hu
  have hkill : u.killIn = none := hu ▸ hidle.changes.killIn_none hs.2
  have hcfg : u.cfg = s.cfg := hu ▸ hidle.changes.frame.cfg
  refine reached_bind (closingBus_bus hkill (hcfg ▸ hm) within_autoselect) fun _ v _ hv => ?_
  exact reached_bind (x := get) hv fun _ _ _ hv' => reached_bind (printValue_bus _ hv') fun _ _ _ hw => hw

/-! ### The chip behind it (20_memory.md R68, R69, R77) -/

/-- The chip's mode after write cycles in order (20_memory.md R69). -/
def FlashMode.afterWrites (m : FlashMode) (l : List (Addr × Byte)) : FlashMode :=
  l.foldl (fun m x => m.afterWrite x.1 x.2) m

/-- Write cycles in order send the chip their writes. -/
theorem writeAll_chip {l : List (Addr × Byte)} {s : State} {m : FlashMode} (h : s.ChipAt m)
    (ha : ∀ x ∈ l, x.1.toNat < 2 ^ s.cfg.addrBits.toNat) :
    ∃ t, writeAll l s = .ok () t ∧ t.ChipAt (m.afterWrites l) ∧ t.cfg = s.cfg ∧ s.env.Same t.env := by
  induction l generalizing s m with
  | nil => exact ⟨s, rfl, h, rfl, .rfl' _⟩
  | cons x l ih =>
    obtain ⟨a, v⟩ := x
    obtain ⟨t, hrun, ht, hcfg, hsame⟩ := ih (h.write a v) fun y hy => ha y (List.mem_cons_of_mem _ hy)
    refine ⟨t, ?_, ht, hcfg, (envAfter_same ..).trans hsame⟩
    rw [writeAll, act_bind_ok (h.cycling.writeCycle v (ha _ List.mem_cons_self)), hrun]

theorem afterRead_same (s : State) (a : Addr) : s.env.Same (s.afterRead a).env :=
  ((envAfter_same ..).trans (Env.afterLevels_same ..)).trans (envAfter_same ..)

/-- Each of these reads answers, in the identity mode, the identity byte of its latch (20_memory.md R68). -/
def ReadsIdentity (l : List (Fin 4 × Addr)) : Prop :=
  ∀ x ∈ l, ∀ e : Env, e.fmode = .autoselect → e.memRead x.2 = (e.flashId[x.1], e)

theorem readsIdentity_identityReads : ReadsIdentity identityReads := by
  intro x hx e he
  obtain ⟨h0, h1, h2, h3⟩ := Env.memRead_identity he
  simp only [identityReads, List.mem_cons, List.not_mem_nil, or_false] at hx
  rcases hx with rfl | rfl | rfl | rfl
  · exact h0
  · exact h1
  · exact h2
  · exact h3

/-- Identity reads leave the identity mode and fill their latches with the chip's bytes (44_composite.md R213). -/
theorem readIdentity_chip {l : List (Fin 4 × Addr)} {s : State} (h : s.ChipAt .autoselect) (hl : ReadsIdentity l)
    (ha : ∀ x ∈ l, x.2.toNat < 2 ^ s.cfg.addrBits.toNat) :
    ∃ t, readIdentity l s = .ok () t ∧ t.ChipAt .autoselect ∧ t.cfg = s.cfg
      ∧ t.id = l.foldl (fun ids x => ids.set x.1.val s.env.flashId[x.1]) s.id := by
  induction l generalizing s with
  | nil => exact ⟨s, rfl, h, rfl, rfl⟩
  | cons x l ih =>
    obtain ⟨k, a⟩ := x
    obtain ⟨hread, hbyte⟩ := h.read (v := s.env.flashId[k]) fun e he hs =>
      (hl (k, a) List.mem_cons_self e he).trans (by rw [hs.flashId])
    have hchip : (s.readId k a).ChipAt .autoselect :=
      ⟨h.cycling.readId k a, hread.high, hread.wiring, hread.fmode, hread.calm⟩
    obtain ⟨t, hrun, ht, hcfg, hid⟩ := ih hchip (fun y hy => hl y (List.mem_cons_of_mem _ hy)) fun y hy =>
      ha y (List.mem_cons_of_mem _ hy)
    refine ⟨t, (readIdentity_cons h.cycling k l (ha _ List.mem_cons_self)).trans hrun, ht, hcfg, ?_⟩
    have hflash : (s.readId k a).env.flashId = s.env.flashId := (afterRead_same s a).flashId
    have hset : (s.readId k a).id = s.id.set k.val s.env.flashId[k] := by rw [State.readId, hbyte]
    rw [hid, hflash, hset, List.foldl_cons]

/-- The four reads fill all four latches (44_composite.md R213). -/
theorem identityReads_fill (ids jds : Vector Byte 4) :
    identityReads.foldl (fun ids x => ids.set x.1.val jds[x.1]) ids = jds := by
  ext i hi : 1
  have : i = 0 ∨ i = 1 ∨ i = 2 ∨ i = 3 := by omega
  rcases this with rfl | rfl | rfl | rfl <;> simp [identityReads]

/-- The eight cycles of `IDQUERY` lead the chip from its read mode to its identity mode and back. -/
theorem autoselect_chip {s : State} (h : s.ChipAt .array) (hn : 12 ≤ s.cfg.addrBits.toNat) :
    ∃ t, autoselect s = .ok () t ∧ t.ChipAt .array ∧ t.id = s.env.flashId := by
  have hrange {a : Addr} (ha : a.toNat < 2 ^ 12) : a.toNat < 2 ^ s.cfg.addrBits.toNat :=
    ha.trans_le (Nat.pow_le_pow_right (by omega) hn)
  have hentry : ∀ x ∈ autoselectEntry, x.1.toNat < 2 ^ 12 := by simp [autoselectEntry]
  have hreads : ∀ x ∈ identityReads, x.2.toNat < 2 ^ 12 := by simp [identityReads]
  obtain ⟨u, hwrite, hu, hcu, hsame⟩ := writeAll_chip h fun x hx => hrange (hentry x hx)
  obtain ⟨v, hread, hv, hcv, hid⟩ := readIdentity_chip (l := identityReads) (s := u) hu readsIdentity_identityReads
    fun x hx => by rw [hcu]; exact hrange (hreads x hx)
  have hexit := hv.cycling.writeCycle autoselectExit.2 (a := autoselectExit.1)
    (by rw [hcv, hcu]; exact hrange (by decide))
  refine ⟨_, (act_bind_ok hwrite).trans ((act_bind_ok hread).trans hexit), hv.write _ _, ?_⟩
  rw [State.ran_id, hid, identityReads_fill, hsame.flashId]

/-- Turning the bus back and printing leave the chip as it is. -/
theorem State.ChipAt.queried {s : State} {m : FlashMode} (h : s.ChipAt m) :
    s.queried.env.fmode = m ∧ s.queried.env.contention = false := by
  have hchip := (envAfter_rests (c := s.cfg) (e := s.env) (busdirOps_rests .input)
    (drives_of h.cycling.setUp.oe.2 h.high.2) (drives_of h.cycling.setUp.we.2 h.high.1)).2.2
  exact ⟨hchip.fmode.trans h.fmode, hchip.contention.trans h.calm⟩

/-- Settles O44: the entry writes lead the chip to its identity mode, where the reads answer its identity, and the last
write leads it back. -/
theorem idqueryReturnsTheIdentity : Obligations.IdqueryReturnsTheIdentity := by
  intro s hs hv hn hc
  obtain ⟨u, hauto, hu, hid⟩ := autoselect_chip (State.ChipAt.idleSetup hv hs.2 hc) hn
  obtain ⟨hexec, hanswer⟩ := exec_idquery hs hv hauto hu.cycling
  have hflash : u.id = s.env.flashId := hid.trans (envAfter_same ..).flashId
  refine ⟨_, hexec, ?_, hflash, hu.queried⟩
  rwa [hflash] at hanswer ⊢

end Sys2Proof.Machine
end

section
/-! `DUMP` turn by turn: what every turn leaves, and the three ways a turn ends (44_composite.md R215 to R217). -/

namespace Sys2Proof.Machine

/-! ### A command on its way -/

/-- The command has emitted these events and has neither answered nor faulted. -/
structure Unanswered (s t : State) (es : List Event) : Prop where
  emitted : Emitted s t es
  fault : KeepsFault s t
  responses : t.responses = s.responses

theorem Unanswered.refl (s : State) : Unanswered s s [] := ⟨(List.append_nil _).symm, ⟨rfl, rfl, rfl⟩, rfl⟩

theorem Unanswered.trans {s t u : State} {es fs : List Event} (h : Unanswered s t es) (k : Unanswered t u fs) :
    Unanswered s u (es ++ fs) :=
  ⟨by rw [Emitted, k.emitted, h.emitted, List.append_assoc], h.fault.trans k.fault, k.responses.trans h.responses⟩

theorem Went.unanswered {s t : State} {es : List Event} (h : Went s t es) : Unanswered s t es :=
  ⟨h.trace, h.fault, h.responses⟩

/-! ### The states of a turn -/

/-- The events of one read cycle at the cursor, with the levels it samples. -/
def State.turnReads (s : State) : List Event := readEvents s.cfg s.cur (s.readLevels s.cur)

/-- The byte a turn offers to the sink. -/
def State.turnByte (s : State) : Byte := s.readByte s.cur

/-- The state after a turn with which the loop goes on (44_composite.md R215). -/
def State.turned (s : State) : State := { s.advanced with phase := .running .dump }

/-- A state that is as a turn leaves it but for the trace, the cursor and how the command goes on or ends. -/
structure AfterTurn (s t : State) : Prop where
  cfg : t.cfg = s.cfg
  host : t.host = s.host
  pins : t.pins = (s.afterRead s.cur).pins
  fsm : t.fsm = .idle
  d : t.d = s.turnByte
  id : t.id = s.id
  env : t.env = (s.afterRead s.cur).env
  sink : t.sinkAnswers = s.sinkAnswers.tail

theorem afterTurn_offered (s : State) : AfterTurn s s.offered where
  cfg := by simp [State.offered]
  host := by simp [State.offered]
  pins := by simp [State.offered]
  fsm := by simp [State.offered]
  d := by simp [State.offered, State.turnByte]
  id := by simp [State.offered]
  env := by simp [State.offered]
  sink := by simp [State.offered, State.afterSink_answers]

theorem AfterTurn.takeFault {s t : State} (h : AfterTurn s t) (c : Cause) (info : BitVec 24) :
    AfterTurn s (t.takeFault c info) :=
  ⟨h.cfg, h.host, h.pins, h.fsm, h.d, h.id, h.env, h.sink⟩

theorem AfterTurn.respond {s t : State} (h : AfterTurn s t) (r : Reply) : AfterTurn s (t.respond r) :=
  ⟨h.cfg, h.host, h.pins, h.fsm, h.d, h.id, h.env, h.sink⟩

theorem afterTurn_closed (s : State) : AfterTurn s s.closed :=
  have h := afterTurn_offered s
  ⟨h.cfg, h.host, h.pins, h.fsm, h.d, h.id, h.env, h.sink⟩

theorem afterTurn_turned (s : State) : AfterTurn s s.turned :=
  have h := afterTurn_offered s
  ⟨h.cfg, h.host, h.pins, h.fsm, h.d, h.id, h.env, h.sink⟩

/-- A turn leaves alone what a read cycle does, but for the sink (43_sequencer.md R186). -/
theorem AfterTurn.keeps {s t : State} (h : AfterTurn s t) : Keeps s t (dataRoles ++ [.we, .oe] ++ modeLines s.cfg) := by
  obtain ⟨-, -, hw, hi, hf, hd, hr⟩ := (afterRead_keeps s s.cur).1
  rw [← h.env] at hw hi hf hd
  exact ⟨h.cfg, h.host, hw, hi, hf, hd, fun r hn => ⟨(State.dir_congr h.pins r).trans (hr r hn).1,
    (State.out_congr h.pins r).trans (hr r hn).2⟩⟩

theorem State.ControlsHigh.congr {t u : State} (h : t.ControlsHigh) (hp : u.pins = t.pins) : u.ControlsHigh :=
  ⟨(State.out_congr hp _).trans h.1, (State.out_congr hp _).trans h.2⟩

/-- `AfterRead` speaks of the configuration, the latches and `FSM` only. -/
theorem AfterRead.congr {s t u : State} {a : Addr} (h : AfterRead s t a) (hc : u.cfg = t.cfg) (hp : u.pins = t.pins)
    (hf : u.fsm = t.fsm) : AfterRead s u a := by
  obtain ⟨hbus, hhigh, haddr, hidle⟩ := h
  have ho := State.out_congr hp
  exact ⟨fun i => ⟨(State.dir_congr hp _).trans (hbus i).1, (ho _).trans (hbus i).2⟩,
    hhigh.congr hp, haddr.congr hc fun r _ => ho r, hf.trans hidle⟩

theorem AfterTurn.afterRead {s t : State} (h : AfterTurn s t) (hn : 1 ≤ addrBits s.cfg) : AfterRead s t s.cur :=
  (afterRead_ends s.cur hn).congr h.cfg h.pins (h.fsm.trans (s.afterRead_fsm s.cur).symm)

theorem AfterTurn.setUp {s t : State} (h : AfterTurn s t) (hs : s.SetUp) : t.SetUp :=
  (hs.afterRead s.cur).of_keeps h.cfg fun r _ => State.dir_congr h.pins r

theorem unanswered_offered (s : State) :
    Unanswered s s.offered (s.turnReads ++ [.sink s.turnByte s.sinkAnswer]) := by
  refine ⟨?_, ⟨?_, ?_, ?_⟩, ?_⟩
  · simp [Emitted, State.offered, afterRead_trace, State.turnReads, State.turnByte, State.readLevels]
  all_goals simp [State.offered]

theorem unanswered_closed (s : State) :
    Unanswered s s.closed (s.turnReads ++ [.sink s.turnByte s.sinkAnswer, .close]) := by
  obtain ⟨he, hf, hr⟩ := unanswered_offered s
  refine ⟨?_, hf, hr⟩
  rw [Emitted] at he ⊢
  rw [State.closed, he]
  simp

theorem unanswered_turned (s : State) : Unanswered s s.turned (s.turnReads ++ [.sink s.turnByte s.sinkAnswer]) := by
  obtain ⟨he, hf, hr⟩ := unanswered_offered s
  exact ⟨he, hf, hr⟩

/-! ### How a turn ends -/

/-- The cursor is an address the shifter can send (70_reset_and_hazards.md R293). -/
theorem State.Cycling.inRange {s : State} (h : s.Cycling) (ha : s.cur.toNat ≤ s.cfg.maxAddr.toNat) :
    s.cur.toNat < 2 ^ s.cfg.addrBits.toNat := ha.trans_lt (valid_maxAddr h.valid)

theorem State.Cycling.offered_killIn {s : State} (h : s.Cycling) : s.offered.killIn = none :=
  s.offered_killIn.trans h.killIn

theorem State.Cycling.closed_killIn {s : State} (h : s.Cycling) : s.closed.killIn ≠ some 0 := by
  rw [State.closed, h.offered_killIn]
  exact nofun

section
variable {s b : State} {es : List Event} (h : Unanswered s b es) (hb : b.Cycling)
  (ha : b.cur.toNat ≤ b.cfg.maxAddr.toNat)

include hb ha

/-- A rejected byte: the sink closed, the fault taken (44_composite.md R217). -/
theorem resume_rejected (hs : b.sinkAnswer = false) : resume .dump b = b.closed.takeFault .sink b.cur := by
  rw [resume, jobTurn, dumpTurn_rejected hb (hb.inRange ha) hs]
  exact if_neg hb.closed_killIn

/-- The last address: the sink closed, the count answered (44_composite.md R216). -/
theorem resume_last (hs : b.sinkAnswer = true) (hc : b.cur = b.cfg.maxAddr) :
    resume .dump b = b.closed.respond (.ok (.count (BitVec.ofNat 32 (b.cfg.maxAddr.toNat + 1)))) := by
  rw [resume, jobTurn, dumpTurn_last hb (hb.inRange ha) hs hc]
  exact if_neg hb.closed_killIn

/-- Any other address: the loop goes on (44_composite.md R215). -/
theorem resume_more (hs : b.sinkAnswer = true) (hc : b.cur ≠ b.cfg.maxAddr) : resume .dump b = b.turned := by
  rw [resume, jobTurn, dumpTurn_more hb (hb.inRange ha) hs hc]
  rfl

/-- Whatever a turn ends in, it leaves the pins and the registers of one read cycle. -/
theorem afterTurn_resume : AfterTurn b (resume .dump b) := by
  cases hs : b.sinkAnswer with
  | false => rw [resume_rejected hb ha hs]; exact (afterTurn_closed b).takeFault ..
  | true =>
    by_cases hc : b.cur = b.cfg.maxAddr
    · rw [resume_last hb ha hs hc]; exact (afterTurn_closed b).respond _
    · rw [resume_more hb ha hs hc]; exact afterTurn_turned b

include h

/-- A rejected byte closes the sink and faults with the cursor (44_composite.md R217). -/
theorem turn_rejected (hs : b.sinkAnswer = false) :
    Answered s (resume .dump b) (.fault .sink b.cur) ∧ Faulted (resume .dump b) .sink b.cur
      ∧ (resume .dump b).cur = b.cur
      ∧ Emitted s (resume .dump b) (es ++ b.turnReads ++ [.sink b.turnByte false, .close]) := by
  have hall := h.trans (unanswered_closed b)
  rw [hs, ← List.append_assoc] at hall
  rw [resume_rejected hb ha hs]
  exact ⟨answered_takeFault hall.responses, ⟨rfl, rfl, rfl⟩, b.offered_cur, hall.emitted⟩

/-- The last address closes the sink and answers with the count (44_composite.md R216). -/
theorem turn_last (hs : b.sinkAnswer = true) (hc : b.cur = b.cfg.maxAddr) :
    Answered s (resume .dump b) (.ok (.count (BitVec.ofNat 32 (b.cfg.maxAddr.toNat + 1))))
      ∧ KeepsFault s (resume .dump b) ∧ (resume .dump b).cur = b.cur
      ∧ Emitted s (resume .dump b) (es ++ b.turnReads ++ [.sink b.turnByte true, .close]) := by
  have hall := h.trans (unanswered_closed b)
  rw [hs, ← List.append_assoc] at hall
  rw [resume_last hb ha hs hc]
  exact ⟨answered_respond hall.responses, hall.fault.respond _, b.offered_cur, hall.emitted⟩

/-- Otherwise the cursor moves on and the command goes on (44_composite.md R215). -/
theorem turn_more (hs : b.sinkAnswer = true) (hc : b.cur ≠ b.cfg.maxAddr) :
    GoesOn s (resume .dump b) .dump ∧ KeepsFault s (resume .dump b) ∧ (resume .dump b).cur = b.cur + 1
      ∧ Emitted s (resume .dump b) (es ++ b.turnReads ++ [.sink b.turnByte true]) := by
  have hall := h.trans (unanswered_turned b)
  rw [hs, ← List.append_assoc] at hall
  rw [resume_more hb ha hs hc]
  exact ⟨⟨rfl, hb.offered_killIn, hall.responses⟩, hall.fault, rfl, hall.emitted⟩

end

/-! ### The command -/

/-- The first turn of `DUMP` begins with the idle setup done and the cursor at 0 (44_composite.md R215). -/
theorem exec_dump {s : State} (hs : s.Undisturbed) (hv : validConfig s.cfg = true) :
    exec .dump s = .next (resume .dump s.dumpBegun) := by
  rw [exec_accepting .dump hs.1, bodyOf, dumpStart_eq hv hs.2]
  rfl

theorem State.dumpBegun_sinkAnswer (s : State) : s.dumpBegun.sinkAnswer = s.sinkAnswer := rfl

theorem State.dumpBegun_out (s : State) (i : Fin 8) : s.dumpBegun.out (.dl i) = s.out (.dl i) :=
  (State.out_congr (s.dumpBegun_pins.trans (State.ran_pins ..).symm) _).trans (ran_idleSetup_bus s i).2

/-- Settles O45: the first turn begins after the idle setup, and each turn ends in one of its three ways. -/
theorem dumpGoesByteByByte : Obligations.DumpGoesByteByByte := by
  refine ⟨fun s hs hv => ?_, fun s hp hk hw hv hsu hc => ?_⟩
  · have hb := State.Cycling.dumpBegun hv hs.2
    have hc : s.dumpBegun.cur.toNat ≤ s.dumpBegun.cfg.maxAddr.toNat := Nat.zero_le _
    have hwent := went_dumpBegun s
    have ht := afterTurn_resume hb hc
    obtain ⟨hbus, hrest⟩ := ht.afterRead (valid_addrBits hv).1
    refine ⟨_, s.dumpBegun.readLevels 0, exec_dump hs hv, State.readLevels_length .., ht.d, ht.id, ht.sink,
      hwent.keeps.trans ht.keeps, ⟨fun i => ⟨(hbus i).1, (hbus i).2.trans (s.dumpBegun_out i)⟩, hrest⟩,
      ht.setUp hb.setUp, ?_⟩
    rw [← s.dumpBegun_sinkAnswer]
    split_ifs with hsink hmax
    · exact turn_rejected hwent.unanswered hb hc hsink
    · have hlast := turn_last hwent.unanswered hb hc (by simpa using hsink) hmax.symm
      rwa [show s.dumpBegun.cfg.maxAddr = 0 from hmax] at hlast
    · exact turn_more hwent.unanswered hb hc (by simpa using hsink) (Ne.symm hmax)
  · have hb : s.Cycling := ⟨hv, hk, hsu⟩
    have ht := afterTurn_resume hb hc
    refine ⟨_, s.readLevels s.cur, step_running hp hw, State.readLevels_length .., ht.d, ht.id, ht.sink, ht.keeps,
      ht.afterRead (valid_addrBits hv).1, ht.setUp hsu, ?_⟩
    split_ifs with hsink hmax
    · exact turn_rejected (.refl s) hb hc hsink
    · exact turn_last (.refl s) hb hc (by simpa using hsink) hmax
    · exact turn_more (.refl s) hb hc (by simpa using hsink) hmax

end Sys2Proof.Machine
end

section
/-! A whole dump: the turns whose bytes the sink accepts, one after the other, and how the last one ends
(44_composite.md R215 to R218; 20_memory.md R62, R63). -/

namespace Sys2Proof.Machine

/-! ### What the sink accepted -/

/-- No byte was rejected and the sink was not closed. -/
def SinkOpen (es : List Event) : Prop := ∀ e ∈ es, e ≠ .close ∧ ∀ w, e ≠ .sink w false

/-- Events that do not concern the sink. -/
def OffSink (es : List Event) : Prop := ∀ e ∈ es, e ≠ .close ∧ ∀ w ok, e ≠ .sink w ok

theorem OffSink.sinkOpen {es : List Event} (h : OffSink es) : SinkOpen es :=
  fun e he => ⟨(h e he).1, fun w => (h e he).2 w false⟩

theorem OffSink.append {es fs : List Event} (h : OffSink es) (k : OffSink fs) : OffSink (es ++ fs) :=
  fun e he => (List.mem_append.mp he).elim (h e) (k e)

theorem SinkOpen.append {es fs : List Event} (h : SinkOpen es) (k : SinkOpen fs) : SinkOpen (es ++ fs) :=
  fun e he => (List.mem_append.mp he).elim (h e) (k e)

@[simp] theorem acceptedBytes_append (es fs : List Event) :
    acceptedBytes (es ++ fs) = acceptedBytes es ++ acceptedBytes fs := List.filterMap_append

theorem OffSink.acceptedBytes {es : List Event} (h : OffSink es) : acceptedBytes es = [] := by
  refine List.filterMap_eq_nil_iff.mpr fun e he => ?_
  cases e with
  | sink v ok => exact absurd rfl ((h _ he).2 v ok)
  | _ => rfl

/-- Steps of pins and delays do not concern the sink. -/
theorem offSink_eventsOf (ops : List PinOp) : OffSink (eventsOf ops) := by
  intro e he
  obtain ⟨op, -, hop⟩ := List.mem_filterMap.mp he
  cases op <;> cases hop <;> exact ⟨nofun, nofun⟩

theorem offSink_idleEvents (c : Config) : OffSink (idleEvents c) := by
  rw [← eventsOf_idleSetup]
  exact offSink_eventsOf _

theorem offSink_busSampleEvents (ls : List Level) : OffSink (busSampleEvents ls) := by
  intro e he
  obtain ⟨n, hn, rfl⟩ := List.getElem_of_mem he
  simp only [busSampleEvents, List.getElem_zipWith]
  exact ⟨nofun, nofun⟩

/-- A read cycle: its steps up to OE# low, its samples, its closing steps (43_sequencer.md R186). -/
theorem readEvents_eq (c : Config) (a : Addr) (ls : List Level) :
    readEvents c a ls = eventsOf (readOpsBefore c a) ++ busSampleEvents ls ++ eventsOf (readClose c) := by
  simp only [readOpsBefore, eventsOf_append, eventsOf_setaddr, readLead, eventsOf_busdir, readEvents, List.append_assoc]
  rfl

theorem offSink_readEvents (c : Config) (a : Addr) (ls : List Level) : OffSink (readEvents c a ls) := by
  rw [readEvents_eq]
  exact ((offSink_eventsOf _).append (offSink_busSampleEvents ls)).append (offSink_eventsOf _)

/-! ### Turns one after the other -/

/-- The state after `n` turns with which the loop goes on. -/
def State.turns (n : Nat) (s : State) : State := State.turned^[n] s

@[simp] theorem State.turns_zero (s : State) : s.turns 0 = s := rfl

theorem State.turns_succ (n : Nat) (s : State) : s.turns (n + 1) = (s.turns n).turned :=
  Function.iterate_succ_apply' ..

theorem State.turns_turned (n : Nat) (s : State) : s.turned.turns n = s.turns (n + 1) :=
  (Function.iterate_succ_apply ..).symm

@[simp] theorem State.turned_cur (s : State) : s.turned.cur = s.cur + 1 := rfl
@[simp] theorem State.turned_phase (s : State) : s.turned.phase = .running .dump := rfl

theorem AfterTurn.same {s t : State} (h : AfterTurn s t) : s.env.Same t.env := h.env ▸ afterRead_same s s.cur

/-- What stays, and what is used up, over `n` turns. -/
structure Turned (s t : State) (n : Nat) : Prop where
  cfg : t.cfg = s.cfg
  host : t.host = s.host
  cur : t.cur = s.cur + BitVec.ofNat 24 n
  sink : t.sinkAnswers = s.sinkAnswers.drop n
  env : s.env.Same t.env

theorem turned_turns (n : Nat) (s : State) : Turned s (s.turns n) n := by
  induction n with
  | zero => exact ⟨rfl, rfl, by simp, rfl, .rfl' _⟩
  | succ n ih =>
    have h := afterTurn_turned (s.turns n)
    rw [s.turns_succ]
    refine ⟨h.cfg.trans ih.cfg, h.host.trans ih.host, ?_, ?_, ih.env.trans h.same⟩
    · rw [State.turned_cur, ih.cur, BitVec.add_assoc, BitVec.ofNat_add]
      rfl
    · rw [h.sink, ih.sink, List.tail_drop]

theorem State.Cycling.turned {s : State} (h : s.Cycling) : s.turned.Cycling :=
  ⟨(afterTurn_turned s).cfg ▸ h.valid, h.offered_killIn, (afterTurn_turned s).setUp h.setUp⟩

theorem State.Cycling.turns {s : State} (h : s.Cycling) (n : Nat) : (s.turns n).Cycling := by
  induction n with
  | zero => exact h
  | succ n ih => exact s.turns_succ n ▸ ih.turned

/-- The cursor after `n` turns, below its bound (44_composite.md R216). -/
theorem cur_turns_toNat {n : Nat} {s : State} (hn : s.cur.toNat + n ≤ s.cfg.maxAddr.toNat) :
    (s.turns n).cur.toNat = s.cur.toNat + n := by
  have hm := s.cfg.maxAddr.isLt
  rw [(turned_turns n s).cur, BitVec.toNat_add, BitVec.toNat_ofNat]
  omega

/-- As long as the sink accepts, each further step is one more turn (log 2). -/
theorem run_turns {n : Nat} {s : State} (hs : s.Cycling) (hk : s.NoKillWaiting)
    (hn : s.cur.toNat + n ≤ s.cfg.maxAddr.toNat) (ha : ∀ k < n, (s.turns k).sinkAnswer = true) :
    Host.Core.run Sys2Proof.core n (resume .dump s) = .next (resume .dump (s.turns n)) := by
  induction n generalizing s with
  | zero => rfl
  | succ n ih =>
    have hmax : s.cur ≠ s.cfg.maxAddr := fun e => by rw [e] at hn; omega
    have hcur : s.turned.cur.toNat = s.cur.toNat + 1 := cur_turns_toNat (n := 1) (by omega)
    have hturn := afterTurn_turned s
    have hk' : s.turned.NoKillWaiting := fun rest => by rw [hturn.host]; exact hk rest
    rw [resume_more hs (by omega) (ha 0 n.succ_pos) hmax, ← State.turns_turned]
    refine (run_succ (M := Sys2Proof.core) (step_running s.turned_phase hk') n).trans ?_
    refine ih hs.turned hk' (by rw [hcur, hturn.cfg]; omega) fun k hkn => ?_
    rw [State.turns_turned]
    exact ha (k + 1) (by omega)

/-! ### Their events -/

/-- The events of a turn whose byte the sink accepts. -/
def State.turnEvents (s : State) : List Event := s.turnReads ++ [.sink s.turnByte true]

/-- The events of `n` such turns. -/
def State.turnsEvents (s : State) (n : Nat) : List Event := (List.range n).flatMap fun k => (s.turns k).turnEvents

theorem State.turnsEvents_succ (s : State) (n : Nat) :
    s.turnsEvents (n + 1) = s.turnsEvents n ++ (s.turns n).turnEvents := by
  simp [State.turnsEvents, List.range_succ]

theorem unanswered_turns {n : Nat} {s : State} (ha : ∀ k < n, (s.turns k).sinkAnswer = true) :
    Unanswered s (s.turns n) (s.turnsEvents n) := by
  induction n with
  | zero => exact .refl s
  | succ n ih =>
    have h := unanswered_turned (s.turns n)
    rw [ha n n.lt_succ_self, ← s.turns_succ] at h
    rw [s.turnsEvents_succ]
    exact (ih fun k hk => ha k (by omega)).trans h

/-- The bytes the sink accepts are those the turns offer, in order (44_composite.md R218). -/
theorem acceptedBytes_turnsEvents (n : Nat) (s : State) :
    acceptedBytes (s.turnsEvents n) = (List.range n).map fun k => (s.turns k).turnByte := by
  induction n with
  | zero => rfl
  | succ n ih =>
    have hone : acceptedBytes (s.turns n).turnEvents = [(s.turns n).turnByte] := by
      rw [State.turnEvents, acceptedBytes_append, State.turnReads, (offSink_readEvents _ _ _).acceptedBytes]
      rfl
    rw [s.turnsEvents_succ, acceptedBytes_append, ih, hone, List.range_succ, List.map_append, List.map_singleton]

theorem sinkOpen_turnsEvents (n : Nat) (s : State) : SinkOpen (s.turnsEvents n) := by
  intro e he
  obtain ⟨k, -, hk⟩ := List.mem_flatMap.mp he
  rcases List.mem_append.mp hk with hk | hk
  · exact (offSink_readEvents _ _ _).sinkOpen e hk
  · rw [List.mem_singleton.mp hk]
    exact ⟨nofun, by simp⟩

/-! ### The listed answers of the sink -/

theorem sinkAnswers_turns {n : Nat} {s : State} {rest : List Bool} (h : s.sinkAnswers = List.replicate n true ++ rest) :
    (s.turns n).sinkAnswers = rest := by
  rw [(turned_turns n s).sink, h, List.drop_left' List.length_replicate]

theorem State.sinkAnswer_cons {s : State} {b : Bool} {rest : List Bool} (h : s.sinkAnswers = b :: rest) :
    s.sinkAnswer = b := by
  rw [State.sinkAnswer, h]
  rfl

theorem sinkAnswer_turns {n : Nat} {s : State} {rest : List Bool} (h : s.sinkAnswers = List.replicate n true ++ rest)
    (k : Nat) (hk : k < n) : (s.turns k).sinkAnswer = true := by
  obtain ⟨m, rfl⟩ := Nat.exists_eq_add_of_lt hk
  refine State.sinkAnswer_cons (rest := List.replicate m true ++ rest) (sinkAnswers_turns ?_)
  rw [h, Nat.add_assoc, List.replicate_add, List.append_assoc, List.replicate_succ, List.cons_append]

/-! ### From the command's word to the turn after `n` accepted bytes -/

theorem State.dumpBegun_cfg (s : State) : s.dumpBegun.cfg = s.cfg := rfl

theorem cfg_dumpTurns (s : State) (n : Nat) : (s.dumpBegun.turns n).cfg = s.cfg :=
  (turned_turns n s.dumpBegun).cfg.trans s.dumpBegun_cfg

/-- The cursor counts the turns (44_composite.md R215). -/
theorem cur_dumpTurns (s : State) (n : Nat) : (s.dumpBegun.turns n).cur = BitVec.ofNat 24 n := by
  rw [(turned_turns n s.dumpBegun).cur, s.dumpBegun_cur]
  exact BitVec.zero_add _

section
variable {s : State} {n : Nat} (hn : n ≤ s.cfg.maxAddr.toNat)
include hn

theorem dumpTurns_inBounds : s.dumpBegun.cur.toNat + n ≤ s.dumpBegun.cfg.maxAddr.toNat := by
  rw [s.dumpBegun_cur, s.dumpBegun_cfg]
  exact (Nat.zero_add n).trans_le hn

theorem cur_dumpTurns_le : (s.dumpBegun.turns n).cur.toNat ≤ (s.dumpBegun.turns n).cfg.maxAddr.toNat := by
  rw [cur_turns_toNat (dumpTurns_inBounds hn), (turned_turns n s.dumpBegun).cfg]
  exact dumpTurns_inBounds hn

variable (hs : s.Undisturbed) (hv : validConfig s.cfg = true) (hk : s.NoKillWaiting)
include hs hv hk

theorem run_dumpTurns (ha : ∀ k < n, (s.dumpBegun.turns k).sinkAnswer = true) :
    Host.Core.run Sys2Proof.core n (resume .dump s.dumpBegun) = .next (resume .dump (s.dumpBegun.turns n)) :=
  run_turns (State.Cycling.dumpBegun hv hs.2) hk (dumpTurns_inBounds hn) ha

end

/-- The events from the command's word to the turn after `n` accepted bytes. -/
def State.dumpEvents (s : State) (n : Nat) : List Event := idleEvents s.cfg ++ s.dumpBegun.turnsEvents n

theorem unanswered_dumpTurns {s : State} {n : Nat} (ha : ∀ k < n, (s.dumpBegun.turns k).sinkAnswer = true) :
    Unanswered s (s.dumpBegun.turns n) (s.dumpEvents n) :=
  (went_dumpBegun s).unanswered.trans (unanswered_turns ha)

/-- Up to the samples of turn `n`, the sink has accepted the bytes of the turns before it. -/
theorem acceptedBytes_dumpEvents (s : State) (n : Nat) :
    acceptedBytes (s.dumpEvents n ++ (s.dumpBegun.turns n).turnReads) =
      (List.range n).map fun k => (s.dumpBegun.turns k).turnByte := by
  rw [State.dumpEvents, acceptedBytes_append, acceptedBytes_append, (offSink_idleEvents _).acceptedBytes,
    acceptedBytes_turnsEvents, State.turnReads, (offSink_readEvents _ _ _).acceptedBytes, List.nil_append,
    List.append_nil]

theorem sinkOpen_dumpEvents (s : State) (n : Nat) : SinkOpen (s.dumpEvents n ++ (s.dumpBegun.turns n).turnReads) :=
  ((offSink_idleEvents _).sinkOpen.append (sinkOpen_turnsEvents n _)).append (offSink_readEvents _ _ _).sinkOpen

/-- Settles O47: the turns before the rejected byte go on, and its own turn closes the sink and faults. -/
theorem dumpStopsAtARejectedByte : Obligations.DumpStopsAtARejectedByte := by
  intro s n rest hs hv hk hn ha
  have hsink := sinkAnswer_turns (s := s.dumpBegun) ha
  have hend := turn_rejected (unanswered_dumpTurns hsink) ((State.Cycling.dumpBegun hv hs.2).turns n)
    (cur_dumpTurns_le hn) (State.sinkAnswer_cons (sinkAnswers_turns ha))
  rw [cur_dumpTurns] at hend
  obtain ⟨hanswer, hfault, -, hevents⟩ := hend
  refine ⟨_, _, _, _, exec_dump hs hv, run_dumpTurns hn hs hv hk hsink, hanswer, hfault, hevents, ?_,
    sinkOpen_dumpEvents s n⟩
  rw [acceptedBytes_dumpEvents, List.length_map, List.length_range]

/-! ### The chip behind a dump (20_memory.md R62, R63, R68) -/

theorem State.ChipAt.dumpBegun {s : State} (hv : validConfig s.cfg = true) (hk : s.killIn = none) (h : ChipReady s) :
    s.dumpBegun.ChipAt .array := by
  obtain ⟨-, hhigh, hw, hm, hc⟩ := State.ChipAt.idleSetup hv hk h
  rw [State.ran_env, ← s.dumpBegun_env] at hw hm hc
  have hp : s.dumpBegun.pins = (s.ran (idleSetupOps s.cfg)).pins := by rw [s.dumpBegun_pins, State.ran_pins]
  exact ⟨.dumpBegun hv hk, hhigh.congr hp, hw, hm, hc⟩

/-- A turn reads the chip's byte at the cursor and leaves the chip in its read mode. -/
theorem AfterTurn.chip {s t : State} (h : AfterTurn s t) (hs : s.ChipAt .array) :
    s.turnByte = s.env.flashByte s.cur ∧ t.ControlsHigh ∧ t.env.wiring = .flash ∧ t.env.fmode = .array
      ∧ t.env.contention = false := by
  obtain ⟨⟨-, hhigh, hw, hm, hc⟩, hbyte⟩ := hs.read_array s.cur
  rw [← h.env] at hw hm hc
  exact ⟨hbyte, hhigh.congr h.pins, hw, hm, hc⟩

theorem State.ChipAt.turns {s : State} (h : s.ChipAt .array) (n : Nat) : (s.turns n).ChipAt .array := by
  induction n with
  | zero => exact h
  | succ n ih =>
    obtain ⟨-, hhigh, hw, hm, hc⟩ := (afterTurn_turned _).chip ih
    exact s.turns_succ n ▸ ⟨ih.cycling.turned, hhigh, hw, hm, hc⟩

/-- Turn `k` of a dump reads the chip's byte at `k` (20_memory.md R63). -/
theorem turnByte_dumpTurns {s : State} (h : s.dumpBegun.ChipAt .array) (k : Nat) :
    (s.dumpBegun.turns k).turnByte = s.env.flashByte (BitVec.ofNat 24 k) := by
  have hbegun : s.env.Same s.dumpBegun.env := s.dumpBegun_env ▸ envAfter_same ..
  rw [((afterTurn_turned _).chip (h.turns k)).1, (hbegun.trans (turned_turns k s.dumpBegun).env).flashByte,
    cur_dumpTurns]

/-- Settles O46: each turn's byte is the chip's at the cursor, which counts the turns up to `MAX_ADDR`. -/
theorem dumpCopiesTheFlash : Obligations.DumpCopiesTheFlash := by
  intro s rest hs hv hk hc ha
  have hlist : s.dumpBegun.sinkAnswers = List.replicate s.cfg.maxAddr.toNat true ++ true :: rest := by
    rw [← List.singleton_append, ← List.append_assoc, ← List.replicate_succ']
    exact ha
  have hsink := sinkAnswer_turns hlist
  have hchip := State.ChipAt.dumpBegun hv hs.2 hc
  have hcyc := (hchip.turns s.cfg.maxAddr.toNat).cycling
  have hin := cur_dumpTurns_le (Nat.le_refl s.cfg.maxAddr.toNat)
  have hcur : (s.dumpBegun.turns s.cfg.maxAddr.toNat).cur = s.cfg.maxAddr := by
    rw [cur_dumpTurns, BitVec.ofNat_toNat, BitVec.setWidth_eq]
  have hlast := sinkAnswers_turns hlist
  have hend := turn_last (unanswered_dumpTurns hsink) hcyc hin (State.sinkAnswer_cons hlast)
    (hcur.trans (congrArg Config.maxAddr (cfg_dumpTurns ..).symm))
  rw [cfg_dumpTurns, hcur] at hend
  obtain ⟨hanswer, -, hcur', hevents⟩ := hend
  have hturn := afterTurn_resume hcyc hin
  obtain ⟨-, -, -, hmode, hcalm⟩ := hturn.chip (hchip.turns _)
  refine ⟨_, _, _, exec_dump hs hv, run_dumpTurns le_rfl hs hv hk hsink, hanswer, hevents, ?_, hmode, hcalm, hcur',
    by rw [hturn.sink, hlast]; rfl⟩
  rw [acceptedBytes_append, acceptedBytes_dumpEvents, List.range_succ, List.map_append]
  simp only [turnByte_dumpTurns hchip]
  rfl

end Sys2Proof.Machine
end

section
/-! A command of the diagnostics on its way: what its steps, its bus reads and its prints leave, and a loop that goes on
turn by turn (45_diagnostics.md R232 to R235). -/

namespace Sys2Proof.Machine

/-! ### What a stretch of a command leaves -/

/-- A command has gone on with these events and has answered nothing: of the latches it may have changed those of the
listed roles, of the registers `D` and `FSM`. -/
structure WentOn (s t : State) (rs : List Role) (es : List Event) : Prop where
  keeps : Keeps s t rs
  unanswered : Unanswered s t es
  sink : KeepsSink s t
  killIn : t.killIn = s.killIn
  id : t.id = s.id
  cur : t.cur = s.cur

/-- A longer list of roles that may change says less. -/
theorem Keeps.mono {s t : State} {rs rs' : List Role} (h : Keeps s t rs) (hsub : rs ⊆ rs') : Keeps s t rs' := by
  obtain ⟨hcfg, hhost, hwiring, hidle, hflash, hid, hpins⟩ := h
  exact ⟨hcfg, hhost, hwiring, hidle, hflash, hid, fun r hr => hpins r fun hx => hr (hsub hx)⟩

theorem WentOn.cfg {s t : State} {rs : List Role} {es : List Event} (h : WentOn s t rs es) : t.cfg = s.cfg := h.keeps.1

theorem WentOn.host {s t : State} {rs : List Role} {es : List Event} (h : WentOn s t rs es) : t.host = s.host :=
  h.keeps.2.1

theorem WentOn.mono {s t : State} {rs rs' : List Role} {es : List Event} (h : WentOn s t rs es) (hsub : rs ⊆ rs') :
    WentOn s t rs' es :=
  ⟨h.keeps.mono hsub, h.unanswered, h.sink, h.killIn, h.id, h.cur⟩

theorem WentOn.trans {s t u : State} {rs : List Role} {es fs : List Event} (h : WentOn s t rs es)
    (k : WentOn t u rs fs) : WentOn s u rs (es ++ fs) :=
  ⟨h.keeps.trans k.keeps, h.unanswered.trans k.unanswered, h.sink.trans k.sink, k.killIn.trans h.killIn,
    k.id.trans h.id, k.cur.trans h.cur⟩

theorem wentOn_nil (s : State) (rs : List Role) : WentOn s s rs [] :=
  ⟨⟨rfl, rfl, rfl, rfl, fun _ => rfl, rfl, fun _ _ => ⟨rfl, rfl⟩⟩, .refl s, ⟨rfl, rfl⟩, rfl, rfl, rfl⟩

theorem wentOn_ran (s : State) {ops : List PinOp} {rs : List Role}
    (h : ∀ op ∈ ops, ∀ r, op.role = some r → r ∈ rs) : WentOn s (s.ran ops) rs (eventsOf ops) :=
  ⟨keeps_ran (r := .ok .empty) h, ⟨rfl, ⟨rfl, rfl, rfl⟩, rfl⟩, keepsSink_ran s ops, rfl, rfl, rfl⟩

/-- The levels the environment presents on the bus (42_data_bus.md R164). -/
def State.busLevels (s : State) : List Level := Env.levels s.pins dataLines s.env

theorem State.busLevels_length (s : State) : s.busLevels.length = 8 := Env.levels_length ..

/-- A bus read that nothing stops leads here (42_data_bus.md R164). -/
structure BusRead (s u : State) : Prop where
  runs : busRead s = .ok (composeByte s.busLevels) u
  wentOn : WentOn s u [] (busSampleEvents s.busLevels)
  pins : u.pins = s.pins
  d : u.d = composeByte s.busLevels
  fsm : u.fsm = s.fsm

theorem exists_busRead {s : State} (hk : s.killIn = none) (hm : ∀ i, mapped s.cfg (.dl i) = true)
    (hd : ∀ i, s.dir (.dl i) = some .input) : ∃ u, BusRead s u :=
  have h := afterBusRead_sampledBus s
  ⟨s.sampledBus, busRead_ready hk hm hd, ⟨h.keeps, ⟨h.events, h.fault, h.responses⟩, h.sink, h.killIn, h.id, h.cur⟩,
    s.sampledBus_pins, h.byte, h.fsm⟩

theorem BusRead.cfg {s u : State} (h : BusRead s u) : u.cfg = s.cfg := h.wentOn.cfg

/-- The state after a print, no kill set (00_scope.md R12). -/
def State.printed (s : State) (x : Printed) : State := { s with trace := s.trace ++ [.print x] }

theorem printValue_ok {s : State} (hk : s.killIn = none) (x : Printed) : printValue x s = .ok () (s.printed x) := by
  rw [printValue, emit_ok (by simp [hk])]
  simp [State.logged, State.printed, hk]

theorem wentOn_printed (s : State) (x : Printed) : WentOn s (s.printed x) [] [.print x] :=
  ⟨⟨rfl, rfl, rfl, rfl, fun _ => rfl, rfl, fun _ _ => ⟨rfl, rfl⟩⟩, ⟨rfl, ⟨rfl, rfl, rfl⟩, rfl⟩, ⟨rfl, rfl⟩, rfl, rfl,
    rfl⟩

/-! ### Commands that go on -/

/-- The state at a boundary of a command's loop. -/
def State.going (s : State) (j : Job) : State := { s with phase := .running j }

@[simp] theorem State.going_cfg (s : State) (j : Job) : (s.going j).cfg = s.cfg := rfl
@[simp] theorem State.going_pins (s : State) (j : Job) : (s.going j).pins = s.pins := rfl
@[simp] theorem State.going_d (s : State) (j : Job) : (s.going j).d = s.d := rfl
@[simp] theorem State.going_fsm (s : State) (j : Job) : (s.going j).fsm = s.fsm := rfl
@[simp] theorem State.going_killIn (s : State) (j : Job) : (s.going j).killIn = s.killIn := rfl
@[simp] theorem State.going_phase (s : State) (j : Job) : (s.going j).phase = .running j := rfl

/-- The steps of a turn do not look at where the command stands. -/
theorem State.going_ran (s : State) (j j' : Job) (ops : List PinOp) :
    ((s.going j).ran ops).going j' = (s.ran ops).going j' := rfl

/-- A command whose pseudocode stands at a boundary of its loop. -/
theorem exec_going {s t : State} {i : Instr} {j : Job} (hs : s.Undisturbed) (h : bodyOf i s = .ok (.more j) t) :
    exec i s = .next (t.going j) := by
  rw [exec_accepting i hs.1, h]
  rfl

/-- A turn after which the loop goes on. -/
theorem resume_going {s t : State} {j j' : Job} (h : jobTurn j s = .ok (.more j') t) : resume j s = t.going j' := by
  rw [resume, h]
  rfl

theorem WentOn.going {s t : State} {rs : List Role} {es : List Event} (h : WentOn s t rs es) (j : Job) :
    WentOn s (t.going j) rs es := by
  obtain ⟨hkeeps, ⟨hev, hfault, hresp⟩, hsink, hkill, hid, hcur⟩ := h
  exact ⟨hkeeps, ⟨hev, hfault, hresp⟩, hsink, hkill, hid, hcur⟩

/-- A command that has answered nothing and is running goes on. -/
theorem WentOn.goesOn {s t : State} {rs : List Role} {es : List Event} {j : Job} (h : WentOn s t rs es)
    (hk : s.killIn = none) (hp : t.phase = .running j) : GoesOn s t j :=
  ⟨hp, h.killIn.trans hk, h.unanswered.responses⟩

theorem WentOn.noKillWaiting {s t : State} {rs : List Role} {es : List Event} (h : WentOn s t rs es)
    (hw : s.NoKillWaiting) : t.NoKillWaiting := by
  intro rest
  rw [h.host]
  exact hw rest

/-- One more step after several. -/
theorem run_snoc {M : Host.Core} {n : Nat} {s t u : M.State} (h : M.run n s = .next t) (hu : M.step t = .next u) :
    M.run (n + 1) s = .next u := by
  induction n generalizing s with
  | zero =>
    cases h
    exact run_succ hu 0
  | succ n ih =>
    cases hs : M.step s with
    | next s' =>
      rw [run_succ hs] at h ⊢
      exact ih h
    | fault r => simp [Host.Core.run, hs] at h
    | refused r => simp [Host.Core.run, hs] at h

/-- What holds after the first turn of a loop and is kept by each further one holds after any number of steps, each of
which is one turn (log 2). -/
theorem run_turns_of_job {j : Job} {P : Nat → State → Prop} {s : State} (h : P 0 s)
    (hrun : ∀ n t, P n t → t.phase = .running j ∧ t.NoKillWaiting)
    (hturn : ∀ n t, P n t → P (n + 1) (resume j t)) (n : Nat) :
    ∃ t, Host.Core.run Sys2Proof.core n s = .next t ∧ P n t := by
  induction n with
  | zero => exact ⟨s, rfl, h⟩
  | succ n ih =>
    obtain ⟨t, ht, hP⟩ := ih
    obtain ⟨hphase, hwait⟩ := hrun n t hP
    exact ⟨_, run_snoc ht (step_running hphase hwait), hturn n t hP⟩

end Sys2Proof.Machine
end

section
/-! `OETEST`: its turns are steps of one pin, so its whole run is one list of steps (45_diagnostics.md R234). -/

namespace Sys2Proof.Machine

/-- The steps of `OETEST` up to the end of its turn `n`, the first being turn 0. -/
def oeTestOps (c : Config) (n : Nat) : List PinOp :=
  idleSetupOps c ++ (List.range (n + 1)).flatMap fun _ => oePeriod c

/-- The state at the end of turn `n`. -/
def State.oeToggled (s : State) (n : Nat) : State := (s.ran (oeTestOps s.cfg n)).going .oeTest

theorem oeTestOps_zero (c : Config) : oeTestOps c 0 = idleSetupOps c ++ oePeriod c := by
  rw [oeTestOps, List.range_one, List.flatMap_singleton]

theorem oeTestOps_succ (c : Config) (n : Nat) : oeTestOps c (n + 1) = oeTestOps c n ++ oePeriod c := by
  rw [oeTestOps, List.range_succ, List.flatMap_append, List.flatMap_singleton, ← List.append_assoc, oeTestOps]

/-! ### What a step of the periods is -/

theorem oePeriods_keepsDirections {c : Config} {n : Nat} :
    ∀ op ∈ (List.range n).flatMap fun _ => oePeriod c, op.keepsDirections = true := by
  intro op hop
  obtain ⟨-, -, hop⟩ := List.mem_flatMap.mp hop
  simp only [oePeriod, List.mem_cons, List.not_mem_nil, or_false] at hop
  rcases hop with rfl | rfl | rfl | rfl <;> rfl

theorem oePeriods_role {c : Config} {n : Nat} {op : PinOp} {r : Role}
    (h : op ∈ (List.range n).flatMap fun _ => oePeriod c) (hr : op.role = some r) : r = .oe := by
  obtain ⟨-, -, h⟩ := List.mem_flatMap.mp h
  simp only [oePeriod, List.mem_cons, List.not_mem_nil, or_false] at h
  rcases h with rfl | rfl | rfl | rfl <;> cases hr <;> rfl

theorem oePeriods_no_enter {c : Config} {n : Nat} :
    ∀ op ∈ (List.range n).flatMap fun _ => oePeriod c, ∀ f, op ≠ .enter f :=
  no_enter_flatMap fun _ => by simp [oePeriod]

theorem oeTestOps_role {c : Config} {n : Nat} {op : PinOp} {r : Role} (h : op ∈ oeTestOps c n)
    (hr : op.role = some r) : r ∈ dataRoles ++ [.we, .oe] ++ modeLines c := by
  rcases List.mem_append.mp h with h | h
  · exact idleSetupOps_role h hr
  · rw [oePeriods_role h hr]
    simp

theorem eventsOf_oeTest (c : Config) (n : Nat) :
    eventsOf (oeTestOps c n) = idleEvents c ++ (List.range (n + 1)).flatMap fun _ =>
      [Event.drv .oe false, .dly (1000 * c.tOeHalf.toNat), .drv .oe true, .dly (1000 * c.tOeHalf.toNat)] := by
  rw [oeTestOps, eventsOf_append, eventsOf_idleSetup, eventsOf_flatMap]
  rfl

/-! ### The pins at the end of a turn -/

theorem oeToggled_pins (s : State) (n : Nat) : (s.oeToggled n).pins =
    pinsAfter ((List.range (n + 1)).flatMap fun _ => oePeriod s.cfg) (s.ran (idleSetupOps s.cfg)).pins := by
  rw [State.oeToggled, State.going_pins, State.ran_pins, oeTestOps, pinsAfter_append, State.ran_pins]

theorem oeToggled_dir (s : State) (n : Nat) (r : Role) :
    (s.oeToggled n).dir r = (s.ran (idleSetupOps s.cfg)).dir r := by
  rw [State.dir, oeToggled_pins, pinsAfter_dir oePeriods_keepsDirections, State.dir]

theorem oeToggled_out (s : State) (n : Nat) (r : Role) : (s.oeToggled n).out r =
    (lastLevel r ((List.range (n + 1)).flatMap fun _ => oePeriod s.cfg)).or ((s.ran (idleSetupOps s.cfg)).out r) := by
  rw [State.out, oeToggled_pins, pinsAfter_out oePeriods_keepsDirections, State.out]

theorem oeToggled_setUp {s : State} (hv : validConfig s.cfg = true) (n : Nat) : (s.oeToggled n).SetUp :=
  (ran_idleSetup_setUp (valid_required hv)).1.of_keeps rfl fun r _ => oeToggled_dir s n r

/-- Each period ends with OE# high, and none touches WE#. -/
theorem oeToggled_high (s : State) (n : Nat) : (s.oeToggled n).ControlsHigh := by
  constructor
  · rw [oeToggled_out, lastLevel_none fun op hop e => by cases oePeriods_role hop e]
    exact (ran_idleSetup_controls s (by simp)).2
  · rw [oeToggled_out, List.range_succ, lastLevel_flatMap_last (l := true) _ _ (by simp [oePeriod, lastLevel])]
    rfl

theorem oeToggled_bus (s : State) (n : Nat) : busDir (s.oeToggled n).pins = .input :=
  busDir_input fun i => (oeToggled_dir s n _).trans (ran_idleSetup_bus s i).1

theorem oeToggled_phase (s : State) (n : Nat) : (s.oeToggled n).phase = .running .oeTest := by
  rw [State.oeToggled, State.going_phase]

theorem oeToggled_d (s : State) (n : Nat) : (s.oeToggled n).d = s.d := by
  rw [State.oeToggled, State.going_d, State.ran_d]

theorem oeToggled_fsm (s : State) (n : Nat) : (s.oeToggled n).fsm = .idle := by
  rw [State.oeToggled, State.going_fsm, State.ran_fsm, oeTestOps, fsmAfter, List.foldl_append]
  exact (fsmAfter_of_no_enter oePeriods_no_enter _).trans (fsmAfter_idleSetup ..)

theorem wentOn_oeToggled (s : State) (n : Nat) :
    WentOn s (s.oeToggled n) (dataRoles ++ [.we, .oe] ++ modeLines s.cfg) (eventsOf (oeTestOps s.cfg n)) :=
  (wentOn_ran s fun _ hop _ hr => oeTestOps_role hop hr).going _

/-! ### The turns -/

/-- A turn with OE# an output toggles it once. -/
theorem oeTurn_ready {s : State} (hk : s.killIn = none) (h : s.SetUp) :
    oeTurn s = .ok (.more .oeTest) (s.ran (oePeriod s.cfg)) := by
  have hready : AllReady s.cfg (oePeriod s.cfg) s.pins := by
    refine allReady_of_static (by simp [oePeriod, PinOp.keepsDirections]) fun op hop => ?_
    simp only [oePeriod, List.mem_cons, List.not_mem_nil, or_false] at hop
    rcases hop with rfl | rfl | rfl | rfl
    · exact h.oe
    · trivial
    · exact h.oe
    · trivial
  rw [oeTurn, act_bind_ok (runWith_ready hk hready), act_pure]

theorem exec_oetest {s : State} (hs : s.Undisturbed) (hv : validConfig s.cfg = true) :
    exec .oetest s = .next (s.oeToggled 0) := by
  refine exec_going hs ?_
  rw [oeTestOps_zero, State.ran_append, bodyOf, oeStart, act_bind_ok (idleSetup_ready hs.2 (valid_required hv))]
  exact oeTurn_ready hs.2 (ran_idleSetup_setUp (valid_required hv)).1

theorem resume_oeToggled {s : State} (hk : s.killIn = none) (hv : validConfig s.cfg = true) (n : Nat) :
    resume .oeTest (s.oeToggled n) = s.oeToggled (n + 1) := by
  have hturn : jobTurn .oeTest (s.oeToggled n) = .ok (.more .oeTest) ((s.oeToggled n).ran (oePeriod s.cfg)) :=
    oeTurn_ready (s := s.oeToggled n) hk (oeToggled_setUp hv n)
  rw [resume_going hturn, State.oeToggled, State.oeToggled, State.going_ran, oeTestOps_succ, State.ran_append]

/-- Settles O51: each turn is one more period of steps after the idle setup. -/
theorem oetestTogglesForEver : Obligations.OetestTogglesForEver := by
  intro s n hs hv hw
  obtain ⟨t, hrun, rfl⟩ := run_turns_of_job (j := .oeTest) (P := fun n t => t = s.oeToggled n) rfl
    (fun n t ht => ht ▸ ⟨oeToggled_phase s n, (wentOn_oeToggled s n).noKillWaiting hw⟩)
    (fun n t ht => ht ▸ resume_oeToggled hs.2 hv n) n
  have h := wentOn_oeToggled s n
  refine ⟨_, _, exec_oetest hs hv, hrun, (wentOn_oeToggled s 0).goesOn hs.2 (oeToggled_phase s 0),
    h.goesOn hs.2 (oeToggled_phase s n), ?_, oeToggled_setUp hv n, oeToggled_high s n, oeToggled_bus s n,
    oeToggled_fsm s n, h.keeps, oeToggled_d s n, h.id, h.cur, h.unanswered.fault, h.sink⟩
  rw [← eventsOf_oeTest]
  exact h.unanswered.emitted

end Sys2Proof.Machine
end

section
/-! `INECHO`: what it touches first, and its loop of bus reads (45_diagnostics.md R232). -/

namespace Sys2Proof.Machine

/-! ### The pins before the loop -/

/-- Stretches of steps each of which is ready wherever it starts. -/
theorem allReady_flatMap {α : Type} {c : Config} {l : List α} {f : α → List PinOp} {p : Pins}
    (h : ∀ x ∈ l, ∀ q, AllReady c (f x) q) : AllReady c (l.flatMap f) p := by
  induction l generalizing p with
  | nil => exact .nil
  | cons x l ih =>
    rw [List.flatMap_cons, allReady_append]
    exact ⟨h x List.mem_cons_self p, ih fun y hy => h y (List.mem_cons_of_mem _ hy)⟩

/-- Lines made outputs and driven, each to a level of its own. -/
def touchOps (l : List (Role × Level)) : List PinOp := l.flatMap fun x => setUp x.1 x.2

theorem touchOps_role {l : List (Role × Level)} {op : PinOp} {r : Role} (h : op ∈ touchOps l) (hr : op.role = some r) :
    r ∈ l.map Prod.fst := by
  obtain ⟨x, hx, h⟩ := List.mem_flatMap.mp h
  rw [setUp_role h] at hr
  cases hr
  exact List.mem_map_of_mem hx

/-- Each of several distinct lines ends as an output at its level. -/
theorem pinsAfter_touch {l : List (Role × Level)} (hn : (l.map Prod.fst).Nodup) {x : Role × Level} (hx : x ∈ l)
    (p : Pins) : pinAt (pinsAfter (touchOps l) p) x.1 = { dir := some .output, out := some x.2 } := by
  induction l generalizing p with
  | nil => cases hx
  | cons y l ih =>
    rw [List.map_cons, List.nodup_cons] at hn
    rw [touchOps, List.flatMap_cons, ← touchOps, pinsAfter_append]
    rcases List.mem_cons.mp hx with rfl | hx
    · rw [pinsAfter_other fun op hop hr => hn.1 (touchOps_role hop hr), pinsAfter_setUp]
    · exact ih hn.2 hx _

theorem echoOps_eq (c : Config) : echoOps c = touchOps (echoTouches c) ++ busdirOps .input := rfl

theorem echoTouches_eq (c : Config) : echoTouches c = (match c.echoWe with
      | some l => [(.we, l)]
      | none => [])
    ++ (match c.echoOe with
      | some l => [(.oe, l)]
      | none => []) := by
  unfold echoTouches
  cases c.echoWe <;> cases c.echoOe <;> rfl

/-- `INECHO` touches WE# and OE# at most, each once (45_diagnostics.md R232). -/
theorem echoTouches_sublist (c : Config) : ((echoTouches c).map Prod.fst).Sublist [.we, .oe] := by
  unfold echoTouches
  cases c.echoWe <;> cases c.echoOe <;> simp

theorem echoTouches_notin_dataRoles {c : Config} {x : Role × Level} (hx : x ∈ echoTouches c) (i : Fin 8) :
    x.1 ≠ .dl i := by
  have h := (echoTouches_sublist c).subset (List.mem_map_of_mem hx)
  rintro e
  simp [e] at h

theorem echoOps_role {c : Config} {op : PinOp} {r : Role} (h : op ∈ echoOps c) (hr : op.role = some r) :
    r ∈ dataRoles ++ (echoTouches c).map Prod.fst := by
  rcases List.mem_append.mp h with h | h
  · exact List.mem_append_right _ (touchOps_role h hr)
  · exact List.mem_append_left _ (busdirOps_role_mem h hr)

theorem echoOps_ready {c : Config} {p : Pins} (hm : ∀ i, mapped c (.dl i) = true)
    (ht : ∀ x ∈ echoTouches c, mapped c x.1 = true) : AllReady c (echoOps c) p := by
  rw [echoOps_eq, allReady_append]
  exact ⟨allReady_flatMap fun x hx q => setUp_ready (ht x hx), busdirOps_ready _ hm⟩

/-- Where the loop begins the bus is an input, its output latches as they were. -/
theorem ran_echo_bus (s : State) (i : Fin 8) : (s.ran (echoOps s.cfg)).dir (.dl i) = some .input
    ∧ (s.ran (echoOps s.cfg)).out (.dl i) = s.out (.dl i) := by
  have htouch : pinAt (pinsAfter (touchOps (echoTouches s.cfg)) s.pins) (.dl i) = pinAt s.pins (.dl i) := by
    refine pinsAfter_other (fun op hop hr => ?_) _
    obtain ⟨x, hx, h⟩ := List.mem_map.mp (touchOps_role hop hr)
    exact echoTouches_notin_dataRoles hx i h
  simp only [State.dir, State.out, State.ran_pins, echoOps_eq, pinsAfter_append, pinsAfter_busdir,
    pinAt_setDirPins_dir, pinAt_setDirPins_out, htouch]
  simp

/-- Where the loop begins each touched line is an output at its level. -/
theorem ran_echo_touched (s : State) {x : Role × Level} (hx : x ∈ echoTouches s.cfg) :
    (s.ran (echoOps s.cfg)).dir x.1 = some .output ∧ (s.ran (echoOps s.cfg)).out x.1 = some x.2 := by
  have hn : ((echoTouches s.cfg).map Prod.fst).Nodup := (echoTouches_sublist s.cfg).nodup (by decide)
  rw [State.dir, State.out, State.ran_pins, echoOps_eq, pinsAfter_append,
    pinsAfter_busdir_other (echoTouches_notin_dataRoles hx), pinsAfter_touch hn hx]
  exact ⟨rfl, rfl⟩

/-! ### A turn -/

/-- The events of a turn whose samples answer these levels (45_diagnostics.md R232). -/
def echoEvents (c : Config) (ls : List Level) : List Event :=
  busSampleEvents ls ++ [Event.print (.byte (composeByte ls)), Event.dly (1000 * c.tEcho.toNat)]

/-- After the bus read of a turn, its print and its delay. -/
def State.echoed (u : State) (v : Byte) : State := (u.printed (.byte v)).ran [.delay (milliseconds u.cfg.tEcho)]

theorem wentOn_echoed (u : State) (v : Byte) :
    WentOn u (u.echoed v) [] [.print (.byte v), .dly (1000 * u.cfg.tEcho.toNat)] :=
  (wentOn_printed u (.byte v)).trans
    (wentOn_ran (u.printed (.byte v)) (ops := [.delay (milliseconds u.cfg.tEcho)]) (by simp [PinOp.role]))

theorem echoTurn_ready {s u : State} (hk : s.killIn = none) (h : BusRead s u) :
    echoTurn s = .ok (.more .inEcho) (u.echoed (composeByte s.busLevels)) := by
  have hk' : u.killIn = none := h.wentOn.killIn.trans hk
  have hdelay (v : Byte) : runWith (fun c => [.delay (milliseconds c.tEcho)]) (u.printed (.byte v)) =
      .ok () (u.echoed v) := runWith_ready (s := u.printed (.byte v)) hk' (.cons trivial .nil)
  rw [echoTurn, act_bind_ok h.runs, act_bind_ok (printValue_ok hk' _), act_bind_ok (hdelay _), act_pure]

/-! ### Turn after turn -/

/-- The loop has emitted these turns, one list of levels for each; its pins are those it began with. -/
structure Echoed (s : State) (lss : List (List Level)) (t : State) : Prop where
  wentOn : WentOn s t (dataRoles ++ (echoTouches s.cfg).map Prod.fst)
    (eventsOf (echoOps s.cfg) ++ lss.flatMap (echoEvents s.cfg))
  pins : t.pins = (s.ran (echoOps s.cfg)).pins
  fsm : t.fsm = s.fsm
  levels : ∀ ls ∈ lss, ls.length = 8

/-- The loop before its first turn. -/
theorem echoed_begin (s : State) : Echoed s [] (s.ran (echoOps s.cfg)) where
  wentOn := by
    rw [List.flatMap_nil, List.append_nil]
    exact wentOn_ran s fun _ hop _ hr => echoOps_role hop hr
  pins := rfl
  fsm := fsmAfter_of_no_enter (echoOps_no_enter s.cfg) s.fsm
  levels := nofun

/-- One more turn: its bus read finds the bus an input, and it changes no latch. -/
theorem Echoed.turn {s t : State} {lss : List (List Level)} (hk : s.killIn = none)
    (hm : ∀ i, mapped s.cfg (.dl i) = true) (h : Echoed s lss t) :
    (resume .inEcho t).phase = .running .inEcho ∧ Echoed s (lss ++ [t.busLevels]) (resume .inEcho t) := by
  have hcfg := h.wentOn.cfg
  have hk' := h.wentOn.killIn.trans hk
  obtain ⟨u, hu⟩ := exists_busRead hk' (hcfg ▸ hm) fun i => by
    rw [State.dir_congr h.pins]
    exact (ran_echo_bus s i).1
  rw [resume_going (j := .inEcho) (echoTurn_ready hk' hu)]
  refine ⟨rfl, ?_, hu.pins.trans h.pins, hu.fsm.trans h.fsm, ?_⟩
  · have hall := h.wentOn.trans
      ((hu.wentOn.trans (wentOn_echoed u (composeByte t.busLevels))).mono (List.nil_subset _))
    rw [hu.cfg, hcfg, List.append_assoc] at hall
    rw [List.flatMap_append, List.flatMap_singleton]
    exact hall.going _
  · intro ls hls
    rcases List.mem_append.mp hls with hls | hls
    · exact h.levels ls hls
    · rw [List.mem_singleton.mp hls]
      exact t.busLevels_length

theorem exec_inecho {s : State} (hs : s.Undisturbed) (hm : ∀ i, mapped s.cfg (.dl i) = true)
    (ht : ∀ x ∈ echoTouches s.cfg, mapped s.cfg x.1 = true) :
    exec .inecho s = .next (resume .inEcho (s.ran (echoOps s.cfg))) := by
  rw [exec_accepting .inecho hs.1, bodyOf, echoStart, act_bind_ok (runWith_ready hs.2 (echoOps_ready hm ht))]
  rfl

/-- What holds at the end of turn `n` of the command, the first being turn 0. -/
def EchoedTurns (s : State) (n : Nat) (t : State) : Prop :=
  t.phase = .running .inEcho ∧ ∃ lss, lss.length = n + 1 ∧ Echoed s lss t

/-- Settles O49: the steps before the loop make every turn ready, and a turn changes no latch. -/
theorem inechoNeverResponds : Obligations.InechoNeverResponds := by
  refine ⟨⟨rfl, rfl⟩, fun s n touched hs hw hm ht htouched => ?_⟩
  obtain rfl : touched = echoTouches s.cfg := htouched.trans (echoTouches_eq s.cfg).symm
  have hturn {lss : List (List Level)} {t : State} (h : Echoed s lss t) :
      EchoedTurns s lss.length (resume .inEcho t) :=
    ⟨(h.turn hs.2 hm).1, _, by simp, (h.turn hs.2 hm).2⟩
  have hfirst := hturn (echoed_begin s)
  obtain ⟨t, hrun, hphase, lss, hlen, h⟩ := run_turns_of_job (j := .inEcho) hfirst
    (fun k u ⟨hp, _, _, hu⟩ => ⟨hp, hu.wentOn.noKillWaiting hw⟩) (fun k u ⟨_, _, hl, hu⟩ => hl ▸ hturn hu) n
  obtain ⟨hphase0, _, -, h0⟩ := hfirst
  refine ⟨_, t, lss, exec_inecho hs hm ht, hrun, h0.wentOn.goesOn hs.2 hphase0, h.wentOn.goesOn hs.2 hphase, hlen,
    h.levels, ?_, fun i => ?_, fun x hx => ?_, h.wentOn.keeps, h.wentOn.id, h.wentOn.cur, h.fsm,
    h.wentOn.unanswered.fault, h.wentOn.sink⟩
  · rw [← eventsOf_echo]
    exact h.wentOn.unanswered.emitted
  · rw [State.dir_congr h.pins, State.out_congr h.pins]
    exact ran_echo_bus s i
  · rw [State.dir_congr h.pins, State.out_congr h.pins]
    exact ran_echo_touched s hx

end Sys2Proof.Machine
end

section
/-! `OUTTEST`: the reference patterns, the run on mapped lines, and the fault at a line that a configuration leaves
unmapped (45_diagnostics.md R231; 40_gpio.md R121). -/

namespace Sys2Proof.Machine

/-! ### The reference patterns (log 7) -/

theorem two_le_counts (o : OutKinds) : 2 ≤ o.counts := Nat.le_add_right ..

theorem two_le_switches (o : OutKinds) : 2 ≤ o.switches := Nat.le_add_right ..

/-- How many patterns alternate. -/
def alternations (o : OutKinds) : Nat := 32 - (o.counts + o.switches)

/-- Two patterns at least are left to alternate. -/
theorem two_le_alternations (o : OutKinds) : 2 ≤ alternations o := by
  have := o.counting.isLt
  unfold alternations OutKinds.counts OutKinds.switches
  omega

theorem outKinds_patterns_eq (o : OutKinds) : o.patterns.toList = (List.range o.counts).map o.pattern
    ++ (List.range o.switches).map (fun k => o.pattern (o.counts + k))
    ++ (List.range (alternations o)).map fun k => o.pattern (o.counts + o.switches + k) := by
  have hsum : 32 = o.counts + o.switches + alternations o := by
    have := two_le_alternations o
    unfold alternations at this ⊢
    omega
  rw [OutKinds.patterns_toList, hsum, List.range_add, List.range_add]
  simp only [List.map_append, List.map_map, Function.comp_def]

/-- A chain from one index to the next. -/
theorem isChain_map_range {α : Type} {R : α → α → Prop} {f : Nat → α} {n : Nat}
    (h : ∀ k, k + 1 < n → R (f k) (f (k + 1))) : ((List.range n).map f).IsChain R := by
  rw [List.isChain_iff_getElem]
  intro k hk
  simp only [List.length_map, List.length_range] at hk
  simpa using h k hk

/-- Two patterns that are each other's complement, in turn. -/
theorem isChain_alternating {f : Nat → BitVec 37} {b : Bool} {x y : BitVec 37} {n : Nat} (hx : x = ~~~y) (hy : y = ~~~x)
    (h : ∀ k < n, f k = if decide (k % 2 = 0) = b then x else y) :
    ((List.range n).map f).IsChain fun p q => q = ~~~p := by
  refine isChain_map_range fun k hk => ?_
  have hflip : decide ((k + 1) % 2 = 0) = b ↔ ¬decide (k % 2 = 0) = b := by
    cases b <;> simp only [decide_eq_true_eq, decide_eq_false_iff_not] <;> omega
  rw [h k (by omega), h (k + 1) hk]
  simp only [hflip, ite_not]
  split_ifs
  · exact hy
  · exact hx

/-- Any list of this form is of R231's three kinds (45_diagnostics.md R231). -/
theorem threeKinds_patterns (o : OutKinds) : ThreeKinds o.patterns := by
  have hswitch : ∀ k < o.switches, o.pattern (o.counts + k) =
      if decide (k % 2 = 0) = o.onFirst then 0x1FFFFFFFFF else 0 := fun k hk => by
    rw [OutKinds.pattern_switching (by omega) (by omega), Nat.add_sub_cancel_left]
  have halternate : ∀ k < alternations o, o.pattern (o.counts + o.switches + k) =
      if decide (k % 2 = 0) = o.oddFirst then 0x1555555555 else 0x0AAAAAAAAA := fun k _ => by
    rw [OutKinds.pattern_alternating (by omega), Nat.sub_sub, Nat.add_sub_cancel_left]
  refine ⟨_, _, _, outKinds_patterns_eq o, ?_, ?_, ?_, isChain_map_range fun k hk => ?_, fun p hp => ?_,
    isChain_alternating (by decide) (by decide) hswitch, fun p hp => ?_,
    isChain_alternating (by decide) (by decide) halternate⟩
  · simpa using two_le_counts o
  · simpa using two_le_switches o
  · simpa using two_le_alternations o
  · rw [OutKinds.pattern_counting hk, OutKinds.pattern_counting (Nat.lt_of_succ_lt hk), BitVec.ofNat_add,
      BitVec.add_assoc]
    rfl
  · obtain ⟨k, hk, rfl⟩ := List.mem_map.mp hp
    rw [hswitch k (List.mem_range.mp hk)]
    split_ifs
    · exact .inl rfl
    · exact .inr rfl
  · obtain ⟨k, hk, rfl⟩ := List.mem_map.mp hp
    rw [halternate k (List.mem_range.mp hk)]
    split_ifs
    · exact .inl rfl
    · exact .inr rfl

/-! ### The three parts of the run -/

/-- The drives of `OUTTEST`: its patterns, each held, then the levels it leaves, if any. -/
def outDriveOps (c : Config) : List PinOp :=
  (c.outPatterns.toList.flatMap fun p => driveLines c (outputLines c) p ++ [PinOp.delay (milliseconds c.tPattern)])
    ++ (match c.outLast with
      | some levels => driveLevels (outputLines c) levels
      | none => [])

/-- The lines it makes inputs at the end. -/
def outReleaseOps (c : Config) : List PinOp := (releasedLines c).map fun r => .setDir r .input

theorem outTestOps_eq (c : Config) :
    outTestOps c = outputOps (outputLines c) ++ outDriveOps c ++ outReleaseOps c := by
  rw [outDriveOps, ← List.append_assoc, List.append_assoc]
  rfl

theorem mem_outDriveOps {c : Config} {op : PinOp} (h : op ∈ outDriveOps c) :
    (∃ p, op ∈ driveLines c (outputLines c) p) ∨ op = .delay (milliseconds c.tPattern)
      ∨ ∃ levels, op ∈ driveLevels (outputLines c) levels := by
  rcases List.mem_append.mp h with h | h
  · obtain ⟨p, -, h⟩ := List.mem_flatMap.mp h
    rcases List.mem_append.mp h with h | h
    · exact .inl ⟨p, h⟩
    · exact .inr (.inl (List.mem_singleton.mp h))
  · split at h
    next levels _ => exact .inr (.inr ⟨levels, h⟩)
    next => cases h

theorem outDriveOps_keepsDirections {c : Config} : ∀ op ∈ outDriveOps c, op.keepsDirections = true := by
  intro op hop
  rcases mem_outDriveOps hop with ⟨_, h⟩ | rfl | ⟨_, h⟩
  · exact driveLines_keepsDirections op h
  · rfl
  · exact driveLevels_keepsDirections op h

theorem outDriveOps_role {c : Config} {op : PinOp} {r : Role} (hop : op ∈ outDriveOps c) (hr : op.role = some r) :
    r ∈ outputLines c := by
  rcases mem_outDriveOps hop with ⟨_, h⟩ | rfl | ⟨_, h⟩
  · exact driveLines_role h hr
  · cases hr
  · exact driveLevels_role h hr

theorem setDirs_role {lines : List Role} {d : Direction} {op : PinOp} {r : Role}
    (h : op ∈ lines.map fun r => PinOp.setDir r d) (hr : op.role = some r) : r ∈ lines := by
  obtain ⟨x, hx, rfl⟩ := List.mem_map.mp h
  cases hr
  exact hx

theorem outTestOps_role {c : Config} {op : PinOp} {r : Role} (h : op ∈ outTestOps c) (hr : op.role = some r) :
    r ∈ outputLines c := by
  rw [outTestOps_eq, List.mem_append, List.mem_append] at h
  rcases h with (h | h) | h
  · exact setDirs_role h hr
  · exact outDriveOps_role h hr
  · exact List.mem_of_mem_filter (setDirs_role h hr)

theorem outTestOps_ready {c : Config} {p : Pins} (h : ∀ r ∈ outputLines c, mapped c r = true) :
    AllReady c (outTestOps c) p := by
  rw [outTestOps_eq, allReady_append]
  exact ⟨outputOps_ready (outputLines_nodup c) h outDriveOps_keepsDirections fun _ hop _ hr => outDriveOps_role hop hr,
    allReady_setDirs fun r hr => h r (List.mem_of_mem_filter hr)⟩

theorem eventsOf_outTest (c : Config) : eventsOf (outTestOps c) = ((outputLines c).map fun r => Event.dir r .output)
    ++ (c.outPatterns.toList.flatMap fun p =>
      ((outputLines c).map fun r => Event.drv r (p.getLsbD c.outBit[r.slot].val))
        ++ [Event.dly (1000 * c.tPattern.toNat)])
    ++ (match c.outLast with
      | some levels => (outputLines c).map fun r => Event.drv r (levels.getLsbD r.slot.val)
      | none => [])
    ++ ((outputLines c).filter (namesLine c.outRelease)).map fun r => Event.dir r .input := by
  rw [outTestOps, eventsOf_append, eventsOf_append, eventsOf_outputOps, eventsOf_outEnd, eventsOf_flatMap,
    ← List.append_assoc]
  simp only [eventsOf_append, eventsOf_driveLines]
  rfl

/-! ### The lines at the end -/

/-- The level a line is left at: that of the last levels, or its bit of the last pattern (45_diagnostics.md R231). -/
def outLevel (c : Config) (r : Role) : Level :=
  match c.outLast with
  | some levels => levels.getLsbD r.slot.val
  | none => c.outPatterns[31].getLsbD c.outBit[r.slot].val

/-- Drives of distinct lines leave each line at its own level. -/
theorem lastLevel_drives {lines : List Role} {r : Role} (hr : r ∈ lines) (f : Role → Level) :
    lastLevel r (lines.map fun x => .drive x (f x)) = some (f r) :=
  lastLevel_map_of_mem hr (by simp [lastLevel]) fun y _ hy => by simpa [PinOp.role] using hy

theorem lastLevel_outDrive {c : Config} {r : Role} (hr : r ∈ outputLines c) :
    lastLevel r (outDriveOps c) = some (outLevel c r) := by
  rw [outDriveOps, lastLevel_append]
  unfold outLevel
  cases c.outLast with
  | some levels =>
    dsimp only
    rw [driveLevels, lastLevel_drives hr fun r => levels.getLsbD r.slot.val]
    rfl
  | none =>
    dsimp only
    rw [lastLevel_none (by simp), Option.none_or, outPatterns_last]
    refine lastLevel_flatMap_last _ _ ?_
    rw [lastLevel_append, driveLines, lastLevel_drives hr fun r => (c.outPatterns[31]).getLsbD c.outBit[r.slot].val]
    rfl

/-- Each line is an output at its level, and then an input if it is released. -/
theorem pinsAfter_outTest {c : Config} {r : Role} (hr : r ∈ outputLines c) (p : Pins) :
    (pinAt (pinsAfter (outTestOps c) p) r).dir = some (if namesLine c.outRelease r = true then .input else .output)
      ∧ (pinAt (pinsAfter (outTestOps c) p) r).out = some (outLevel c r) := by
  have hn := outputLines_nodup c
  have hdir : (pinAt (pinsAfter (outDriveOps c) (pinsAfter (outputOps (outputLines c)) p)) r).dir = some .output := by
    rw [pinsAfter_dir outDriveOps_keepsDirections, outputOps, pinsAfter_setDirs hn hr, pinAt_setDirPins_dir, if_pos rfl]
  have hout : (pinAt (pinsAfter (outDriveOps c) (pinsAfter (outputOps (outputLines c)) p)) r).out =
      some (outLevel c r) := by
    rw [pinsAfter_out outDriveOps_keepsDirections, lastLevel_outDrive hr, Option.some_or]
  rw [outTestOps_eq, pinsAfter_append, pinsAfter_append]
  by_cases hrel : namesLine c.outRelease r = true
  · rw [outReleaseOps, releasedLines, pinsAfter_setDirs (hn.filter _) (List.mem_filter.mpr ⟨hr, hrel⟩),
      pinAt_setDirPins_dir, pinAt_setDirPins_out, if_pos hrel, if_pos rfl, if_neg (by simp)]
    exact ⟨rfl, hout⟩
  · rw [pinsAfter_other (ops := outReleaseOps c) fun op hop h => hrel (List.mem_filter.mp (setDirs_role hop h)).2,
      if_neg hrel]
    exact ⟨hdir, hout⟩

theorem ran_outTest (s : State) {r : Role} (hr : r ∈ outputLines s.cfg) :
    (s.ran (outTestOps s.cfg)).dir r = some (if namesLine s.cfg.outRelease r = true then .input else .output)
      ∧ (s.ran (outTestOps s.cfg)).out r = some (outLevel s.cfg r) := by
  rw [State.dir, State.out, State.ran_pins]
  exact pinsAfter_outTest hr s.pins

/-! ### A line that is not mapped -/

/-- `OUTTEST` stops at the first line that is not mapped (40_gpio.md R121; log 10). -/
theorem exec_outtest_unmapped {s : State} {pre post : List Role} {r : Role} (hs : s.Undisturbed)
    (ho : outputLines s.cfg = pre ++ r :: post) (hpre : ∀ x ∈ pre, mapped s.cfg x = true)
    (hr : mapped s.cfg r = false) :
    ∃ t, exec .outtest s = .next t
      ∧ FaultedAfter s t .role (indexInfo (roleIndex r)) (pre.map fun x => .dir x .output) ∧ t.fsm = s.fsm := by
  have hsplit : outTestOps s.cfg = outputOps pre
      ++ PinOp.setDir r .output :: (outputOps post ++ outDriveOps s.cfg ++ outReleaseOps s.cfg) := by
    rw [outTestOps_eq, ho]
    simp [outputOps]
  have hstop : runWith outTestOps s = .error (.fault .role (indexInfo (roleIndex r))) (s.ran (outputOps pre)) := by
    rw [runWith, act_bind_ok (act_get s)]
    exact runOps_stops hsplit hs.2 (allReady_setDirs hpre) (op := .setDir r .output) (setDir_unmapped hr)
  obtain ⟨t, hexec, hfault, hfsm⟩ := exec_faultedAfter (i := .outtest) hs (act_bind_error hstop)
  rw [eventsOf_outputOps] at hfault
  exact ⟨t, hexec, hfault, hfsm.trans (fsmAfter_of_no_enter (no_enter_map (by simp)) _)⟩

/-- Only mode `DIRECT` does without the data and the clock line of the shifter (10_state.md R35 (b), (c)). -/
theorem direct_of_unmapped {c : Config} {r : Role} (hv : validConfig c = true) (hr : r = .asd ∨ r = .asc)
    (hm : mapped c r = false) : c.mode = .direct := by
  have hnot : r ∉ modeLines c := fun h => by simp [valid_lines hv r h] at hm
  unfold modeLines at hnot
  split at hnot
  · rcases hr with rfl | rfl <;> simp at hnot
  · rcases hr with rfl | rfl <;> simp at hnot
  next hd => exact hd
  next hi => exact absurd hi (valid_mode hv)

/-- The lines before those of the shifter, which every valid configuration maps. -/
def outFirstLines : List Role := dataLines.map .dl ++ [Role.oe, .we]

theorem valid_outFirstLines {c : Config} (hv : validConfig c = true) : ∀ r ∈ outFirstLines, mapped c r = true :=
  fun r hr => valid_required hv r (List.mem_append_left _ hr)

theorem outputLines_eq (c : Config) : ∃ post, outputLines c = outFirstLines ++ .asd :: .asc :: post :=
  ⟨_, by rw [outputLines, outFirstLines, List.append_assoc, List.append_assoc]; rfl⟩

/-- Settles O48: mapped lines make every step ready, and the first unmapped one stops the test. -/
theorem outtestDrivesThePatterns : Obligations.OuttestDrivesThePatterns := by
  refine ⟨threeKinds_patterns _, by decide, rfl, rfl, fun r => by cases r <;> rfl, fun s hs => ?_⟩
  obtain ⟨post, hlines⟩ := outputLines_eq s.cfg
  refine ⟨fun lines hl hm => ?_, fun hv ha => ⟨direct_of_unmapped hv (.inl rfl) ha, ?_⟩,
    fun hv ha hc => ⟨direct_of_unmapped hv (.inr rfl) hc, ?_⟩⟩
  · obtain rfl : lines = outputLines s.cfg := hl
    refine ⟨_, exec_finish (x := runWith outTestOps) rfl hs (runWith_ready hs.2 (outTestOps_ready hm)) hs.2,
      answered_respond rfl, congrArg (s.trace ++ ·) (eventsOf_outTest s.cfg), fun r hr => ?_,
      keeps_ran fun _ hop _ hr => outTestOps_role hop hr,
      (keepsRegisters_ran s (outTestOps_no_enter s.cfg)).respond _, (keepsSink_ran s _).respond _⟩
    rw [State.respond_dir, State.respond_out]
    exact ran_outTest s hr
  · exact exec_outtest_unmapped hs hlines (valid_outFirstLines hv) ha
  · rw [List.append_cons] at hlines
    refine exec_outtest_unmapped hs hlines (fun r hr => ?_) hc
    rcases List.mem_append.mp hr with hr | hr
    · exact valid_outFirstLines hv r hr
    · exact List.mem_singleton.mp hr ▸ ha

end Sys2Proof.Machine
end

section
/-! `IOTEST`: the output phase, a poll of its wait, and the blink phase (45_diagnostics.md R233). -/

namespace Sys2Proof.Machine

/-! ### The output phase -/

/-- The steps of `IOTEST` before its wait. -/
def ioStartOps (c : Config) : List PinOp := ioOutputOps c ++ busdirOps .input

theorem mapped_of_mem_ioRoles {c : Config} {x : IoLines} {r : Role} (h : r ∈ ioRoles c x) : mapped c r = true :=
  (mem_ioRoles.mp h).1

/-- The output phase once its lines are outputs: the patterns, each held. -/
def ioDriveOps (c : Config) : List PinOp :=
  c.ioPatterns.flatMap fun p => ioPatternOps c p.levels ++ [PinOp.delay p.hold]

theorem ioOutputOps_eq (c : Config) : ioOutputOps c = outputOps (ioOutputLines c) ++ ioDriveOps c := rfl

theorem mem_ioDriveOps {c : Config} {op : PinOp} (h : op ∈ ioDriveOps c) :
    (∃ levels, op ∈ driveLevels (ioOutputLines c) levels) ∨ ∃ us, op = .delay us := by
  obtain ⟨p, -, h⟩ := List.mem_flatMap.mp h
  rcases List.mem_append.mp h with h | h
  · exact .inl ⟨_, h⟩
  · exact .inr ⟨_, List.mem_singleton.mp h⟩

theorem ioDriveOps_keepsDirections {c : Config} : ∀ op ∈ ioDriveOps c, op.keepsDirections = true := by
  intro op hop
  rcases mem_ioDriveOps hop with ⟨_, h⟩ | ⟨_, rfl⟩
  · exact driveLevels_keepsDirections op h
  · rfl

theorem ioDriveOps_role {c : Config} {op : PinOp} {r : Role} (hop : op ∈ ioDriveOps c) (hr : op.role = some r) :
    r ∈ ioOutputLines c := by
  rcases mem_ioDriveOps hop with ⟨_, h⟩ | ⟨_, rfl⟩
  · exact driveLevels_role h hr
  · cases hr

theorem ioStartOps_role {c : Config} {op : PinOp} {r : Role} (h : op ∈ ioStartOps c) (hr : op.role = some r) :
    r ∈ dataRoles ++ ioRoles c c.ioOutputs := by
  rcases List.mem_append.mp h with h | h
  · refine List.mem_append_right _ ?_
    rcases List.mem_append.mp h with h | h
    · exact setDirs_role h hr
    · exact ioDriveOps_role h hr
  · exact List.mem_append_left _ (busdirOps_role_mem h hr)

theorem ioStartOps_ready {c : Config} {p : Pins} (hm : ∀ i, mapped c (.dl i) = true) :
    AllReady c (ioStartOps c) p := by
  rw [ioStartOps, allReady_append]
  exact ⟨outputOps_ready (ioRoles_nodup c _) (fun _ hr => mapped_of_mem_ioRoles hr) ioDriveOps_keepsDirections
    fun _ hop _ hr => ioDriveOps_role hop hr, busdirOps_ready _ hm⟩

theorem ioStartOps_no_enter (c : Config) : ∀ op ∈ ioStartOps c, ∀ f, op ≠ .enter f :=
  no_enter_append (ioOutputOps_no_enter c) (busdirOps_no_enter _)

theorem eventsOf_ioStart (c : Config) : eventsOf (ioStartOps c) =
    ((ioRoles c c.ioOutputs).map fun r => Event.dir r .output)
      ++ (c.ioPatterns.flatMap fun p =>
        ((ioRoles c c.ioOutputs).map fun r => Event.drv r (p.levels.getLsbD r.slot.val)) ++ [Event.dly p.hold])
      ++ busDirEvents .input := by
  rw [ioStartOps, eventsOf_append, eventsOf_busdir, ioOutputOps_eq, eventsOf_append, eventsOf_outputOps, ioDriveOps,
    eventsOf_flatMap]
  simp only [eventsOf_append, ioPatternOps, eventsOf_driveLevels]
  rfl

theorem wentOn_ioStart (s : State) : WentOn s (s.ran (ioStartOps s.cfg)) (dataRoles ++ ioRoles s.cfg s.cfg.ioOutputs)
    (eventsOf (ioStartOps s.cfg)) := wentOn_ran s fun _ hop _ hr => ioStartOps_role hop hr

theorem exec_iotest {s : State} (hs : s.Undisturbed) (hm : ∀ i, mapped s.cfg (.dl i) = true) :
    exec .iotest s = .next ((s.ran (ioStartOps s.cfg)).going (.ioTest [0x0, 0x5, 0xA] 0)) := by
  have hready := ioStartOps_ready (p := s.pins) hm
  rw [ioStartOps, allReady_append] at hready
  refine exec_going hs ?_
  rw [ioStartOps, State.ran_append, bodyOf, ioStart, act_bind_ok (runWith_ready hs.2 hready.1)]
  exact act_bind_ok (runOps_ready (s := s.ran (ioOutputOps s.cfg)) hs.2 hready.2)

/-! ### The blink phase -/

/-- The two blinks, once the lines are outputs. -/
def blinksOps (c : Config) : List PinOp := blinkOnce c 0 ++ blinkOnce c 1

theorem blinkOps_eq (c : Config) : blinkOps c = outputOps (blinkLines c) ++ blinksOps c := List.append_assoc ..

theorem mem_blinkOnce {c : Config} {k : Fin 2} {op : PinOp} (h : op ∈ blinkOnce c k) :
    (∃ r ∈ blinkLines c, ∃ l, op = .drive r l) ∨ ∃ us, op = .delay us := by
  simp only [blinkOnce, List.mem_append, List.mem_map, List.mem_singleton] at h
  rcases h with ((⟨r, hr, rfl⟩ | rfl) | ⟨r, hr, rfl⟩) | rfl
  · exact .inl ⟨r, hr, _, rfl⟩
  · exact .inr ⟨_, rfl⟩
  · exact .inl ⟨r, hr, _, rfl⟩
  · exact .inr ⟨_, rfl⟩

theorem mem_blinksOps {c : Config} {op : PinOp} (h : op ∈ blinksOps c) :
    (∃ r ∈ blinkLines c, ∃ l, op = .drive r l) ∨ ∃ us, op = .delay us :=
  (List.mem_append.mp h).elim mem_blinkOnce mem_blinkOnce

theorem blinksOps_keepsDirections {c : Config} : ∀ op ∈ blinksOps c, op.keepsDirections = true := by
  intro op hop
  rcases mem_blinksOps hop with ⟨_, -, _, rfl⟩ | ⟨_, rfl⟩ <;> rfl

theorem blinksOps_role {c : Config} {op : PinOp} {r : Role} (h : op ∈ blinksOps c) (hr : op.role = some r) :
    r ∈ blinkLines c := by
  rcases mem_blinksOps h with ⟨x, hx, _, rfl⟩ | ⟨_, rfl⟩
  · cases hr
    exact hx
  · cases hr

theorem blinkOps_role {c : Config} {op : PinOp} {r : Role} (h : op ∈ blinkOps c) (hr : op.role = some r) :
    r ∈ ioRoles c c.ioBlink := by
  rw [blinkOps_eq] at h
  rcases List.mem_append.mp h with h | h
  · exact setDirs_role h hr
  · exact blinksOps_role h hr

theorem blinkOps_ready {c : Config} {p : Pins} : AllReady c (blinkOps c) p := by
  rw [blinkOps_eq]
  exact outputOps_ready (ioRoles_nodup c _) (fun _ hr => mapped_of_mem_ioRoles hr) blinksOps_keepsDirections
    fun _ hop _ hr => blinksOps_role hop hr

theorem blinkOps_no_enter (c : Config) : ∀ op ∈ blinkOps c, ∀ f, op ≠ .enter f :=
  no_enter_append (no_enter_append (no_enter_map (by simp)) (blinkOnce_no_enter c 0)) (blinkOnce_no_enter c 1)

/-- The events of one blink of these lines (45_diagnostics.md R233). -/
def blinkEvents (c : Config) (k : Fin 2) : List Event :=
  ((ioRoles c c.ioBlink).map fun r => Event.drv r (c.ioOnLevels.getLsbD r.slot.val)) ++ [Event.dly c.ioOn[k]]
    ++ ((ioRoles c c.ioBlink).map fun r => Event.drv r (!c.ioOnLevels.getLsbD r.slot.val)) ++ [Event.dly c.ioOff[k]]

theorem eventsOf_blinkOnce (c : Config) (k : Fin 2) : eventsOf (blinkOnce c k) = blinkEvents c k := by
  simp only [blinkOnce, eventsOf_append]
  rw [eventsOf_map _ _ (fun r => Event.drv r (onLevel c r)) fun _ => rfl,
    eventsOf_map _ _ (fun r => Event.drv r (!onLevel c r)) fun _ => rfl]
  rfl

theorem eventsOf_blink (c : Config) : eventsOf (blinkOps c) =
    ((ioRoles c c.ioBlink).map fun r => Event.dir r .output) ++ blinkEvents c 0 ++ blinkEvents c 1 := by
  rw [blinkOps, eventsOf_append, eventsOf_append, eventsOf_outputOps, eventsOf_blinkOnce, eventsOf_blinkOnce,
    blinkLines]

/-- The blink phase turns the data lines as a whole, or leaves them alone (10_state.md R31). -/
theorem busDir_blink {c : Config} {p : Pins} (hm : ∀ i, mapped c (.dl i) = true)
    (hd : ∀ i, (pinAt p (.dl i)).dir = some .input) :
    busDir (pinsAfter (blinkOps c) p) = if c.ioBlink.bus then .output else .input := by
  split_ifs with hbus
  · refine busDir_output fun i => ?_
    have hmem : Role.dl i ∈ blinkLines c := mem_ioRoles.mpr ⟨hm i, hbus⟩
    rw [blinkOps_eq, pinsAfter_append, pinsAfter_dir blinksOps_keepsDirections, outputOps, blinkLines,
      pinsAfter_setDirs (ioRoles_nodup c _) hmem, pinAt_setDirPins_dir, if_pos rfl]
  · refine busDir_input fun i => ?_
    rw [pinsAfter_other fun op hop hr => hbus (mem_ioRoles.mp (blinkOps_role hop hr)).2]
    exact hd i

/-! ### A poll -/

theorem eventsOf_poll (c : Config) : eventsOf (pollOps c) = c.ioPoll.toList.map .dly := by
  rw [pollOps]
  cases c.ioPoll <;> rfl

theorem pollOps_role {c : Config} {op : PinOp} {r : Role} (h : op ∈ pollOps c) : op.role ≠ some r := by
  unfold pollOps at h
  split at h
  · rw [List.mem_singleton.mp h]
    simp [PinOp.role]
  · cases h

theorem pollOps_ready {c : Config} {p : Pins} : AllReady c (pollOps c) p := by
  unfold pollOps
  split
  · exact .cons trivial .nil
  · exact .nil

/-- After a bus read and these steps: what a poll leaves, however it goes on. -/
structure Polled (s t : State) (rs : List Role) (ops : List PinOp) : Prop where
  wentOn : WentOn s t rs (busSampleEvents s.busLevels ++ eventsOf ops)
  d : t.d = composeByte s.busLevels
  fsm : t.fsm = s.fsm

theorem BusRead.polled {s u : State} {rs : List Role} {ops : List PinOp} (h : BusRead s u)
    (hr : ∀ op ∈ ops, ∀ r, op.role = some r → r ∈ rs) (hf : ∀ op ∈ ops, ∀ f, op ≠ .enter f) :
    Polled s (u.ran ops) rs ops :=
  ⟨(h.wentOn.mono (List.nil_subset _)).trans (wentOn_ran u hr), h.d, (fsmAfter_of_no_enter hf u.fsm).trans h.fsm⟩

section
variable {s u : State} {e : BitVec 4} {await : List (BitVec 4)} {found : Nat} (h : BusRead s u)
include h

/-- Another poll for the same value. -/
theorem resume_ioAgain (hk : s.killIn = none)
    (ha : handshakeValue s.cfg (composeByte s.busLevels) ≠ e ∨ found < s.cfg.ioMatches) :
    resume (.ioTest (e :: await) found) s = (u.ran (pollOps s.cfg)).going
      (.ioTest (e :: await) (if handshakeValue s.cfg (composeByte s.busLevels) = e then found + 1 else 0)) := by
  have hpoll : runWith pollOps u = .ok () (u.ran (pollOps s.cfg)) :=
    h.cfg ▸ runWith_ready (h.wentOn.killIn.trans hk) pollOps_ready
  refine resume_going ?_
  rw [jobTurn, ioTurn, act_bind_ok h.runs, act_bind_ok (act_get u), h.cfg]
  by_cases hv : handshakeValue s.cfg (composeByte s.busLevels) = e
  · rw [if_pos hv, if_pos hv, if_pos (ha.resolve_left (not_not.mpr hv)), act_bind_ok hpoll, act_pure]
  · rw [if_neg hv, if_neg hv, act_bind_ok hpoll, act_pure]

variable (hv : handshakeValue s.cfg (composeByte s.busLevels) = e) (hf : ¬found < s.cfg.ioMatches)
include hv hf

/-- The value found for good, the next one awaited. -/
theorem resume_ioNext (hn : await ≠ []) :
    resume (.ioTest (e :: await) found) s = u.going (.ioTest await 0) := by
  refine resume_going ?_
  rw [jobTurn, ioTurn, act_bind_ok h.runs, act_bind_ok (act_get u), h.cfg, if_pos hv, if_neg hf, if_neg (by simpa),
    act_pure]

/-- The last value found for good: the blink phase and the response. -/
theorem resume_ioLast (hk : s.killIn = none) :
    resume (.ioTest [e] found) s = (u.ran (blinkOps s.cfg)).respond (.ok .empty) := by
  have hk' := h.wentOn.killIn.trans hk
  have hblink : runWith blinkOps u = .ok () (u.ran (blinkOps s.cfg)) := h.cfg ▸ runWith_ready hk' blinkOps_ready
  rw [resume, jobTurn, ioTurn, act_bind_ok h.runs, act_bind_ok (act_get u), h.cfg, if_pos hv, if_neg hf,
    if_pos (by rfl), blinkEnd, act_bind_ok hblink, act_pure, settle, if_neg (by simp [hk'])]

end

/-- Settles O50: the two open phases are ready on mapped lines, and each poll is a bus read with one of three ends. -/
theorem iotestHandshake : Obligations.IotestHandshake := by
  refine ⟨fun s hs hm => ?_, fun c x r => ?_, handshakeValue_bit, fun s e await found hp hk hw hm hd => ?_⟩
  · have h := (wentOn_ioStart s).going (.ioTest [0x0, 0x5, 0xA] 0)
    rw [eventsOf_ioStart] at h
    refine ⟨_, exec_iotest hs hm, h.goesOn hs.2 rfl, h.unanswered.emitted, ?_, h.keeps,
      keepsRegisters_ran s (ioStartOps_no_enter s.cfg), h.sink⟩
    rw [State.going_pins, ioStartOps, State.ran_append]
    exact busDir_ran_busdir _ .input
  · cases r <;> exact mem_ioRoles
  · obtain ⟨u, hu⟩ := exists_busRead hk hm hd
    have hstep := step_running hp hw
    by_cases hagain : handshakeValue s.cfg (composeByte s.busLevels) ≠ e ∨ found < s.cfg.ioMatches
    · obtain ⟨hwent, hbyte, hfsm⟩ := hu.polled (rs := []) (fun _ hop _ hr => absurd hr (pollOps_role hop))
        (pollOps_no_enter s.cfg)
      rw [resume_ioAgain hu hk hagain] at hstep
      refine ⟨_, s.busLevels, hstep, rfl, hbyte, hwent.id, hwent.cur, hfsm, hwent.unanswered.fault, hwent.sink, ?_⟩
      rw [eventsOf_poll] at hwent
      rw [if_pos hagain]
      exact ⟨(hwent.going _).goesOn hk rfl, hwent.keeps, hwent.unanswered.emitted⟩
    · obtain ⟨hv, hf⟩ : handshakeValue s.cfg (composeByte s.busLevels) = e ∧ ¬found < s.cfg.ioMatches := by
        simpa using hagain
      by_cases hmore : await ≠ []
      · rw [resume_ioNext hu hv hf hmore] at hstep
        refine ⟨_, s.busLevels, hstep, rfl, hu.d, hu.wentOn.id, hu.wentOn.cur, hu.fsm, hu.wentOn.unanswered.fault,
          hu.wentOn.sink, ?_⟩
        rw [if_neg hagain, if_pos hmore]
        exact ⟨(hu.wentOn.going _).goesOn hk rfl, hu.wentOn.keeps, hu.wentOn.unanswered.emitted⟩
      · obtain rfl : await = [] := not_not.mp hmore
        obtain ⟨hwent, hbyte, hfsm⟩ := hu.polled (fun _ hop _ hr => blinkOps_role hop hr) (blinkOps_no_enter s.cfg)
        rw [resume_ioLast hu hv hf hk] at hstep
        refine ⟨_, s.busLevels, hstep, rfl, hbyte, hwent.id, hwent.cur, hfsm, hwent.unanswered.fault, hwent.sink, ?_⟩
        rw [eventsOf_blink, ← List.append_assoc, ← List.append_assoc] at hwent
        rw [if_neg hagain, if_neg hmore]
        refine ⟨answered_respond hwent.unanswered.responses, hwent.keeps, ?_, _, blinkEvents s.cfg, rfl, fun _ => rfl,
          hwent.unanswered.emitted⟩
        rw [State.respond_pins, State.ran_pins, hu.pins]
        exact busDir_blink hm hd

end Sys2Proof.Machine
end

section
/-! `ADDRTEST`: one check, the checks in order up to the first mismatch, and the address loopback, which has none
(45_diagnostics.md R235 to R237; 20_memory.md R78). -/

namespace Sys2Proof.Machine

/-! ### The addresses checked -/

theorem lt_pow_of_ofNat {a : Addr} {m n : Nat} (ha : a = BitVec.ofNat 24 m) (hm : m < 2 ^ n) : a.toNat < 2 ^ n := by
  rw [ha, BitVec.toNat_ofNat]
  exact (Nat.mod_le ..).trans_lt hm

/-- Every checked address is in range: the patterns are cut to `N` bits, and the bit walks below bit `N`. -/
theorem checkedAddresses_inRange {c : Config} {a : Addr} (h : a ∈ checkedAddresses c) :
    a.toNat < 2 ^ c.addrBits.toNat := by
  have hcut (m : Nat) : m % 2 ^ c.addrBits.toNat < 2 ^ c.addrBits.toNat := Nat.mod_lt _ (Nat.two_pow_pos _)
  simp only [checkedAddresses, List.mem_append, List.mem_map, List.mem_range] at h
  rcases h with (⟨p, -, h⟩ | ⟨i, hi, h⟩) | ⟨x, -, h⟩
  · exact lt_pow_of_ofNat h.symm (hcut _)
  · exact lt_pow_of_ofNat h.symm (Nat.pow_lt_pow_right (by omega) hi)
  · exact lt_pow_of_ofNat h.symm (hcut _)

/-! ### One check -/

/-- The pins and the sequencer between two checks, as the idle setup leaves them (43_sequencer.md R183). -/
structure State.Checking (s : State) : Prop where
  cycling : s.Cycling
  high : s.ControlsHigh
  bus : ∀ i, s.dir (.dl i) = some .input
  fsm : s.fsm = .idle

theorem State.Checking.idleSetup {s : State} (hv : validConfig s.cfg = true) (hk : s.killIn = none) :
    (s.ran (idleSetupOps s.cfg)).Checking :=
  ⟨.idleSetup hv hk, (ran_idleSetup_setUp (valid_required hv)).2, fun i => (ran_idleSetup_bus s i).1,
    by rw [State.ran_fsm, fsmAfter_idleSetup]⟩

/-- The steps of a check before its bus read (45_diagnostics.md R235). -/
def checkOps (c : Config) (a : Addr) : List PinOp := setaddrOps c a ++ [PinOp.delay (tSettle c)]

theorem checkOps_keepsDirections (c : Config) (a : Addr) : ∀ op ∈ checkOps c a, op.keepsDirections = true := by
  intro op hop
  rcases List.mem_append.mp hop with hop | hop
  · exact setaddrOps_keepsDirections c a op hop
  · rw [List.mem_singleton.mp hop]
    rfl

theorem checkOps_role {c : Config} {a : Addr} {op : PinOp} {r : Role} (h : op ∈ checkOps c a) (hr : op.role = some r) :
    r ∈ modeLines c := by
  rcases List.mem_append.mp h with h | h
  · exact setaddrOps_role h hr
  · rw [List.mem_singleton.mp h] at hr
    cases hr

theorem checkOps_no_enter (c : Config) (a : Addr) : ∀ op ∈ checkOps c a, ∀ f, op ≠ .enter f :=
  no_enter_append (setaddrOps_no_enter c a) (no_enter_delay _)

theorem eventsOf_check (c : Config) (a : Addr) : eventsOf (checkOps c a) =
    addressEvents c a ++ [Event.dly c.tSettle.toNat] := by
  rw [checkOps, eventsOf_append, eventsOf_setaddr]
  rfl

/-- The levels sampled by a check of `a`. -/
def State.checkLevels (s : State) (a : Addr) : List Level := (s.ran (checkOps s.cfg a)).busLevels

/-- The byte a check of `a` reads. -/
def State.checkByte (s : State) (a : Addr) : Byte := composeByte (s.checkLevels a)

theorem State.checkLevels_length (s : State) (a : Addr) : (s.checkLevels a).length = 8 := State.busLevels_length _

/-- The roles that the idle setup and the checks act on. -/
def testRoles (c : Config) : List Role := dataRoles ++ [Role.we, .oe] ++ modeLines c

theorem modeLines_subset_testRoles (c : Config) : modeLines c ⊆ testRoles c := List.subset_append_right ..

/-- After the address, the settle delay and the bus read of a check, before the two bytes are compared. -/
structure CheckRead (s : State) (a : Addr) (u : State) : Prop where
  runs : checkAddress a s = (if s.checkByte a = lowByte a then pure ()
    else do
      printValue (.mismatch (lowByte a) (s.checkByte a))
      raise .verify (verifyInfo (lowByte a) (s.checkByte a)) : Act Unit) u
  checking : u.Checking
  wentOn : WentOn s u (testRoles s.cfg)
    (addressEvents s.cfg a ++ [Event.dly s.cfg.tSettle.toNat] ++ busSampleEvents (s.checkLevels a))

/-- Steps on the mode's address-control lines that set no direction keep the pins set up. -/
theorem State.Checking.check {s : State} (h : s.Checking) (a : Addr) : (s.ran (checkOps s.cfg a)).Checking := by
  have hdir := s.ran_dir (checkOps_keepsDirections s.cfg a)
  have hother {r : Role} (hr : r ∉ modeLines s.cfg) : (s.ran (checkOps s.cfg a)).out r = s.out r :=
    (s.ran_other fun _ hop e => hr (checkOps_role hop e)).2
  exact ⟨⟨h.cycling.valid, h.cycling.killIn, h.cycling.setUp.of_keeps rfl fun r _ => hdir r⟩,
    ⟨(hother (we_notin_modeLines _)).trans h.high.1, (hother (oe_notin_modeLines _)).trans h.high.2⟩,
    fun i => (hdir _).trans (h.bus i), (fsmAfter_of_no_enter (checkOps_no_enter s.cfg a) s.fsm).trans h.fsm⟩

theorem State.Checking.busRead {s u : State} (h : s.Checking) (hu : BusRead s u) : u.Checking :=
  ⟨⟨hu.cfg ▸ h.cycling.valid, hu.wentOn.killIn.trans h.cycling.killIn,
      h.cycling.setUp.of_keeps hu.cfg fun r _ => State.dir_congr hu.pins r⟩,
    h.high.congr hu.pins, fun i => (State.dir_congr hu.pins _).trans (h.bus i), hu.fsm.trans h.fsm⟩

theorem exists_checkRead {s : State} {a : Addr} (h : s.Checking) (ha : a.toNat < 2 ^ s.cfg.addrBits.toNat) :
    ∃ u, CheckRead s a u := by
  have hv := h.cycling.valid
  have hk := h.cycling.killIn
  have haddr : setAddress a s = .ok () (s.ran (setaddrOps s.cfg a)) :=
    setAddress_ready hk (outOfRange_false ha) (valid_mode hv) h.cycling.setUp.lines
  have hdelay : runWith (fun c => [.delay (tSettle c)]) (s.ran (setaddrOps s.cfg a)) =
      .ok () (s.ran (checkOps s.cfg a)) :=
    runWith_ran hk (.cons trivial .nil)
  have hc := h.check a
  obtain ⟨u, hu⟩ := exists_busRead (s := s.ran (checkOps s.cfg a)) hk (valid_data hv) hc.bus
  refine ⟨u, ?_, hc.busRead hu, ?_⟩
  · rw [checkAddress, act_bind_ok haddr, act_bind_ok hdelay, act_bind_ok hu.runs]
    rfl
  · rw [← eventsOf_check]
    exact (wentOn_ran s fun _ hop _ hr => modeLines_subset_testRoles _ (checkOps_role hop hr)).trans
      (hu.wentOn.mono (List.nil_subset _))

/-! ### The checks in order -/

/-- After checks with these events. -/
structure Checked (s t : State) (es : List Event) : Prop where
  checking : t.Checking
  wentOn : WentOn s t (testRoles s.cfg) es

theorem Checked.cfg {s t : State} {es : List Event} (h : Checked s t es) : t.cfg = s.cfg := h.wentOn.cfg

theorem Checked.trans {s t u : State} {es fs : List Event} (h : Checked s t es) (k : Checked t u fs) :
    Checked s u (es ++ fs) :=
  ⟨k.checking, h.wentOn.trans (h.cfg ▸ k.wentOn)⟩

/-- The events of a check that fails with these levels (45_diagnostics.md R237). -/
def mismatchEvents (c : Config) (a : Addr) (ls : List Level) : List Event :=
  addressEvents c a ++ [Event.dly c.tSettle.toNat] ++ busSampleEvents ls
    ++ [Event.print (.mismatch (lowByte a) (composeByte ls))]

/-- A check whose byte is the address's low byte passes. -/
theorem check_passes {s : State} {a : Addr} (h : s.Checking) (ha : a.toNat < 2 ^ s.cfg.addrBits.toNat)
    (hb : s.checkByte a = lowByte a) :
    ∃ t, checkAddress a s = .ok () t ∧ Checked s t (checkEvents s.cfg a) := by
  obtain ⟨u, hruns, hchecking, hwent⟩ := exists_checkRead h ha
  have hlevels : s.checkLevels a = byteLevels (lowByte a) :=
    (byteLevels_composeByte (s.checkLevels_length a)).symm.trans (congrArg byteLevels hb)
  rw [if_pos hb] at hruns
  rw [hlevels] at hwent
  exact ⟨u, hruns, hchecking, hwent⟩

/-- A check whose byte differs prints both bytes and faults. -/
theorem check_fails {s : State} {a : Addr} (h : s.Checking) (ha : a.toNat < 2 ^ s.cfg.addrBits.toNat)
    (hb : s.checkByte a ≠ lowByte a) :
    ∃ t, checkAddress a s = .error (.fault .verify (verifyInfo (lowByte a) (s.checkByte a))) t
      ∧ Checked s t (mismatchEvents s.cfg a (s.checkLevels a)) := by
  obtain ⟨u, hruns, hchecking, hwent⟩ := exists_checkRead h ha
  have hk := hchecking.cycling.killIn
  rw [if_neg hb, act_bind_ok (printValue_ok hk _), act_raise] at hruns
  have hprint := (wentOn_printed u (.mismatch (lowByte a) (s.checkByte a))).mono (List.nil_subset (testRoles s.cfg))
  exact ⟨_, hruns, ⟨⟨hchecking.cycling.valid, hk, hchecking.cycling.setUp⟩, hchecking.high, hchecking.bus,
    hchecking.fsm⟩, hwent.trans hprint⟩

/-- The checks all pass, or they stop at the first that fails (45_diagnostics.md R237). -/
theorem checkAll_cases {l : List Addr} {s : State} (h : s.Checking) (hl : ∀ a ∈ l, a.toNat < 2 ^ s.cfg.addrBits.toNat) :
    (∃ t, checkAll l s = .ok () t ∧ Checked s t (l.flatMap (checkEvents s.cfg)))
      ∨ ∃ passed a others b t, l = passed ++ a :: others ∧ Checked s b (passed.flatMap (checkEvents s.cfg))
        ∧ b.checkByte a ≠ lowByte a
        ∧ checkAll l s = .error (.fault .verify (verifyInfo (lowByte a) (b.checkByte a))) t
        ∧ Checked b t (mismatchEvents s.cfg a (b.checkLevels a)) := by
  induction l generalizing s with
  | nil => exact .inl ⟨s, rfl, h, wentOn_nil s _⟩
  | cons a l ih =>
    have ha := hl a List.mem_cons_self
    by_cases hb : s.checkByte a = lowByte a
    · obtain ⟨u, hcheck, hu⟩ := check_passes h ha hb
      have hnext := act_bind_ok (f := fun _ => checkAll l) hcheck
      rcases ih hu.checking fun x hx => hu.cfg ▸ hl x (List.mem_cons_of_mem _ hx) with
        ⟨t, hrun, ht⟩ | ⟨passed, x, others, b, t, rfl, hpassed, hx, hrun, ht⟩
      · rw [hu.cfg] at ht
        exact .inl ⟨t, hnext.trans hrun, hu.trans ht⟩
      · rw [hu.cfg] at hpassed ht
        exact .inr ⟨a :: passed, x, others, b, t, rfl, hu.trans hpassed, hx, hnext.trans hrun, ht⟩
    · obtain ⟨t, hcheck, ht⟩ := check_fails h ha hb
      exact .inr ⟨[], a, l, s, t, rfl, ⟨h, wentOn_nil s _⟩, hb, act_bind_error hcheck, ht⟩

/-! ### The command -/

theorem checked_idleSetup {s : State} (hv : validConfig s.cfg = true) (hk : s.killIn = none) :
    Checked s (s.ran (idleSetupOps s.cfg)) (idleEvents s.cfg) := by
  refine ⟨.idleSetup hv hk, ?_⟩
  rw [← eventsOf_idleSetup]
  exact wentOn_ran s fun _ hop _ hr => idleSetupOps_role hop hr

/-- In a shifter mode the test is the idle setup, then the checks. -/
theorem addressTest_eq {s : State} (hv : validConfig s.cfg = true) (hk : s.killIn = none) (hm : s.cfg.mode ≠ .direct) :
    addressTest s = checkAll (checkedAddresses s.cfg) (s.ran (idleSetupOps s.cfg)) := by
  rw [addressTest, act_bind_ok (act_get s), if_neg hm, act_bind_ok (idleSetup_ready hk (valid_required hv)),
    testAddresses_eq]

/-- In a shifter mode the test passes, or it stops at the first check that fails. -/
theorem addressTest_cases {s : State} (hv : validConfig s.cfg = true) (hk : s.killIn = none)
    (hm : s.cfg.mode ≠ .direct) :
    (∃ t, addressTest s = .ok () t
        ∧ Checked s t (idleEvents s.cfg ++ (checkedAddresses s.cfg).flatMap (checkEvents s.cfg)))
      ∨ ∃ passed a others b t, checkedAddresses s.cfg = passed ++ a :: others
        ∧ Checked s b (idleEvents s.cfg ++ passed.flatMap (checkEvents s.cfg)) ∧ b.checkByte a ≠ lowByte a
        ∧ addressTest s = .error (.fault .verify (verifyInfo (lowByte a) (b.checkByte a))) t
        ∧ Checked b t (mismatchEvents s.cfg a (b.checkLevels a)) := by
  have hidle := checked_idleSetup hv hk
  rw [addressTest_eq hv hk hm]
  rcases checkAll_cases hidle.checking fun a ha => checkedAddresses_inRange ha with
    ⟨t, hrun, ht⟩ | ⟨passed, a, others, b, t, hl, hpassed, ha, hrun, ht⟩
  · exact .inl ⟨t, hrun, hidle.trans ht⟩
  · exact .inr ⟨passed, a, others, b, t, hl, hidle.trans hpassed, ha, hrun, ht⟩

theorem exec_addrtest_passes {s t : State} {es : List Event} (hs : s.Undisturbed) (h : addressTest s = .ok () t)
    (ht : Checked s t es) : exec .addrtest s = .next (t.respond (.ok .empty)) :=
  exec_finish (x := addressTest) rfl hs h ht.checking.cycling.killIn

/-- The expected byte in bits 15:8, the byte read in bits 7:0, zero above them (45_diagnostics.md R237). -/
theorem verifyInfo_fields (expected got : Byte) : (verifyInfo expected got).extractLsb' 8 8 = expected
    ∧ (verifyInfo expected got).extractLsb' 0 8 = got ∧ (verifyInfo expected got).extractLsb' 16 8 = 0 := by
  have hhigh (n : Nat) : (verifyInfo expected got).extractLsb' (8 + n) 8 =
      ((0 : Byte) ++ expected).extractLsb' n 8 := by
    rw [verifyInfo, BitVec.extractLsb'_append_eq_of_le (Nat.le_add_right ..), Nat.add_sub_cancel_left]
  refine ⟨(hhigh 0).trans BitVec.extractLsb'_append_eq_right, BitVec.extractLsb'_append_eq_right, (hhigh 8).trans ?_⟩
  rw [BitVec.extractLsb'_append_eq_of_le (Nat.le_refl 8)]
  rfl

/-- Settles O53: either way ends a run of checks, and the fault's information is its two bytes side by side. -/
theorem addrtestStopsAtTheFirstMismatch : Obligations.AddrtestStopsAtTheFirstMismatch := by
  refine fun s hs hv => ⟨fun hm => ?_, fun hm => ?_⟩
  · have hmode : addressTest s = .error (.fault .mode 0x64) s := by
      rw [addressTest, act_bind_ok (act_get s), if_pos hm, act_raise]
    exact exec_faultedAtOnce hs (act_bind_error hmode)
  · have hlen := checkedAddresses_length s.cfg
    rcases addressTest_cases hv hs.2 hm with
      ⟨t, hrun, ht⟩ | ⟨passed, a, others, b, t, hl, hpassed, ha, hrun, ht⟩
    · exact ⟨_, exec_addrtest_passes hs hrun ht, hlen,
        .inl ⟨answered_respond ht.wentOn.unanswered.responses, ht.wentOn.unanswered.emitted⟩⟩
    · obtain ⟨hexpected, hgot, hhigh⟩ := verifyInfo_fields (lowByte a) (b.checkByte a)
      obtain ⟨hev, -, hresponses⟩ := hpassed.wentOn.unanswered.trans ht.wentOn.unanswered
      refine ⟨_, exec_fault (i := .addrtest) hs (act_bind_error hrun) ht.checking.cycling.killIn, hlen,
        .inr ⟨passed, a, others, b.checkLevels a, hl, b.checkLevels_length a, ha, hexpected, hgot, hhigh,
          ⟨rfl, rfl, rfl⟩, answered_takeFault hresponses, ?_, busDir_input ht.checking.bus, ht.checking.high⟩⟩
      simp only [mismatchEvents, ← List.append_assoc] at hev
      exact hev

/-! ### The address loopback (20_memory.md R78) -/

theorem loopback_addressLevels {e : Env} {a : Addr} (hw : e.wiring = .addressLoopback) (hx : e.xaddr = some a)
    (p : Pins) (is : List (Fin 8)) : Env.levels p is e = is.map fun i => a.getLsbD i.val := by
  induction is with
  | nil => rfl
  | cons i is ih =>
    have hp : e.pinIn p (.dl i) = (a.getLsbD i.val, e) := by
      unfold Env.pinIn
      simp only [hw, hx]
    rw [Env.levels, hp, ih, List.map_cons]

theorem byteLevels_lowByte (a : Addr) : byteLevels (lowByte a) = dataLines.map fun i => a.getLsbD i.val :=
  List.map_congr_left fun i _ => by simp [lowByte]

/-- In the address loopback every check reads the low byte of its address. -/
theorem checkByte_loopback {s : State} (hw : s.env.wiring = .addressLoopback) (a : Addr) :
    s.checkByte a = lowByte a := by
  have hwired : s.env.wired = true := by simp [Env.wired, hw]
  have hx : (s.ran (checkOps s.cfg a)).env.xaddr = some a := by
    rw [State.ran_env, checkOps, envAfter_append]
    exact (envAfter_setaddr_xaddr ..).trans (if_pos hwired)
  have hw' : (s.ran (checkOps s.cfg a)).env.wiring = .addressLoopback := by
    rw [State.ran_env, (envAfter_same ..).wiring, hw]
  rw [State.checkByte, State.checkLevels, State.busLevels, loopback_addressLevels hw' hx, ← byteLevels_lowByte,
    composeByte_byteLevels]

/-- Settles O52: no check fails, since each reads its address back. -/
theorem addrtestPassesInTheLoopback : Obligations.AddrtestPassesInTheLoopback := by
  intro s hs hv hm hw
  rcases addressTest_cases hv hs.2 hm with ⟨t, hrun, ht⟩ | ⟨_, a, _, b, _, _, hb, ha, _⟩
  · obtain ⟨hkeeps, hun, hsink, -, hid, hcur⟩ := ht.wentOn
    obtain ⟨hcyc, hhigh, hbus, hfsm⟩ := ht.checking
    exact ⟨_, exec_addrtest_passes hs hrun ht, answered_respond hun.responses, hun.emitted,
      checkedAddresses_length s.cfg, rfl, rfl, hcyc.setUp.respond _, hhigh.respond _, busDir_input hbus, hfsm,
      hkeeps.respond _, hid, hcur, hun.fault.respond _, hsink.respond _⟩
  · obtain ⟨-, -, hwiring, -⟩ := hb.wentOn.keeps
    exact absurd (checkByte_loopback (hwiring.trans hw) a) ha

end Sys2Proof.Machine
end

section
/-! Words that are not taken, steps without a command, and taking a fault (60_exceptions.md R270, R271, R273, R274,
R287). -/

namespace Sys2Proof.Machine

/-! ### Words that are not taken -/

/-- A faulted block refuses every command (60_exceptions.md R273 (e), R274). -/
theorem exec_faulted {s : State} (hp : s.phase = .idle) (hf : s.fault = true) (i : Instr) :
    exec i s = .refused .faulted := by
  simp [exec_eq, runCommand, hp, hf]

/-- A killed block is stuck at every command (60_exceptions.md R271). -/
theorem exec_stopped {s : State} (hp : s.phase = .stopped) (i : Instr) : exec i s = .fault .notRunning := by
  simp [exec_eq, runCommand, hp]

/-- A faulted block refuses a word before it would be decoded (60_exceptions.md R273 (e), R274). -/
theorem takeWord_faulted {s : State} (hp : s.phase ≠ .stopped) (hf : s.fault = true) (w : CmdWord) :
    takeWord w s = .refused .faulted := by
  rw [takeWord, if_neg hp, if_pos hf]

/-- A killed block is stuck at every word, faulted or not (60_exceptions.md R271). -/
theorem takeWord_stopped {s : State} (hp : s.phase = .stopped) (w : CmdWord) :
    takeWord w s = .fault .notRunning := if_pos hp

/-- A block that runs nothing takes the word that is the host's next move. -/
theorem step_command {s : State} {w : CmdWord} {k : Option Nat} {rest : List HostMove}
    (hp : ∀ j, s.phase ≠ .running j) (hh : s.host = .command w k :: rest) :
    step s = takeWord w (s.handOver k rest) := by
  rw [step_notRunning hp, hh]

/-- Settles O7: the word is handed over with phase and fault record as they are, and both are asked before decoding. -/
theorem wordsNotTaken : Obligations.WordsNotTaken := by
  refine ⟨fun s w k rest hp hf hh => ⟨?_, exec_faulted hp hf⟩, fun s w k rest hp hh => ⟨?_, exec_stopped hp⟩⟩
  · rw [step_command (fun j => by simp [hp]) hh]
    exact takeWord_faulted (s := s.handOver k rest) (by simp [hp]) hf w
  · rw [step_command (fun j => by simp [hp]) hh]
    exact takeWord_stopped (s := s.handOver k rest) hp w

/-! ### Steps without a command -/

/-- A kill that is the host's next move lands at once, whether a command runs or not (60_exceptions.md R271, R278). -/
theorem step_kill {s : State} {rest : List HostMove} (hh : s.host = .kill :: rest) :
    step s = .next ({ s with host := rest } : State).kill := by
  by_cases hr : ∃ j, s.phase = .running j
  · obtain ⟨j, hj⟩ := hr
    simp only [step, nextStep, whileRunning, hj, hh]
  · rw [step_notRunning (not_exists.mp hr), hh]

/-- Settles O8: a block that runs nothing does what the host's next move says, and a kill sets the phase only. -/
theorem nothingMovesByItself : Obligations.NothingMovesByItself :=
  ⟨fun _ hp hh => by rw [step_notRunning hp, hh], fun _ _ hh => step_kill hh⟩

/-! ### Taking a fault -/

/-- A fault raised with no kill due is taken (60_exceptions.md R273). -/
theorem runCommand_fault {s u : State} {body : Act Progress} {c : Cause} {info : BitVec 24} (hs : s.Accepting)
    (h : body s = .error (.fault c info) u) (hk : u.killIn ≠ some 0) :
    runCommand s body = .next (u.takeFault c info) := by
  obtain ⟨hp, hf⟩ := hs
  simp [runCommand, hp, hf, h, settle, hk]

/-- Settles O12: `takeFault` writes the record and the response only, and leaves the block faulted. -/
theorem takingAFault : Obligations.TakingAFault := by
  intro s u body c info hs h hk
  exact ⟨u.takeFault c info, runCommand_fault hs h hk, ⟨rfl, rfl, rfl⟩, answered_takeFault rfl, rfl, rfl, rfl, rfl, rfl,
    rfl, rfl, rfl, rfl, ⟨rfl, rfl⟩, exec_faulted rfl rfl⟩

/-! ### The exit status -/

theorem exitStatus_fault_pos (c : Cause) (info : BitVec 24) : 1 ≤ exitStatus (.fault c info) := by
  cases c with
  | sink | init | verify => exact Nat.le_refl 1
  | _ => exact Nat.le_add_right 1 _

/-- Settles O60: the codes the rule does not name are one or more, whatever the free excess is. -/
theorem exitStatus_spec : Obligations.ExitStatus := by
  refine ⟨fun _ => rfl, fun c info hc => ?_, fun c info => Nat.one_le_iff_ne_zero.mp (exitStatus_fault_pos c info)⟩
  rcases hc with rfl | rfl | rfl <;> rfl

end Sys2Proof.Machine
end

section
/-! A kill in a command or in a later turn of one: where it cuts the trace, and where it finds the sequencer
(60_exceptions.md R271; 43_sequencer.md R181, R182). -/

namespace Sys2Proof.Machine

/-! ### Where the trace is cut -/

/-- A kill that is due before the response stops the block there, whatever the pseudocode would have answered
(60_exceptions.md R271). -/
theorem settle_due_zero {x : EStateM.Result Stop State Progress} (hj : ∀ j, (settle x).phase ≠ .running j) :
    settle (dueResult (some 0) x) = (reached (dueResult (some 0) x)).kill := by
  match x with
  | .ok (.done p) t => rfl
  | .ok (.more j) t => exact absurd rfl (hj j)
  | .error (.fault c i) t => rfl
  | .error .killed t => rfl

@[simp] theorem reached_dueResult_trace {α : Type} (k : Option Nat) (r : EStateM.Result Stop State α) :
    (reached (dueResult k r)).trace = (reached r).trace := by
  cases r <;> rfl

/-- Pseudocode that emits `es` without a kill, run with one after `n` of them: it is killed with the first `n` in its
trace. A kill after the last of them asks that the pseudocode ends, since a turn that goes on gives no response. -/
theorem Cuts.settle_due {x : Act Progress} (hx : Cuts x) {s : State} (hs : s.killIn = none) {es : List Event} {n : Nat}
    (he : Emitted s (settle (x s)) es) (hn : n ≤ es.length)
    (hend : n = es.length → ∀ j, (settle (x s)).phase ≠ .running j) :
    settle (x (s.due (some n))) = (reached (x (s.due (some n)))).kill
      ∧ Emitted s (reached (x (s.due (some n)))) (es.take n) := by
  obtain ⟨fs, ht, -, hcut⟩ := hx s hs
  obtain rfl : es = fs := List.append_cancel_left (he.symm.trans ((settle_trace _).trans ht))
  obtain ⟨hpass, hstop⟩ := hcut n
  rcases hn.lt_or_eq with hlt | heq
  · obtain ⟨u, hu, htu⟩ := hstop hlt
    rw [hu]
    exact ⟨rfl, htu⟩
  · rw [hpass heq.ge, heq, Nat.sub_self, List.take_length]
    exact ⟨settle_due_zero (hend heq), (reached_dueResult_trace _ _).trans ht⟩

/-- What a kill after `n` of the events `es` leaves, in a command or in a turn: the first `n` events, the latches they
set, no response, and the fault record as it was (60_exceptions.md R271). -/
def KilledAfter (s u : State) (es : List Event) (n : Nat) : Prop :=
  u.phase = .stopped ∧ u.responses = s.responses ∧ Emitted s u (es.take n) ∧ u.pins = latchesAfter s.pins (es.take n)
    ∧ KeepsFault s u

/-- Whatever stops pseudocode by the kill, its changes are a command's: the latches follow the trace, and neither the
responses nor the fault record are among them. -/
theorem Changes.killedAfter {s t : State} {k : Option Nat} {es : List Event} {n : Nat} (h : Changes (s.due k) t)
    (he : Emitted s t (es.take n)) : KilledAfter s t.kill es n := by
  obtain ⟨fs, ht, hp⟩ := h.latches
  obtain rfl : es.take n = fs := List.append_cancel_left (he.symm.trans ht)
  have frame := h.frame
  exact ⟨rfl, frame.responses, he, hp, frame.fault, frame.fcode, frame.finfo⟩

/-- Pseudocode that a kill cuts and that only makes a command's changes is settled with just that left. -/
theorem Cuts.killedAfter {x : Act Progress} (hx : Cuts x) (hc : ∀ s, Changes s (reached (x s))) {s : State}
    (hs : s.killIn = none) {es : List Event} {n : Nat} (he : Emitted s (settle (x s)) es) (hn : n ≤ es.length)
    (hend : n = es.length → ∀ j, (settle (x s)).phase ≠ .running j) :
    KilledAfter s (settle (x (s.due (some n)))) es n := by
  obtain ⟨hkill, htake⟩ := hx.settle_due hs he hn hend
  rw [hkill]
  exact (hc _).killedAfter htake

/-! ### Where the sequencer is found -/

/-- Whether all `n` events are out may be asked before or after which stage the next one is in. -/
theorem ite_stages {α : Type} {k a b n : Nat} (ha : a ≤ n) (hb : b ≤ n) (before settling active idle : α) :
    (if k < n then if k < a then before else if k < b then settling else active else idle)
      = if k < a then before else if k < b then settling else if k < n then active else idle := by
  by_cases hn : k < n
  · simp only [if_pos hn]
  · rw [if_neg hn, if_neg (by omega), if_neg (by omega), if_neg hn]

/-- A cycle run as a command: a kill finds the sequencer in the cycle's stage, or idle after its last event
(43_sequencer.md R181, R182). -/
theorem Stage.exec_killed {α : Type} {x : Act α} {p : α → Payload} {i : Instr} {s t : State} {v : α} {n k : Nat}
    {f : Nat → Fsm} (h : Stage x s n v t f) (hb : bodyOf i = x >>= fun v => pure (.done (p v))) (hs : s.Undisturbed)
    (ht : t.fsm = .idle) (hk : k ≤ n) :
    ∃ u, exec i { s with killIn := some k } = .next u ∧ u.phase = .stopped
      ∧ u.fsm = if k < n then f k else .idle := by
  have hbody : Stage (bodyOf i) s n (.done (p v)) t f := hb ▸ (h.bind (y := fun v => pure (Progress.done (p v)))
    (stage_pure fun _ => .idle)).congr rfl fun _ hlt => if_pos hlt
  obtain ⟨hphase, hfsm⟩ := hbody.killed hk
  exact ⟨_, exec_accepting (s := s.due (some k)) i hs.1, hphase, ht ▸ hfsm⟩

/-- Settles O9: a kill cuts the events of every command and turn, and the stages of a cycle say where it finds `FSM`. -/
theorem killCutsTheTrace : Obligations.KillCutsTheTrace := by
  refine ⟨fun i s t es n hs hexec he hn hend => ?_, fun j s u es n hs he hn hend hu => ?_,
    fun s a n settled hs hv hsetUp ha hsettled hn => ?_⟩
  · obtain ⟨-, rfl⟩ := accepting_of_exec hexec
    exact ⟨_, exec_accepting (s := s.due (some n)) i hs.1,
      (cuts_bodyOf i).killedAfter (changes_bodyOf i) hs.2 he hn hend⟩
  · rw [hu]
    exact (cuts_jobTurn j).killedAfter (changes_jobTurn j) hs he hn hend
  · have hr := outOfRange_false ha
    subst hsettled
    refine ⟨?_, fun v => ?_⟩
    · obtain ⟨v, t, ht, hread⟩ := stage_readCycle hv hs.2 hsetUp hr
      obtain ⟨u, hu, hphase, hfsm⟩ := hread.exec_killed (i := .rdcyc a) rfl hs ht hn
      exact ⟨u, hu, hphase, hfsm.trans (ite_stages (by omega) (by omega) ..)⟩
    · obtain ⟨t, ht, hwrite⟩ := stage_writeCycle v hv hs.2 hsetUp hr
      obtain ⟨u, hu, hphase, hfsm⟩ := hwrite.exec_killed (i := .wrcyc a v) rfl hs ht hn
      exact ⟨u, hu, hphase, hfsm.trans (ite_stages (by omega) (by omega) ..)⟩

end Sys2Proof.Machine
end

section
/-! A reset that fails, and the cycles' bus safety (70_reset_and_hazards.md R293, R298; 10_state.md R35; 20_memory.md
R76). -/

namespace Sys2Proof.Machine

/-! ### Records that reset refuses -/

theorem mapped_eq_false_iff {c : Config} {r : Role} : mapped c r = false ↔ pinOf c r = none := by
  simp [mapped]

/-- The mode's lines that a record leaves out (10_state.md R35 (b)). -/
theorem modeLine_missing_iff (c : Config) :
    (∃ r ∈ modeLines c, pinOf c r = none) ↔
      (c.mode = .s2w ∧ (pinOf c .asd = none ∨ pinOf c .asc = none))
        ∨ (c.mode = .s3w ∧ (pinOf c .asd = none ∨ pinOf c .asc = none ∨ pinOf c .ass = none))
        ∨ (c.mode = .direct ∧ ∃ i : Fin 24, i.val < c.addrBits.toNat ∧ pinOf c (.dal i) = none) := by
  cases hm : c.mode with
  | s2w => simp [modeLines, hm]
  | s3w => simp [modeLines, hm]
  | direct =>
    simp only [modeLines, hm, mem_usedDirectLines, addrBits, reduceCtorEq, false_and, false_or, true_and]
    exact ⟨fun ⟨_, ⟨i, hr, hi⟩, hn⟩ => ⟨i, hi, hr ▸ hn⟩, fun ⟨i, hi, hn⟩ => ⟨_, ⟨i, rfl, hi⟩, hn⟩⟩
  | illegal => simp [modeLines, hm]

/-- The roles a record leaves out though it must map them (10_state.md R35 (a), (b)). -/
theorem requiredRole_missing_iff (c : Config) :
    (∃ r ∈ requiredRoles c, pinOf c r = none) ↔
      (∃ i, pinOf c (.dl i) = none) ∨ pinOf c .oe = none ∨ pinOf c .we = none
        ∨ ∃ r ∈ modeLines c, pinOf c r = none := by
  simp [requiredRoles, or_and_right, exists_or, dataLines_mem]

/-- Two roles on one pin (10_state.md R35 (d)). -/
theorem injective_eq_false_iff (c : Config) :
    injective c = false ↔ ∃ r r' n, r ≠ r' ∧ pinOf c r = some n ∧ pinOf c r' = some n := by
  rw [← Bool.not_eq_true, injective_iff]
  push Not
  exact ⟨fun ⟨r, r', n, h, h', hne⟩ => ⟨r, r', n, hne, h, h'⟩, fun ⟨r, r', n, hne, h, h'⟩ => ⟨r, r', n, h, h', hne⟩⟩

/-- The records that reset refuses, by the check each fails (70_reset_and_hazards.md R293). -/
theorem validConfig_eq_false_iff (c : Config) :
    validConfig c = false ↔
      c.mode = .illegal ∨ c.addrBits.toNat = 0 ∨ 24 < c.addrBits.toNat ∨ 2 ^ c.addrBits.toNat ≤ c.maxAddr.toNat
        ∨ (∃ r ∈ requiredRoles c, pinOf c r = none) ∨ injective c = false := by
  rw [← Bool.not_eq_true, validConfig_iff]
  simp only [not_and_or, not_forall, exists_prop, Bool.not_eq_true, mapped_eq_false_iff, not_not, not_le, not_lt,
    Nat.lt_one_iff, addrBits]

/-- A reset that fails says `F_INIT`, and the block takes no command after it (70_reset_and_hazards.md R293). -/
theorem resetWith_refuses {s : State} {c : Config} {g : Bool} (h : (s.resetWith c g).fault = true) :
    Faulted (s.resetWith c g) .init 0 ∧ ∀ i, exec i (s.resetWith c g) = .refused .faulted :=
  ⟨⟨h, by rw [resetWith_fcode, if_pos h], rfl⟩, exec_faulted rfl h⟩

/-- Settles O11: the step is `resetWith`, and `validConfig` fails by one of R293's checks. -/
theorem resetCanFail : Obligations.ResetCanFail := by
  intro s c gpio rest hp hh
  refine ⟨({ s with host := rest } : State).resetWith c gpio, by rw [step_notRunning hp, hh], rfl, ?_, resetWith_refuses⟩
  rw [resetWith_fault, Bool.not_eq_true', Bool.and_eq_false_iff, validConfig_eq_false_iff, requiredRole_missing_iff,
    modeLine_missing_iff, injective_eq_false_iff]
  simp only [or_assoc]

/-! ### Bus safety of the cycles -/

/-- Without contention, OE# driven low finds the bus an input (20_memory.md R76, 70_reset_and_hazards.md R298). -/
theorem BusSafe.input_of_oe_low {s : State} (h : BusSafe s) (hd : s.dir .oe = some .output)
    (ho : s.out .oe = some false) : busDir s.pins = .input := by
  obtain ⟨-, hc⟩ := h
  have hlow : drives s.pins .oe false = true := drives_of hd ho
  by_contra hb
  simp [contending, hlow, hb] at hc

/-- The pseudocode of each command made of the block's own cycles stays bus-safe (70_reset_and_hazards.md R298). -/
theorem calm_bodyOf_cycles {i : Instr}
    (hi : i = .idlesetup ∨ (∃ a, i = .rdcyc a) ∨ (∃ a v, i = .wrcyc a v) ∨ i = .idquery ∨ i = .dump) :
    Calm (fun _ => True) (fun _ => True) (bodyOf i) := by
  obtain rfl | ⟨a, rfl⟩ | ⟨a, v, rfl⟩ | rfl | rfl := hi
  · exact calm_bind calm_idleSetup fun _ => calm_pure _
  · exact calm_bind (calm_readCycle a) fun _ => calm_pure _
  · exact calm_bind (calm_writeCycle a v) fun _ => calm_pure _
  · exact calm_identityQuery
  · exact calm_dumpStart

/-- Settles O57: bus safety does not look at the kill's count, and calm pseudocode is bus-safe wherever it stops. -/
theorem cyclesNeverContend : Obligations.CyclesNeverContend := by
  refine ⟨fun i s t k hs hi hexec => ?_, fun s k hs => settle_safe (s := { s with killIn := k }) calm_dumpTurn hs⟩
  have ht : BusSafe t := by
    rw [(accepting_of_exec hexec).2]
    exact settle_safe (s := { s with killIn := k }) (calm_bodyOf_cycles hi) hs
  exact ⟨ht, ht.input_of_oe_low⟩

end Sys2Proof.Machine
end
